-- ==== Sys2Proof/Word.lean ====
section
/-! DEFINITION. The words of the machine and the three operand widths (spec 00_scope.md R10, R17). -/

namespace Sys2Proof

/-- One byte of memory or of the instruction stream. -/
abbrev Byte := BitVec 8

/-- A 32-bit register, address or immediate. -/
abbrev Word := BitVec 32

/-- The operand widths `w` of 1, 2 and 4 bytes (R10, R17). -/
inductive Width where
  | byte
  | word
  | dword
deriving DecidableEq, Repr

/-- The width in bytes. -/
abbrev Width.bytes : Width → Nat
  | .byte => 1
  | .word => 2
  | .dword => 4

/-- The width in bits, `N = 8·w` (R10). -/
abbrev Width.bits : Width → Nat
  | .byte => 8
  | .word => 16
  | .dword => 32

end Sys2Proof
end

