-- ==== Sys2Proof/Config.lean ====
section
/-! DEFINITION. What the spec leaves to the implementation, the host or the caller (00_scope.md R9):
the free values, which have no body, and the values `State.reset` names for open parameters. -/

namespace Sys2Proof

/-- The host's answer to a read transaction (49_syscall.md R499). -/
inductive ReadAnswer where
  | data (bytes : List Byte)
  | ioError
deriving DecidableEq, Repr, Inhabited

/-- The host's answer to a write transaction (49_syscall.md R499). -/
inductive WriteAnswer where
  | ok
  | ioError
deriving DecidableEq, Repr, Inhabited

/-- `draw()` of 00_scope.md R15: the bit of draw number `n`. FREE VALUE (log entry 4): nothing is
known of it, so what is proved holds for every choice of undefined flags (40_alu_flags.md R208, R212). -/
opaque Config.freeBit : Nat → Bool

/-- The host's answer to a read of `count` bytes from descriptor `fd` as transaction number `n`, where no
answer is listed in `State.readAnswers`. FREE VALUE (log entry 5; 49_syscall.md R499). -/
opaque Config.hostRead : (n fd count : Nat) → ReadAnswer

/-- The host's answer to a write of `bytes` to descriptor `fd` as transaction number `n`, where no answer is
listed in `State.writeAnswers`. FREE VALUE (log entry 5; 49_syscall.md R499). -/
opaque Config.hostWrite : (n fd : Nat) → (bytes : List Byte) → WriteAnswer

/-- MEM_SIZE of `State.reset`. DESIGN CHOICE (log entry 3), the size of the spec's own examples
("Memory=128, ESP initialized to 128", R572). The model takes every size: it is a field of the memory. -/
def Config.resetMemSize : Nat := 128

/-- LOAD_OFFSET of `State.reset`: the default of R9 and R575. -/
def Config.resetLoadOffset : Word := 0

/-- The value of EAX, ECX, EDX, EBX, EBP, ESI and EDI at `State.reset`. DESIGN CHOICE (log entry 1): the spec
gives none (10_state.md R38). -/
def Config.resetGpr : Word := 0

/-- The value of each of the nine flags at `State.reset`. DESIGN CHOICE (log entry 2): the spec gives none
(10_state.md R49). -/
def Config.resetFlag : Bool := false

end Sys2Proof
end

