-- ==== Sys2Proof/Syntax.lean ====
section
/-! DEFINITION. The instruction set as syntax: one constructor of `Instr` per row of spec/opcode_table.json,
in the table's order. An instruction keeps everything its bytes say: the list of its prefix bytes and the exact
ModR/M, SIB and displacement form, so that it has exactly one encoding. -/

namespace Sys2Proof

/-- A 3-bit register field (10_state.md R31, R32). The names are those of the 32-bit view; at width 2 they name
AX..DI, and at width 1 the eight indexes name AL, CL, DL, BL, AH, CH, DH, BH in this order. -/
inductive Reg where
  | eax | ecx | edx | ebx | esp | ebp | esi | edi
deriving DecidableEq, Repr

/-- The 3-bit number of a register. -/
def Reg.bits : Reg → BitVec 3
  | .eax => 0 | .ecx => 1 | .edx => 2 | .ebx => 3 | .esp => 4 | .ebp => 5 | .esi => 6 | .edi => 7

/-- The register of a 3-bit number. -/
def Reg.ofBits (b : BitVec 3) : Reg :=
  match b.toNat with
  | 0 => .eax | 1 => .ecx | 2 => .edx | 3 => .ebx | 4 => .esp | 5 => .ebp | 6 => .esi | _ => .edi

/-- The segment named by an override byte (30_encoding.md R127); it has no effect. -/
inductive Seg where
  | es | cs | ss | ds | fs | gs
deriving DecidableEq, Repr

/-- One prefix byte (30_encoding.md R124). -/
inductive Prefix where
  | opsize | addrsize | repne | rep | seg (s : Seg)
deriving DecidableEq, Repr

/-- The prefix bytes of an instruction, in the order they stand. -/
abbrev Prefixes := List Prefix

/-- `opsize ∈ P` (R125). -/
def Prefixes.hasOpsize (p : Prefixes) : Bool := p.contains .opsize

/-- `addrsize ∈ P` (R126). -/
def Prefixes.hasAddrsize (p : Prefixes) : Bool := p.contains .addrsize

/-- `rep ∈ P`: either of F2 and F3 (R129, R130). -/
def Prefixes.hasRep (p : Prefixes) : Bool := p.contains .rep || p.contains .repne

/-- The operand size `osz` (R125). -/
def Prefixes.osz (p : Prefixes) : Width := if p.hasOpsize then .word else .dword

/-- The displacement of a ModR/M form: none (mod 00), `d8` (mod 01) or `d32` (mod 10) (R138). -/
inductive Disp where
  | none
  | d8 (v : Byte)
  | d32 (v : Word)
deriving DecidableEq, Repr

/-- A memory form of ModR/M and SIB (R138, R139). -/
inductive Addr where
  /-- mod 00, rm 5: `[d32]`. -/
  | direct (d : Word)
  /-- rm other than 4: `[base + disp]`. -/
  | base (b : Reg) (d : Disp)
  /-- rm 4, a SIB byte with a base register; index `esp` means no index. -/
  | sib (scale : BitVec 2) (index b : Reg) (d : Disp)
  /-- rm 4, mod 00, SIB base 5: `[index·scale + d32]`. -/
  | sibNoBase (scale : BitVec 2) (index : Reg) (d : Word)
deriving DecidableEq, Repr

/-- The r/m side of ModR/M: a register (mod 11) or memory (R137, R138). -/
inductive RM where
  | reg (r : Reg)
  | mem (a : Addr)
deriving DecidableEq, Repr

/-- The instructions, one constructor per row of spec/opcode_table.json. Every one begins with its prefix bytes;
`rm` is the r/m side, `r` the register field, `imm`, `rel` and `a` what follows. The table's row and the rule of
each stand in its comment. -/
inductive Instr where
  | addEbGb (p : Prefixes) (rm : RM) (r : Reg) -- 00: add r/m8, r8 (R300)
  | addEvGv (p : Prefixes) (rm : RM) (r : Reg) -- 01: add r/m16/32, r16/32 (R300)
  | addGbEb (p : Prefixes) (rm : RM) (r : Reg) -- 02: add r8, r/m8 (R300)
  | addGvEv (p : Prefixes) (rm : RM) (r : Reg) -- 03: add r16/32, r/m16/32 (R300)
  | addAlIb (p : Prefixes) (imm : Byte) -- 04: add AL, imm8 (R300)
  | addEaxIz (p : Prefixes) (imm : Word) -- 05: add eAX, imm16/32 (R300)
  | orEbGb (p : Prefixes) (rm : RM) (r : Reg) -- 08: or r/m8, r8 (R352)
  | orEvGv (p : Prefixes) (rm : RM) (r : Reg) -- 09: or r/m16/32, r16/32 (R352)
  | orGbEb (p : Prefixes) (rm : RM) (r : Reg) -- 0A: or r8, r/m8 (R352)
  | orGvEv (p : Prefixes) (rm : RM) (r : Reg) -- 0B: or r16/32, r/m16/32 (R352)
  | orAlIb (p : Prefixes) (imm : Byte) -- 0C: or AL, imm8 (R352)
  | orEaxIz (p : Prefixes) (imm : Word) -- 0D: or eAX, imm16/32 (R352)
  | adcEbGb (p : Prefixes) (rm : RM) (r : Reg) -- 10: adc r/m8, r8 (R302)
  | adcEvGv (p : Prefixes) (rm : RM) (r : Reg) -- 11: adc r/m16/32, r16/32 (R302)
  | adcGbEb (p : Prefixes) (rm : RM) (r : Reg) -- 12: adc r8, r/m8 (R302)
  | adcGvEv (p : Prefixes) (rm : RM) (r : Reg) -- 13: adc r16/32, r/m16/32 (R302)
  | adcAlIb (p : Prefixes) (imm : Byte) -- 14: adc AL, imm8 (R302)
  | adcEaxIz (p : Prefixes) (imm : Word) -- 15: adc eAX, imm16/32 (R302)
  | sbbEbGb (p : Prefixes) (rm : RM) (r : Reg) -- 18: sbb r/m8, r8 (R306)
  | sbbEvGv (p : Prefixes) (rm : RM) (r : Reg) -- 19: sbb r/m16/32, r16/32 (R306)
  | sbbGbEb (p : Prefixes) (rm : RM) (r : Reg) -- 1A: sbb r8, r/m8 (R306)
  | sbbGvEv (p : Prefixes) (rm : RM) (r : Reg) -- 1B: sbb r16/32, r/m16/32 (R306)
  | sbbAlIb (p : Prefixes) (imm : Byte) -- 1C: sbb AL, imm8 (R306)
  | sbbEaxIz (p : Prefixes) (imm : Word) -- 1D: sbb eAX, imm16/32 (R306)
  | andEbGb (p : Prefixes) (rm : RM) (r : Reg) -- 20: and r/m8, r8 (R350)
  | andEvGv (p : Prefixes) (rm : RM) (r : Reg) -- 21: and r/m16/32, r16/32 (R350)
  | andGbEb (p : Prefixes) (rm : RM) (r : Reg) -- 22: and r8, r/m8 (R350)
  | andGvEv (p : Prefixes) (rm : RM) (r : Reg) -- 23: and r16/32, r/m16/32 (R350)
  | andAlIb (p : Prefixes) (imm : Byte) -- 24: and AL, imm8 (R350)
  | andEaxIz (p : Prefixes) (imm : Word) -- 25: and eAX, imm16/32 (R350)
  | subEbGb (p : Prefixes) (rm : RM) (r : Reg) -- 28: sub r/m8, r8 (R304)
  | subEvGv (p : Prefixes) (rm : RM) (r : Reg) -- 29: sub r/m16/32, r16/32 (R304)
  | subGbEb (p : Prefixes) (rm : RM) (r : Reg) -- 2A: sub r8, r/m8 (R304)
  | subGvEv (p : Prefixes) (rm : RM) (r : Reg) -- 2B: sub r16/32, r/m16/32 (R304)
  | subAlIb (p : Prefixes) (imm : Byte) -- 2C: sub AL, imm8 (R304)
  | subEaxIz (p : Prefixes) (imm : Word) -- 2D: sub eAX, imm16/32 (R304)
  | xorEbGb (p : Prefixes) (rm : RM) (r : Reg) -- 30: xor r/m8, r8 (R354)
  | xorEvGv (p : Prefixes) (rm : RM) (r : Reg) -- 31: xor r/m16/32, r16/32 (R354)
  | xorGbEb (p : Prefixes) (rm : RM) (r : Reg) -- 32: xor r8, r/m8 (R354)
  | xorGvEv (p : Prefixes) (rm : RM) (r : Reg) -- 33: xor r16/32, r/m16/32 (R354)
  | xorAlIb (p : Prefixes) (imm : Byte) -- 34: xor AL, imm8 (R354)
  | xorEaxIz (p : Prefixes) (imm : Word) -- 35: xor eAX, imm16/32 (R354)
  | cmpEbGb (p : Prefixes) (rm : RM) (r : Reg) -- 38: cmp r/m8, r8 (R308)
  | cmpEvGv (p : Prefixes) (rm : RM) (r : Reg) -- 39: cmp r/m16/32, r16/32 (R308)
  | cmpGbEb (p : Prefixes) (rm : RM) (r : Reg) -- 3A: cmp r8, r/m8 (R308)
  | cmpGvEv (p : Prefixes) (rm : RM) (r : Reg) -- 3B: cmp r16/32, r/m16/32 (R308)
  | cmpAlIb (p : Prefixes) (imm : Byte) -- 3C: cmp AL, imm8 (R308)
  | cmpEaxIz (p : Prefixes) (imm : Word) -- 3D: cmp eAX, imm16/32 (R308)
  | addEbIb (p : Prefixes) (rm : RM) (imm : Byte) -- 80 /0: add r/m8, imm8 (R300)
  | addEvIz (p : Prefixes) (rm : RM) (imm : Word) -- 81 /0: add r/m16/32, imm16/32 (R300)
  | addEvIb (p : Prefixes) (rm : RM) (imm : Byte) -- 83 /0: add r/m16/32, sign-extended imm8 (R300)
  | orEbIb (p : Prefixes) (rm : RM) (imm : Byte) -- 80 /1: or r/m8, imm8 (R352)
  | orEvIz (p : Prefixes) (rm : RM) (imm : Word) -- 81 /1: or r/m16/32, imm16/32 (R352)
  | orEvIb (p : Prefixes) (rm : RM) (imm : Byte) -- 83 /1: or r/m16/32, sign-extended imm8 (R352)
  | adcEbIb (p : Prefixes) (rm : RM) (imm : Byte) -- 80 /2: adc r/m8, imm8 (R302)
  | adcEvIz (p : Prefixes) (rm : RM) (imm : Word) -- 81 /2: adc r/m16/32, imm16/32 (R302)
  | adcEvIb (p : Prefixes) (rm : RM) (imm : Byte) -- 83 /2: adc r/m16/32, sign-extended imm8 (R302)
  | sbbEbIb (p : Prefixes) (rm : RM) (imm : Byte) -- 80 /3: sbb r/m8, imm8 (R306)
  | sbbEvIz (p : Prefixes) (rm : RM) (imm : Word) -- 81 /3: sbb r/m16/32, imm16/32 (R306)
  | sbbEvIb (p : Prefixes) (rm : RM) (imm : Byte) -- 83 /3: sbb r/m16/32, sign-extended imm8 (R306)
  | andEbIb (p : Prefixes) (rm : RM) (imm : Byte) -- 80 /4: and r/m8, imm8 (R350)
  | andEvIz (p : Prefixes) (rm : RM) (imm : Word) -- 81 /4: and r/m16/32, imm16/32 (R350)
  | andEvIb (p : Prefixes) (rm : RM) (imm : Byte) -- 83 /4: and r/m16/32, sign-extended imm8 (R350)
  | subEbIb (p : Prefixes) (rm : RM) (imm : Byte) -- 80 /5: sub r/m8, imm8 (R304)
  | subEvIz (p : Prefixes) (rm : RM) (imm : Word) -- 81 /5: sub r/m16/32, imm16/32 (R304)
  | subEvIb (p : Prefixes) (rm : RM) (imm : Byte) -- 83 /5: sub r/m16/32, sign-extended imm8 (R304)
  | xorEbIb (p : Prefixes) (rm : RM) (imm : Byte) -- 80 /6: xor r/m8, imm8 (R354)
  | xorEvIz (p : Prefixes) (rm : RM) (imm : Word) -- 81 /6: xor r/m16/32, imm16/32 (R354)
  | xorEvIb (p : Prefixes) (rm : RM) (imm : Byte) -- 83 /6: xor r/m16/32, sign-extended imm8 (R354)
  | cmpEbIb (p : Prefixes) (rm : RM) (imm : Byte) -- 80 /7: cmp r/m8, imm8 (R308)
  | cmpEvIz (p : Prefixes) (rm : RM) (imm : Word) -- 81 /7: cmp r/m16/32, imm16/32 (R308)
  | cmpEvIb (p : Prefixes) (rm : RM) (imm : Byte) -- 83 /7: cmp r/m16/32, sign-extended imm8 (R308)
  | incR (p : Prefixes) (r : Reg) -- 40+r: inc r16/32 (R310)
  | decR (p : Prefixes) (r : Reg) -- 48+r: dec r16/32 (R312)
  | pushR (p : Prefixes) (r : Reg) -- 50+r: push r16/32 (R430)
  | popR (p : Prefixes) (r : Reg) -- 58+r: pop r16/32 (R435)
  | movsxdGvEv (p : Prefixes) (rm : RM) (r : Reg) -- 63: movsxd r16/32, r/m16/32 (a copy) (R264)
  | pushIz (p : Prefixes) (imm : Word) -- 68: push imm16/32 (R432)
  | imulGvEvIz (p : Prefixes) (rm : RM) (r : Reg) (imm : Word) -- 69: imul r16/32, r/m16/32, imm16/32 (R325)
  | pushIb (p : Prefixes) (imm : Byte) -- 6A: push sign-extended imm8 (R431)
  | imulGvEvIb (p : Prefixes) (rm : RM) (r : Reg) (imm : Byte) -- 6B: imul r16/32, r/m16/32, sign-extended imm8 (R325)
  | joRel8 (p : Prefixes) (rel : Byte) -- 70: jo rel8 (R405)
  | jnoRel8 (p : Prefixes) (rel : Byte) -- 71: jno rel8 (R405)
  | jbRel8 (p : Prefixes) (rel : Byte) -- 72: jb rel8 (R405)
  | jaeRel8 (p : Prefixes) (rel : Byte) -- 73: jae rel8 (R405)
  | jeRel8 (p : Prefixes) (rel : Byte) -- 74: je rel8 (R405)
  | jneRel8 (p : Prefixes) (rel : Byte) -- 75: jne rel8 (R405)
  | jbeRel8 (p : Prefixes) (rel : Byte) -- 76: jbe rel8 (R405)
  | jaRel8 (p : Prefixes) (rel : Byte) -- 77: ja rel8 (R405)
  | jsRel8 (p : Prefixes) (rel : Byte) -- 78: js rel8 (R405)
  | jnsRel8 (p : Prefixes) (rel : Byte) -- 79: jns rel8 (R405)
  | jpRel8 (p : Prefixes) (rel : Byte) -- 7A: jp rel8 (R405)
  | jnpRel8 (p : Prefixes) (rel : Byte) -- 7B: jnp rel8 (R405)
  | jlRel8 (p : Prefixes) (rel : Byte) -- 7C: jl rel8 (R405)
  | jgeRel8 (p : Prefixes) (rel : Byte) -- 7D: jge rel8 (R405)
  | jleRel8 (p : Prefixes) (rel : Byte) -- 7E: jle rel8 (R405)
  | jgRel8 (p : Prefixes) (rel : Byte) -- 7F: jg rel8 (R405)
  | testEbGb (p : Prefixes) (rm : RM) (r : Reg) -- 84: test r/m8, r8 (R358)
  | testEvGv (p : Prefixes) (rm : RM) (r : Reg) -- 85: test r/m16/32, r16/32 (R358)
  | xchgEbGb (p : Prefixes) (rm : RM) (r : Reg) -- 86: xchg r/m8, r8 (R270)
  | xchgEvGv (p : Prefixes) (rm : RM) (r : Reg) -- 87: xchg r/m16/32, r16/32 (R270)
  | movEbGb (p : Prefixes) (rm : RM) (r : Reg) -- 88: mov r/m8, r8 (R251)
  | movEvGv (p : Prefixes) (rm : RM) (r : Reg) -- 89: mov r/m16/32, r16/32 (R251)
  | movGbEb (p : Prefixes) (rm : RM) (r : Reg) -- 8A: mov r8, r/m8 (R252)
  | movGvEv (p : Prefixes) (rm : RM) (r : Reg) -- 8B: mov r16/32, r/m16/32 (R252)
  | leaGvM (p : Prefixes) (r : Reg) (a : Addr) -- 8D: lea r16/32, m (R275)
  | popEv (p : Prefixes) (rm : RM) -- 8F /0: pop r/m16/32 (R436)
  | nop (p : Prefixes) -- 90: nop (R479)
  | xchgEaxR (p : Prefixes) (r : Reg) -- 90+r: xchg eAX, r16/32 (R271)
  | cwde (p : Prefixes) -- 98: cwde (R335)
  | cbw (p : Prefixes) -- 66 98: cbw (R335)
  | cdq (p : Prefixes) -- 99: cdq (R337)
  | cwd (p : Prefixes) -- 66 99: cwd (R337)
  | movAlOb (p : Prefixes) (a : Word) -- A0: mov AL, [moffs32] (R253)
  | movEaxOv (p : Prefixes) (a : Word) -- A1: mov eAX, [moffs32] (R253)
  | movObAl (p : Prefixes) (a : Word) -- A2: mov [moffs32], AL (R253)
  | movOvEax (p : Prefixes) (a : Word) -- A3: mov [moffs32], eAX (R253)
  | movsb (p : Prefixes) -- A4: movsb (R452)
  | movsd (p : Prefixes) -- A5: movsd (R454)
  | movsw (p : Prefixes) -- 66 A5: movsw (R454)
  | repMovsb (p : Prefixes) -- F3 A4: rep movsb (R453)
  | repMovsd (p : Prefixes) -- F3 A5: rep movsd (R453)
  | repMovsw (p : Prefixes) -- 66 F3 A5: rep movsw (R453)
  | testAlIb (p : Prefixes) (imm : Byte) -- A8: test AL, imm8 (R358)
  | testEaxIz (p : Prefixes) (imm : Word) -- A9: test eAX, imm16/32 (R358)
  | movRbIb (p : Prefixes) (r : Reg) (imm : Byte) -- B0+r: mov r8, imm8 (R254)
  | movRvIz (p : Prefixes) (r : Reg) (imm : Word) -- B8+r: mov r16/32, imm16/32 (R255)
  | shlEbIb (p : Prefixes) (rm : RM) (imm : Byte) -- C0 /4: shl r/m8, imm8 (R384)
  | shlEvIb (p : Prefixes) (rm : RM) (imm : Byte) -- C1 /4: shl r/m16/32, imm8 (R384)
  | shlEb1 (p : Prefixes) (rm : RM) -- D0 /4: shl r/m8, 1 (R384)
  | shlEv1 (p : Prefixes) (rm : RM) -- D1 /4: shl r/m16/32, 1 (R384)
  | shlEbCl (p : Prefixes) (rm : RM) -- D2 /4: shl r/m8, CL (R384)
  | shlEvCl (p : Prefixes) (rm : RM) -- D3 /4: shl r/m16/32, CL (R384)
  | shrEbIb (p : Prefixes) (rm : RM) (imm : Byte) -- C0 /5: shr r/m8, imm8 (R386)
  | shrEvIb (p : Prefixes) (rm : RM) (imm : Byte) -- C1 /5: shr r/m16/32, imm8 (R386)
  | shrEb1 (p : Prefixes) (rm : RM) -- D0 /5: shr r/m8, 1 (R386)
  | shrEv1 (p : Prefixes) (rm : RM) -- D1 /5: shr r/m16/32, 1 (R386)
  | shrEbCl (p : Prefixes) (rm : RM) -- D2 /5: shr r/m8, CL (R386)
  | shrEvCl (p : Prefixes) (rm : RM) -- D3 /5: shr r/m16/32, CL (R386)
  | sarEbIb (p : Prefixes) (rm : RM) (imm : Byte) -- C0 /7: sar r/m8, imm8 (R388)
  | sarEvIb (p : Prefixes) (rm : RM) (imm : Byte) -- C1 /7: sar r/m16/32, imm8 (R388)
  | sarEb1 (p : Prefixes) (rm : RM) -- D0 /7: sar r/m8, 1 (R388)
  | sarEv1 (p : Prefixes) (rm : RM) -- D1 /7: sar r/m16/32, 1 (R388)
  | sarEbCl (p : Prefixes) (rm : RM) -- D2 /7: sar r/m8, CL (R388)
  | sarEvCl (p : Prefixes) (rm : RM) -- D3 /7: sar r/m16/32, CL (R388)
  | retIw (p : Prefixes) (imm : BitVec 16) -- C2: ret imm16 (R416)
  | ret (p : Prefixes) -- C3: ret (R415)
  | movEbIb (p : Prefixes) (rm : RM) (imm : Byte) -- C6 /0: mov r/m8, imm8 (R256)
  | movEvIz (p : Prefixes) (rm : RM) (imm : Word) -- C7 /0: mov r/m16/32, imm16/32 (R256)
  | leave (p : Prefixes) -- C9: leave (R438)
  | int80 (p : Prefixes) -- CD: int 0x80 (R490)
  | callRel32 (p : Prefixes) (rel : Word) -- E8: call rel32 (R410)
  | jmpRel32 (p : Prefixes) (rel : Word) -- E9: jmp rel32 (R401)
  | jmpRel8 (p : Prefixes) (rel : Byte) -- EB: jmp rel8 (R400)
  | cmc (p : Prefixes) -- F5: cmc (R472)
  | testEbIb (p : Prefixes) (rm : RM) (imm : Byte) -- F6 /0: test r/m8, imm8 (R358)
  | testEvIz (p : Prefixes) (rm : RM) (imm : Word) -- F7 /0: test r/m16/32, imm16/32 (R358)
  | notEb (p : Prefixes) (rm : RM) -- F6 /2: not r/m8 (R356)
  | notEv (p : Prefixes) (rm : RM) -- F7 /2: not r/m16/32 (R356)
  | negEb (p : Prefixes) (rm : RM) -- F6 /3: neg r/m8 (R314)
  | negEv (p : Prefixes) (rm : RM) -- F7 /3: neg r/m16/32 (R314)
  | mulEb (p : Prefixes) (rm : RM) -- F6 /4: mul r/m8 (R320)
  | mulEv (p : Prefixes) (rm : RM) -- F7 /4: mul r/m16/32 (R320)
  | imulEb (p : Prefixes) (rm : RM) -- F6 /5: imul r/m8 (R322)
  | imulEv (p : Prefixes) (rm : RM) -- F7 /5: imul r/m16/32 (R322)
  | divEb (p : Prefixes) (rm : RM) -- F6 /6: div r/m8 (R327)
  | divEv (p : Prefixes) (rm : RM) -- F7 /6: div r/m16/32 (R327)
  | idivEb (p : Prefixes) (rm : RM) -- F6 /7: idiv r/m8 (R329)
  | idivEv (p : Prefixes) (rm : RM) -- F7 /7: idiv r/m16/32 (R329)
  | clc (p : Prefixes) -- F8: clc (R470)
  | stc (p : Prefixes) -- F9: stc (R471)
  | cli (p : Prefixes) -- FA: cli (R477)
  | sti (p : Prefixes) -- FB: sti (R476)
  | cld (p : Prefixes) -- FC: cld (R474)
  | std (p : Prefixes) -- FD: std (R475)
  | incEb (p : Prefixes) (rm : RM) -- FE /0: inc r/m8 (R310)
  | decEb (p : Prefixes) (rm : RM) -- FE /1: dec r/m8 (R312)
  | incEv (p : Prefixes) (rm : RM) -- FF /0: inc r/m16/32 (R310)
  | decEv (p : Prefixes) (rm : RM) -- FF /1: dec r/m16/32 (R312)
  | callEv (p : Prefixes) (rm : RM) -- FF /2: call r/m32 (R411)
  | jmpEv (p : Prefixes) (rm : RM) -- FF /4: jmp r/m32 (R402)
  | pushEv (p : Prefixes) (rm : RM) -- FF /6: push r/m16/32 (R433)
  | joRel32 (p : Prefixes) (rel : Word) -- 0F 80: jo rel32 (R406)
  | jnoRel32 (p : Prefixes) (rel : Word) -- 0F 81: jno rel32 (R406)
  | jbRel32 (p : Prefixes) (rel : Word) -- 0F 82: jb rel32 (R406)
  | jaeRel32 (p : Prefixes) (rel : Word) -- 0F 83: jae rel32 (R406)
  | jeRel32 (p : Prefixes) (rel : Word) -- 0F 84: je rel32 (R406)
  | jneRel32 (p : Prefixes) (rel : Word) -- 0F 85: jne rel32 (R406)
  | jbeRel32 (p : Prefixes) (rel : Word) -- 0F 86: jbe rel32 (R406)
  | jaRel32 (p : Prefixes) (rel : Word) -- 0F 87: ja rel32 (R406)
  | jsRel32 (p : Prefixes) (rel : Word) -- 0F 88: js rel32 (R406)
  | jnsRel32 (p : Prefixes) (rel : Word) -- 0F 89: jns rel32 (R406)
  | jpRel32 (p : Prefixes) (rel : Word) -- 0F 8A: jp rel32 (R406)
  | jnpRel32 (p : Prefixes) (rel : Word) -- 0F 8B: jnp rel32 (R406)
  | jlRel32 (p : Prefixes) (rel : Word) -- 0F 8C: jl rel32 (R406)
  | jgeRel32 (p : Prefixes) (rel : Word) -- 0F 8D: jge rel32 (R406)
  | jleRel32 (p : Prefixes) (rel : Word) -- 0F 8E: jle rel32 (R406)
  | jgRel32 (p : Prefixes) (rel : Word) -- 0F 8F: jg rel32 (R406)
  | imulGvEv (p : Prefixes) (rm : RM) (r : Reg) -- 0F AF: imul r16/32, r/m16/32 (R324)
  | movzxGvEb (p : Prefixes) (rm : RM) (r : Reg) -- 0F B6: movzx r16/32, r/m8 (R262)
  | movzxGvEw (p : Prefixes) (rm : RM) (r : Reg) -- 0F B7: movzx r16/32, r/m16 (R262)
  | movsxGvEb (p : Prefixes) (rm : RM) (r : Reg) -- 0F BE: movsx r16/32, r/m8 (R263)
  | movsxGvEw (p : Prefixes) (rm : RM) (r : Reg) -- 0F BF: movsx r16/32, r/m16 (R263)
deriving DecidableEq, Repr

end Sys2Proof
end

