-- ==== Sys2Proof/WellFormed.lean ====
section
/-! DEFINITION. Which terms of `Instr` are instructions: the conditions under which a term's bytes decode to it
(30_encoding.md). -/

namespace Sys2Proof

/-- A memory form that ModR/M and SIB can write (R138, R139): rm 4 announces a SIB byte, and mod 00 with rm 5 or
base 5 means no base register. -/
def Addr.wf : Addr → Bool
  | .direct _ => true
  | .base b d => b != .esp && (b != .ebp || d != .none)
  | .sib _ _ b d => b != .ebp || d != .none
  | .sibNoBase _ _ _ => true

/-- An r/m side that decodes under the prefixes `p`: with 67 only a register does (R167). -/
def RM.wf (p : Prefixes) : RM → Bool
  | .reg _ => true
  | .mem a => a.wf && !p.hasAddrsize

/-- An `iz` immediate that fits the operand size (R150). -/
def immFits (p : Prefixes) (imm : Word) : Bool := decide (imm.toNat < 2 ^ p.osz.bits)

/-- No 66 on a near branch (R166). -/
def nearOk (p : Prefixes) : Bool := !p.hasOpsize

/-- No 67 on a form whose meaning depends on the address size (R167). -/
def addrOk (p : Prefixes) : Bool := !p.hasAddrsize

/-- Well-formedness, per constructor. -/
def Instr.wf : Instr → Bool
  | .addEbGb p rm _
  | .addEvGv p rm _
  | .addGbEb p rm _
  | .addGvEv p rm _
  | .orEbGb p rm _
  | .orEvGv p rm _
  | .orGbEb p rm _
  | .orGvEv p rm _
  | .adcEbGb p rm _
  | .adcEvGv p rm _
  | .adcGbEb p rm _
  | .adcGvEv p rm _
  | .sbbEbGb p rm _
  | .sbbEvGv p rm _
  | .sbbGbEb p rm _
  | .sbbGvEv p rm _
  | .andEbGb p rm _
  | .andEvGv p rm _
  | .andGbEb p rm _
  | .andGvEv p rm _
  | .subEbGb p rm _
  | .subEvGv p rm _
  | .subGbEb p rm _
  | .subGvEv p rm _
  | .xorEbGb p rm _
  | .xorEvGv p rm _
  | .xorGbEb p rm _
  | .xorGvEv p rm _
  | .cmpEbGb p rm _
  | .cmpEvGv p rm _
  | .cmpGbEb p rm _
  | .cmpGvEv p rm _
  | .movsxdGvEv p rm _
  | .testEbGb p rm _
  | .testEvGv p rm _
  | .xchgEbGb p rm _
  | .xchgEvGv p rm _
  | .movEbGb p rm _
  | .movEvGv p rm _
  | .movGbEb p rm _
  | .movGvEv p rm _
  | .imulGvEv p rm _
  | .movzxGvEb p rm _
  | .movzxGvEw p rm _
  | .movsxGvEb p rm _
  | .movsxGvEw p rm _ => rm.wf p
  | .addEbIb p rm _
  | .addEvIb p rm _
  | .orEbIb p rm _
  | .orEvIb p rm _
  | .adcEbIb p rm _
  | .adcEvIb p rm _
  | .sbbEbIb p rm _
  | .sbbEvIb p rm _
  | .andEbIb p rm _
  | .andEvIb p rm _
  | .subEbIb p rm _
  | .subEvIb p rm _
  | .xorEbIb p rm _
  | .xorEvIb p rm _
  | .cmpEbIb p rm _
  | .cmpEvIb p rm _
  | .shlEbIb p rm _
  | .shlEvIb p rm _
  | .shrEbIb p rm _
  | .shrEvIb p rm _
  | .sarEbIb p rm _
  | .sarEvIb p rm _
  | .movEbIb p rm _
  | .testEbIb p rm _ => rm.wf p
  | .popEv p rm
  | .shlEb1 p rm
  | .shlEv1 p rm
  | .shlEbCl p rm
  | .shlEvCl p rm
  | .shrEb1 p rm
  | .shrEv1 p rm
  | .shrEbCl p rm
  | .shrEvCl p rm
  | .sarEb1 p rm
  | .sarEv1 p rm
  | .sarEbCl p rm
  | .sarEvCl p rm
  | .notEb p rm
  | .notEv p rm
  | .negEb p rm
  | .negEv p rm
  | .mulEb p rm
  | .mulEv p rm
  | .imulEb p rm
  | .imulEv p rm
  | .divEb p rm
  | .divEv p rm
  | .idivEb p rm
  | .idivEv p rm
  | .incEb p rm
  | .decEb p rm
  | .incEv p rm
  | .decEv p rm
  | .pushEv p rm => rm.wf p
  | .imulGvEvIb p rm _ _ => rm.wf p
  | .addEvIz p rm imm
  | .orEvIz p rm imm
  | .adcEvIz p rm imm
  | .sbbEvIz p rm imm
  | .andEvIz p rm imm
  | .subEvIz p rm imm
  | .xorEvIz p rm imm
  | .cmpEvIz p rm imm
  | .movEvIz p rm imm
  | .testEvIz p rm imm => rm.wf p && immFits p imm
  | .imulGvEvIz p rm _ imm => rm.wf p && immFits p imm
  | .addEaxIz p imm
  | .orEaxIz p imm
  | .adcEaxIz p imm
  | .sbbEaxIz p imm
  | .andEaxIz p imm
  | .subEaxIz p imm
  | .xorEaxIz p imm
  | .cmpEaxIz p imm
  | .pushIz p imm
  | .testEaxIz p imm => immFits p imm
  | .movRvIz p _ imm => immFits p imm
  | .callEv p rm
  | .jmpEv p rm => rm.wf p && nearOk p
  | .joRel8 p _
  | .jnoRel8 p _
  | .jbRel8 p _
  | .jaeRel8 p _
  | .jeRel8 p _
  | .jneRel8 p _
  | .jbeRel8 p _
  | .jaRel8 p _
  | .jsRel8 p _
  | .jnsRel8 p _
  | .jpRel8 p _
  | .jnpRel8 p _
  | .jlRel8 p _
  | .jgeRel8 p _
  | .jleRel8 p _
  | .jgRel8 p _
  | .jmpRel8 p _ => nearOk p
  | .callRel32 p _
  | .jmpRel32 p _
  | .joRel32 p _
  | .jnoRel32 p _
  | .jbRel32 p _
  | .jaeRel32 p _
  | .jeRel32 p _
  | .jneRel32 p _
  | .jbeRel32 p _
  | .jaRel32 p _
  | .jsRel32 p _
  | .jnsRel32 p _
  | .jpRel32 p _
  | .jnpRel32 p _
  | .jlRel32 p _
  | .jgeRel32 p _
  | .jleRel32 p _
  | .jgRel32 p _ => nearOk p
  | .retIw p _
  | .ret p => nearOk p
  | .leaGvM p _ a => a.wf && addrOk p
  | .movAlOb p _
  | .movEaxOv p _
  | .movObAl p _
  | .movOvEax p _ => addrOk p
  | .cwde p
  | .cdq p => !p.hasOpsize
  | .cbw p
  | .cwd p => p.hasOpsize
  | .movsb p => addrOk p && !p.hasRep
  | .movsd p => addrOk p && !p.hasRep && !p.hasOpsize
  | .movsw p => addrOk p && !p.hasRep && p.hasOpsize
  | .repMovsb p => addrOk p && p.hasRep
  | .repMovsd p => addrOk p && p.hasRep && !p.hasOpsize
  | .repMovsw p => addrOk p && p.hasRep && p.hasOpsize
  | .xchgEaxR _ r => r != .eax
  | .addAlIb _ _
  | .orAlIb _ _
  | .adcAlIb _ _
  | .sbbAlIb _ _
  | .andAlIb _ _
  | .subAlIb _ _
  | .xorAlIb _ _
  | .cmpAlIb _ _
  | .incR _ _
  | .decR _ _
  | .pushR _ _
  | .popR _ _
  | .pushIb _ _
  | .nop _
  | .testAlIb _ _
  | .movRbIb _ _ _
  | .leave _
  | .int80 _
  | .cmc _
  | .clc _
  | .stc _
  | .cli _
  | .sti _
  | .cld _
  | .std _ => true

end Sys2Proof
end

