-- ==== Sys2Proof/Decode.lean ====
section
/-! DEFINITION. The decoder, total on any bytes (30_encoding.md R120 to R184), and after it the encoder written
from the same maps. -/

namespace Sys2Proof

/-- The low `n` bytes of `v`, the lowest first (20_memory.md R85, R87). -/
def leBytes : (n : Nat) → (v : Nat) → List Byte
  | 0, _ => []
  | n + 1, v => BitVec.ofNat 8 v :: leBytes n (v / 256)

/-- The little-endian value of some bytes (20_memory.md R84). -/
def leValue : List Byte → Nat
  | [] => 0
  | b :: bs => b.toNat + 256 * leValue bs

/-- The prefix byte table (R124, R127). -/
def Prefix.byte : Prefix → Byte
  | .opsize => 0x66
  | .addrsize => 0x67
  | .repne => 0xF2
  | .rep => 0xF3
  | .seg .es => 0x26
  | .seg .cs => 0x2E
  | .seg .ss => 0x36
  | .seg .ds => 0x3E
  | .seg .fs => 0x64
  | .seg .gs => 0x65

/-- The prefix a byte is, if it is one (R124). -/
def Prefix.ofByte? (b : Byte) : Option Prefix :=
  match b.toNat with
  | 0x66 => some .opsize
  | 0x67 => some .addrsize
  | 0xF2 => some .repne
  | 0xF3 => some .rep
  | 0x26 => some (.seg .es)
  | 0x2E => some (.seg .cs)
  | 0x36 => some (.seg .ss)
  | 0x3E => some (.seg .ds)
  | 0x64 => some (.seg .fs)
  | 0x65 => some (.seg .gs)
  | _ => none

/-- Why a byte sequence is no instruction; each is UnknownOpcode (60_exceptions.md R520). -/
inductive Reject where
  /-- The opcode has no entry in the maps (R160, R161, R163). -/
  | opcode
  /-- The group has no entry for this /digit (R162). -/
  | digit
  /-- `lea` of a register (R165). -/
  | leaRegister
  /-- 66 on a near branch (R166). -/
  | opsizeBranch
  /-- 67 on a form that depends on the address size (R167). -/
  | addrsize
  /-- `int` with an immediate other than 80 (R168). -/
  | intVector
deriving DecidableEq, Repr

/-- How decoding fails: a rejection after `used` bytes (R184), or a `Fetch(len)` after `used` bytes that the
bytes do not cover (R122, R522). -/
inductive DecodeError where
  | unknownOpcode (why : Reject) (used : Nat)
  | truncated (used len : Nat)
deriving DecidableEq, Repr

/-- The instruction bytes still to be fetched: `used` bytes are fetched already, and `rest` ends where memory does.
`start` is the address of the instruction's first byte, none for bytes that lie nowhere in particular. -/
structure Stream where
  used : Nat
  start : Option Word
  rest : List Byte
deriving DecidableEq, Repr

/-- The part of the bounds check of `Fetch(len)` that the bytes themselves do not show: EIP, which is
`start + used` modulo 2^32 by now (R122, 10_state.md R41), and `len` bytes more, over unbounded integers, stay within
the 32-bit space (20_memory.md R82, 60_exceptions.md R522). -/
def fetchFits (start : Option Word) (used len : Nat) : Bool :=
  match start with
  | none => true
  | some a => decide ((a + BitVec.ofNat 32 used).toNat + len ≤ 2 ^ 32)

/-- `Fetch(n)` (R122): the next `n` bytes in one access, or none of them. -/
def Stream.fetch (n : Nat) (st : Stream) : Except DecodeError ((List Byte) × Stream) :=
  if n ≤ st.rest.length ∧ fetchFits st.start st.used n = true then
    .ok (st.rest.take n, ⟨st.used + n, st.start, st.rest.drop n⟩)
  else .error (.truncated st.used n)

/-- `Fetch(n)` as a little-endian number. -/
def Stream.fetchValue (n : Nat) (st : Stream) : Except DecodeError (Nat × Stream) := do
  let (bs, st) ← st.fetch n
  .ok (leValue bs, st)

/-- `Fetch(1)`. -/
def Stream.fetchByte (st : Stream) : Except DecodeError (Byte × Stream) := do
  let (v, st) ← st.fetchValue 1
  .ok (BitVec.ofNat 8 v, st)

/-- `Fetch(4)`. -/
def Stream.fetchWord (st : Stream) : Except DecodeError (Word × Stream) := do
  let (v, st) ← st.fetchValue 4
  .ok (BitVec.ofNat 32 v, st)

/-- An `iz` immediate: 2 or 4 bytes by the operand size (R150). -/
def Stream.fetchZ (p : Prefixes) (st : Stream) : Except DecodeError (Word × Stream) := do
  let (v, st) ← st.fetchValue p.osz.bytes
  .ok (BitVec.ofNat 32 v, st)

/-- `mod = m[7:6]` (R135). -/
def modOf (m : Byte) : BitVec 2 := m.extractLsb' 6 2

/-- `reg = m[5:3]` (R135). -/
def regOf (m : Byte) : BitVec 3 := m.extractLsb' 3 3

/-- `rm = m[2:0]` (R135). -/
def rmOf (m : Byte) : BitVec 3 := m.extractLsb' 0 3

/-- The displacement that `mod` announces (R138). -/
def decodeDisp (mod : BitVec 2) (st : Stream) : Except DecodeError (Disp × Stream) :=
  match mod.toNat with
  | 1 => do
    let (v, st) ← st.fetchByte
    .ok (.d8 v, st)
  | 2 => do
    let (v, st) ← st.fetchWord
    .ok (.d32 v, st)
  | _ => .ok (.none, st)

/-- The memory form of a ModR/M byte with `mod` other than 3 (R138 to R140); SIB has the fields of ModR/M
(R139). -/
def decodeAddr (m : Byte) (st : Stream) : Except DecodeError (Addr × Stream) :=
  match (rmOf m).toNat with
  | 4 => do
    let (s, st) ← st.fetchByte
    if rmOf s = 5 ∧ modOf m = 0 then
      let (d, st) ← st.fetchWord
      .ok (.sibNoBase (modOf s) (Reg.ofBits (regOf s)) d, st)
    else
      let (d, st) ← decodeDisp (modOf m) st
      .ok (.sib (modOf s) (Reg.ofBits (regOf s)) (Reg.ofBits (rmOf s)) d, st)
  | 5 =>
    if modOf m = 0 then do
      let (d, st) ← st.fetchWord
      .ok (.direct d, st)
    else do
      let (d, st) ← decodeDisp (modOf m) st
      .ok (.base .ebp d, st)
  | _ => do
    let (d, st) ← decodeDisp (modOf m) st
    .ok (.base (Reg.ofBits (rmOf m)) d, st)

/-- `DecodeRM` (R140), the ModR/M byte `m` fetched already. -/
def decodeRM (p : Prefixes) (m : Byte) (st : Stream) : Except DecodeError (RM × Stream) :=
  if modOf m = 3 then .ok (.reg (Reg.ofBits (rmOf m)), st)
  else if p.hasAddrsize then .error (.unknownOpcode .addrsize st.used)
  else do
    let (a, st) ← decodeAddr m st
    .ok (.mem a, st)

/-- What follows the ModR/M byte of a group member: r/m alone, r/m of a near branch, or r/m and an immediate. -/
inductive GroupEntry where
  | none
  | rm (mk : Prefixes → RM → Instr)
  | rmNear (mk : Prefixes → RM → Instr)
  | rm8 (mk : Prefixes → RM → Byte → Instr)
  | rmZ (mk : Prefixes → RM → Word → Instr)

/-- The /digit table of opcode 80 (R162). -/
def group80 (digit : BitVec 3) : GroupEntry :=
  match digit.toNat with
  | 0 => .rm8 .addEbIb
  | 1 => .rm8 .orEbIb
  | 2 => .rm8 .adcEbIb
  | 3 => .rm8 .sbbEbIb
  | 4 => .rm8 .andEbIb
  | 5 => .rm8 .subEbIb
  | 6 => .rm8 .xorEbIb
  | _ => .rm8 .cmpEbIb

/-- The /digit table of opcode 81 (R162). -/
def group81 (digit : BitVec 3) : GroupEntry :=
  match digit.toNat with
  | 0 => .rmZ .addEvIz
  | 1 => .rmZ .orEvIz
  | 2 => .rmZ .adcEvIz
  | 3 => .rmZ .sbbEvIz
  | 4 => .rmZ .andEvIz
  | 5 => .rmZ .subEvIz
  | 6 => .rmZ .xorEvIz
  | _ => .rmZ .cmpEvIz

/-- The /digit table of opcode 83 (R162). -/
def group83 (digit : BitVec 3) : GroupEntry :=
  match digit.toNat with
  | 0 => .rm8 .addEvIb
  | 1 => .rm8 .orEvIb
  | 2 => .rm8 .adcEvIb
  | 3 => .rm8 .sbbEvIb
  | 4 => .rm8 .andEvIb
  | 5 => .rm8 .subEvIb
  | 6 => .rm8 .xorEvIb
  | _ => .rm8 .cmpEvIb

/-- The /digit table of opcode 8F (R162). -/
def group8F (digit : BitVec 3) : GroupEntry :=
  match digit.toNat with
  | 0 => .rm .popEv
  | _ => .none

/-- The /digit table of opcode C0 (R162). -/
def groupC0 (digit : BitVec 3) : GroupEntry :=
  match digit.toNat with
  | 4 => .rm8 .shlEbIb
  | 5 => .rm8 .shrEbIb
  | 7 => .rm8 .sarEbIb
  | _ => .none

/-- The /digit table of opcode C1 (R162). -/
def groupC1 (digit : BitVec 3) : GroupEntry :=
  match digit.toNat with
  | 4 => .rm8 .shlEvIb
  | 5 => .rm8 .shrEvIb
  | 7 => .rm8 .sarEvIb
  | _ => .none

/-- The /digit table of opcode C6 (R162). -/
def groupC6 (digit : BitVec 3) : GroupEntry :=
  match digit.toNat with
  | 0 => .rm8 .movEbIb
  | _ => .none

/-- The /digit table of opcode C7 (R162). -/
def groupC7 (digit : BitVec 3) : GroupEntry :=
  match digit.toNat with
  | 0 => .rmZ .movEvIz
  | _ => .none

/-- The /digit table of opcode D0 (R162). -/
def groupD0 (digit : BitVec 3) : GroupEntry :=
  match digit.toNat with
  | 4 => .rm .shlEb1
  | 5 => .rm .shrEb1
  | 7 => .rm .sarEb1
  | _ => .none

/-- The /digit table of opcode D1 (R162). -/
def groupD1 (digit : BitVec 3) : GroupEntry :=
  match digit.toNat with
  | 4 => .rm .shlEv1
  | 5 => .rm .shrEv1
  | 7 => .rm .sarEv1
  | _ => .none

/-- The /digit table of opcode D2 (R162). -/
def groupD2 (digit : BitVec 3) : GroupEntry :=
  match digit.toNat with
  | 4 => .rm .shlEbCl
  | 5 => .rm .shrEbCl
  | 7 => .rm .sarEbCl
  | _ => .none

/-- The /digit table of opcode D3 (R162). -/
def groupD3 (digit : BitVec 3) : GroupEntry :=
  match digit.toNat with
  | 4 => .rm .shlEvCl
  | 5 => .rm .shrEvCl
  | 7 => .rm .sarEvCl
  | _ => .none

/-- The /digit table of opcode F6 (R162). -/
def groupF6 (digit : BitVec 3) : GroupEntry :=
  match digit.toNat with
  | 0 => .rm8 .testEbIb
  | 2 => .rm .notEb
  | 3 => .rm .negEb
  | 4 => .rm .mulEb
  | 5 => .rm .imulEb
  | 6 => .rm .divEb
  | 7 => .rm .idivEb
  | _ => .none

/-- The /digit table of opcode F7 (R162). -/
def groupF7 (digit : BitVec 3) : GroupEntry :=
  match digit.toNat with
  | 0 => .rmZ .testEvIz
  | 2 => .rm .notEv
  | 3 => .rm .negEv
  | 4 => .rm .mulEv
  | 5 => .rm .imulEv
  | 6 => .rm .divEv
  | 7 => .rm .idivEv
  | _ => .none

/-- The /digit table of opcode FE (R162). -/
def groupFE (digit : BitVec 3) : GroupEntry :=
  match digit.toNat with
  | 0 => .rm .incEb
  | 1 => .rm .decEb
  | _ => .none

/-- The /digit table of opcode FF (R162). -/
def groupFF (digit : BitVec 3) : GroupEntry :=
  match digit.toNat with
  | 0 => .rm .incEv
  | 1 => .rm .decEv
  | 2 => .rmNear .callEv
  | 4 => .rmNear .jmpEv
  | 6 => .rm .pushEv
  | _ => .none

/-- An entry of the opcode maps (R181): what is fetched after the opcode, and the instruction it makes. -/
inductive Entry where
  /-- UnknownOpcode. -/
  | none
  /-- Nothing follows. -/
  | plain (mk : Prefixes → Instr)
  /-- Nothing follows; 67 is refused (string moves). -/
  | strings (mk : Prefixes → Instr)
  /-- Nothing follows; 66 is refused. -/
  | near (mk : Prefixes → Instr)
  /-- `ib`. -/
  | imm8 (mk : Prefixes → Byte → Instr)
  /-- `iz`. -/
  | immZ (mk : Prefixes → Word → Instr)
  /-- `iw`; 66 is refused. -/
  | near16 (mk : Prefixes → BitVec 16 → Instr)
  /-- `rel8`; 66 is refused. -/
  | rel8 (mk : Prefixes → Byte → Instr)
  /-- `rel32`; 66 is refused. -/
  | rel32 (mk : Prefixes → Word → Instr)
  /-- `moffs32`; 67 is refused. -/
  | moffs (mk : Prefixes → Word → Instr)
  /-- `ib`, which must be 80. -/
  | vector (mk : Prefixes → Instr)
  /-- ModR/M with a register. -/
  | rmReg (mk : Prefixes → RM → Reg → Instr)
  /-- ModR/M with a register, then `ib`. -/
  | rmReg8 (mk : Prefixes → RM → Reg → Byte → Instr)
  /-- ModR/M with a register, then `iz`. -/
  | rmRegZ (mk : Prefixes → RM → Reg → Word → Instr)
  /-- ModR/M with a register; a register on the r/m side is refused. -/
  | lea (mk : Prefixes → Reg → Addr → Instr)
  /-- ModR/M whose `reg` field selects the member. -/
  | group (select : BitVec 3 → GroupEntry)

/-- Opcode A5 under its prefixes (47_string.md R453, R454). -/
def stringMove (p : Prefixes) : Instr :=
  match p.hasRep, p.hasOpsize with
  | false, false => .movsd p
  | false, true => .movsw p
  | true, false => .repMovsd p
  | true, true => .repMovsw p

/-- The rows whose opcode byte holds a register in its low three bits (R160); `row` is the byte divided by 8. -/
def plusR (row : Nat) (r : Reg) : Entry :=
  match row with
  | 8 => .plain fun p => .incR p r
  | 9 => .plain fun p => .decR p r
  | 10 => .plain fun p => .pushR p r
  | 11 => .plain fun p => .popR p r
  | 18 => .plain fun p => .xchgEaxR p r
  | 22 => .imm8 fun p v => .movRbIb p r v
  | 23 => .immZ fun p v => .movRvIz p r v
  | _ => .none

/-- The primary opcode map (R160). A byte that is no row here is a `+r` row or has no entry. -/
def primary (b : Byte) : Entry :=
  match b.toNat with
  | 0x00 => .rmReg .addEbGb
  | 0x01 => .rmReg .addEvGv
  | 0x02 => .rmReg .addGbEb
  | 0x03 => .rmReg .addGvEv
  | 0x04 => .imm8 .addAlIb
  | 0x05 => .immZ .addEaxIz
  | 0x08 => .rmReg .orEbGb
  | 0x09 => .rmReg .orEvGv
  | 0x0A => .rmReg .orGbEb
  | 0x0B => .rmReg .orGvEv
  | 0x0C => .imm8 .orAlIb
  | 0x0D => .immZ .orEaxIz
  | 0x10 => .rmReg .adcEbGb
  | 0x11 => .rmReg .adcEvGv
  | 0x12 => .rmReg .adcGbEb
  | 0x13 => .rmReg .adcGvEv
  | 0x14 => .imm8 .adcAlIb
  | 0x15 => .immZ .adcEaxIz
  | 0x18 => .rmReg .sbbEbGb
  | 0x19 => .rmReg .sbbEvGv
  | 0x1A => .rmReg .sbbGbEb
  | 0x1B => .rmReg .sbbGvEv
  | 0x1C => .imm8 .sbbAlIb
  | 0x1D => .immZ .sbbEaxIz
  | 0x20 => .rmReg .andEbGb
  | 0x21 => .rmReg .andEvGv
  | 0x22 => .rmReg .andGbEb
  | 0x23 => .rmReg .andGvEv
  | 0x24 => .imm8 .andAlIb
  | 0x25 => .immZ .andEaxIz
  | 0x28 => .rmReg .subEbGb
  | 0x29 => .rmReg .subEvGv
  | 0x2A => .rmReg .subGbEb
  | 0x2B => .rmReg .subGvEv
  | 0x2C => .imm8 .subAlIb
  | 0x2D => .immZ .subEaxIz
  | 0x30 => .rmReg .xorEbGb
  | 0x31 => .rmReg .xorEvGv
  | 0x32 => .rmReg .xorGbEb
  | 0x33 => .rmReg .xorGvEv
  | 0x34 => .imm8 .xorAlIb
  | 0x35 => .immZ .xorEaxIz
  | 0x38 => .rmReg .cmpEbGb
  | 0x39 => .rmReg .cmpEvGv
  | 0x3A => .rmReg .cmpGbEb
  | 0x3B => .rmReg .cmpGvEv
  | 0x3C => .imm8 .cmpAlIb
  | 0x3D => .immZ .cmpEaxIz
  | 0x63 => .rmReg .movsxdGvEv
  | 0x68 => .immZ .pushIz
  | 0x69 => .rmRegZ .imulGvEvIz
  | 0x6A => .imm8 .pushIb
  | 0x6B => .rmReg8 .imulGvEvIb
  | 0x70 => .rel8 .joRel8
  | 0x71 => .rel8 .jnoRel8
  | 0x72 => .rel8 .jbRel8
  | 0x73 => .rel8 .jaeRel8
  | 0x74 => .rel8 .jeRel8
  | 0x75 => .rel8 .jneRel8
  | 0x76 => .rel8 .jbeRel8
  | 0x77 => .rel8 .jaRel8
  | 0x78 => .rel8 .jsRel8
  | 0x79 => .rel8 .jnsRel8
  | 0x7A => .rel8 .jpRel8
  | 0x7B => .rel8 .jnpRel8
  | 0x7C => .rel8 .jlRel8
  | 0x7D => .rel8 .jgeRel8
  | 0x7E => .rel8 .jleRel8
  | 0x7F => .rel8 .jgRel8
  | 0x80 => .group group80
  | 0x81 => .group group81
  | 0x83 => .group group83
  | 0x84 => .rmReg .testEbGb
  | 0x85 => .rmReg .testEvGv
  | 0x86 => .rmReg .xchgEbGb
  | 0x87 => .rmReg .xchgEvGv
  | 0x88 => .rmReg .movEbGb
  | 0x89 => .rmReg .movEvGv
  | 0x8A => .rmReg .movGbEb
  | 0x8B => .rmReg .movGvEv
  | 0x8D => .lea .leaGvM
  | 0x8F => .group group8F
  | 0x90 => .plain .nop
  | 0x98 => .plain fun p => if p.hasOpsize then .cbw p else .cwde p
  | 0x99 => .plain fun p => if p.hasOpsize then .cwd p else .cdq p
  | 0xA0 => .moffs .movAlOb
  | 0xA1 => .moffs .movEaxOv
  | 0xA2 => .moffs .movObAl
  | 0xA3 => .moffs .movOvEax
  | 0xA4 => .strings fun p => if p.hasRep then .repMovsb p else .movsb p
  | 0xA5 => .strings stringMove
  | 0xA8 => .imm8 .testAlIb
  | 0xA9 => .immZ .testEaxIz
  | 0xC0 => .group groupC0
  | 0xC1 => .group groupC1
  | 0xC2 => .near16 .retIw
  | 0xC3 => .near .ret
  | 0xC6 => .group groupC6
  | 0xC7 => .group groupC7
  | 0xC9 => .plain .leave
  | 0xCD => .vector .int80
  | 0xD0 => .group groupD0
  | 0xD1 => .group groupD1
  | 0xD2 => .group groupD2
  | 0xD3 => .group groupD3
  | 0xE8 => .rel32 .callRel32
  | 0xE9 => .rel32 .jmpRel32
  | 0xEB => .rel8 .jmpRel8
  | 0xF5 => .plain .cmc
  | 0xF6 => .group groupF6
  | 0xF7 => .group groupF7
  | 0xF8 => .plain .clc
  | 0xF9 => .plain .stc
  | 0xFA => .plain .cli
  | 0xFB => .plain .sti
  | 0xFC => .plain .cld
  | 0xFD => .plain .std
  | 0xFE => .group groupFE
  | 0xFF => .group groupFF
  | n => plusR (n / 8) (Reg.ofBits (b.extractLsb' 0 3))

/-- The secondary opcode map, the byte after 0F (R161). -/
def secondary (b : Byte) : Entry :=
  match b.toNat with
  | 0x80 => .rel32 .joRel32
  | 0x81 => .rel32 .jnoRel32
  | 0x82 => .rel32 .jbRel32
  | 0x83 => .rel32 .jaeRel32
  | 0x84 => .rel32 .jeRel32
  | 0x85 => .rel32 .jneRel32
  | 0x86 => .rel32 .jbeRel32
  | 0x87 => .rel32 .jaRel32
  | 0x88 => .rel32 .jsRel32
  | 0x89 => .rel32 .jnsRel32
  | 0x8A => .rel32 .jpRel32
  | 0x8B => .rel32 .jnpRel32
  | 0x8C => .rel32 .jlRel32
  | 0x8D => .rel32 .jgeRel32
  | 0x8E => .rel32 .jleRel32
  | 0x8F => .rel32 .jgRel32
  | 0xAF => .rmReg .imulGvEv
  | 0xB6 => .rmReg .movzxGvEb
  | 0xB7 => .rmReg .movzxGvEw
  | 0xBE => .rmReg .movsxGvEb
  | 0xBF => .rmReg .movsxGvEw
  | _ => .none

/-- The rest of a group member, its ModR/M byte `m` fetched already (R132). -/
def decodeGroup (p : Prefixes) (m : Byte) (e : GroupEntry) (st : Stream) : Except DecodeError (Instr × Stream) :=
  match e with
  | .none => .error (.unknownOpcode .digit st.used)
  | .rm mk => do
    let (rm, st) ← decodeRM p m st
    .ok (mk p rm, st)
  | .rmNear mk =>
    if p.hasOpsize then .error (.unknownOpcode .opsizeBranch st.used)
    else do
      let (rm, st) ← decodeRM p m st
      .ok (mk p rm, st)
  | .rm8 mk => do
    let (rm, st) ← decodeRM p m st
    let (v, st) ← st.fetchByte
    .ok (mk p rm v, st)
  | .rmZ mk => do
    let (rm, st) ← decodeRM p m st
    let (v, st) ← st.fetchZ p
    .ok (mk p rm v, st)

/-- The rest of an instruction, its opcode fetched already (R180). A refusal comes as soon as the bytes fetched
decide it (60_exceptions.md R522). -/
def decodeEntry (p : Prefixes) (e : Entry) (st : Stream) : Except DecodeError (Instr × Stream) :=
  match e with
  | .none => .error (.unknownOpcode .opcode st.used)
  | .plain mk => .ok (mk p, st)
  | .strings mk => if p.hasAddrsize then .error (.unknownOpcode .addrsize st.used) else .ok (mk p, st)
  | .near mk => if p.hasOpsize then .error (.unknownOpcode .opsizeBranch st.used) else .ok (mk p, st)
  | .imm8 mk => do
    let (v, st) ← st.fetchByte
    .ok (mk p v, st)
  | .immZ mk => do
    let (v, st) ← st.fetchZ p
    .ok (mk p v, st)
  | .near16 mk =>
    if p.hasOpsize then .error (.unknownOpcode .opsizeBranch st.used)
    else do
      let (v, st) ← st.fetchValue 2
      .ok (mk p (BitVec.ofNat 16 v), st)
  | .rel8 mk =>
    if p.hasOpsize then .error (.unknownOpcode .opsizeBranch st.used)
    else do
      let (v, st) ← st.fetchByte
      .ok (mk p v, st)
  | .rel32 mk =>
    if p.hasOpsize then .error (.unknownOpcode .opsizeBranch st.used)
    else do
      let (v, st) ← st.fetchWord
      .ok (mk p v, st)
  | .moffs mk =>
    if p.hasAddrsize then .error (.unknownOpcode .addrsize st.used)
    else do
      let (v, st) ← st.fetchWord
      .ok (mk p v, st)
  | .vector mk => do
    let (v, st) ← st.fetchByte
    if v = 0x80 then .ok (mk p, st) else .error (.unknownOpcode .intVector st.used)
  | .rmReg mk => do
    let (m, st) ← st.fetchByte
    let (rm, st) ← decodeRM p m st
    .ok (mk p rm (Reg.ofBits (regOf m)), st)
  | .rmReg8 mk => do
    let (m, st) ← st.fetchByte
    let (rm, st) ← decodeRM p m st
    let (v, st) ← st.fetchByte
    .ok (mk p rm (Reg.ofBits (regOf m)) v, st)
  | .rmRegZ mk => do
    let (m, st) ← st.fetchByte
    let (rm, st) ← decodeRM p m st
    let (v, st) ← st.fetchZ p
    .ok (mk p rm (Reg.ofBits (regOf m)) v, st)
  | .lea mk => do
    let (m, st) ← st.fetchByte
    if modOf m = 3 then .error (.unknownOpcode .leaRegister st.used)
    else if p.hasAddrsize then .error (.unknownOpcode .addrsize st.used)
    else
      let (a, st) ← decodeAddr m st
      .ok (mk p (Reg.ofBits (regOf m)) a, st)
  | .group select => do
    let (m, st) ← st.fetchByte
    decodeGroup p m (select (regOf m)) st

/-- The opcode, one byte or 0F and one byte, and what it selects (R131, R180). -/
def decodeOpcode (p : Prefixes) (st : Stream) : Except DecodeError (Instr × Stream) := do
  let (b, st) ← st.fetchByte
  if b = 0x0F then
    let (b2, st) ← st.fetchByte
    decodeEntry p (secondary b2) st
  else decodeEntry p (primary b) st

/-- The prefix bytes at the head of some bytes, and what follows them (R124, R180). -/
def splitPrefixes : List Byte → Prefixes × List Byte
  | [] => ([], [])
  | b :: bs =>
    match Prefix.ofByte? b with
    | some x => (x :: (splitPrefixes bs).1, (splitPrefixes bs).2)
    | none => ([], b :: bs)

/-- The instruction at the head of some bytes and the bytes after it; `start` as in `Stream`. -/
def decodeAt (start : Option Word) (bs : List Byte) : Except DecodeError (Instr × List Byte) :=
  let (p, rest) := splitPrefixes bs
  match decodeOpcode p ⟨p.length, start, rest⟩ with
  | .ok (i, st) => .ok (i, st.rest)
  | .error e => .error e

/-- The instruction at the head of some bytes that lie nowhere in particular. -/
def decode (bs : List Byte) : Except DecodeError (Instr × List Byte) := decodeAt none bs

/-! ### The encoder -/

/-- The prefix bytes as they stand. -/
def Prefixes.bytes (p : Prefixes) : List Byte := p.map Prefix.byte

/-- A byte of fields 2, 3 and 3 bits wide: ModR/M and SIB (R135, R139). -/
def fieldByte (hi : BitVec 2) (mid lo : BitVec 3) : Byte := hi ++ mid ++ lo

/-- The `mod` field of a displacement (R138). -/
def Disp.mod : Disp → BitVec 2
  | .none => 0
  | .d8 _ => 1
  | .d32 _ => 2

/-- The bytes of a displacement. -/
def Disp.bytes : Disp → List Byte
  | .none => []
  | .d8 v => [v]
  | .d32 v => leBytes 4 v.toNat

/-- ModR/M with `reg` field `reg`, then SIB and displacement (R135 to R139). -/
def RM.bytes (reg : BitVec 3) : RM → List Byte
  | .reg r => [fieldByte 3 reg r.bits]
  | .mem (.direct d) => fieldByte 0 reg 5 :: leBytes 4 d.toNat
  | .mem (.base b d) => fieldByte d.mod reg b.bits :: d.bytes
  | .mem (.sib scale index b d) => fieldByte d.mod reg 4 :: fieldByte scale index.bits b.bits :: d.bytes
  | .mem (.sibNoBase scale index d) => fieldByte 0 reg 4 :: fieldByte scale index.bits 5 :: leBytes 4 d.toNat

/-- The bytes of an `iz` immediate (R150). -/
def izBytes (p : Prefixes) (imm : Word) : List Byte := leBytes p.osz.bytes imm.toNat

/-- The opcode byte of a `+r` row. -/
def plusRByte (base : Byte) (r : Reg) : Byte := base + r.bits.setWidth 8

/-- The order of an instruction's parts (R120): prefixes, opcode, ModR/M with SIB and displacement, immediate. -/
def layout (p : Prefixes) (opcode operand immediate : List Byte) : List Byte :=
  p.bytes ++ (opcode ++ (operand ++ immediate))

/-- The bytes of an instruction (R120): its prefix bytes, its opcode, and what follows. -/
def encode : Instr → List Byte
  | .addEbGb p rm r => layout p [0x00] (rm.bytes r.bits) []
  | .addEvGv p rm r => layout p [0x01] (rm.bytes r.bits) []
  | .addGbEb p rm r => layout p [0x02] (rm.bytes r.bits) []
  | .addGvEv p rm r => layout p [0x03] (rm.bytes r.bits) []
  | .addAlIb p imm => layout p [0x04] [imm] []
  | .addEaxIz p imm => layout p [0x05] (izBytes p imm) []
  | .orEbGb p rm r => layout p [0x08] (rm.bytes r.bits) []
  | .orEvGv p rm r => layout p [0x09] (rm.bytes r.bits) []
  | .orGbEb p rm r => layout p [0x0A] (rm.bytes r.bits) []
  | .orGvEv p rm r => layout p [0x0B] (rm.bytes r.bits) []
  | .orAlIb p imm => layout p [0x0C] [imm] []
  | .orEaxIz p imm => layout p [0x0D] (izBytes p imm) []
  | .adcEbGb p rm r => layout p [0x10] (rm.bytes r.bits) []
  | .adcEvGv p rm r => layout p [0x11] (rm.bytes r.bits) []
  | .adcGbEb p rm r => layout p [0x12] (rm.bytes r.bits) []
  | .adcGvEv p rm r => layout p [0x13] (rm.bytes r.bits) []
  | .adcAlIb p imm => layout p [0x14] [imm] []
  | .adcEaxIz p imm => layout p [0x15] (izBytes p imm) []
  | .sbbEbGb p rm r => layout p [0x18] (rm.bytes r.bits) []
  | .sbbEvGv p rm r => layout p [0x19] (rm.bytes r.bits) []
  | .sbbGbEb p rm r => layout p [0x1A] (rm.bytes r.bits) []
  | .sbbGvEv p rm r => layout p [0x1B] (rm.bytes r.bits) []
  | .sbbAlIb p imm => layout p [0x1C] [imm] []
  | .sbbEaxIz p imm => layout p [0x1D] (izBytes p imm) []
  | .andEbGb p rm r => layout p [0x20] (rm.bytes r.bits) []
  | .andEvGv p rm r => layout p [0x21] (rm.bytes r.bits) []
  | .andGbEb p rm r => layout p [0x22] (rm.bytes r.bits) []
  | .andGvEv p rm r => layout p [0x23] (rm.bytes r.bits) []
  | .andAlIb p imm => layout p [0x24] [imm] []
  | .andEaxIz p imm => layout p [0x25] (izBytes p imm) []
  | .subEbGb p rm r => layout p [0x28] (rm.bytes r.bits) []
  | .subEvGv p rm r => layout p [0x29] (rm.bytes r.bits) []
  | .subGbEb p rm r => layout p [0x2A] (rm.bytes r.bits) []
  | .subGvEv p rm r => layout p [0x2B] (rm.bytes r.bits) []
  | .subAlIb p imm => layout p [0x2C] [imm] []
  | .subEaxIz p imm => layout p [0x2D] (izBytes p imm) []
  | .xorEbGb p rm r => layout p [0x30] (rm.bytes r.bits) []
  | .xorEvGv p rm r => layout p [0x31] (rm.bytes r.bits) []
  | .xorGbEb p rm r => layout p [0x32] (rm.bytes r.bits) []
  | .xorGvEv p rm r => layout p [0x33] (rm.bytes r.bits) []
  | .xorAlIb p imm => layout p [0x34] [imm] []
  | .xorEaxIz p imm => layout p [0x35] (izBytes p imm) []
  | .cmpEbGb p rm r => layout p [0x38] (rm.bytes r.bits) []
  | .cmpEvGv p rm r => layout p [0x39] (rm.bytes r.bits) []
  | .cmpGbEb p rm r => layout p [0x3A] (rm.bytes r.bits) []
  | .cmpGvEv p rm r => layout p [0x3B] (rm.bytes r.bits) []
  | .cmpAlIb p imm => layout p [0x3C] [imm] []
  | .cmpEaxIz p imm => layout p [0x3D] (izBytes p imm) []
  | .addEbIb p rm imm => layout p [0x80] (rm.bytes 0) [imm]
  | .addEvIz p rm imm => layout p [0x81] (rm.bytes 0) (izBytes p imm)
  | .addEvIb p rm imm => layout p [0x83] (rm.bytes 0) [imm]
  | .orEbIb p rm imm => layout p [0x80] (rm.bytes 1) [imm]
  | .orEvIz p rm imm => layout p [0x81] (rm.bytes 1) (izBytes p imm)
  | .orEvIb p rm imm => layout p [0x83] (rm.bytes 1) [imm]
  | .adcEbIb p rm imm => layout p [0x80] (rm.bytes 2) [imm]
  | .adcEvIz p rm imm => layout p [0x81] (rm.bytes 2) (izBytes p imm)
  | .adcEvIb p rm imm => layout p [0x83] (rm.bytes 2) [imm]
  | .sbbEbIb p rm imm => layout p [0x80] (rm.bytes 3) [imm]
  | .sbbEvIz p rm imm => layout p [0x81] (rm.bytes 3) (izBytes p imm)
  | .sbbEvIb p rm imm => layout p [0x83] (rm.bytes 3) [imm]
  | .andEbIb p rm imm => layout p [0x80] (rm.bytes 4) [imm]
  | .andEvIz p rm imm => layout p [0x81] (rm.bytes 4) (izBytes p imm)
  | .andEvIb p rm imm => layout p [0x83] (rm.bytes 4) [imm]
  | .subEbIb p rm imm => layout p [0x80] (rm.bytes 5) [imm]
  | .subEvIz p rm imm => layout p [0x81] (rm.bytes 5) (izBytes p imm)
  | .subEvIb p rm imm => layout p [0x83] (rm.bytes 5) [imm]
  | .xorEbIb p rm imm => layout p [0x80] (rm.bytes 6) [imm]
  | .xorEvIz p rm imm => layout p [0x81] (rm.bytes 6) (izBytes p imm)
  | .xorEvIb p rm imm => layout p [0x83] (rm.bytes 6) [imm]
  | .cmpEbIb p rm imm => layout p [0x80] (rm.bytes 7) [imm]
  | .cmpEvIz p rm imm => layout p [0x81] (rm.bytes 7) (izBytes p imm)
  | .cmpEvIb p rm imm => layout p [0x83] (rm.bytes 7) [imm]
  | .incR p r => layout p [plusRByte 0x40 r] [] []
  | .decR p r => layout p [plusRByte 0x48 r] [] []
  | .pushR p r => layout p [plusRByte 0x50 r] [] []
  | .popR p r => layout p [plusRByte 0x58 r] [] []
  | .movsxdGvEv p rm r => layout p [0x63] (rm.bytes r.bits) []
  | .pushIz p imm => layout p [0x68] (izBytes p imm) []
  | .imulGvEvIz p rm r imm => layout p [0x69] (rm.bytes r.bits) (izBytes p imm)
  | .pushIb p imm => layout p [0x6A] [imm] []
  | .imulGvEvIb p rm r imm => layout p [0x6B] (rm.bytes r.bits) [imm]
  | .joRel8 p rel => layout p [0x70] [rel] []
  | .jnoRel8 p rel => layout p [0x71] [rel] []
  | .jbRel8 p rel => layout p [0x72] [rel] []
  | .jaeRel8 p rel => layout p [0x73] [rel] []
  | .jeRel8 p rel => layout p [0x74] [rel] []
  | .jneRel8 p rel => layout p [0x75] [rel] []
  | .jbeRel8 p rel => layout p [0x76] [rel] []
  | .jaRel8 p rel => layout p [0x77] [rel] []
  | .jsRel8 p rel => layout p [0x78] [rel] []
  | .jnsRel8 p rel => layout p [0x79] [rel] []
  | .jpRel8 p rel => layout p [0x7A] [rel] []
  | .jnpRel8 p rel => layout p [0x7B] [rel] []
  | .jlRel8 p rel => layout p [0x7C] [rel] []
  | .jgeRel8 p rel => layout p [0x7D] [rel] []
  | .jleRel8 p rel => layout p [0x7E] [rel] []
  | .jgRel8 p rel => layout p [0x7F] [rel] []
  | .testEbGb p rm r => layout p [0x84] (rm.bytes r.bits) []
  | .testEvGv p rm r => layout p [0x85] (rm.bytes r.bits) []
  | .xchgEbGb p rm r => layout p [0x86] (rm.bytes r.bits) []
  | .xchgEvGv p rm r => layout p [0x87] (rm.bytes r.bits) []
  | .movEbGb p rm r => layout p [0x88] (rm.bytes r.bits) []
  | .movEvGv p rm r => layout p [0x89] (rm.bytes r.bits) []
  | .movGbEb p rm r => layout p [0x8A] (rm.bytes r.bits) []
  | .movGvEv p rm r => layout p [0x8B] (rm.bytes r.bits) []
  | .leaGvM p r a => layout p [0x8D] ((RM.mem a).bytes r.bits) []
  | .popEv p rm => layout p [0x8F] (rm.bytes 0) []
  | .nop p => layout p [0x90] [] []
  | .xchgEaxR p r => layout p [plusRByte 0x90 r] [] []
  | .cwde p => layout p [0x98] [] []
  | .cbw p => layout p [0x98] [] []
  | .cdq p => layout p [0x99] [] []
  | .cwd p => layout p [0x99] [] []
  | .movAlOb p a => layout p [0xA0] (leBytes 4 a.toNat) []
  | .movEaxOv p a => layout p [0xA1] (leBytes 4 a.toNat) []
  | .movObAl p a => layout p [0xA2] (leBytes 4 a.toNat) []
  | .movOvEax p a => layout p [0xA3] (leBytes 4 a.toNat) []
  | .movsb p => layout p [0xA4] [] []
  | .movsd p => layout p [0xA5] [] []
  | .movsw p => layout p [0xA5] [] []
  | .repMovsb p => layout p [0xA4] [] []
  | .repMovsd p => layout p [0xA5] [] []
  | .repMovsw p => layout p [0xA5] [] []
  | .testAlIb p imm => layout p [0xA8] [imm] []
  | .testEaxIz p imm => layout p [0xA9] (izBytes p imm) []
  | .movRbIb p r imm => layout p [plusRByte 0xB0 r] [imm] []
  | .movRvIz p r imm => layout p [plusRByte 0xB8 r] (izBytes p imm) []
  | .shlEbIb p rm imm => layout p [0xC0] (rm.bytes 4) [imm]
  | .shlEvIb p rm imm => layout p [0xC1] (rm.bytes 4) [imm]
  | .shlEb1 p rm => layout p [0xD0] (rm.bytes 4) []
  | .shlEv1 p rm => layout p [0xD1] (rm.bytes 4) []
  | .shlEbCl p rm => layout p [0xD2] (rm.bytes 4) []
  | .shlEvCl p rm => layout p [0xD3] (rm.bytes 4) []
  | .shrEbIb p rm imm => layout p [0xC0] (rm.bytes 5) [imm]
  | .shrEvIb p rm imm => layout p [0xC1] (rm.bytes 5) [imm]
  | .shrEb1 p rm => layout p [0xD0] (rm.bytes 5) []
  | .shrEv1 p rm => layout p [0xD1] (rm.bytes 5) []
  | .shrEbCl p rm => layout p [0xD2] (rm.bytes 5) []
  | .shrEvCl p rm => layout p [0xD3] (rm.bytes 5) []
  | .sarEbIb p rm imm => layout p [0xC0] (rm.bytes 7) [imm]
  | .sarEvIb p rm imm => layout p [0xC1] (rm.bytes 7) [imm]
  | .sarEb1 p rm => layout p [0xD0] (rm.bytes 7) []
  | .sarEv1 p rm => layout p [0xD1] (rm.bytes 7) []
  | .sarEbCl p rm => layout p [0xD2] (rm.bytes 7) []
  | .sarEvCl p rm => layout p [0xD3] (rm.bytes 7) []
  | .retIw p imm => layout p [0xC2] (leBytes 2 imm.toNat) []
  | .ret p => layout p [0xC3] [] []
  | .movEbIb p rm imm => layout p [0xC6] (rm.bytes 0) [imm]
  | .movEvIz p rm imm => layout p [0xC7] (rm.bytes 0) (izBytes p imm)
  | .leave p => layout p [0xC9] [] []
  | .int80 p => layout p [0xCD] [0x80] []
  | .callRel32 p rel => layout p [0xE8] (leBytes 4 rel.toNat) []
  | .jmpRel32 p rel => layout p [0xE9] (leBytes 4 rel.toNat) []
  | .jmpRel8 p rel => layout p [0xEB] [rel] []
  | .cmc p => layout p [0xF5] [] []
  | .testEbIb p rm imm => layout p [0xF6] (rm.bytes 0) [imm]
  | .testEvIz p rm imm => layout p [0xF7] (rm.bytes 0) (izBytes p imm)
  | .notEb p rm => layout p [0xF6] (rm.bytes 2) []
  | .notEv p rm => layout p [0xF7] (rm.bytes 2) []
  | .negEb p rm => layout p [0xF6] (rm.bytes 3) []
  | .negEv p rm => layout p [0xF7] (rm.bytes 3) []
  | .mulEb p rm => layout p [0xF6] (rm.bytes 4) []
  | .mulEv p rm => layout p [0xF7] (rm.bytes 4) []
  | .imulEb p rm => layout p [0xF6] (rm.bytes 5) []
  | .imulEv p rm => layout p [0xF7] (rm.bytes 5) []
  | .divEb p rm => layout p [0xF6] (rm.bytes 6) []
  | .divEv p rm => layout p [0xF7] (rm.bytes 6) []
  | .idivEb p rm => layout p [0xF6] (rm.bytes 7) []
  | .idivEv p rm => layout p [0xF7] (rm.bytes 7) []
  | .clc p => layout p [0xF8] [] []
  | .stc p => layout p [0xF9] [] []
  | .cli p => layout p [0xFA] [] []
  | .sti p => layout p [0xFB] [] []
  | .cld p => layout p [0xFC] [] []
  | .std p => layout p [0xFD] [] []
  | .incEb p rm => layout p [0xFE] (rm.bytes 0) []
  | .decEb p rm => layout p [0xFE] (rm.bytes 1) []
  | .incEv p rm => layout p [0xFF] (rm.bytes 0) []
  | .decEv p rm => layout p [0xFF] (rm.bytes 1) []
  | .callEv p rm => layout p [0xFF] (rm.bytes 2) []
  | .jmpEv p rm => layout p [0xFF] (rm.bytes 4) []
  | .pushEv p rm => layout p [0xFF] (rm.bytes 6) []
  | .joRel32 p rel => layout p [0x0F, 0x80] (leBytes 4 rel.toNat) []
  | .jnoRel32 p rel => layout p [0x0F, 0x81] (leBytes 4 rel.toNat) []
  | .jbRel32 p rel => layout p [0x0F, 0x82] (leBytes 4 rel.toNat) []
  | .jaeRel32 p rel => layout p [0x0F, 0x83] (leBytes 4 rel.toNat) []
  | .jeRel32 p rel => layout p [0x0F, 0x84] (leBytes 4 rel.toNat) []
  | .jneRel32 p rel => layout p [0x0F, 0x85] (leBytes 4 rel.toNat) []
  | .jbeRel32 p rel => layout p [0x0F, 0x86] (leBytes 4 rel.toNat) []
  | .jaRel32 p rel => layout p [0x0F, 0x87] (leBytes 4 rel.toNat) []
  | .jsRel32 p rel => layout p [0x0F, 0x88] (leBytes 4 rel.toNat) []
  | .jnsRel32 p rel => layout p [0x0F, 0x89] (leBytes 4 rel.toNat) []
  | .jpRel32 p rel => layout p [0x0F, 0x8A] (leBytes 4 rel.toNat) []
  | .jnpRel32 p rel => layout p [0x0F, 0x8B] (leBytes 4 rel.toNat) []
  | .jlRel32 p rel => layout p [0x0F, 0x8C] (leBytes 4 rel.toNat) []
  | .jgeRel32 p rel => layout p [0x0F, 0x8D] (leBytes 4 rel.toNat) []
  | .jleRel32 p rel => layout p [0x0F, 0x8E] (leBytes 4 rel.toNat) []
  | .jgRel32 p rel => layout p [0x0F, 0x8F] (leBytes 4 rel.toNat) []
  | .imulGvEv p rm r => layout p [0x0F, 0xAF] (rm.bytes r.bits) []
  | .movzxGvEb p rm r => layout p [0x0F, 0xB6] (rm.bytes r.bits) []
  | .movzxGvEw p rm r => layout p [0x0F, 0xB7] (rm.bytes r.bits) []
  | .movsxGvEb p rm r => layout p [0x0F, 0xBE] (rm.bytes r.bits) []
  | .movsxGvEw p rm r => layout p [0x0F, 0xBF] (rm.bytes r.bits) []

/-- The number of bytes of an instruction (R121): EIP_next is EIP_start plus this. -/
def Instr.length (i : Instr) : Nat := (encode i).length

/-- The bytes of a row of spec/opcode_table.json whose bits are `w`. The table writes a row's bytes as one number,
the first byte highest (`0x0F80` is 0F 80, `0x66F3A5` is 66 F3 A5). In the one-byte rows the table's reader has set
a stray operand bit 8; no two-byte row begins with 00 or 01, so such a number is the opcode in its low byte (log entry 8). -/
def tableBytes (nbits w : Nat) : List Byte :=
  match leBytes ((nbits + 7) / 8) w with
  | [lo, hi] => if hi.toNat ≤ 1 then [lo, hi] else [hi, lo]
  | bs => bs.reverse

/-- More zero bytes than any instruction of the table has after its opcode. -/
def zeroTail : List Byte := List.replicate 13 0

/-- The instruction the decoder reads from a table row's bits followed by zero bytes. -/
def decodeTableWord (nbits w : Nat) : Option Instr :=
  match decode (tableBytes nbits w ++ zeroTail) with
  | .ok (i, _) => some i
  | .error _ => none

end Sys2Proof
end

