-- ==== Sys2Proof/Machine/State.lean ====
section
/-! DEFINITION. The state of the machine as plain data (10_state.md), the outcomes of a run, and the state after
reset. -/

namespace Sys2Proof.Machine

/-- The eight 32-bit slots of the register file (R30). -/
structure Regs where
  eax : Word
  ecx : Word
  edx : Word
  ebx : Word
  esp : Word
  ebp : Word
  esi : Word
  edi : Word
deriving DecidableEq, Repr

/-- The nine EFLAGS bits that are state (R45). -/
structure Flags where
  CF : Bool
  PF : Bool
  AF : Bool
  ZF : Bool
  SF : Bool
  TF : Bool
  IF : Bool
  DF : Bool
  OF : Bool
deriving DecidableEq, Repr

/-- The memory: MEM_SIZE bytes (20_memory.md R80). `cells` lists the bytes that are not zero, by rising address;
an address below `size` that is not listed reads as zero, the reset contents R80 and R570 give. -/
structure Memory where
  size : Nat
  cells : List Host.Cell
deriving DecidableEq, Repr

/-- The canonical form: addresses strictly rising and inside the memory, and no zero byte listed. -/
abbrev Memory.wf (m : Memory) : Prop :=
  m.cells.Pairwise (fun c d => c.1 < d.1) ∧ ∀ c ∈ m.cells, c.1 < m.size ∧ c.2 ≠ 0

/-- The run state (R60). -/
inductive RunState where
  | running
  | halted
deriving DecidableEq, Repr

/-- The five fault kinds with what each records besides `eip` (60_exceptions.md R520). -/
inductive FaultKind where
  | boundsError (addr : Word) (len size : Nat)
  | unknownOpcode (bytes : List Byte)
  | unsupportedSyscall (eax : Word)
  | stackUnderflow (esp : Word) (len size : Nat)
  | divideError
deriving DecidableEq, Repr

/-- The code of a fault kind (R520). -/
def FaultKind.code : FaultKind → Nat
  | .boundsError .. => 1
  | .unknownOpcode .. => 2
  | .unsupportedSyscall .. => 3
  | .stackUnderflow .. => 4
  | .divideError => 5

/-- How a run ended (R62). A fault's `eip` is EIP_start; the loader's has none (60_exceptions.md R520). -/
inductive RunOutcome where
  | exited (code : Byte)
  | fault (kind : FaultKind) (eip : Option Word)
deriving DecidableEq, Repr

/-- The three byte streams, by descriptor 0, 1, 2 (R63). -/
inductive Fd where
  | stdin
  | stdout
  | stderr
deriving DecidableEq, Repr

/-- One transaction of the host port with its answer (R63, 00_scope.md R6). -/
inductive HostEvent where
  | read (fd : Fd) (count : Nat) (answer : ReadAnswer)
  | write (fd : Fd) (bytes : List Byte) (answer : WriteAnswer)
deriving DecidableEq, Repr

/-- The state of the machine. -/
structure State where
  /-- EAX to EDI (R30). -/
  regs : Regs
  /-- EIP (R40). -/
  eip : Word
  /-- The EFLAGS bits (R45). -/
  flags : Flags
  /-- Memory (R65). -/
  mem : Memory
  /-- Running or Halted (R60). -/
  run : RunState
  /-- The exit code, 0..255 (R61). -/
  exitCode : Byte
  /-- How the run ended (R62). -/
  outcome : Option RunOutcome
  /-- The host transactions so far, oldest first (R63). -/
  events : List HostEvent
  /-- MODEL'S OWN: how many draws of undefined flags have been taken (log entry 4). -/
  draws : Nat
  /-- MODEL'S OWN: the host's read answers to come (log entry 5). -/
  readAnswers : List ReadAnswer
  /-- MODEL'S OWN: the host's write answers to come (log entry 5). -/
  writeAnswers : List WriteAnswer
deriving DecidableEq, Repr

/-- Why no further step exists. The faults of the spec are not here: taking one is a NEXT state
(60_exceptions.md R525). -/
inductive Fault where
  /-- Raised by `step` in a halted machine, where "the core executes nothing" (R60; log entry 9). Safe. -/
  | halted
deriving DecidableEq, Repr

/-- Why an instruction has no meaning. -/
inductive Refusal where
  /-- Raised by an arm of `exec` whose instruction has no meaning yet; no arm does so. Safe. -/
  | notModelled (mnemonic : String)
deriving DecidableEq, Repr

/-- The answer of a meaning. -/
abbrev Result := Host.Outcome State Fault Refusal

/-- The machine right after reset: construction (70_reset_and_hazards.md R570) and the load of the empty image at
the default offset (R575), with the values Config names for the open parameters. ESP = MEM_SIZE mod 2^32 (R572). -/
def State.reset : State where
  regs :=
    { eax := Config.resetGpr, ecx := Config.resetGpr, edx := Config.resetGpr, ebx := Config.resetGpr
      esp := BitVec.ofNat 32 Config.resetMemSize
      ebp := Config.resetGpr, esi := Config.resetGpr, edi := Config.resetGpr }
  eip := Config.resetLoadOffset
  flags :=
    { CF := Config.resetFlag, PF := Config.resetFlag, AF := Config.resetFlag, ZF := Config.resetFlag
      SF := Config.resetFlag, TF := Config.resetFlag, IF := Config.resetFlag, DF := Config.resetFlag
      OF := Config.resetFlag }
  mem := { size := Config.resetMemSize, cells := [] }
  run := .running
  exitCode := 0
  outcome := none
  events := []
  draws := 0
  readAnswers := []
  writeAnswers := []

end Sys2Proof.Machine
end

