-- ==== Sys2Proof/Machine/Ops.lean ====
section
/-! DEFINITION. The operations over registers, memory, stack and host that the meanings share, and taking a
fault. Each answers an error of `FaultKind` where the spec says `raise` (00_scope.md R15). -/

namespace Sys2Proof

/-- The slot that 8-bit index `i` lies in (R31, R33): its own for AL to BL, the one four below for AH to BH. -/
def Reg.slot8 : Reg → Reg
  | .esp => .eax | .ebp => .ecx | .esi => .edx | .edi => .ebx | r => r

/-- Whether 8-bit index `i` names bits 15:8 of its slot (R31). -/
def Reg.isHigh : Reg → Bool
  | .esp | .ebp | .esi | .edi => true
  | _ => false

/-- The slot a view of width `w` with index `i` lies in. -/
def Reg.slot (i : Reg) : Width → Reg
  | .byte => i.slot8
  | _ => i

/-- A read answer cut to the bytes the transaction asked for, so that every answer is one R499 allows. -/
def ReadAnswer.limit (count : Nat) : ReadAnswer → ReadAnswer
  | .data bs => .data (bs.take count)
  | .ioError => .ioError

end Sys2Proof

namespace Sys2Proof.Machine

/-! ### Updates of one field -/

def State.withRegs (s : State) (v : Regs) : State := { s with regs := v }
def State.withEip (s : State) (v : Word) : State := { s with eip := v }
def State.withFlags (s : State) (v : Flags) : State := { s with flags := v }
def State.withMem (s : State) (v : Memory) : State := { s with mem := v }
def State.withDraws (s : State) (v : Nat) : State := { s with draws := v }

/-! ### Registers (10_state.md) -/

/-- `x[i]` (00_scope.md R12). -/
def Regs.get (x : Regs) : Reg → Word
  | .eax => x.eax | .ecx => x.ecx | .edx => x.edx | .ebx => x.ebx
  | .esp => x.esp | .ebp => x.ebp | .esi => x.esi | .edi => x.edi

/-- `x[i] <- v` (00_scope.md R12). -/
def Regs.set (x : Regs) (i : Reg) (v : Word) : Regs :=
  match i with
  | .eax => { x with eax := v } | .ecx => { x with ecx := v }
  | .edx => { x with edx := v } | .ebx => { x with ebx := v }
  | .esp => { x with esp := v } | .ebp => { x with ebp := v }
  | .esi => { x with esi := v } | .edi => { x with edi := v }

/-- `RegRead(i, w)` (R33). -/
def Regs.read (x : Regs) (i : Reg) : (w : Width) → BitVec w.bits
  | .dword => x.get i
  | .word => (x.get i).extractLsb' 0 16
  | .byte => (x.get i.slot8).extractLsb' (if i.isHigh then 8 else 0) 8

/-- `RegWrite(i, w, v)` (R34): only the bits of the view are written. -/
def Regs.write (x : Regs) (i : Reg) : (w : Width) → (v : BitVec w.bits) → Regs
  | .dword, v => x.set i v
  | .word, v => x.set i ((x.get i).extractLsb' 16 16 ++ v)
  | .byte, v =>
    let old := x.get i.slot8
    x.set i.slot8
      (if i.isHigh then old.extractLsb' 16 16 ++ v ++ old.extractLsb' 0 8
       else old.extractLsb' 8 24 ++ v)

def State.regRead (s : State) (i : Reg) (w : Width) : BitVec w.bits := s.regs.read i w

def State.regWrite (s : State) (i : Reg) (w : Width) (v : BitVec w.bits) : State :=
  s.withRegs (s.regs.write i w v)

/-! ### Memory (20_memory.md) -/

/-- The byte of an address in a list of cells; zero where none is listed (R80). -/
def lookupCell : List Host.Cell → Nat → Byte
  | [], _ => 0
  | (k, v) :: cs, a => if k = a then v else lookupCell cs a

/-- The cells with the byte at `a` set to `v`, kept in canonical form: a zero byte is not listed. -/
def setCell : List Host.Cell → Nat → Byte → List Host.Cell
  | [], a, v => if v = 0 then [] else [(a, v)]
  | (k, b) :: cs, a, v =>
    if a < k then (if v = 0 then (k, b) :: cs else (a, v) :: (k, b) :: cs)
    else if a = k then (if v = 0 then cs else (a, v) :: cs)
    else (k, b) :: setCell cs a v

/-- The byte at an address. -/
def Memory.read (m : Memory) (a : Nat) : Byte := lookupCell m.cells a

/-- The memory with one byte written. -/
def Memory.writeByte (m : Memory) (a : Nat) (v : Byte) : Memory := { m with cells := setCell m.cells a v }

/-- The `n` bytes from `a` up. -/
def Memory.readBytes (m : Memory) (a : Nat) : (n : Nat) → List Byte
  | 0 => []
  | n + 1 => m.read a :: m.readBytes (a + 1) n

/-- The memory with bytes written from `a` up. -/
def Memory.writeBytes (m : Memory) (a : Nat) : List Byte → Memory
  | [] => m
  | b :: bs => (m.writeByte a b).writeBytes (a + 1) bs

/-- `get(a, n)` (R82); nothing when `a + n > MEM_SIZE`. -/
def Memory.get (m : Memory) (a n : Nat) : Option (List Byte) :=
  if a + n ≤ m.size then some (m.readBytes a n) else none

/-- `set(a, bs)` (R83); nothing, and no byte written, when `a + len(bs) > MEM_SIZE`. -/
def Memory.set (m : Memory) (a : Nat) (bs : List Byte) : Option Memory :=
  if a + bs.length ≤ m.size then some (m.writeBytes a bs) else none

/-- `BoundsError` for `n` bytes at `a` (60_exceptions.md R520). -/
def State.outOfBounds (s : State) (a : Word) (n : Nat) : FaultKind := .boundsError a n s.mem.size

/-- `get` of 20_memory.md R82 in a state. -/
def State.getBytes (s : State) (a : Word) (n : Nat) : Except FaultKind (List Byte) :=
  match s.mem.get a.toNat n with
  | some bs => .ok bs
  | none => .error (s.outOfBounds a n)

/-- `set` of 20_memory.md R83 in a state. -/
def State.setBytes (s : State) (a : Word) (bs : List Byte) : Except FaultKind State :=
  match s.mem.set a.toNat bs with
  | some m => .ok (s.withMem m)
  | none => .error (s.outOfBounds a bs.length)

/-- `MemRead(a, w)` (R84). -/
def State.memRead (s : State) (a : Word) (w : Width) : Except FaultKind (BitVec w.bits) := do
  let bs ← s.getBytes a w.bytes
  .ok (BitVec.ofNat w.bits (leValue bs))

/-- `MemWrite(a, w, v)` (R85). -/
def State.memWrite (s : State) (a : Word) (w : Width) (v : BitVec w.bits) : Except FaultKind State :=
  s.setBytes a (leBytes w.bytes v.toNat)

/-! ### The stack (20_memory.md) -/

/-- `Push(w, v)` (R90): ESP is written only after the bytes are. -/
def push {w : Width} (v : BitVec w.bits) (s : State) : Except FaultKind State := do
  let new := s.regs.esp - BitVec.ofNat 32 w.bytes
  let s ← s.memWrite new w v
  .ok (s.regWrite .esp .dword new)

/-- `Pop(w)` (R91): the check, the read, then the increment. -/
def pop (w : Width) (s : State) : Except FaultKind (BitVec w.bits × State) :=
  if s.regs.esp.toNat + w.bytes > s.mem.size then
    .error (.stackUnderflow s.regs.esp w.bytes s.mem.size)
  else do
    let v ← s.memRead s.regs.esp w
    .ok (v, s.regWrite .esp .dword (s.regs.esp + BitVec.ofNat 32 w.bytes))

/-! ### Undefined flags (40_alu_flags.md R208) -/

/-- `draw()` number `k` of the instruction at hand. -/
def State.draw (s : State) (k : Nat) : Bool := Config.freeBit (s.draws + k)

/-- The state after an instruction that left flags undefined: its draws are used up, one for each of the six
status flags whether or not it was needed. -/
def State.endDraws (s : State) : State := s.withDraws (s.draws + 6)

/-- Every status flag undefined, from the six draws of the instruction at hand. -/
def State.undefinedFlags (s : State) : Flags :=
  { s.flags with
    CF := s.draw 0, PF := s.draw 1, AF := s.draw 2, ZF := s.draw 3, SF := s.draw 4, OF := s.draw 5 }

/-! ### The host port (49_syscall.md R499) -/

/-- The number of a descriptor. -/
def Fd.toNat : Fd → Nat
  | .stdin => 0
  | .stdout => 1
  | .stderr => 2

/-- The stream EBX names, compared on all 32 bits (R494). -/
def Fd.ofWord? (v : Word) : Option Fd :=
  match v.toNat with
  | 0 => some .stdin
  | 1 => some .stdout
  | 2 => some .stderr
  | _ => none

/-- `HOST.read(fd, count)`: the answer, and the state with the transaction recorded. -/
def State.hostRead (s : State) (fd : Fd) (count : Nat) : ReadAnswer × State :=
  let answer := ReadAnswer.limit count
    (match s.readAnswers with
     | a :: _ => a
     | [] => Config.hostRead s.events.length fd.toNat count)
  (answer, { s with
    readAnswers := s.readAnswers.drop 1, events := s.events ++ [.read fd count answer] })

/-- `HOST.write(fd, bs)`: the answer, and the state with the transaction recorded. -/
def State.hostWrite (s : State) (fd : Fd) (bs : List Byte) : WriteAnswer × State :=
  let answer :=
    (match s.writeAnswers with
     | a :: _ => a
     | [] => Config.hostWrite s.events.length fd.toNat bs)
  (answer, { s with
    writeAnswers := s.writeAnswers.drop 1, events := s.events ++ [.write fd bs answer] })

/-! ### The end of a run, taking a fault, and running a handler -/

/-- `halt(code)` (00_scope.md R15, 60_exceptions.md R530). -/
def State.exit (s : State) (code : Byte) : State :=
  { s with exitCode := code, run := .halted, outcome := some (.exited code) }

/-- Taking a fault (60_exceptions.md R525): the state is that before the instruction, so `s.eip` is EIP_start;
only the run state and the outcome change. There is no trap return (R535): Halted is terminal. -/
def State.raise (s : State) (k : FaultKind) : State :=
  { s with run := .halted, outcome := some (.fault k (some s.eip)) }

/-- EIP_next of an instruction that starts at EIP (00_scope.md R16). -/
def State.nextEip (s : State) (i : Instr) : Word := s.eip + BitVec.ofNat 32 i.length

/-- The state in which an instruction's handler runs: EIP is EIP_next (10_state.md R40). -/
def State.atNext (s : State) (i : Instr) : State := s.withEip (s.nextEip i)

/-- Run a handler from the instruction boundary `s` to the next one, or to the fault it raises. -/
def complete (i : Instr) (handler : State → Except FaultKind State) (s : State) : Result :=
  match handler (s.atNext i) with
  | .ok t => .next t
  | .error k => .next (s.raise k)

end Sys2Proof.Machine
end

