-- ==== Sys2Proof/Machine/Flags.lean ====
section
/-! DEFINITION. The flag engine (40_alu_flags.md R200 to R208), the results of the binary operations, and the
condition codes (R230). Each function takes the flags before and gives the flags after; a flag it does not name is
unchanged. -/

namespace Sys2Proof.Machine

/-- The number of one bits of a byte. -/
def popcount (b : Byte) : Nat :=
  (List.range 8).foldl (fun n k => n + (b.getLsbD k).toNat) 0

/-- `SZP(w, r)` (R201); PF looks at the low 8 bits whatever the width. -/
def Flags.szp {n : Nat} (f : Flags) (r : BitVec n) : Flags :=
  { f with SF := r.msb, ZF := r == 0, PF := popcount (r.setWidth 8) % 2 == 0 }

/-- `AddFlags(w, a, b, cin)` (R203) with AF of R202: the result and the flags. -/
def addFlags {n : Nat} (f : Flags) (a b : BitVec n) (cin : Bool) : BitVec n × Flags :=
  let full := a.toNat + b.toNat + cin.toNat
  let r := BitVec.ofNat n full
  (r, { f.szp r with
    CF := decide (full > 2 ^ n - 1)
    OF := ((a ^^^ r) &&& (b ^^^ r)).msb
    AF := (a ^^^ b ^^^ r).getLsbD 4 })

/-- `SubFlags(w, a, b, bin)` (R204) with AF of R202: the result and the flags. -/
def subFlags {n : Nat} (f : Flags) (a b : BitVec n) (bin : Bool) : BitVec n × Flags :=
  let r := BitVec.ofInt n (a.toNat - b.toNat - bin.toNat)
  (r, { f.szp r with
    CF := decide (a.toNat < b.toNat + bin.toNat)
    OF := ((a ^^^ b) &&& (a ^^^ r)).msb
    AF := (a ^^^ b ^^^ r).getLsbD 4 })

/-- `LogicFlags(w, r)` (R205): AF is not written. -/
def logicFlags {n : Nat} (f : Flags) (r : BitVec n) : BitVec n × Flags :=
  (r, { f.szp r with CF := false, OF := false })

/-- The eight binary operations (R215). -/
inductive AluOp where
  | add | or | adc | sbb | and | sub | xor | cmp
deriving DecidableEq, Repr

/-- `OP_k(w, a, b)` of R216: the result and the flags (42_arithmetic.md R300 to R308, 43_logical.md R350 to R354). -/
def AluOp.apply {n : Nat} (op : AluOp) (f : Flags) (a b : BitVec n) : BitVec n × Flags :=
  match op with
  | .add => addFlags f a b false
  | .adc => addFlags f a b f.CF
  | .sub => subFlags f a b false
  | .sbb => subFlags f a b f.CF
  | .cmp => subFlags f a b false
  | .and => logicFlags f (a &&& b)
  | .or => logicFlags f (a ||| b)
  | .xor => logicFlags f (a ^^^ b)

/-- `inc` (R206): the addition of 1 with CF kept. -/
def incFlags {n : Nat} (f : Flags) (a : BitVec n) : BitVec n × Flags :=
  let (r, g) := addFlags f a 1 false
  (r, { g with CF := f.CF })

/-- `dec` (R206): the subtraction of 1 with CF kept. -/
def decFlags {n : Nat} (f : Flags) (a : BitVec n) : BitVec n × Flags :=
  let (r, g) := subFlags f a 1 false
  (r, { g with CF := f.CF })

/-- The three shifts (44_shifts.md R380). -/
inductive ShiftOp where
  | shl | shr | sar
deriving DecidableEq, Repr

/-- The result of a shift by `c` places (R384, R386, R388). -/
def ShiftOp.result {n : Nat} (op : ShiftOp) (a : BitVec n) (c : Nat) : BitVec n :=
  match op with
  | .shl => a <<< c
  | .shr => a >>> c
  | .sar => a.sshiftRight c

/-- CF after a shift by `c ≥ 1` places, or nothing where it is undefined (R382, R384, R386, R388). -/
def ShiftOp.carry {n : Nat} (op : ShiftOp) (a : BitVec n) (c : Nat) : Option Bool :=
  match op with
  | .shl => if c < n then some (a.getLsbD (n - c)) else none
  | .shr => if c < n then some (a.getLsbD (c - 1)) else none
  | .sar => some (if c < n then a.getLsbD (c - 1) else a.msb)

/-- OF after a shift by one place (R382). -/
def ShiftOp.overflow1 {n : Nat} (op : ShiftOp) (a : BitVec n) : Bool :=
  match op with
  | .shl => xor (a <<< 1).msb a.msb
  | .shr => a.msb
  | .sar => false

/-- The flags after a shift by `c ≥ 1` places (R382); `u` holds the undefined values. -/
def ShiftOp.flags {n : Nat} (op : ShiftOp) (f u : Flags) (a : BitVec n) (c : Nat) : Flags :=
  { f.szp (op.result a c) with
    CF := (op.carry a c).getD u.CF
    OF := if c = 1 then op.overflow1 a else u.OF
    AF := u.AF }

/-- The flags after a multiply (42_arithmetic.md R320, R322, R324, R325); `u` holds the undefined values. -/
def mulFlags (f u : Flags) (overflow : Bool) : Flags :=
  { f with CF := overflow, OF := overflow, SF := u.SF, ZF := u.ZF, AF := u.AF, PF := u.PF }

/-- The sixteen condition codes (R230), by the first mnemonic of each. -/
inductive Cond where
  | o | no | b | ae | e | ne | be | a | s | ns | p | np | l | ge | le | g
deriving DecidableEq, Repr

/-- `Cond(cc)` on the flags (R230, R231). -/
def Cond.holds (c : Cond) (f : Flags) : Bool :=
  match c with
  | .o => f.OF
  | .no => !f.OF
  | .b => f.CF
  | .ae => !f.CF
  | .e => f.ZF
  | .ne => !f.ZF
  | .be => f.CF || f.ZF
  | .a => !f.CF && !f.ZF
  | .s => f.SF
  | .ns => !f.SF
  | .p => f.PF
  | .np => !f.PF
  | .l => f.SF != f.OF
  | .ge => f.SF == f.OF
  | .le => f.ZF || f.SF != f.OF
  | .g => !f.ZF && f.SF == f.OF

end Sys2Proof.Machine
end

