-- ==== Sys2Proof/Machine/Operands.lean ====
section
/-! DEFINITION. Operand handles (00_scope.md R14), effective addresses (30_encoding.md R138 to R140) and the widths
of immediates (R150, R151). -/

namespace Sys2Proof.Machine

/-- A handle of width `w` (R14). -/
inductive Operand (w : Width) where
  | reg (i : Reg)
  | mem (a : Word)
  | imm (v : BitVec w.bits)
deriving DecidableEq, Repr

/-- `ReadOp(op)` (R14). -/
def readOp {w : Width} (op : Operand w) (s : State) : Except FaultKind (BitVec w.bits) :=
  match op with
  | .reg i => .ok (s.regRead i w)
  | .mem a => s.memRead a w
  | .imm v => .ok v

/-- `WriteOp(op, v)` (R14); an immediate is never written. -/
def writeOp {w : Width} (op : Operand w) (v : BitVec w.bits) (s : State) : Except FaultKind State :=
  match op with
  | .reg i => .ok (s.regWrite i w v)
  | .mem a => s.memWrite a w v
  | .imm _ => .ok s

/-- The index part of SIB: ESP is no index (R139). -/
def indexPart (scale : BitVec 2) (index : Reg) (s : State) : Word :=
  if index = .esp then 0 else s.regs.get index <<< scale.toNat

end Sys2Proof.Machine

namespace Sys2Proof

/-- What a displacement adds: `d8` is sign-extended (R138, R140). -/
def Disp.value : Disp → Word
  | .none => 0
  | .d8 v => v.signExtend 32
  | .d32 v => v

/-- The effective address, modulo 2^32, from the registers of `s` (R138 to R140). -/
def Addr.effective (a : Addr) (s : Machine.State) : Word :=
  match a with
  | .direct d => d
  | .base b d => s.regs.get b + d.value
  | .sib scale index b d => s.regs.get b + Machine.indexPart scale index s + d.value
  | .sibNoBase scale index d => d + Machine.indexPart scale index s

/-- The r/m operand at width `w`: `DecodeRM` evaluated in `s` (R140). -/
def RM.operand (rm : RM) (w : Width) (s : Machine.State) : Machine.Operand w :=
  match rm with
  | .reg r => .reg r
  | .mem a => .mem (a.effective s)

end Sys2Proof

namespace Sys2Proof.Machine

/-- An `iz` immediate at the operand size (R150). -/
def immZ (p : Prefixes) (imm : Word) : BitVec p.osz.bits := imm.setWidth p.osz.bits

/-- A sign-extended byte immediate at the operand size (R151). -/
def immS (p : Prefixes) (imm : Byte) : BitVec p.osz.bits := imm.signExtend p.osz.bits

end Sys2Proof.Machine
end

