-- ==== Sys2Proof/Machine/Alu.lean ====
section
/-! DEFINITION. The template the eight binary ALU operations share (40_alu_flags.md R215, R216). -/

namespace Sys2Proof.Machine

/-- R216: read both operands, compute, write the flags, and the result unless the operation is CMP. -/
def alu (op : AluOp) {w : Width} (dst src : Operand w) (s : State) : Except FaultKind State := do
  let a ← readOp dst s
  let b ← readOp src s
  let (r, f) := op.apply s.flags a b
  if op = .cmp then .ok (s.withFlags f) else writeOp dst r (s.withFlags f)

/-- Read an operand, compute a result and flags, and write both. -/
def modify {w : Width} (dst : Operand w) (f : Flags → BitVec w.bits → BitVec w.bits × Flags) (s : State) :
    Except FaultKind State := do
  let a ← readOp dst s
  let (r, g) := f s.flags a
  writeOp dst r (s.withFlags g)

end Sys2Proof.Machine
end

