-- ==== Sys2Proof/Machine/Arithmetic.lean ====
section
/-! DEFINITION. Arithmetic (42_arithmetic.md). -/

namespace Sys2Proof.Machine

/-- INC (R310). -/
def increment {w : Width} (dst : Operand w) (s : State) : Except FaultKind State := modify dst incFlags s

/-- DEC (R312). -/
def decrement {w : Width} (dst : Operand w) (s : State) : Except FaultKind State := modify dst decFlags s

/-- NEG (R314): the subtraction `0 − a`. -/
def negate {w : Width} (dst : Operand w) (s : State) : Except FaultKind State :=
  modify dst (fun f a => subFlags f 0 a false) s

/-- The index whose view of width `w` holds the high half of a product and the remainder of a division: AH, DX or
EDX (10_state.md R36). Index 4 at width 1 is AH. -/
def highIndex : Width → Reg
  | .byte => .esp
  | _ => .edx

/-- The accumulator and its high half as one number of `2·N` bits: AX, DX ++ AX or EDX ++ EAX. -/
def readPair (w : Width) (s : State) : BitVec (w.bits + w.bits) :=
  s.regRead (highIndex w) w ++ s.regRead .eax w

/-- Write the accumulator and its high half. -/
def writePair (w : Width) (high low : BitVec w.bits) (s : State) : State :=
  (s.regWrite .eax w low).regWrite (highIndex w) w high

/-- MUL (R320). -/
def mulAcc {w : Width} (src : Operand w) (s : State) : Except FaultKind State := do
  let b ← readOp src s
  let p := (s.regRead .eax w).toNat * b.toNat
  let high := p / 2 ^ w.bits
  let t := writePair w (BitVec.ofNat w.bits high) (BitVec.ofNat w.bits p) s
  .ok (t.withFlags (mulFlags s.flags s.undefinedFlags (high != 0))).endDraws

/-- Whether an integer fits `n` bits as a signed number. -/
def fitsSigned (n : Nat) (p : Int) : Bool := decide (-2 ^ (n - 1) ≤ p ∧ p ≤ 2 ^ (n - 1) - 1)

/-- IMUL with one operand (R322): the product modulo `2^(2N)` in two halves. -/
def imulAcc {w : Width} (src : Operand w) (s : State) : Except FaultKind State := do
  let b ← readOp src s
  let p := (s.regRead .eax w).toInt * b.toInt
  let t := writePair w (BitVec.ofInt w.bits (p / 2 ^ w.bits)) (BitVec.ofInt w.bits p) s
  .ok (t.withFlags (mulFlags s.flags s.undefinedFlags (!fitsSigned w.bits p))).endDraws

/-- IMUL with two and three operands (R324, R325): the truncated product into a register. -/
def imulTo {w : Width} (r : Reg) (src1 src2 : Operand w) (s : State) : Except FaultKind State := do
  let a ← readOp src1 s
  let b ← readOp src2 s
  let p := a.toInt * b.toInt
  let t := s.regWrite r w (BitVec.ofInt w.bits p)
  .ok (t.withFlags (mulFlags s.flags s.undefinedFlags (!fitsSigned w.bits p))).endDraws

/-- The end of a division: quotient and remainder written, all six status flags undefined (R327, R329). -/
def endDivide (w : Width) (q m : BitVec w.bits) (s : State) : State :=
  ((writePair w m q s).withFlags s.undefinedFlags).endDraws

/-- DIV (R327). -/
def divide {w : Width} (src : Operand w) (s : State) : Except FaultKind State := do
  let b ← readOp src s
  let d := b.toNat
  let n := (readPair w s).toNat
  if d = 0 then .error .divideError
  else
    let q := n / d
    let m := n % d
    if q > 2 ^ w.bits - 1 then .error .divideError
    else .ok (endDivide w (BitVec.ofNat w.bits q) (BitVec.ofNat w.bits m) s)

/-- IDIV (R329): the quotient truncated toward zero, the remainder `n − q·d`. -/
def idivide {w : Width} (src : Operand w) (s : State) : Except FaultKind State := do
  let b ← readOp src s
  let d := b.toInt
  let n := (readPair w s).toInt
  if d = 0 then .error .divideError
  else
    let q := n.tdiv d
    let m := n - q * d
    if fitsSigned w.bits q then .ok (endDivide w (BitVec.ofInt w.bits q) (BitVec.ofInt w.bits m) s)
    else .error .divideError

/-- CWDE and CBW (R335): the accumulator widened with its sign from width `ws` to width `w`. -/
def signExtendAcc (ws w : Width) (s : State) : State :=
  s.regWrite .eax w ((s.regRead .eax ws).signExtend w.bits)

/-- CDQ and CWD (R337): EDX or DX filled with the sign of the accumulator. -/
def signFill (w : Width) (s : State) : State :=
  s.regWrite .edx w (if (s.regRead .eax w).msb then BitVec.allOnes w.bits else 0)

/-- `00`: add r/m8, r8 (R300). -/
def execAddEbGb (p : Prefixes) (rm : RM) (r : Reg) (s : State) : Result :=
  complete (.addEbGb p rm r) (fun t => alu .add (rm.operand .byte t) (.reg r) t) s

/-- `01`: add r/m16/32, r16/32 (R300). -/
def execAddEvGv (p : Prefixes) (rm : RM) (r : Reg) (s : State) : Result :=
  complete (.addEvGv p rm r) (fun t => alu .add (rm.operand p.osz t) (.reg r) t) s

/-- `02`: add r8, r/m8 (R300). -/
def execAddGbEb (p : Prefixes) (rm : RM) (r : Reg) (s : State) : Result :=
  complete (.addGbEb p rm r) (fun t => alu .add (.reg r) (rm.operand .byte t) t) s

/-- `03`: add r16/32, r/m16/32 (R300). -/
def execAddGvEv (p : Prefixes) (rm : RM) (r : Reg) (s : State) : Result :=
  complete (.addGvEv p rm r) (fun t => alu .add (.reg r) (rm.operand p.osz t) t) s

/-- `04`: add AL, imm8 (R300). -/
def execAddAlIb (p : Prefixes) (imm : Byte) (s : State) : Result :=
  complete (.addAlIb p imm) (fun t => alu .add (w := .byte) (.reg .eax) (.imm imm) t) s

/-- `05`: add eAX, imm16/32 (R300). -/
def execAddEaxIz (p : Prefixes) (imm : Word) (s : State) : Result :=
  complete (.addEaxIz p imm) (fun t => alu .add (w := p.osz) (.reg .eax) (.imm (immZ p imm)) t) s

/-- `10`: adc r/m8, r8 (R302). -/
def execAdcEbGb (p : Prefixes) (rm : RM) (r : Reg) (s : State) : Result :=
  complete (.adcEbGb p rm r) (fun t => alu .adc (rm.operand .byte t) (.reg r) t) s

/-- `11`: adc r/m16/32, r16/32 (R302). -/
def execAdcEvGv (p : Prefixes) (rm : RM) (r : Reg) (s : State) : Result :=
  complete (.adcEvGv p rm r) (fun t => alu .adc (rm.operand p.osz t) (.reg r) t) s

/-- `12`: adc r8, r/m8 (R302). -/
def execAdcGbEb (p : Prefixes) (rm : RM) (r : Reg) (s : State) : Result :=
  complete (.adcGbEb p rm r) (fun t => alu .adc (.reg r) (rm.operand .byte t) t) s

/-- `13`: adc r16/32, r/m16/32 (R302). -/
def execAdcGvEv (p : Prefixes) (rm : RM) (r : Reg) (s : State) : Result :=
  complete (.adcGvEv p rm r) (fun t => alu .adc (.reg r) (rm.operand p.osz t) t) s

/-- `14`: adc AL, imm8 (R302). -/
def execAdcAlIb (p : Prefixes) (imm : Byte) (s : State) : Result :=
  complete (.adcAlIb p imm) (fun t => alu .adc (w := .byte) (.reg .eax) (.imm imm) t) s

/-- `15`: adc eAX, imm16/32 (R302). -/
def execAdcEaxIz (p : Prefixes) (imm : Word) (s : State) : Result :=
  complete (.adcEaxIz p imm) (fun t => alu .adc (w := p.osz) (.reg .eax) (.imm (immZ p imm)) t) s

/-- `18`: sbb r/m8, r8 (R306). -/
def execSbbEbGb (p : Prefixes) (rm : RM) (r : Reg) (s : State) : Result :=
  complete (.sbbEbGb p rm r) (fun t => alu .sbb (rm.operand .byte t) (.reg r) t) s

/-- `19`: sbb r/m16/32, r16/32 (R306). -/
def execSbbEvGv (p : Prefixes) (rm : RM) (r : Reg) (s : State) : Result :=
  complete (.sbbEvGv p rm r) (fun t => alu .sbb (rm.operand p.osz t) (.reg r) t) s

/-- `1A`: sbb r8, r/m8 (R306). -/
def execSbbGbEb (p : Prefixes) (rm : RM) (r : Reg) (s : State) : Result :=
  complete (.sbbGbEb p rm r) (fun t => alu .sbb (.reg r) (rm.operand .byte t) t) s

/-- `1B`: sbb r16/32, r/m16/32 (R306). -/
def execSbbGvEv (p : Prefixes) (rm : RM) (r : Reg) (s : State) : Result :=
  complete (.sbbGvEv p rm r) (fun t => alu .sbb (.reg r) (rm.operand p.osz t) t) s

/-- `1C`: sbb AL, imm8 (R306). -/
def execSbbAlIb (p : Prefixes) (imm : Byte) (s : State) : Result :=
  complete (.sbbAlIb p imm) (fun t => alu .sbb (w := .byte) (.reg .eax) (.imm imm) t) s

/-- `1D`: sbb eAX, imm16/32 (R306). -/
def execSbbEaxIz (p : Prefixes) (imm : Word) (s : State) : Result :=
  complete (.sbbEaxIz p imm) (fun t => alu .sbb (w := p.osz) (.reg .eax) (.imm (immZ p imm)) t) s

/-- `28`: sub r/m8, r8 (R304). -/
def execSubEbGb (p : Prefixes) (rm : RM) (r : Reg) (s : State) : Result :=
  complete (.subEbGb p rm r) (fun t => alu .sub (rm.operand .byte t) (.reg r) t) s

/-- `29`: sub r/m16/32, r16/32 (R304). -/
def execSubEvGv (p : Prefixes) (rm : RM) (r : Reg) (s : State) : Result :=
  complete (.subEvGv p rm r) (fun t => alu .sub (rm.operand p.osz t) (.reg r) t) s

/-- `2A`: sub r8, r/m8 (R304). -/
def execSubGbEb (p : Prefixes) (rm : RM) (r : Reg) (s : State) : Result :=
  complete (.subGbEb p rm r) (fun t => alu .sub (.reg r) (rm.operand .byte t) t) s

/-- `2B`: sub r16/32, r/m16/32 (R304). -/
def execSubGvEv (p : Prefixes) (rm : RM) (r : Reg) (s : State) : Result :=
  complete (.subGvEv p rm r) (fun t => alu .sub (.reg r) (rm.operand p.osz t) t) s

/-- `2C`: sub AL, imm8 (R304). -/
def execSubAlIb (p : Prefixes) (imm : Byte) (s : State) : Result :=
  complete (.subAlIb p imm) (fun t => alu .sub (w := .byte) (.reg .eax) (.imm imm) t) s

/-- `2D`: sub eAX, imm16/32 (R304). -/
def execSubEaxIz (p : Prefixes) (imm : Word) (s : State) : Result :=
  complete (.subEaxIz p imm) (fun t => alu .sub (w := p.osz) (.reg .eax) (.imm (immZ p imm)) t) s

/-- `38`: cmp r/m8, r8 (R308). -/
def execCmpEbGb (p : Prefixes) (rm : RM) (r : Reg) (s : State) : Result :=
  complete (.cmpEbGb p rm r) (fun t => alu .cmp (rm.operand .byte t) (.reg r) t) s

/-- `39`: cmp r/m16/32, r16/32 (R308). -/
def execCmpEvGv (p : Prefixes) (rm : RM) (r : Reg) (s : State) : Result :=
  complete (.cmpEvGv p rm r) (fun t => alu .cmp (rm.operand p.osz t) (.reg r) t) s

/-- `3A`: cmp r8, r/m8 (R308). -/
def execCmpGbEb (p : Prefixes) (rm : RM) (r : Reg) (s : State) : Result :=
  complete (.cmpGbEb p rm r) (fun t => alu .cmp (.reg r) (rm.operand .byte t) t) s

/-- `3B`: cmp r16/32, r/m16/32 (R308). -/
def execCmpGvEv (p : Prefixes) (rm : RM) (r : Reg) (s : State) : Result :=
  complete (.cmpGvEv p rm r) (fun t => alu .cmp (.reg r) (rm.operand p.osz t) t) s

/-- `3C`: cmp AL, imm8 (R308). -/
def execCmpAlIb (p : Prefixes) (imm : Byte) (s : State) : Result :=
  complete (.cmpAlIb p imm) (fun t => alu .cmp (w := .byte) (.reg .eax) (.imm imm) t) s

/-- `3D`: cmp eAX, imm16/32 (R308). -/
def execCmpEaxIz (p : Prefixes) (imm : Word) (s : State) : Result :=
  complete (.cmpEaxIz p imm) (fun t => alu .cmp (w := p.osz) (.reg .eax) (.imm (immZ p imm)) t) s

/-- `80 /0`: add r/m8, imm8 (R300). -/
def execAddEbIb (p : Prefixes) (rm : RM) (imm : Byte) (s : State) : Result :=
  complete (.addEbIb p rm imm) (fun t => alu .add (rm.operand .byte t) (.imm imm) t) s

/-- `81 /0`: add r/m16/32, imm16/32 (R300). -/
def execAddEvIz (p : Prefixes) (rm : RM) (imm : Word) (s : State) : Result :=
  complete (.addEvIz p rm imm) (fun t => alu .add (rm.operand p.osz t) (.imm (immZ p imm)) t) s

/-- `83 /0`: add r/m16/32, sign-extended imm8 (R300). -/
def execAddEvIb (p : Prefixes) (rm : RM) (imm : Byte) (s : State) : Result :=
  complete (.addEvIb p rm imm) (fun t => alu .add (rm.operand p.osz t) (.imm (immS p imm)) t) s

/-- `80 /2`: adc r/m8, imm8 (R302). -/
def execAdcEbIb (p : Prefixes) (rm : RM) (imm : Byte) (s : State) : Result :=
  complete (.adcEbIb p rm imm) (fun t => alu .adc (rm.operand .byte t) (.imm imm) t) s

/-- `81 /2`: adc r/m16/32, imm16/32 (R302). -/
def execAdcEvIz (p : Prefixes) (rm : RM) (imm : Word) (s : State) : Result :=
  complete (.adcEvIz p rm imm) (fun t => alu .adc (rm.operand p.osz t) (.imm (immZ p imm)) t) s

/-- `83 /2`: adc r/m16/32, sign-extended imm8 (R302). -/
def execAdcEvIb (p : Prefixes) (rm : RM) (imm : Byte) (s : State) : Result :=
  complete (.adcEvIb p rm imm) (fun t => alu .adc (rm.operand p.osz t) (.imm (immS p imm)) t) s

/-- `80 /3`: sbb r/m8, imm8 (R306). -/
def execSbbEbIb (p : Prefixes) (rm : RM) (imm : Byte) (s : State) : Result :=
  complete (.sbbEbIb p rm imm) (fun t => alu .sbb (rm.operand .byte t) (.imm imm) t) s

/-- `81 /3`: sbb r/m16/32, imm16/32 (R306). -/
def execSbbEvIz (p : Prefixes) (rm : RM) (imm : Word) (s : State) : Result :=
  complete (.sbbEvIz p rm imm) (fun t => alu .sbb (rm.operand p.osz t) (.imm (immZ p imm)) t) s

/-- `83 /3`: sbb r/m16/32, sign-extended imm8 (R306). -/
def execSbbEvIb (p : Prefixes) (rm : RM) (imm : Byte) (s : State) : Result :=
  complete (.sbbEvIb p rm imm) (fun t => alu .sbb (rm.operand p.osz t) (.imm (immS p imm)) t) s

/-- `80 /5`: sub r/m8, imm8 (R304). -/
def execSubEbIb (p : Prefixes) (rm : RM) (imm : Byte) (s : State) : Result :=
  complete (.subEbIb p rm imm) (fun t => alu .sub (rm.operand .byte t) (.imm imm) t) s

/-- `81 /5`: sub r/m16/32, imm16/32 (R304). -/
def execSubEvIz (p : Prefixes) (rm : RM) (imm : Word) (s : State) : Result :=
  complete (.subEvIz p rm imm) (fun t => alu .sub (rm.operand p.osz t) (.imm (immZ p imm)) t) s

/-- `83 /5`: sub r/m16/32, sign-extended imm8 (R304). -/
def execSubEvIb (p : Prefixes) (rm : RM) (imm : Byte) (s : State) : Result :=
  complete (.subEvIb p rm imm) (fun t => alu .sub (rm.operand p.osz t) (.imm (immS p imm)) t) s

/-- `80 /7`: cmp r/m8, imm8 (R308). -/
def execCmpEbIb (p : Prefixes) (rm : RM) (imm : Byte) (s : State) : Result :=
  complete (.cmpEbIb p rm imm) (fun t => alu .cmp (rm.operand .byte t) (.imm imm) t) s

/-- `81 /7`: cmp r/m16/32, imm16/32 (R308). -/
def execCmpEvIz (p : Prefixes) (rm : RM) (imm : Word) (s : State) : Result :=
  complete (.cmpEvIz p rm imm) (fun t => alu .cmp (rm.operand p.osz t) (.imm (immZ p imm)) t) s

/-- `83 /7`: cmp r/m16/32, sign-extended imm8 (R308). -/
def execCmpEvIb (p : Prefixes) (rm : RM) (imm : Byte) (s : State) : Result :=
  complete (.cmpEvIb p rm imm) (fun t => alu .cmp (rm.operand p.osz t) (.imm (immS p imm)) t) s

/-- `40+r`: inc r16/32 (R310). -/
def execIncR (p : Prefixes) (r : Reg) (s : State) : Result :=
  complete (.incR p r) (fun t => increment (w := p.osz) (.reg r) t) s

/-- `48+r`: dec r16/32 (R312). -/
def execDecR (p : Prefixes) (r : Reg) (s : State) : Result :=
  complete (.decR p r) (fun t => decrement (w := p.osz) (.reg r) t) s

/-- `69`: imul r16/32, r/m16/32, imm16/32 (R325). -/
def execImulGvEvIz (p : Prefixes) (rm : RM) (r : Reg) (imm : Word) (s : State) : Result :=
  complete (.imulGvEvIz p rm r imm) (fun t => imulTo r (rm.operand p.osz t) (.imm (immZ p imm)) t) s

/-- `6B`: imul r16/32, r/m16/32, sign-extended imm8 (R325). -/
def execImulGvEvIb (p : Prefixes) (rm : RM) (r : Reg) (imm : Byte) (s : State) : Result :=
  complete (.imulGvEvIb p rm r imm) (fun t => imulTo r (rm.operand p.osz t) (.imm (immS p imm)) t) s

/-- `98`: cwde (R335). -/
def execCwde (p : Prefixes) (s : State) : Result :=
  complete (.cwde p) (fun t => .ok (signExtendAcc .word .dword t)) s

/-- `66 98`: cbw (R335). -/
def execCbw (p : Prefixes) (s : State) : Result :=
  complete (.cbw p) (fun t => .ok (signExtendAcc .byte .word t)) s

/-- `99`: cdq (R337). -/
def execCdq (p : Prefixes) (s : State) : Result :=
  complete (.cdq p) (fun t => .ok (signFill .dword t)) s

/-- `66 99`: cwd (R337). -/
def execCwd (p : Prefixes) (s : State) : Result :=
  complete (.cwd p) (fun t => .ok (signFill .word t)) s

/-- `F6 /3`: neg r/m8 (R314). -/
def execNegEb (p : Prefixes) (rm : RM) (s : State) : Result :=
  complete (.negEb p rm) (fun t => negate (rm.operand .byte t) t) s

/-- `F7 /3`: neg r/m16/32 (R314). -/
def execNegEv (p : Prefixes) (rm : RM) (s : State) : Result :=
  complete (.negEv p rm) (fun t => negate (rm.operand p.osz t) t) s

/-- `F6 /4`: mul r/m8 (R320). -/
def execMulEb (p : Prefixes) (rm : RM) (s : State) : Result :=
  complete (.mulEb p rm) (fun t => mulAcc (rm.operand .byte t) t) s

/-- `F7 /4`: mul r/m16/32 (R320). -/
def execMulEv (p : Prefixes) (rm : RM) (s : State) : Result :=
  complete (.mulEv p rm) (fun t => mulAcc (rm.operand p.osz t) t) s

/-- `F6 /5`: imul r/m8 (R322). -/
def execImulEb (p : Prefixes) (rm : RM) (s : State) : Result :=
  complete (.imulEb p rm) (fun t => imulAcc (rm.operand .byte t) t) s

/-- `F7 /5`: imul r/m16/32 (R322). -/
def execImulEv (p : Prefixes) (rm : RM) (s : State) : Result :=
  complete (.imulEv p rm) (fun t => imulAcc (rm.operand p.osz t) t) s

/-- `F6 /6`: div r/m8 (R327). -/
def execDivEb (p : Prefixes) (rm : RM) (s : State) : Result :=
  complete (.divEb p rm) (fun t => divide (rm.operand .byte t) t) s

/-- `F7 /6`: div r/m16/32 (R327). -/
def execDivEv (p : Prefixes) (rm : RM) (s : State) : Result :=
  complete (.divEv p rm) (fun t => divide (rm.operand p.osz t) t) s

/-- `F6 /7`: idiv r/m8 (R329). -/
def execIdivEb (p : Prefixes) (rm : RM) (s : State) : Result :=
  complete (.idivEb p rm) (fun t => idivide (rm.operand .byte t) t) s

/-- `F7 /7`: idiv r/m16/32 (R329). -/
def execIdivEv (p : Prefixes) (rm : RM) (s : State) : Result :=
  complete (.idivEv p rm) (fun t => idivide (rm.operand p.osz t) t) s

/-- `FE /0`: inc r/m8 (R310). -/
def execIncEb (p : Prefixes) (rm : RM) (s : State) : Result :=
  complete (.incEb p rm) (fun t => increment (rm.operand .byte t) t) s

/-- `FE /1`: dec r/m8 (R312). -/
def execDecEb (p : Prefixes) (rm : RM) (s : State) : Result :=
  complete (.decEb p rm) (fun t => decrement (rm.operand .byte t) t) s

/-- `FF /0`: inc r/m16/32 (R310). -/
def execIncEv (p : Prefixes) (rm : RM) (s : State) : Result :=
  complete (.incEv p rm) (fun t => increment (rm.operand p.osz t) t) s

/-- `FF /1`: dec r/m16/32 (R312). -/
def execDecEv (p : Prefixes) (rm : RM) (s : State) : Result :=
  complete (.decEv p rm) (fun t => decrement (rm.operand p.osz t) t) s

/-- `0F AF`: imul r16/32, r/m16/32 (R324). -/
def execImulGvEv (p : Prefixes) (rm : RM) (r : Reg) (s : State) : Result :=
  complete (.imulGvEv p rm r) (fun t => imulTo r (.reg r) (rm.operand p.osz t) t) s

end Sys2Proof.Machine
end

