-- ==== Sys2Proof/Machine/Control.lean ====
section
/-! DEFINITION. Control transfer (45_control.md). A handler runs with EIP = EIP_next, so a relative target is EIP
plus the offset, and EIP is the return address. No flag is written, and no target is checked (R422). -/

namespace Sys2Proof.Machine

/-- `pc <- target`. -/
def State.jump (s : State) (target : Word) : State := s.withEip target

/-- JCC (R405, R406). -/
def jumpIf (c : Cond) (rel : Word) (s : State) : Except FaultKind State :=
  .ok (if c.holds s.flags then s.jump (s.eip + rel) else s)

/-- JMP r/m32 (R402). -/
def jumpVia (op : Operand .dword) (s : State) : Except FaultKind State := do
  let t ← readOp op s
  .ok (s.jump t)

/-- CALL (R410): the return address is pushed, then EIP is the target. -/
def callTo (target : Word) (s : State) : Except FaultKind State := do
  let u ← push (w := .dword) s.eip s
  .ok (u.jump target)

/-- CALL r/m32 (R411): the target is read before ESP changes. -/
def callVia (op : Operand .dword) (s : State) : Except FaultKind State := do
  let t ← readOp op s
  callTo t s

/-- RET (R415). -/
def returnNear (s : State) : Except FaultKind State := do
  let (t, u) ← pop .dword s
  .ok (u.jump t)

/-- RET imm16 (R416): ESP moves past the immediate as well. -/
def returnAdjust (imm : BitVec 16) (s : State) : Except FaultKind State := do
  let (t, u) ← pop .dword s
  .ok ((u.regWrite .esp .dword (u.regs.esp + imm.setWidth 32)).jump t)

/-- `70`: jo rel8 (R405). -/
def execJoRel8 (p : Prefixes) (rel : Byte) (s : State) : Result :=
  complete (.joRel8 p rel) (fun t => jumpIf .o (rel.signExtend 32) t) s

/-- `71`: jno rel8 (R405). -/
def execJnoRel8 (p : Prefixes) (rel : Byte) (s : State) : Result :=
  complete (.jnoRel8 p rel) (fun t => jumpIf .no (rel.signExtend 32) t) s

/-- `72`: jb rel8 (R405). -/
def execJbRel8 (p : Prefixes) (rel : Byte) (s : State) : Result :=
  complete (.jbRel8 p rel) (fun t => jumpIf .b (rel.signExtend 32) t) s

/-- `73`: jae rel8 (R405). -/
def execJaeRel8 (p : Prefixes) (rel : Byte) (s : State) : Result :=
  complete (.jaeRel8 p rel) (fun t => jumpIf .ae (rel.signExtend 32) t) s

/-- `74`: je rel8 (R405). -/
def execJeRel8 (p : Prefixes) (rel : Byte) (s : State) : Result :=
  complete (.jeRel8 p rel) (fun t => jumpIf .e (rel.signExtend 32) t) s

/-- `75`: jne rel8 (R405). -/
def execJneRel8 (p : Prefixes) (rel : Byte) (s : State) : Result :=
  complete (.jneRel8 p rel) (fun t => jumpIf .ne (rel.signExtend 32) t) s

/-- `76`: jbe rel8 (R405). -/
def execJbeRel8 (p : Prefixes) (rel : Byte) (s : State) : Result :=
  complete (.jbeRel8 p rel) (fun t => jumpIf .be (rel.signExtend 32) t) s

/-- `77`: ja rel8 (R405). -/
def execJaRel8 (p : Prefixes) (rel : Byte) (s : State) : Result :=
  complete (.jaRel8 p rel) (fun t => jumpIf .a (rel.signExtend 32) t) s

/-- `78`: js rel8 (R405). -/
def execJsRel8 (p : Prefixes) (rel : Byte) (s : State) : Result :=
  complete (.jsRel8 p rel) (fun t => jumpIf .s (rel.signExtend 32) t) s

/-- `79`: jns rel8 (R405). -/
def execJnsRel8 (p : Prefixes) (rel : Byte) (s : State) : Result :=
  complete (.jnsRel8 p rel) (fun t => jumpIf .ns (rel.signExtend 32) t) s

/-- `7A`: jp rel8 (R405). -/
def execJpRel8 (p : Prefixes) (rel : Byte) (s : State) : Result :=
  complete (.jpRel8 p rel) (fun t => jumpIf .p (rel.signExtend 32) t) s

/-- `7B`: jnp rel8 (R405). -/
def execJnpRel8 (p : Prefixes) (rel : Byte) (s : State) : Result :=
  complete (.jnpRel8 p rel) (fun t => jumpIf .np (rel.signExtend 32) t) s

/-- `7C`: jl rel8 (R405). -/
def execJlRel8 (p : Prefixes) (rel : Byte) (s : State) : Result :=
  complete (.jlRel8 p rel) (fun t => jumpIf .l (rel.signExtend 32) t) s

/-- `7D`: jge rel8 (R405). -/
def execJgeRel8 (p : Prefixes) (rel : Byte) (s : State) : Result :=
  complete (.jgeRel8 p rel) (fun t => jumpIf .ge (rel.signExtend 32) t) s

/-- `7E`: jle rel8 (R405). -/
def execJleRel8 (p : Prefixes) (rel : Byte) (s : State) : Result :=
  complete (.jleRel8 p rel) (fun t => jumpIf .le (rel.signExtend 32) t) s

/-- `7F`: jg rel8 (R405). -/
def execJgRel8 (p : Prefixes) (rel : Byte) (s : State) : Result :=
  complete (.jgRel8 p rel) (fun t => jumpIf .g (rel.signExtend 32) t) s

/-- `C2`: ret imm16 (R416). -/
def execRetIw (p : Prefixes) (imm : BitVec 16) (s : State) : Result :=
  complete (.retIw p imm) (fun t => returnAdjust imm t) s

/-- `C3`: ret (R415). -/
def execRet (p : Prefixes) (s : State) : Result :=
  complete (.ret p) (fun t => returnNear t) s

/-- `E8`: call rel32 (R410). -/
def execCallRel32 (p : Prefixes) (rel : Word) (s : State) : Result :=
  complete (.callRel32 p rel) (fun t => callTo (t.eip + rel) t) s

/-- `E9`: jmp rel32 (R401). -/
def execJmpRel32 (p : Prefixes) (rel : Word) (s : State) : Result :=
  complete (.jmpRel32 p rel) (fun t => .ok (t.jump (t.eip + rel))) s

/-- `EB`: jmp rel8 (R400). -/
def execJmpRel8 (p : Prefixes) (rel : Byte) (s : State) : Result :=
  complete (.jmpRel8 p rel) (fun t => .ok (t.jump (t.eip + rel.signExtend 32))) s

/-- `FF /2`: call r/m32 (R411). -/
def execCallEv (p : Prefixes) (rm : RM) (s : State) : Result :=
  complete (.callEv p rm) (fun t => callVia (rm.operand .dword t) t) s

/-- `FF /4`: jmp r/m32 (R402). -/
def execJmpEv (p : Prefixes) (rm : RM) (s : State) : Result :=
  complete (.jmpEv p rm) (fun t => jumpVia (rm.operand .dword t) t) s

/-- `0F 80`: jo rel32 (R406). -/
def execJoRel32 (p : Prefixes) (rel : Word) (s : State) : Result :=
  complete (.joRel32 p rel) (fun t => jumpIf .o rel t) s

/-- `0F 81`: jno rel32 (R406). -/
def execJnoRel32 (p : Prefixes) (rel : Word) (s : State) : Result :=
  complete (.jnoRel32 p rel) (fun t => jumpIf .no rel t) s

/-- `0F 82`: jb rel32 (R406). -/
def execJbRel32 (p : Prefixes) (rel : Word) (s : State) : Result :=
  complete (.jbRel32 p rel) (fun t => jumpIf .b rel t) s

/-- `0F 83`: jae rel32 (R406). -/
def execJaeRel32 (p : Prefixes) (rel : Word) (s : State) : Result :=
  complete (.jaeRel32 p rel) (fun t => jumpIf .ae rel t) s

/-- `0F 84`: je rel32 (R406). -/
def execJeRel32 (p : Prefixes) (rel : Word) (s : State) : Result :=
  complete (.jeRel32 p rel) (fun t => jumpIf .e rel t) s

/-- `0F 85`: jne rel32 (R406). -/
def execJneRel32 (p : Prefixes) (rel : Word) (s : State) : Result :=
  complete (.jneRel32 p rel) (fun t => jumpIf .ne rel t) s

/-- `0F 86`: jbe rel32 (R406). -/
def execJbeRel32 (p : Prefixes) (rel : Word) (s : State) : Result :=
  complete (.jbeRel32 p rel) (fun t => jumpIf .be rel t) s

/-- `0F 87`: ja rel32 (R406). -/
def execJaRel32 (p : Prefixes) (rel : Word) (s : State) : Result :=
  complete (.jaRel32 p rel) (fun t => jumpIf .a rel t) s

/-- `0F 88`: js rel32 (R406). -/
def execJsRel32 (p : Prefixes) (rel : Word) (s : State) : Result :=
  complete (.jsRel32 p rel) (fun t => jumpIf .s rel t) s

/-- `0F 89`: jns rel32 (R406). -/
def execJnsRel32 (p : Prefixes) (rel : Word) (s : State) : Result :=
  complete (.jnsRel32 p rel) (fun t => jumpIf .ns rel t) s

/-- `0F 8A`: jp rel32 (R406). -/
def execJpRel32 (p : Prefixes) (rel : Word) (s : State) : Result :=
  complete (.jpRel32 p rel) (fun t => jumpIf .p rel t) s

/-- `0F 8B`: jnp rel32 (R406). -/
def execJnpRel32 (p : Prefixes) (rel : Word) (s : State) : Result :=
  complete (.jnpRel32 p rel) (fun t => jumpIf .np rel t) s

/-- `0F 8C`: jl rel32 (R406). -/
def execJlRel32 (p : Prefixes) (rel : Word) (s : State) : Result :=
  complete (.jlRel32 p rel) (fun t => jumpIf .l rel t) s

/-- `0F 8D`: jge rel32 (R406). -/
def execJgeRel32 (p : Prefixes) (rel : Word) (s : State) : Result :=
  complete (.jgeRel32 p rel) (fun t => jumpIf .ge rel t) s

/-- `0F 8E`: jle rel32 (R406). -/
def execJleRel32 (p : Prefixes) (rel : Word) (s : State) : Result :=
  complete (.jleRel32 p rel) (fun t => jumpIf .le rel t) s

/-- `0F 8F`: jg rel32 (R406). -/
def execJgRel32 (p : Prefixes) (rel : Word) (s : State) : Result :=
  complete (.jgRel32 p rel) (fun t => jumpIf .g rel t) s

end Sys2Proof.Machine
end

