-- ==== Sys2Proof/Machine/DataMovement.lean ====
section
/-! DEFINITION. Data movement (41_data_movement.md): mov, movzx, movsx, movsxd, xchg, lea. No flag is read or
written. -/

namespace Sys2Proof.Machine

/-- `v <- ReadOp(src); WriteOp(dst, v)` (R251 to R256, R264). -/
def move {w : Width} (dst src : Operand w) (s : State) : Except FaultKind State := do
  let v ← readOp src s
  writeOp dst v s

/-- MOVZX (R262): the source widened with zeros to width `w`. -/
def moveZeroExtend (w : Width) (r : Reg) {ws : Width} (src : Operand ws) (s : State) : Except FaultKind State := do
  let v ← readOp src s
  .ok (s.regWrite r w (v.setWidth w.bits))

/-- MOVSX (R263): the source widened with its sign to width `w`. -/
def moveSignExtend (w : Width) (r : Reg) {ws : Width} (src : Operand ws) (s : State) : Except FaultKind State := do
  let v ← readOp src s
  .ok (s.regWrite r w (v.signExtend w.bits))

/-- XCHG (R270, R271): both operands are read before either is written. -/
def exchange {w : Width} (op1 op2 : Operand w) (s : State) : Except FaultKind State := do
  let t1 ← readOp op1 s
  let t2 ← readOp op2 s
  let s ← writeOp op1 t2 s
  writeOp op2 t1 s

/-- LEA (R275): the address itself, at width `w`; memory is not accessed. -/
def loadAddress (w : Width) (r : Reg) (ea : Word) (s : State) : Except FaultKind State :=
  .ok (s.regWrite r w (ea.setWidth w.bits))

/-- `63`: movsxd r16/32, r/m16/32 (a copy) (R264). -/
def execMovsxdGvEv (p : Prefixes) (rm : RM) (r : Reg) (s : State) : Result :=
  complete (.movsxdGvEv p rm r) (fun t => move (.reg r) (rm.operand p.osz t) t) s

/-- `86`: xchg r/m8, r8 (R270). -/
def execXchgEbGb (p : Prefixes) (rm : RM) (r : Reg) (s : State) : Result :=
  complete (.xchgEbGb p rm r) (fun t => exchange (rm.operand .byte t) (.reg r) t) s

/-- `87`: xchg r/m16/32, r16/32 (R270). -/
def execXchgEvGv (p : Prefixes) (rm : RM) (r : Reg) (s : State) : Result :=
  complete (.xchgEvGv p rm r) (fun t => exchange (rm.operand p.osz t) (.reg r) t) s

/-- `88`: mov r/m8, r8 (R251). -/
def execMovEbGb (p : Prefixes) (rm : RM) (r : Reg) (s : State) : Result :=
  complete (.movEbGb p rm r) (fun t => move (rm.operand .byte t) (.reg r) t) s

/-- `89`: mov r/m16/32, r16/32 (R251). -/
def execMovEvGv (p : Prefixes) (rm : RM) (r : Reg) (s : State) : Result :=
  complete (.movEvGv p rm r) (fun t => move (rm.operand p.osz t) (.reg r) t) s

/-- `8A`: mov r8, r/m8 (R252). -/
def execMovGbEb (p : Prefixes) (rm : RM) (r : Reg) (s : State) : Result :=
  complete (.movGbEb p rm r) (fun t => move (.reg r) (rm.operand .byte t) t) s

/-- `8B`: mov r16/32, r/m16/32 (R252). -/
def execMovGvEv (p : Prefixes) (rm : RM) (r : Reg) (s : State) : Result :=
  complete (.movGvEv p rm r) (fun t => move (.reg r) (rm.operand p.osz t) t) s

/-- `8D`: lea r16/32, m (R275). -/
def execLeaGvM (p : Prefixes) (r : Reg) (a : Addr) (s : State) : Result :=
  complete (.leaGvM p r a) (fun t => loadAddress p.osz r (a.effective t) t) s

/-- `90+r`: xchg eAX, r16/32 (R271). -/
def execXchgEaxR (p : Prefixes) (r : Reg) (s : State) : Result :=
  complete (.xchgEaxR p r) (fun t => exchange (w := p.osz) (.reg .eax) (.reg r) t) s

/-- `A0`: mov AL, [moffs32] (R253). -/
def execMovAlOb (p : Prefixes) (a : Word) (s : State) : Result :=
  complete (.movAlOb p a) (fun t => move (w := .byte) (.reg .eax) (.mem a) t) s

/-- `A1`: mov eAX, [moffs32] (R253). -/
def execMovEaxOv (p : Prefixes) (a : Word) (s : State) : Result :=
  complete (.movEaxOv p a) (fun t => move (w := p.osz) (.reg .eax) (.mem a) t) s

/-- `A2`: mov [moffs32], AL (R253). -/
def execMovObAl (p : Prefixes) (a : Word) (s : State) : Result :=
  complete (.movObAl p a) (fun t => move (w := .byte) (.mem a) (.reg .eax) t) s

/-- `A3`: mov [moffs32], eAX (R253). -/
def execMovOvEax (p : Prefixes) (a : Word) (s : State) : Result :=
  complete (.movOvEax p a) (fun t => move (w := p.osz) (.mem a) (.reg .eax) t) s

/-- `B0+r`: mov r8, imm8 (R254). -/
def execMovRbIb (p : Prefixes) (r : Reg) (imm : Byte) (s : State) : Result :=
  complete (.movRbIb p r imm) (fun t => move (w := .byte) (.reg r) (.imm imm) t) s

/-- `B8+r`: mov r16/32, imm16/32 (R255). -/
def execMovRvIz (p : Prefixes) (r : Reg) (imm : Word) (s : State) : Result :=
  complete (.movRvIz p r imm) (fun t => move (w := p.osz) (.reg r) (.imm (immZ p imm)) t) s

/-- `C6 /0`: mov r/m8, imm8 (R256). -/
def execMovEbIb (p : Prefixes) (rm : RM) (imm : Byte) (s : State) : Result :=
  complete (.movEbIb p rm imm) (fun t => move (rm.operand .byte t) (.imm imm) t) s

/-- `C7 /0`: mov r/m16/32, imm16/32 (R256). -/
def execMovEvIz (p : Prefixes) (rm : RM) (imm : Word) (s : State) : Result :=
  complete (.movEvIz p rm imm) (fun t => move (rm.operand p.osz t) (.imm (immZ p imm)) t) s

/-- `0F B6`: movzx r16/32, r/m8 (R262). -/
def execMovzxGvEb (p : Prefixes) (rm : RM) (r : Reg) (s : State) : Result :=
  complete (.movzxGvEb p rm r) (fun t => moveZeroExtend p.osz r (rm.operand .byte t) t) s

/-- `0F B7`: movzx r16/32, r/m16 (R262). -/
def execMovzxGvEw (p : Prefixes) (rm : RM) (r : Reg) (s : State) : Result :=
  complete (.movzxGvEw p rm r) (fun t => moveZeroExtend p.osz r (rm.operand .word t) t) s

/-- `0F BE`: movsx r16/32, r/m8 (R263). -/
def execMovsxGvEb (p : Prefixes) (rm : RM) (r : Reg) (s : State) : Result :=
  complete (.movsxGvEb p rm r) (fun t => moveSignExtend p.osz r (rm.operand .byte t) t) s

/-- `0F BF`: movsx r16/32, r/m16 (R263). -/
def execMovsxGvEw (p : Prefixes) (rm : RM) (r : Reg) (s : State) : Result :=
  complete (.movsxGvEw p rm r) (fun t => moveSignExtend p.osz r (rm.operand .word t) t) s

end Sys2Proof.Machine
end

