-- ==== Sys2Proof/Machine/FlagsMisc.lean ====
section
/-! DEFINITION. Flag instructions and nop (48_flags_misc.md). -/

namespace Sys2Proof.Machine

/-- `90`: nop (R479). -/
def execNop (p : Prefixes) (s : State) : Result :=
  complete (.nop p) (fun t => .ok t) s

/-- `F5`: cmc (R472). -/
def execCmc (p : Prefixes) (s : State) : Result :=
  complete (.cmc p) (fun t => .ok (t.withFlags { t.flags with CF := !t.flags.CF })) s

/-- `F8`: clc (R470). -/
def execClc (p : Prefixes) (s : State) : Result :=
  complete (.clc p) (fun t => .ok (t.withFlags { t.flags with CF := false })) s

/-- `F9`: stc (R471). -/
def execStc (p : Prefixes) (s : State) : Result :=
  complete (.stc p) (fun t => .ok (t.withFlags { t.flags with CF := true })) s

/-- `FA`: cli (R477). -/
def execCli (p : Prefixes) (s : State) : Result :=
  complete (.cli p) (fun t => .ok (t.withFlags { t.flags with IF := false })) s

/-- `FB`: sti (R476). -/
def execSti (p : Prefixes) (s : State) : Result :=
  complete (.sti p) (fun t => .ok (t.withFlags { t.flags with IF := true })) s

/-- `FC`: cld (R474). -/
def execCld (p : Prefixes) (s : State) : Result :=
  complete (.cld p) (fun t => .ok (t.withFlags { t.flags with DF := false })) s

/-- `FD`: std (R475). -/
def execStd (p : Prefixes) (s : State) : Result :=
  complete (.std p) (fun t => .ok (t.withFlags { t.flags with DF := true })) s

end Sys2Proof.Machine
end

