-- ==== Sys2Proof/Machine/Logical.lean ====
section
/-! DEFINITION. Logical operations (43_logical.md). -/

namespace Sys2Proof.Machine

/-- NOT (R356): no flag changes. -/
def complement {w : Width} (dst : Operand w) (s : State) : Except FaultKind State := do
  let a ← readOp dst s
  writeOp dst (~~~a) s

/-- TEST (R358): the flags of AND; nothing else is written. -/
def test {w : Width} (op1 op2 : Operand w) (s : State) : Except FaultKind State := do
  let a ← readOp op1 s
  let b ← readOp op2 s
  .ok (s.withFlags (logicFlags s.flags (a &&& b)).2)

/-- `08`: or r/m8, r8 (R352). -/
def execOrEbGb (p : Prefixes) (rm : RM) (r : Reg) (s : State) : Result :=
  complete (.orEbGb p rm r) (fun t => alu .or (rm.operand .byte t) (.reg r) t) s

/-- `09`: or r/m16/32, r16/32 (R352). -/
def execOrEvGv (p : Prefixes) (rm : RM) (r : Reg) (s : State) : Result :=
  complete (.orEvGv p rm r) (fun t => alu .or (rm.operand p.osz t) (.reg r) t) s

/-- `0A`: or r8, r/m8 (R352). -/
def execOrGbEb (p : Prefixes) (rm : RM) (r : Reg) (s : State) : Result :=
  complete (.orGbEb p rm r) (fun t => alu .or (.reg r) (rm.operand .byte t) t) s

/-- `0B`: or r16/32, r/m16/32 (R352). -/
def execOrGvEv (p : Prefixes) (rm : RM) (r : Reg) (s : State) : Result :=
  complete (.orGvEv p rm r) (fun t => alu .or (.reg r) (rm.operand p.osz t) t) s

/-- `0C`: or AL, imm8 (R352). -/
def execOrAlIb (p : Prefixes) (imm : Byte) (s : State) : Result :=
  complete (.orAlIb p imm) (fun t => alu .or (w := .byte) (.reg .eax) (.imm imm) t) s

/-- `0D`: or eAX, imm16/32 (R352). -/
def execOrEaxIz (p : Prefixes) (imm : Word) (s : State) : Result :=
  complete (.orEaxIz p imm) (fun t => alu .or (w := p.osz) (.reg .eax) (.imm (immZ p imm)) t) s

/-- `20`: and r/m8, r8 (R350). -/
def execAndEbGb (p : Prefixes) (rm : RM) (r : Reg) (s : State) : Result :=
  complete (.andEbGb p rm r) (fun t => alu .and (rm.operand .byte t) (.reg r) t) s

/-- `21`: and r/m16/32, r16/32 (R350). -/
def execAndEvGv (p : Prefixes) (rm : RM) (r : Reg) (s : State) : Result :=
  complete (.andEvGv p rm r) (fun t => alu .and (rm.operand p.osz t) (.reg r) t) s

/-- `22`: and r8, r/m8 (R350). -/
def execAndGbEb (p : Prefixes) (rm : RM) (r : Reg) (s : State) : Result :=
  complete (.andGbEb p rm r) (fun t => alu .and (.reg r) (rm.operand .byte t) t) s

/-- `23`: and r16/32, r/m16/32 (R350). -/
def execAndGvEv (p : Prefixes) (rm : RM) (r : Reg) (s : State) : Result :=
  complete (.andGvEv p rm r) (fun t => alu .and (.reg r) (rm.operand p.osz t) t) s

/-- `24`: and AL, imm8 (R350). -/
def execAndAlIb (p : Prefixes) (imm : Byte) (s : State) : Result :=
  complete (.andAlIb p imm) (fun t => alu .and (w := .byte) (.reg .eax) (.imm imm) t) s

/-- `25`: and eAX, imm16/32 (R350). -/
def execAndEaxIz (p : Prefixes) (imm : Word) (s : State) : Result :=
  complete (.andEaxIz p imm) (fun t => alu .and (w := p.osz) (.reg .eax) (.imm (immZ p imm)) t) s

/-- `30`: xor r/m8, r8 (R354). -/
def execXorEbGb (p : Prefixes) (rm : RM) (r : Reg) (s : State) : Result :=
  complete (.xorEbGb p rm r) (fun t => alu .xor (rm.operand .byte t) (.reg r) t) s

/-- `31`: xor r/m16/32, r16/32 (R354). -/
def execXorEvGv (p : Prefixes) (rm : RM) (r : Reg) (s : State) : Result :=
  complete (.xorEvGv p rm r) (fun t => alu .xor (rm.operand p.osz t) (.reg r) t) s

/-- `32`: xor r8, r/m8 (R354). -/
def execXorGbEb (p : Prefixes) (rm : RM) (r : Reg) (s : State) : Result :=
  complete (.xorGbEb p rm r) (fun t => alu .xor (.reg r) (rm.operand .byte t) t) s

/-- `33`: xor r16/32, r/m16/32 (R354). -/
def execXorGvEv (p : Prefixes) (rm : RM) (r : Reg) (s : State) : Result :=
  complete (.xorGvEv p rm r) (fun t => alu .xor (.reg r) (rm.operand p.osz t) t) s

/-- `34`: xor AL, imm8 (R354). -/
def execXorAlIb (p : Prefixes) (imm : Byte) (s : State) : Result :=
  complete (.xorAlIb p imm) (fun t => alu .xor (w := .byte) (.reg .eax) (.imm imm) t) s

/-- `35`: xor eAX, imm16/32 (R354). -/
def execXorEaxIz (p : Prefixes) (imm : Word) (s : State) : Result :=
  complete (.xorEaxIz p imm) (fun t => alu .xor (w := p.osz) (.reg .eax) (.imm (immZ p imm)) t) s

/-- `80 /1`: or r/m8, imm8 (R352). -/
def execOrEbIb (p : Prefixes) (rm : RM) (imm : Byte) (s : State) : Result :=
  complete (.orEbIb p rm imm) (fun t => alu .or (rm.operand .byte t) (.imm imm) t) s

/-- `81 /1`: or r/m16/32, imm16/32 (R352). -/
def execOrEvIz (p : Prefixes) (rm : RM) (imm : Word) (s : State) : Result :=
  complete (.orEvIz p rm imm) (fun t => alu .or (rm.operand p.osz t) (.imm (immZ p imm)) t) s

/-- `83 /1`: or r/m16/32, sign-extended imm8 (R352). -/
def execOrEvIb (p : Prefixes) (rm : RM) (imm : Byte) (s : State) : Result :=
  complete (.orEvIb p rm imm) (fun t => alu .or (rm.operand p.osz t) (.imm (immS p imm)) t) s

/-- `80 /4`: and r/m8, imm8 (R350). -/
def execAndEbIb (p : Prefixes) (rm : RM) (imm : Byte) (s : State) : Result :=
  complete (.andEbIb p rm imm) (fun t => alu .and (rm.operand .byte t) (.imm imm) t) s

/-- `81 /4`: and r/m16/32, imm16/32 (R350). -/
def execAndEvIz (p : Prefixes) (rm : RM) (imm : Word) (s : State) : Result :=
  complete (.andEvIz p rm imm) (fun t => alu .and (rm.operand p.osz t) (.imm (immZ p imm)) t) s

/-- `83 /4`: and r/m16/32, sign-extended imm8 (R350). -/
def execAndEvIb (p : Prefixes) (rm : RM) (imm : Byte) (s : State) : Result :=
  complete (.andEvIb p rm imm) (fun t => alu .and (rm.operand p.osz t) (.imm (immS p imm)) t) s

/-- `80 /6`: xor r/m8, imm8 (R354). -/
def execXorEbIb (p : Prefixes) (rm : RM) (imm : Byte) (s : State) : Result :=
  complete (.xorEbIb p rm imm) (fun t => alu .xor (rm.operand .byte t) (.imm imm) t) s

/-- `81 /6`: xor r/m16/32, imm16/32 (R354). -/
def execXorEvIz (p : Prefixes) (rm : RM) (imm : Word) (s : State) : Result :=
  complete (.xorEvIz p rm imm) (fun t => alu .xor (rm.operand p.osz t) (.imm (immZ p imm)) t) s

/-- `83 /6`: xor r/m16/32, sign-extended imm8 (R354). -/
def execXorEvIb (p : Prefixes) (rm : RM) (imm : Byte) (s : State) : Result :=
  complete (.xorEvIb p rm imm) (fun t => alu .xor (rm.operand p.osz t) (.imm (immS p imm)) t) s

/-- `84`: test r/m8, r8 (R358). -/
def execTestEbGb (p : Prefixes) (rm : RM) (r : Reg) (s : State) : Result :=
  complete (.testEbGb p rm r) (fun t => test (rm.operand .byte t) (.reg r) t) s

/-- `85`: test r/m16/32, r16/32 (R358). -/
def execTestEvGv (p : Prefixes) (rm : RM) (r : Reg) (s : State) : Result :=
  complete (.testEvGv p rm r) (fun t => test (rm.operand p.osz t) (.reg r) t) s

/-- `A8`: test AL, imm8 (R358). -/
def execTestAlIb (p : Prefixes) (imm : Byte) (s : State) : Result :=
  complete (.testAlIb p imm) (fun t => test (w := .byte) (.reg .eax) (.imm imm) t) s

/-- `A9`: test eAX, imm16/32 (R358). -/
def execTestEaxIz (p : Prefixes) (imm : Word) (s : State) : Result :=
  complete (.testEaxIz p imm) (fun t => test (w := p.osz) (.reg .eax) (.imm (immZ p imm)) t) s

/-- `F6 /0`: test r/m8, imm8 (R358). -/
def execTestEbIb (p : Prefixes) (rm : RM) (imm : Byte) (s : State) : Result :=
  complete (.testEbIb p rm imm) (fun t => test (rm.operand .byte t) (.imm imm) t) s

/-- `F7 /0`: test r/m16/32, imm16/32 (R358). -/
def execTestEvIz (p : Prefixes) (rm : RM) (imm : Word) (s : State) : Result :=
  complete (.testEvIz p rm imm) (fun t => test (rm.operand p.osz t) (.imm (immZ p imm)) t) s

/-- `F6 /2`: not r/m8 (R356). -/
def execNotEb (p : Prefixes) (rm : RM) (s : State) : Result :=
  complete (.notEb p rm) (fun t => complement (rm.operand .byte t) t) s

/-- `F7 /2`: not r/m16/32 (R356). -/
def execNotEv (p : Prefixes) (rm : RM) (s : State) : Result :=
  complete (.notEv p rm) (fun t => complement (rm.operand p.osz t) t) s

end Sys2Proof.Machine
end

