-- ==== Sys2Proof/Machine/Shifts.lean ====
section
/-! DEFINITION. Shifts (44_shifts.md). -/

namespace Sys2Proof.Machine

/-- R381 to R388: the count is masked to 5 bits; a count of zero reads the destination and changes nothing. -/
def shift (op : ShiftOp) {w : Width} (dst : Operand w) (count : Byte) (s : State) : Except FaultKind State := do
  let a ← readOp dst s
  let c := (count &&& 0x1F).toNat
  if c = 0 then .ok s
  else
    let t ← writeOp dst (op.result a c) (s.withFlags (op.flags s.flags s.undefinedFlags a c))
    .ok t.endDraws

/-- `C0 /4`: shl r/m8, imm8 (R384). -/
def execShlEbIb (p : Prefixes) (rm : RM) (imm : Byte) (s : State) : Result :=
  complete (.shlEbIb p rm imm) (fun t => shift .shl (rm.operand .byte t) imm t) s

/-- `C1 /4`: shl r/m16/32, imm8 (R384). -/
def execShlEvIb (p : Prefixes) (rm : RM) (imm : Byte) (s : State) : Result :=
  complete (.shlEvIb p rm imm) (fun t => shift .shl (rm.operand p.osz t) imm t) s

/-- `D0 /4`: shl r/m8, 1 (R384). -/
def execShlEb1 (p : Prefixes) (rm : RM) (s : State) : Result :=
  complete (.shlEb1 p rm) (fun t => shift .shl (rm.operand .byte t) 1 t) s

/-- `D1 /4`: shl r/m16/32, 1 (R384). -/
def execShlEv1 (p : Prefixes) (rm : RM) (s : State) : Result :=
  complete (.shlEv1 p rm) (fun t => shift .shl (rm.operand p.osz t) 1 t) s

/-- `D2 /4`: shl r/m8, CL (R384). -/
def execShlEbCl (p : Prefixes) (rm : RM) (s : State) : Result :=
  complete (.shlEbCl p rm) (fun t => shift .shl (rm.operand .byte t) (t.regRead .ecx .byte) t) s

/-- `D3 /4`: shl r/m16/32, CL (R384). -/
def execShlEvCl (p : Prefixes) (rm : RM) (s : State) : Result :=
  complete (.shlEvCl p rm) (fun t => shift .shl (rm.operand p.osz t) (t.regRead .ecx .byte) t) s

/-- `C0 /5`: shr r/m8, imm8 (R386). -/
def execShrEbIb (p : Prefixes) (rm : RM) (imm : Byte) (s : State) : Result :=
  complete (.shrEbIb p rm imm) (fun t => shift .shr (rm.operand .byte t) imm t) s

/-- `C1 /5`: shr r/m16/32, imm8 (R386). -/
def execShrEvIb (p : Prefixes) (rm : RM) (imm : Byte) (s : State) : Result :=
  complete (.shrEvIb p rm imm) (fun t => shift .shr (rm.operand p.osz t) imm t) s

/-- `D0 /5`: shr r/m8, 1 (R386). -/
def execShrEb1 (p : Prefixes) (rm : RM) (s : State) : Result :=
  complete (.shrEb1 p rm) (fun t => shift .shr (rm.operand .byte t) 1 t) s

/-- `D1 /5`: shr r/m16/32, 1 (R386). -/
def execShrEv1 (p : Prefixes) (rm : RM) (s : State) : Result :=
  complete (.shrEv1 p rm) (fun t => shift .shr (rm.operand p.osz t) 1 t) s

/-- `D2 /5`: shr r/m8, CL (R386). -/
def execShrEbCl (p : Prefixes) (rm : RM) (s : State) : Result :=
  complete (.shrEbCl p rm) (fun t => shift .shr (rm.operand .byte t) (t.regRead .ecx .byte) t) s

/-- `D3 /5`: shr r/m16/32, CL (R386). -/
def execShrEvCl (p : Prefixes) (rm : RM) (s : State) : Result :=
  complete (.shrEvCl p rm) (fun t => shift .shr (rm.operand p.osz t) (t.regRead .ecx .byte) t) s

/-- `C0 /7`: sar r/m8, imm8 (R388). -/
def execSarEbIb (p : Prefixes) (rm : RM) (imm : Byte) (s : State) : Result :=
  complete (.sarEbIb p rm imm) (fun t => shift .sar (rm.operand .byte t) imm t) s

/-- `C1 /7`: sar r/m16/32, imm8 (R388). -/
def execSarEvIb (p : Prefixes) (rm : RM) (imm : Byte) (s : State) : Result :=
  complete (.sarEvIb p rm imm) (fun t => shift .sar (rm.operand p.osz t) imm t) s

/-- `D0 /7`: sar r/m8, 1 (R388). -/
def execSarEb1 (p : Prefixes) (rm : RM) (s : State) : Result :=
  complete (.sarEb1 p rm) (fun t => shift .sar (rm.operand .byte t) 1 t) s

/-- `D1 /7`: sar r/m16/32, 1 (R388). -/
def execSarEv1 (p : Prefixes) (rm : RM) (s : State) : Result :=
  complete (.sarEv1 p rm) (fun t => shift .sar (rm.operand p.osz t) 1 t) s

/-- `D2 /7`: sar r/m8, CL (R388). -/
def execSarEbCl (p : Prefixes) (rm : RM) (s : State) : Result :=
  complete (.sarEbCl p rm) (fun t => shift .sar (rm.operand .byte t) (t.regRead .ecx .byte) t) s

/-- `D3 /7`: sar r/m16/32, CL (R388). -/
def execSarEvCl (p : Prefixes) (rm : RM) (s : State) : Result :=
  complete (.sarEvCl p rm) (fun t => shift .sar (rm.operand p.osz t) (t.regRead .ecx .byte) t) s

end Sys2Proof.Machine
end

