-- ==== Sys2Proof/Machine/Stack.lean ====
section
/-! DEFINITION. The stack (46_stack.md). No flag is written. -/

namespace Sys2Proof.Machine

/-- PUSH r/m (R433): the operand is read before ESP changes. -/
def pushFrom {w : Width} (op : Operand w) (s : State) : Except FaultKind State := do
  let v ← readOp op s
  push v s

/-- POP (R435, R436): the destination is evaluated with the incremented ESP. -/
def popTo (w : Width) (dst : State → Operand w) (s : State) : Except FaultKind State := do
  let (v, t) ← pop w s
  writeOp (dst t) v t

/-- LEAVE (R438): all of ESP is EBP, then EBP (or BP) is popped. -/
def leaveFrame (w : Width) (s : State) : Except FaultKind State := do
  let (v, t) ← pop w (s.regWrite .esp .dword s.regs.ebp)
  .ok (t.regWrite .ebp w v)

/-- `50+r`: push r16/32 (R430). -/
def execPushR (p : Prefixes) (r : Reg) (s : State) : Result :=
  complete (.pushR p r) (fun t => push (t.regRead r p.osz) t) s

/-- `58+r`: pop r16/32 (R435). -/
def execPopR (p : Prefixes) (r : Reg) (s : State) : Result :=
  complete (.popR p r) (fun t => popTo p.osz (fun _ => .reg r) t) s

/-- `68`: push imm16/32 (R432). -/
def execPushIz (p : Prefixes) (imm : Word) (s : State) : Result :=
  complete (.pushIz p imm) (fun t => push (immZ p imm) t) s

/-- `6A`: push sign-extended imm8 (R431). -/
def execPushIb (p : Prefixes) (imm : Byte) (s : State) : Result :=
  complete (.pushIb p imm) (fun t => push (immS p imm) t) s

/-- `8F /0`: pop r/m16/32 (R436). -/
def execPopEv (p : Prefixes) (rm : RM) (s : State) : Result :=
  complete (.popEv p rm) (fun t => popTo p.osz (rm.operand p.osz) t) s

/-- `C9`: leave (R438). -/
def execLeave (p : Prefixes) (s : State) : Result :=
  complete (.leave p) (fun t => leaveFrame p.osz t) s

/-- `FF /6`: push r/m16/32 (R433). -/
def execPushEv (p : Prefixes) (rm : RM) (s : State) : Result :=
  complete (.pushEv p rm) (fun t => pushFrom (rm.operand p.osz t) t) s

end Sys2Proof.Machine
end

