-- ==== Sys2Proof/Machine/Strings.lean ====
section
/-! DEFINITION. String moves (47_string.md). No flag is written. -/

namespace Sys2Proof.Machine

/-- An index register stepped by one element in the direction of DF (R450). -/
def stepIndex (w : Width) (f : Flags) (x : Word) : Word :=
  if f.DF then x - BitVec.ofNat 32 w.bytes else x + BitVec.ofNat 32 w.bytes

/-- `MoveElement(w)` (R451). -/
def moveElement (w : Width) (s : State) : Except FaultKind State := do
  let v ← s.memRead s.regs.esi w
  let t ← s.memWrite s.regs.edi w v
  .ok ((t.regWrite .esi .dword (stepIndex w s.flags s.regs.esi)).regWrite .edi .dword
    (stepIndex w s.flags s.regs.edi))

/-- The loop of R453 for `n` more elements: the state after the elements that were moved, and the fault of the
first that was not. Each iteration is complete before the next begins. -/
def moveElements (w : Width) : (n : Nat) → State → State × Option FaultKind
  | 0, s => (s, none)
  | n + 1, s =>
    match moveElement w s with
    | .ok t => moveElements w n (t.regWrite .ecx .dword (s.regs.ecx - 1))
    | .error k => (s, some k)

/-- REP (R453): ECX elements. A fault keeps the iterations already done, with EIP = EIP_start
(60_exceptions.md R525). -/
def repeatMove (w : Width) (i : Instr) (s : State) : Result :=
  match moveElements w s.regs.ecx.toNat s with
  | (t, none) => .next (t.atNext i)
  | (t, some k) => .next (t.raise k)

/-- `A4`: movsb (R452). -/
def execMovsb (p : Prefixes) (s : State) : Result :=
  complete (.movsb p) (fun t => moveElement .byte t) s

/-- `A5`: movsd (R454). -/
def execMovsd (p : Prefixes) (s : State) : Result :=
  complete (.movsd p) (fun t => moveElement .dword t) s

/-- `66 A5`: movsw (R454). -/
def execMovsw (p : Prefixes) (s : State) : Result :=
  complete (.movsw p) (fun t => moveElement .word t) s

/-- `F3 A4`: rep movsb (R453). -/
def execRepMovsb (p : Prefixes) (s : State) : Result :=
  repeatMove .byte (.repMovsb p) s

/-- `F3 A5`: rep movsd (R453). -/
def execRepMovsd (p : Prefixes) (s : State) : Result :=
  repeatMove .dword (.repMovsd p) s

/-- `66 F3 A5`: rep movsw (R453). -/
def execRepMovsw (p : Prefixes) (s : State) : Result :=
  repeatMove .word (.repMovsw p) s

end Sys2Proof.Machine
end

