-- ==== Sys2Proof/Machine/Syscall.lean ====
section
/-! DEFINITION. The syscall gate (49_syscall.md): exit, read, write. Registers other than EAX, the flags and the
stack are unchanged (R492, R501); the effects come in the order of R502. -/

namespace Sys2Proof.Machine

/-- `EAX <- v`. -/
def State.withEax (s : State) (v : Word) : State := s.regWrite .eax .dword v

/-- read (R495): the bounds check comes before the transaction, so a fault consumes no input. -/
def sysRead (s : State) : Except FaultKind State :=
  match Fd.ofWord? s.regs.ebx with
  | none => .ok (s.withEax 0xFFFFFFFF)
  | some fd =>
    let count := s.regs.edx.toNat
    if s.regs.ecx.toNat + count > s.mem.size then .error (s.outOfBounds s.regs.ecx count)
    else
      match s.hostRead fd count with
      | (.data bs, t) => do
        let u ← t.setBytes s.regs.ecx bs
        .ok (u.withEax (BitVec.ofNat 32 bs.length))
      | (.ioError, t) => .ok (t.withEax 0xFFFFFFFF)

/-- write (R497): the bytes are read before the transaction, so a fault emits nothing. -/
def sysWrite (s : State) : Except FaultKind State :=
  match Fd.ofWord? s.regs.ebx with
  | none => .ok (s.withEax 0xFFFFFFFF)
  | some fd => do
    let bs ← s.getBytes s.regs.ecx s.regs.edx.toNat
    match s.hostWrite fd bs with
    | (.ok, t) => .ok (t.withEax s.regs.edx)
    | (.ioError, t) => .ok (t.withEax 0xFFFFFFFF)

/-- The gate (R491): the full EAX selects. -/
def syscallGate (s : State) : Except FaultKind State :=
  match s.regs.eax.toNat with
  | 1 => .ok (s.exit (s.regs.ebx.setWidth 8))
  | 3 => sysRead s
  | 4 => sysWrite s
  | _ => .error (.unsupportedSyscall s.regs.eax)

/-- `CD`: int 0x80 (R490). -/
def execInt80 (p : Prefixes) (s : State) : Result :=
  complete (.int80 p) (fun t => syscallGate t) s

end Sys2Proof.Machine
end

