-- ==== Sys2Proof/Machine/Dispatch.lean ====
section
/-! DEFINITION. `exec`: one arm per instruction, each one call of its meaning. -/

namespace Sys2Proof.Machine

def exec (i : Instr) (s : State) : Host.Outcome State Fault Refusal :=
  match i with
  | .addEbGb p rm r => Sys2Proof.Machine.execAddEbGb p rm r s
  | .addEvGv p rm r => Sys2Proof.Machine.execAddEvGv p rm r s
  | .addGbEb p rm r => Sys2Proof.Machine.execAddGbEb p rm r s
  | .addGvEv p rm r => Sys2Proof.Machine.execAddGvEv p rm r s
  | .addAlIb p imm => Sys2Proof.Machine.execAddAlIb p imm s
  | .addEaxIz p imm => Sys2Proof.Machine.execAddEaxIz p imm s
  | .orEbGb p rm r => Sys2Proof.Machine.execOrEbGb p rm r s
  | .orEvGv p rm r => Sys2Proof.Machine.execOrEvGv p rm r s
  | .orGbEb p rm r => Sys2Proof.Machine.execOrGbEb p rm r s
  | .orGvEv p rm r => Sys2Proof.Machine.execOrGvEv p rm r s
  | .orAlIb p imm => Sys2Proof.Machine.execOrAlIb p imm s
  | .orEaxIz p imm => Sys2Proof.Machine.execOrEaxIz p imm s
  | .adcEbGb p rm r => Sys2Proof.Machine.execAdcEbGb p rm r s
  | .adcEvGv p rm r => Sys2Proof.Machine.execAdcEvGv p rm r s
  | .adcGbEb p rm r => Sys2Proof.Machine.execAdcGbEb p rm r s
  | .adcGvEv p rm r => Sys2Proof.Machine.execAdcGvEv p rm r s
  | .adcAlIb p imm => Sys2Proof.Machine.execAdcAlIb p imm s
  | .adcEaxIz p imm => Sys2Proof.Machine.execAdcEaxIz p imm s
  | .sbbEbGb p rm r => Sys2Proof.Machine.execSbbEbGb p rm r s
  | .sbbEvGv p rm r => Sys2Proof.Machine.execSbbEvGv p rm r s
  | .sbbGbEb p rm r => Sys2Proof.Machine.execSbbGbEb p rm r s
  | .sbbGvEv p rm r => Sys2Proof.Machine.execSbbGvEv p rm r s
  | .sbbAlIb p imm => Sys2Proof.Machine.execSbbAlIb p imm s
  | .sbbEaxIz p imm => Sys2Proof.Machine.execSbbEaxIz p imm s
  | .andEbGb p rm r => Sys2Proof.Machine.execAndEbGb p rm r s
  | .andEvGv p rm r => Sys2Proof.Machine.execAndEvGv p rm r s
  | .andGbEb p rm r => Sys2Proof.Machine.execAndGbEb p rm r s
  | .andGvEv p rm r => Sys2Proof.Machine.execAndGvEv p rm r s
  | .andAlIb p imm => Sys2Proof.Machine.execAndAlIb p imm s
  | .andEaxIz p imm => Sys2Proof.Machine.execAndEaxIz p imm s
  | .subEbGb p rm r => Sys2Proof.Machine.execSubEbGb p rm r s
  | .subEvGv p rm r => Sys2Proof.Machine.execSubEvGv p rm r s
  | .subGbEb p rm r => Sys2Proof.Machine.execSubGbEb p rm r s
  | .subGvEv p rm r => Sys2Proof.Machine.execSubGvEv p rm r s
  | .subAlIb p imm => Sys2Proof.Machine.execSubAlIb p imm s
  | .subEaxIz p imm => Sys2Proof.Machine.execSubEaxIz p imm s
  | .xorEbGb p rm r => Sys2Proof.Machine.execXorEbGb p rm r s
  | .xorEvGv p rm r => Sys2Proof.Machine.execXorEvGv p rm r s
  | .xorGbEb p rm r => Sys2Proof.Machine.execXorGbEb p rm r s
  | .xorGvEv p rm r => Sys2Proof.Machine.execXorGvEv p rm r s
  | .xorAlIb p imm => Sys2Proof.Machine.execXorAlIb p imm s
  | .xorEaxIz p imm => Sys2Proof.Machine.execXorEaxIz p imm s
  | .cmpEbGb p rm r => Sys2Proof.Machine.execCmpEbGb p rm r s
  | .cmpEvGv p rm r => Sys2Proof.Machine.execCmpEvGv p rm r s
  | .cmpGbEb p rm r => Sys2Proof.Machine.execCmpGbEb p rm r s
  | .cmpGvEv p rm r => Sys2Proof.Machine.execCmpGvEv p rm r s
  | .cmpAlIb p imm => Sys2Proof.Machine.execCmpAlIb p imm s
  | .cmpEaxIz p imm => Sys2Proof.Machine.execCmpEaxIz p imm s
  | .addEbIb p rm imm => Sys2Proof.Machine.execAddEbIb p rm imm s
  | .addEvIz p rm imm => Sys2Proof.Machine.execAddEvIz p rm imm s
  | .addEvIb p rm imm => Sys2Proof.Machine.execAddEvIb p rm imm s
  | .orEbIb p rm imm => Sys2Proof.Machine.execOrEbIb p rm imm s
  | .orEvIz p rm imm => Sys2Proof.Machine.execOrEvIz p rm imm s
  | .orEvIb p rm imm => Sys2Proof.Machine.execOrEvIb p rm imm s
  | .adcEbIb p rm imm => Sys2Proof.Machine.execAdcEbIb p rm imm s
  | .adcEvIz p rm imm => Sys2Proof.Machine.execAdcEvIz p rm imm s
  | .adcEvIb p rm imm => Sys2Proof.Machine.execAdcEvIb p rm imm s
  | .sbbEbIb p rm imm => Sys2Proof.Machine.execSbbEbIb p rm imm s
  | .sbbEvIz p rm imm => Sys2Proof.Machine.execSbbEvIz p rm imm s
  | .sbbEvIb p rm imm => Sys2Proof.Machine.execSbbEvIb p rm imm s
  | .andEbIb p rm imm => Sys2Proof.Machine.execAndEbIb p rm imm s
  | .andEvIz p rm imm => Sys2Proof.Machine.execAndEvIz p rm imm s
  | .andEvIb p rm imm => Sys2Proof.Machine.execAndEvIb p rm imm s
  | .subEbIb p rm imm => Sys2Proof.Machine.execSubEbIb p rm imm s
  | .subEvIz p rm imm => Sys2Proof.Machine.execSubEvIz p rm imm s
  | .subEvIb p rm imm => Sys2Proof.Machine.execSubEvIb p rm imm s
  | .xorEbIb p rm imm => Sys2Proof.Machine.execXorEbIb p rm imm s
  | .xorEvIz p rm imm => Sys2Proof.Machine.execXorEvIz p rm imm s
  | .xorEvIb p rm imm => Sys2Proof.Machine.execXorEvIb p rm imm s
  | .cmpEbIb p rm imm => Sys2Proof.Machine.execCmpEbIb p rm imm s
  | .cmpEvIz p rm imm => Sys2Proof.Machine.execCmpEvIz p rm imm s
  | .cmpEvIb p rm imm => Sys2Proof.Machine.execCmpEvIb p rm imm s
  | .incR p r => Sys2Proof.Machine.execIncR p r s
  | .decR p r => Sys2Proof.Machine.execDecR p r s
  | .pushR p r => Sys2Proof.Machine.execPushR p r s
  | .popR p r => Sys2Proof.Machine.execPopR p r s
  | .movsxdGvEv p rm r => Sys2Proof.Machine.execMovsxdGvEv p rm r s
  | .pushIz p imm => Sys2Proof.Machine.execPushIz p imm s
  | .imulGvEvIz p rm r imm => Sys2Proof.Machine.execImulGvEvIz p rm r imm s
  | .pushIb p imm => Sys2Proof.Machine.execPushIb p imm s
  | .imulGvEvIb p rm r imm => Sys2Proof.Machine.execImulGvEvIb p rm r imm s
  | .joRel8 p rel => Sys2Proof.Machine.execJoRel8 p rel s
  | .jnoRel8 p rel => Sys2Proof.Machine.execJnoRel8 p rel s
  | .jbRel8 p rel => Sys2Proof.Machine.execJbRel8 p rel s
  | .jaeRel8 p rel => Sys2Proof.Machine.execJaeRel8 p rel s
  | .jeRel8 p rel => Sys2Proof.Machine.execJeRel8 p rel s
  | .jneRel8 p rel => Sys2Proof.Machine.execJneRel8 p rel s
  | .jbeRel8 p rel => Sys2Proof.Machine.execJbeRel8 p rel s
  | .jaRel8 p rel => Sys2Proof.Machine.execJaRel8 p rel s
  | .jsRel8 p rel => Sys2Proof.Machine.execJsRel8 p rel s
  | .jnsRel8 p rel => Sys2Proof.Machine.execJnsRel8 p rel s
  | .jpRel8 p rel => Sys2Proof.Machine.execJpRel8 p rel s
  | .jnpRel8 p rel => Sys2Proof.Machine.execJnpRel8 p rel s
  | .jlRel8 p rel => Sys2Proof.Machine.execJlRel8 p rel s
  | .jgeRel8 p rel => Sys2Proof.Machine.execJgeRel8 p rel s
  | .jleRel8 p rel => Sys2Proof.Machine.execJleRel8 p rel s
  | .jgRel8 p rel => Sys2Proof.Machine.execJgRel8 p rel s
  | .testEbGb p rm r => Sys2Proof.Machine.execTestEbGb p rm r s
  | .testEvGv p rm r => Sys2Proof.Machine.execTestEvGv p rm r s
  | .xchgEbGb p rm r => Sys2Proof.Machine.execXchgEbGb p rm r s
  | .xchgEvGv p rm r => Sys2Proof.Machine.execXchgEvGv p rm r s
  | .movEbGb p rm r => Sys2Proof.Machine.execMovEbGb p rm r s
  | .movEvGv p rm r => Sys2Proof.Machine.execMovEvGv p rm r s
  | .movGbEb p rm r => Sys2Proof.Machine.execMovGbEb p rm r s
  | .movGvEv p rm r => Sys2Proof.Machine.execMovGvEv p rm r s
  | .leaGvM p r a => Sys2Proof.Machine.execLeaGvM p r a s
  | .popEv p rm => Sys2Proof.Machine.execPopEv p rm s
  | .nop p => Sys2Proof.Machine.execNop p s
  | .xchgEaxR p r => Sys2Proof.Machine.execXchgEaxR p r s
  | .cwde p => Sys2Proof.Machine.execCwde p s
  | .cbw p => Sys2Proof.Machine.execCbw p s
  | .cdq p => Sys2Proof.Machine.execCdq p s
  | .cwd p => Sys2Proof.Machine.execCwd p s
  | .movAlOb p a => Sys2Proof.Machine.execMovAlOb p a s
  | .movEaxOv p a => Sys2Proof.Machine.execMovEaxOv p a s
  | .movObAl p a => Sys2Proof.Machine.execMovObAl p a s
  | .movOvEax p a => Sys2Proof.Machine.execMovOvEax p a s
  | .movsb p => Sys2Proof.Machine.execMovsb p s
  | .movsd p => Sys2Proof.Machine.execMovsd p s
  | .movsw p => Sys2Proof.Machine.execMovsw p s
  | .repMovsb p => Sys2Proof.Machine.execRepMovsb p s
  | .repMovsd p => Sys2Proof.Machine.execRepMovsd p s
  | .repMovsw p => Sys2Proof.Machine.execRepMovsw p s
  | .testAlIb p imm => Sys2Proof.Machine.execTestAlIb p imm s
  | .testEaxIz p imm => Sys2Proof.Machine.execTestEaxIz p imm s
  | .movRbIb p r imm => Sys2Proof.Machine.execMovRbIb p r imm s
  | .movRvIz p r imm => Sys2Proof.Machine.execMovRvIz p r imm s
  | .shlEbIb p rm imm => Sys2Proof.Machine.execShlEbIb p rm imm s
  | .shlEvIb p rm imm => Sys2Proof.Machine.execShlEvIb p rm imm s
  | .shlEb1 p rm => Sys2Proof.Machine.execShlEb1 p rm s
  | .shlEv1 p rm => Sys2Proof.Machine.execShlEv1 p rm s
  | .shlEbCl p rm => Sys2Proof.Machine.execShlEbCl p rm s
  | .shlEvCl p rm => Sys2Proof.Machine.execShlEvCl p rm s
  | .shrEbIb p rm imm => Sys2Proof.Machine.execShrEbIb p rm imm s
  | .shrEvIb p rm imm => Sys2Proof.Machine.execShrEvIb p rm imm s
  | .shrEb1 p rm => Sys2Proof.Machine.execShrEb1 p rm s
  | .shrEv1 p rm => Sys2Proof.Machine.execShrEv1 p rm s
  | .shrEbCl p rm => Sys2Proof.Machine.execShrEbCl p rm s
  | .shrEvCl p rm => Sys2Proof.Machine.execShrEvCl p rm s
  | .sarEbIb p rm imm => Sys2Proof.Machine.execSarEbIb p rm imm s
  | .sarEvIb p rm imm => Sys2Proof.Machine.execSarEvIb p rm imm s
  | .sarEb1 p rm => Sys2Proof.Machine.execSarEb1 p rm s
  | .sarEv1 p rm => Sys2Proof.Machine.execSarEv1 p rm s
  | .sarEbCl p rm => Sys2Proof.Machine.execSarEbCl p rm s
  | .sarEvCl p rm => Sys2Proof.Machine.execSarEvCl p rm s
  | .retIw p imm => Sys2Proof.Machine.execRetIw p imm s
  | .ret p => Sys2Proof.Machine.execRet p s
  | .movEbIb p rm imm => Sys2Proof.Machine.execMovEbIb p rm imm s
  | .movEvIz p rm imm => Sys2Proof.Machine.execMovEvIz p rm imm s
  | .leave p => Sys2Proof.Machine.execLeave p s
  | .int80 p => Sys2Proof.Machine.execInt80 p s
  | .callRel32 p rel => Sys2Proof.Machine.execCallRel32 p rel s
  | .jmpRel32 p rel => Sys2Proof.Machine.execJmpRel32 p rel s
  | .jmpRel8 p rel => Sys2Proof.Machine.execJmpRel8 p rel s
  | .cmc p => Sys2Proof.Machine.execCmc p s
  | .testEbIb p rm imm => Sys2Proof.Machine.execTestEbIb p rm imm s
  | .testEvIz p rm imm => Sys2Proof.Machine.execTestEvIz p rm imm s
  | .notEb p rm => Sys2Proof.Machine.execNotEb p rm s
  | .notEv p rm => Sys2Proof.Machine.execNotEv p rm s
  | .negEb p rm => Sys2Proof.Machine.execNegEb p rm s
  | .negEv p rm => Sys2Proof.Machine.execNegEv p rm s
  | .mulEb p rm => Sys2Proof.Machine.execMulEb p rm s
  | .mulEv p rm => Sys2Proof.Machine.execMulEv p rm s
  | .imulEb p rm => Sys2Proof.Machine.execImulEb p rm s
  | .imulEv p rm => Sys2Proof.Machine.execImulEv p rm s
  | .divEb p rm => Sys2Proof.Machine.execDivEb p rm s
  | .divEv p rm => Sys2Proof.Machine.execDivEv p rm s
  | .idivEb p rm => Sys2Proof.Machine.execIdivEb p rm s
  | .idivEv p rm => Sys2Proof.Machine.execIdivEv p rm s
  | .clc p => Sys2Proof.Machine.execClc p s
  | .stc p => Sys2Proof.Machine.execStc p s
  | .cli p => Sys2Proof.Machine.execCli p s
  | .sti p => Sys2Proof.Machine.execSti p s
  | .cld p => Sys2Proof.Machine.execCld p s
  | .std p => Sys2Proof.Machine.execStd p s
  | .incEb p rm => Sys2Proof.Machine.execIncEb p rm s
  | .decEb p rm => Sys2Proof.Machine.execDecEb p rm s
  | .incEv p rm => Sys2Proof.Machine.execIncEv p rm s
  | .decEv p rm => Sys2Proof.Machine.execDecEv p rm s
  | .callEv p rm => Sys2Proof.Machine.execCallEv p rm s
  | .jmpEv p rm => Sys2Proof.Machine.execJmpEv p rm s
  | .pushEv p rm => Sys2Proof.Machine.execPushEv p rm s
  | .joRel32 p rel => Sys2Proof.Machine.execJoRel32 p rel s
  | .jnoRel32 p rel => Sys2Proof.Machine.execJnoRel32 p rel s
  | .jbRel32 p rel => Sys2Proof.Machine.execJbRel32 p rel s
  | .jaeRel32 p rel => Sys2Proof.Machine.execJaeRel32 p rel s
  | .jeRel32 p rel => Sys2Proof.Machine.execJeRel32 p rel s
  | .jneRel32 p rel => Sys2Proof.Machine.execJneRel32 p rel s
  | .jbeRel32 p rel => Sys2Proof.Machine.execJbeRel32 p rel s
  | .jaRel32 p rel => Sys2Proof.Machine.execJaRel32 p rel s
  | .jsRel32 p rel => Sys2Proof.Machine.execJsRel32 p rel s
  | .jnsRel32 p rel => Sys2Proof.Machine.execJnsRel32 p rel s
  | .jpRel32 p rel => Sys2Proof.Machine.execJpRel32 p rel s
  | .jnpRel32 p rel => Sys2Proof.Machine.execJnpRel32 p rel s
  | .jlRel32 p rel => Sys2Proof.Machine.execJlRel32 p rel s
  | .jgeRel32 p rel => Sys2Proof.Machine.execJgeRel32 p rel s
  | .jleRel32 p rel => Sys2Proof.Machine.execJleRel32 p rel s
  | .jgRel32 p rel => Sys2Proof.Machine.execJgRel32 p rel s
  | .imulGvEv p rm r => Sys2Proof.Machine.execImulGvEv p rm r s
  | .movzxGvEb p rm r => Sys2Proof.Machine.execMovzxGvEb p rm r s
  | .movzxGvEw p rm r => Sys2Proof.Machine.execMovzxGvEw p rm r s
  | .movsxGvEb p rm r => Sys2Proof.Machine.execMovsxGvEb p rm r s
  | .movsxGvEw p rm r => Sys2Proof.Machine.execMovsxGvEw p rm r s

end Sys2Proof.Machine
end

