-- ==== Sys2Proof/Machine/Fetch.lean ====
section
/-! DEFINITION. Instruction fetch (30_encoding.md R122, R180): the bytes at EIP as memory holds them now
(20_memory.md R110), decoded, or the fault their fetch or decoding raises (60_exceptions.md R522). -/

namespace Sys2Proof.Machine

/-- The number of prefix bytes in a row from address `a` (R124), at most `fuel`. EIP advances modulo 2^32
(10_state.md R41). -/
def prefixRun (m : Memory) : (fuel : Nat) → (a : Nat) → Nat
  | 0, _ => 0
  | fuel + 1, a =>
    if a < m.size ∧ (Prefix.ofByte? (m.read a)).isSome then prefixRun m fuel ((a + 1) % 2 ^ 32) + 1 else 0

/-- Up to `n` bytes from address `a`, as many as memory holds before its end. -/
def readAhead (m : Memory) : (n : Nat) → (a : Nat) → List Byte
  | 0, _ => []
  | n + 1, a => if a < m.size then m.read a :: readAhead m n ((a + 1) % 2 ^ 32) else []

/-- The most bytes any instruction has after its prefix bytes: opcode 1, ModR/M 1, SIB 1, displacement 4,
immediate 4. -/
def maxTail : Nat := 11

/-- The bytes at EIP that decide the next instruction. -/
def State.window (s : State) : List Byte :=
  readAhead s.mem (prefixRun s.mem (2 ^ 32) s.eip.toNat + maxTail) s.eip.toNat

/-- Why no instruction was fetched: a fault, or a fetch loop that has come round to EIP_start, every byte of a memory
of 2^32 bytes being a prefix byte (R130, R590). -/
inductive FetchStop where
  | fault (k : FaultKind)
  | endless
deriving DecidableEq, Repr

/-- Fetch and decode at EIP (R180). A rejection lists the bytes fetched (R184); a fetch past the end of memory has
the address and length of that one fetch (R522). Prefix bytes without end are met after 2^32 of them. -/
def State.fetchDecode (s : State) : Except FetchStop Instr :=
  if prefixRun s.mem (2 ^ 32) s.eip.toNat = 2 ^ 32 then .error .endless
  else
    match decodeAt (some s.eip) s.window with
    | .ok (i, _) => .ok i
    | .error (.unknownOpcode _ used) => .error (.fault (.unknownOpcode (s.window.take used)))
    | .error (.truncated used len) => .error (.fault (s.outOfBounds (s.eip + BitVec.ofNat 32 used) len))

/-- Memory with bytes stored from `a` up, those that lie inside it. -/
def Memory.storeInside (m : Memory) (a : Nat) (bs : List Byte) : Memory := m.writeBytes a (bs.take (m.size - a))

end Sys2Proof.Machine
end

