-- ==== Sys2Proof/Machine/Step.lean ====
section
/-! DEFINITION. One step of the core (30_encoding.md R180, R182). -/

namespace Sys2Proof.Machine

/-- `Step()` (R180), taken only when running. Success, exit and fault are all next states (R182, R525); a halted
machine executes nothing (10_state.md R60). Prefix bytes without end run for ever (70_reset_and_hazards.md R590): a step
is then one round of the fetch loop through all 2^32 bytes, after which EIP is back at EIP_start (log entry 6). -/
def step (s : State) : Host.Outcome State Fault Refusal :=
  match s.run with
  | .halted => .fault .halted
  | .running =>
    match s.fetchDecode with
    | .ok i => exec i s
    | .error (.fault k) => .next (s.raise k)
    | .error .endless => .next s

/-- The state with a row of spec/opcode_table.json stored at EIP, zero bytes after it, so that the next step of a
running machine with room at EIP runs it. This is the only way an instruction comes into a state from outside a
step, apart from `Loader` (log entry 7). -/
def State.withFetchWord (s : State) (nbits w : Nat) : State :=
  s.withMem (s.mem.storeInside s.eip.toNat (tableBytes nbits w ++ zeroTail))

end Sys2Proof.Machine
end

