-- ==== Sys2Proof/Machine/Loader.lean ====
section
/-! DEFINITION. Construction and loading with every parameter of 00_scope.md R9 (70_reset_and_hazards.md), and runs
(30_encoding.md R183). -/

namespace Sys2Proof.Machine

/-- `Construct(MEM_SIZE, streams)` (R570): INIT_GPR, INIT_FLAGS and the host's listed answers are the caller's. EIP
and ESP are set by the load; until then they are INIT_GPR's ESP and 0 (log entry 10). -/
def Loader.construct (memSize : Nat) (gpr : Regs) (flags : Flags) (reads : List ReadAnswer)
    (writes : List WriteAnswer) : State where
  regs := gpr
  eip := 0
  flags := flags
  mem := { size := memSize, cells := [] }
  run := .running
  exitCode := 0
  outcome := none
  events := []
  draws := 0
  readAnswers := reads
  writeAnswers := writes

/-- The load of `execute_bytes(IMAGE, LOAD_OFFSET)` (R575): all or nothing; an image that does not fit ends the run
with a BoundsError whose `eip` is none. -/
def Loader.load (image : List Byte) (offset : Word) (s : State) : State :=
  match s.mem.set offset.toNat image with
  | some m =>
    { s with
      mem := m, eip := offset, regs := { s.regs with esp := BitVec.ofNat 32 s.mem.size } }
  | none =>
    { s with run := .halted, outcome := some (.fault (s.outOfBounds offset image.length) none) }

/-- The state a run starts in, from all the parameters (R70, R572). -/
def Loader.boot (memSize : Nat) (image : List Byte) (offset : Word) (gpr : Regs) (flags : Flags)
    (reads : List ReadAnswer) (writes : List WriteAnswer) : State :=
  Loader.load image offset (Loader.construct memSize gpr flags reads writes)

/-- The run loop (R183) for at most `n` steps: the state it is in after them, or where no step was taken. -/
def runFor : (n : Nat) → State → State
  | 0, s => s
  | n + 1, s =>
    match step s with
    | .next t => runFor n t
    | _ => s

end Sys2Proof.Machine
end

