-- ==== Sys2Proof/Safety.lean ====
section
/-! DEFINITION. The terms the claims are stated in: what a reachable state satisfies, when an operand can be read
and written and what it then holds, the forms that share a rule, and what each instruction may write. Nothing here is
used by the machine. -/

namespace Sys2Proof

/-- The prefix bytes of an instruction. -/
def Instr.prefixes : Instr → Prefixes
  | .addEbGb p _ _ | .addEvGv p _ _ | .addGbEb p _ _ | .addGvEv p _ _ | .addAlIb p _ | .addEaxIz p _
  | .orEbGb p _ _ | .orEvGv p _ _ | .orGbEb p _ _ | .orGvEv p _ _ | .orAlIb p _ | .orEaxIz p _
  | .adcEbGb p _ _ | .adcEvGv p _ _ | .adcGbEb p _ _ | .adcGvEv p _ _ | .adcAlIb p _ | .adcEaxIz p _
  | .sbbEbGb p _ _ | .sbbEvGv p _ _ | .sbbGbEb p _ _ | .sbbGvEv p _ _ | .sbbAlIb p _ | .sbbEaxIz p _
  | .andEbGb p _ _ | .andEvGv p _ _ | .andGbEb p _ _ | .andGvEv p _ _ | .andAlIb p _ | .andEaxIz p _
  | .subEbGb p _ _ | .subEvGv p _ _ | .subGbEb p _ _ | .subGvEv p _ _ | .subAlIb p _ | .subEaxIz p _
  | .xorEbGb p _ _ | .xorEvGv p _ _ | .xorGbEb p _ _ | .xorGvEv p _ _ | .xorAlIb p _ | .xorEaxIz p _
  | .cmpEbGb p _ _ | .cmpEvGv p _ _ | .cmpGbEb p _ _ | .cmpGvEv p _ _ | .cmpAlIb p _ | .cmpEaxIz p _
  | .addEbIb p _ _ | .addEvIz p _ _ | .addEvIb p _ _ | .orEbIb p _ _ | .orEvIz p _ _ | .orEvIb p _ _
  | .adcEbIb p _ _ | .adcEvIz p _ _ | .adcEvIb p _ _ | .sbbEbIb p _ _ | .sbbEvIz p _ _ | .sbbEvIb p _ _
  | .andEbIb p _ _ | .andEvIz p _ _ | .andEvIb p _ _ | .subEbIb p _ _ | .subEvIz p _ _ | .subEvIb p _ _
  | .xorEbIb p _ _ | .xorEvIz p _ _ | .xorEvIb p _ _ | .cmpEbIb p _ _ | .cmpEvIz p _ _ | .cmpEvIb p _ _
  | .incR p _ | .decR p _ | .pushR p _ | .popR p _ | .movsxdGvEv p _ _ | .pushIz p _
  | .imulGvEvIz p _ _ _ | .pushIb p _ | .imulGvEvIb p _ _ _ | .joRel8 p _ | .jnoRel8 p _ | .jbRel8 p _
  | .jaeRel8 p _ | .jeRel8 p _ | .jneRel8 p _ | .jbeRel8 p _ | .jaRel8 p _ | .jsRel8 p _ | .jnsRel8 p _
  | .jpRel8 p _ | .jnpRel8 p _ | .jlRel8 p _ | .jgeRel8 p _ | .jleRel8 p _ | .jgRel8 p _
  | .testEbGb p _ _ | .testEvGv p _ _ | .xchgEbGb p _ _ | .xchgEvGv p _ _ | .movEbGb p _ _
  | .movEvGv p _ _ | .movGbEb p _ _ | .movGvEv p _ _ | .leaGvM p _ _ | .popEv p _ | .nop p
  | .xchgEaxR p _ | .cwde p | .cbw p | .cdq p | .cwd p | .movAlOb p _ | .movEaxOv p _ | .movObAl p _
  | .movOvEax p _ | .movsb p | .movsd p | .movsw p | .repMovsb p | .repMovsd p | .repMovsw p
  | .testAlIb p _ | .testEaxIz p _ | .movRbIb p _ _ | .movRvIz p _ _ | .shlEbIb p _ _ | .shlEvIb p _ _
  | .shlEb1 p _ | .shlEv1 p _ | .shlEbCl p _ | .shlEvCl p _ | .shrEbIb p _ _ | .shrEvIb p _ _
  | .shrEb1 p _ | .shrEv1 p _ | .shrEbCl p _ | .shrEvCl p _ | .sarEbIb p _ _ | .sarEvIb p _ _
  | .sarEb1 p _ | .sarEv1 p _ | .sarEbCl p _ | .sarEvCl p _ | .retIw p _ | .ret p | .movEbIb p _ _
  | .movEvIz p _ _ | .leave p | .int80 p | .callRel32 p _ | .jmpRel32 p _ | .jmpRel8 p _ | .cmc p
  | .testEbIb p _ _ | .testEvIz p _ _ | .notEb p _ | .notEv p _ | .negEb p _ | .negEv p _ | .mulEb p _
  | .mulEv p _ | .imulEb p _ | .imulEv p _ | .divEb p _ | .divEv p _ | .idivEb p _ | .idivEv p _ | .clc p
  | .stc p | .cli p | .sti p | .cld p | .std p | .incEb p _ | .decEb p _ | .incEv p _ | .decEv p _
  | .callEv p _ | .jmpEv p _ | .pushEv p _ | .joRel32 p _ | .jnoRel32 p _ | .jbRel32 p _ | .jaeRel32 p _
  | .jeRel32 p _ | .jneRel32 p _ | .jbeRel32 p _ | .jaRel32 p _ | .jsRel32 p _ | .jnsRel32 p _
  | .jpRel32 p _ | .jnpRel32 p _ | .jlRel32 p _ | .jgeRel32 p _ | .jleRel32 p _ | .jgRel32 p _
  | .imulGvEv p _ _ | .movzxGvEb p _ _ | .movzxGvEw p _ _ | .movsxGvEb p _ _ | .movsxGvEw p _ _ => p

/-- The same instruction under other prefix bytes. -/
def Instr.withPrefixes (p : Prefixes) : Instr → Instr
  | .addEbGb _ rm r => .addEbGb p rm r
  | .addEvGv _ rm r => .addEvGv p rm r
  | .addGbEb _ rm r => .addGbEb p rm r
  | .addGvEv _ rm r => .addGvEv p rm r
  | .addAlIb _ imm => .addAlIb p imm
  | .addEaxIz _ imm => .addEaxIz p imm
  | .orEbGb _ rm r => .orEbGb p rm r
  | .orEvGv _ rm r => .orEvGv p rm r
  | .orGbEb _ rm r => .orGbEb p rm r
  | .orGvEv _ rm r => .orGvEv p rm r
  | .orAlIb _ imm => .orAlIb p imm
  | .orEaxIz _ imm => .orEaxIz p imm
  | .adcEbGb _ rm r => .adcEbGb p rm r
  | .adcEvGv _ rm r => .adcEvGv p rm r
  | .adcGbEb _ rm r => .adcGbEb p rm r
  | .adcGvEv _ rm r => .adcGvEv p rm r
  | .adcAlIb _ imm => .adcAlIb p imm
  | .adcEaxIz _ imm => .adcEaxIz p imm
  | .sbbEbGb _ rm r => .sbbEbGb p rm r
  | .sbbEvGv _ rm r => .sbbEvGv p rm r
  | .sbbGbEb _ rm r => .sbbGbEb p rm r
  | .sbbGvEv _ rm r => .sbbGvEv p rm r
  | .sbbAlIb _ imm => .sbbAlIb p imm
  | .sbbEaxIz _ imm => .sbbEaxIz p imm
  | .andEbGb _ rm r => .andEbGb p rm r
  | .andEvGv _ rm r => .andEvGv p rm r
  | .andGbEb _ rm r => .andGbEb p rm r
  | .andGvEv _ rm r => .andGvEv p rm r
  | .andAlIb _ imm => .andAlIb p imm
  | .andEaxIz _ imm => .andEaxIz p imm
  | .subEbGb _ rm r => .subEbGb p rm r
  | .subEvGv _ rm r => .subEvGv p rm r
  | .subGbEb _ rm r => .subGbEb p rm r
  | .subGvEv _ rm r => .subGvEv p rm r
  | .subAlIb _ imm => .subAlIb p imm
  | .subEaxIz _ imm => .subEaxIz p imm
  | .xorEbGb _ rm r => .xorEbGb p rm r
  | .xorEvGv _ rm r => .xorEvGv p rm r
  | .xorGbEb _ rm r => .xorGbEb p rm r
  | .xorGvEv _ rm r => .xorGvEv p rm r
  | .xorAlIb _ imm => .xorAlIb p imm
  | .xorEaxIz _ imm => .xorEaxIz p imm
  | .cmpEbGb _ rm r => .cmpEbGb p rm r
  | .cmpEvGv _ rm r => .cmpEvGv p rm r
  | .cmpGbEb _ rm r => .cmpGbEb p rm r
  | .cmpGvEv _ rm r => .cmpGvEv p rm r
  | .cmpAlIb _ imm => .cmpAlIb p imm
  | .cmpEaxIz _ imm => .cmpEaxIz p imm
  | .addEbIb _ rm imm => .addEbIb p rm imm
  | .addEvIz _ rm imm => .addEvIz p rm imm
  | .addEvIb _ rm imm => .addEvIb p rm imm
  | .orEbIb _ rm imm => .orEbIb p rm imm
  | .orEvIz _ rm imm => .orEvIz p rm imm
  | .orEvIb _ rm imm => .orEvIb p rm imm
  | .adcEbIb _ rm imm => .adcEbIb p rm imm
  | .adcEvIz _ rm imm => .adcEvIz p rm imm
  | .adcEvIb _ rm imm => .adcEvIb p rm imm
  | .sbbEbIb _ rm imm => .sbbEbIb p rm imm
  | .sbbEvIz _ rm imm => .sbbEvIz p rm imm
  | .sbbEvIb _ rm imm => .sbbEvIb p rm imm
  | .andEbIb _ rm imm => .andEbIb p rm imm
  | .andEvIz _ rm imm => .andEvIz p rm imm
  | .andEvIb _ rm imm => .andEvIb p rm imm
  | .subEbIb _ rm imm => .subEbIb p rm imm
  | .subEvIz _ rm imm => .subEvIz p rm imm
  | .subEvIb _ rm imm => .subEvIb p rm imm
  | .xorEbIb _ rm imm => .xorEbIb p rm imm
  | .xorEvIz _ rm imm => .xorEvIz p rm imm
  | .xorEvIb _ rm imm => .xorEvIb p rm imm
  | .cmpEbIb _ rm imm => .cmpEbIb p rm imm
  | .cmpEvIz _ rm imm => .cmpEvIz p rm imm
  | .cmpEvIb _ rm imm => .cmpEvIb p rm imm
  | .incR _ r => .incR p r
  | .decR _ r => .decR p r
  | .pushR _ r => .pushR p r
  | .popR _ r => .popR p r
  | .movsxdGvEv _ rm r => .movsxdGvEv p rm r
  | .pushIz _ imm => .pushIz p imm
  | .imulGvEvIz _ rm r imm => .imulGvEvIz p rm r imm
  | .pushIb _ imm => .pushIb p imm
  | .imulGvEvIb _ rm r imm => .imulGvEvIb p rm r imm
  | .joRel8 _ rel => .joRel8 p rel
  | .jnoRel8 _ rel => .jnoRel8 p rel
  | .jbRel8 _ rel => .jbRel8 p rel
  | .jaeRel8 _ rel => .jaeRel8 p rel
  | .jeRel8 _ rel => .jeRel8 p rel
  | .jneRel8 _ rel => .jneRel8 p rel
  | .jbeRel8 _ rel => .jbeRel8 p rel
  | .jaRel8 _ rel => .jaRel8 p rel
  | .jsRel8 _ rel => .jsRel8 p rel
  | .jnsRel8 _ rel => .jnsRel8 p rel
  | .jpRel8 _ rel => .jpRel8 p rel
  | .jnpRel8 _ rel => .jnpRel8 p rel
  | .jlRel8 _ rel => .jlRel8 p rel
  | .jgeRel8 _ rel => .jgeRel8 p rel
  | .jleRel8 _ rel => .jleRel8 p rel
  | .jgRel8 _ rel => .jgRel8 p rel
  | .testEbGb _ rm r => .testEbGb p rm r
  | .testEvGv _ rm r => .testEvGv p rm r
  | .xchgEbGb _ rm r => .xchgEbGb p rm r
  | .xchgEvGv _ rm r => .xchgEvGv p rm r
  | .movEbGb _ rm r => .movEbGb p rm r
  | .movEvGv _ rm r => .movEvGv p rm r
  | .movGbEb _ rm r => .movGbEb p rm r
  | .movGvEv _ rm r => .movGvEv p rm r
  | .leaGvM _ r a => .leaGvM p r a
  | .popEv _ rm => .popEv p rm
  | .nop _ => .nop p
  | .xchgEaxR _ r => .xchgEaxR p r
  | .cwde _ => .cwde p
  | .cbw _ => .cbw p
  | .cdq _ => .cdq p
  | .cwd _ => .cwd p
  | .movAlOb _ a => .movAlOb p a
  | .movEaxOv _ a => .movEaxOv p a
  | .movObAl _ a => .movObAl p a
  | .movOvEax _ a => .movOvEax p a
  | .movsb _ => .movsb p
  | .movsd _ => .movsd p
  | .movsw _ => .movsw p
  | .repMovsb _ => .repMovsb p
  | .repMovsd _ => .repMovsd p
  | .repMovsw _ => .repMovsw p
  | .testAlIb _ imm => .testAlIb p imm
  | .testEaxIz _ imm => .testEaxIz p imm
  | .movRbIb _ r imm => .movRbIb p r imm
  | .movRvIz _ r imm => .movRvIz p r imm
  | .shlEbIb _ rm imm => .shlEbIb p rm imm
  | .shlEvIb _ rm imm => .shlEvIb p rm imm
  | .shlEb1 _ rm => .shlEb1 p rm
  | .shlEv1 _ rm => .shlEv1 p rm
  | .shlEbCl _ rm => .shlEbCl p rm
  | .shlEvCl _ rm => .shlEvCl p rm
  | .shrEbIb _ rm imm => .shrEbIb p rm imm
  | .shrEvIb _ rm imm => .shrEvIb p rm imm
  | .shrEb1 _ rm => .shrEb1 p rm
  | .shrEv1 _ rm => .shrEv1 p rm
  | .shrEbCl _ rm => .shrEbCl p rm
  | .shrEvCl _ rm => .shrEvCl p rm
  | .sarEbIb _ rm imm => .sarEbIb p rm imm
  | .sarEvIb _ rm imm => .sarEvIb p rm imm
  | .sarEb1 _ rm => .sarEb1 p rm
  | .sarEv1 _ rm => .sarEv1 p rm
  | .sarEbCl _ rm => .sarEbCl p rm
  | .sarEvCl _ rm => .sarEvCl p rm
  | .retIw _ imm => .retIw p imm
  | .ret _ => .ret p
  | .movEbIb _ rm imm => .movEbIb p rm imm
  | .movEvIz _ rm imm => .movEvIz p rm imm
  | .leave _ => .leave p
  | .int80 _ => .int80 p
  | .callRel32 _ rel => .callRel32 p rel
  | .jmpRel32 _ rel => .jmpRel32 p rel
  | .jmpRel8 _ rel => .jmpRel8 p rel
  | .cmc _ => .cmc p
  | .testEbIb _ rm imm => .testEbIb p rm imm
  | .testEvIz _ rm imm => .testEvIz p rm imm
  | .notEb _ rm => .notEb p rm
  | .notEv _ rm => .notEv p rm
  | .negEb _ rm => .negEb p rm
  | .negEv _ rm => .negEv p rm
  | .mulEb _ rm => .mulEb p rm
  | .mulEv _ rm => .mulEv p rm
  | .imulEb _ rm => .imulEb p rm
  | .imulEv _ rm => .imulEv p rm
  | .divEb _ rm => .divEb p rm
  | .divEv _ rm => .divEv p rm
  | .idivEb _ rm => .idivEb p rm
  | .idivEv _ rm => .idivEv p rm
  | .clc _ => .clc p
  | .stc _ => .stc p
  | .cli _ => .cli p
  | .sti _ => .sti p
  | .cld _ => .cld p
  | .std _ => .std p
  | .incEb _ rm => .incEb p rm
  | .decEb _ rm => .decEb p rm
  | .incEv _ rm => .incEv p rm
  | .decEv _ rm => .decEv p rm
  | .callEv _ rm => .callEv p rm
  | .jmpEv _ rm => .jmpEv p rm
  | .pushEv _ rm => .pushEv p rm
  | .joRel32 _ rel => .joRel32 p rel
  | .jnoRel32 _ rel => .jnoRel32 p rel
  | .jbRel32 _ rel => .jbRel32 p rel
  | .jaeRel32 _ rel => .jaeRel32 p rel
  | .jeRel32 _ rel => .jeRel32 p rel
  | .jneRel32 _ rel => .jneRel32 p rel
  | .jbeRel32 _ rel => .jbeRel32 p rel
  | .jaRel32 _ rel => .jaRel32 p rel
  | .jsRel32 _ rel => .jsRel32 p rel
  | .jnsRel32 _ rel => .jnsRel32 p rel
  | .jpRel32 _ rel => .jpRel32 p rel
  | .jnpRel32 _ rel => .jnpRel32 p rel
  | .jlRel32 _ rel => .jlRel32 p rel
  | .jgeRel32 _ rel => .jgeRel32 p rel
  | .jleRel32 _ rel => .jleRel32 p rel
  | .jgRel32 _ rel => .jgRel32 p rel
  | .imulGvEv _ rm r => .imulGvEv p rm r
  | .movzxGvEb _ rm r => .movzxGvEb p rm r
  | .movzxGvEw _ rm r => .movzxGvEw p rm r
  | .movsxGvEb _ rm r => .movsxGvEb p rm r
  | .movsxGvEw _ rm r => .movsxGvEw p rm r

end Sys2Proof

namespace Sys2Proof.Machine

/-! ### Invariant and runs -/

/-- The invariant of the machine: the memory is canonical and of a legal size (70_reset_and_hazards.md R571), the
outcome agrees with the run state (R60, R62) and the exit code with the outcome (R61). -/
structure State.Inv (s : State) : Prop where
  memory : s.mem.wf
  size : 1 ≤ s.mem.size ∧ s.mem.size ≤ 2 ^ 32
  running : s.run = .running ↔ s.outcome = none
  exited : ∀ c, s.outcome = some (.exited c) → s.exitCode = c
  notExited : (∀ c, s.outcome ≠ some (.exited c)) → s.exitCode = 0

/-- A state that some run from some start state reaches. -/
inductive Reachable (start : State) : State → Prop where
  | start : Reachable start start
  | step {s t : State} : Reachable start s → step s = .next t → Reachable start t

/-! ### Register views -/

/-- The lowest bit of the view of width `w` with index `i` in its slot (10_state.md R31). -/
def viewOffset (i : Reg) : Width → Nat
  | .byte => if i.isHigh then 8 else 0
  | _ => 0

/-! ### The bytes at EIP -/

/-- `bs` lies in memory from EIP up. -/
def State.atEip (s : State) (bs : List Byte) : Prop :=
  s.mem.size ≤ 2 ^ 32 ∧ s.eip.toNat + bs.length ≤ s.mem.size ∧ s.mem.readBytes s.eip.toNat bs.length = bs

/-- The `n` bytes from EIP on in a memory of 2^32 bytes, where 0 is the address after the last (10_state.md R41). -/
def State.bytesRound (s : State) (n : Nat) : List Byte :=
  (List.range n).map fun k => s.mem.read (s.eip + BitVec.ofNat 32 k).toNat

/-- `Fetch(n)` from a list of bytes, as a number. -/
def takeValue (n : Nat) (bs : List Byte) : Option (Nat × List Byte) :=
  if n ≤ bs.length then some (leValue (bs.take n), bs.drop n) else none

/-- The base, and with a SIB byte the scaled index, of a memory operand (30_encoding.md R139, R140), and the bytes after
the ones it fetches. -/
def addressBase (x : Regs) (mod : BitVec 2) (rm : BitVec 3) (bs : List Byte) : Option (Nat × List Byte) :=
  if rm = 4 then
    (takeValue 1 bs).bind fun (s, bs) =>
      let scale := s / 64
      let index := s / 8 % 8
      let base := s % 8
      let i := if index = 4 then 0 else (x.get (Reg.ofBits (BitVec.ofNat 3 index))).toNat * 2 ^ scale
      if base = 5 ∧ mod = 0 then (takeValue 4 bs).map fun (d, bs) => (d + i, bs)
      else some ((x.get (Reg.ofBits (BitVec.ofNat 3 base))).toNat + i, bs)
  else if rm = 5 ∧ mod = 0 then takeValue 4 bs
  else some ((x.get (Reg.ofBits rm)).toNat, bs)

/-- The displacement added: `d8` counts from −128 to 127, modulo 2^32 (R138, R140). -/
def addDisplacement (mod : BitVec 2) (a : Nat) (bs : List Byte) : Option (Nat × List Byte) :=
  if mod = 1 then (takeValue 1 bs).map fun (d, bs) => (a + (if d < 128 then d else d + 2 ^ 32 - 256), bs)
  else if mod = 2 then (takeValue 4 bs).map fun (d, bs) => (a + d, bs)
  else some (a, bs)

/-- `DecodeRM` for a memory form as 30_encoding.md R140 writes it, over the natural numbers: the address, and the bytes
after the ones it fetches. -/
def addressOf (x : Regs) (mod : BitVec 2) (rm : BitVec 3) (bs : List Byte) : Option (Word × List Byte) :=
  (addressBase x mod rm bs).bind fun (a, bs) =>
    (addDisplacement mod a bs).map fun (a, bs) => (BitVec.ofNat 32 a, bs)

/-! ### The cells of the opcode maps that hold no instruction -/

/-- The primary opcodes with no entry (30_encoding.md R160), row by row. -/
def unlistedPrimary : List Byte :=
  [0x06, 0x07, 0x0E, 0x16, 0x17, 0x1E, 0x1F, 0x27, 0x2F, 0x37, 0x3F] ++
  [0x60, 0x61, 0x62, 0x6C, 0x6D, 0x6E, 0x6F, 0x82, 0x8C, 0x8E] ++
  [0x9A, 0x9B, 0x9C, 0x9D, 0x9E, 0x9F, 0xA6, 0xA7, 0xAA, 0xAB, 0xAC, 0xAD, 0xAE, 0xAF] ++
  [0xC4, 0xC5, 0xC8, 0xCA, 0xCB, 0xCC, 0xCE, 0xCF] ++
  [0xD4, 0xD5, 0xD6, 0xD7, 0xD8, 0xD9, 0xDA, 0xDB, 0xDC, 0xDD, 0xDE, 0xDF] ++
  [0xE0, 0xE1, 0xE2, 0xE3, 0xE4, 0xE5, 0xE6, 0xE7, 0xEA, 0xEC, 0xED, 0xEE, 0xEF, 0xF0, 0xF1, 0xF4]

/-- The bytes after 0F with an entry (R161). -/
def listedSecondary : List Byte :=
  [0x80, 0x81, 0x82, 0x83, 0x84, 0x85, 0x86, 0x87, 0x88, 0x89, 0x8A, 0x8B, 0x8C, 0x8D, 0x8E, 0x8F] ++
  [0xAF, 0xB6, 0xB7, 0xBE, 0xBF]

/-- The group opcodes with the digits that have no member (R162). -/
def unlistedDigits : List (Byte × List (BitVec 3)) :=
  [(0xC0, [0, 1, 2, 3, 6]), (0xC1, [0, 1, 2, 3, 6]), (0xD0, [0, 1, 2, 3, 6]), (0xD1, [0, 1, 2, 3, 6]),
    (0xD2, [0, 1, 2, 3, 6]), (0xD3, [0, 1, 2, 3, 6])] ++
  [(0xF6, [1]), (0xF7, [1]), (0xFE, [2, 3, 4, 5, 6, 7]), (0xFF, [3, 5, 7])] ++
  [(0x8F, [1, 2, 3, 4, 5, 6, 7]), (0xC6, [1, 2, 3, 4, 5, 6, 7]), (0xC7, [1, 2, 3, 4, 5, 6, 7])]

/-- The one-byte opcodes with a ModR/M byte (R160, R162). -/
def primaryWithModRM : List Byte :=
  [0x00, 0x01, 0x02, 0x03, 0x08, 0x09, 0x0A, 0x0B, 0x10, 0x11, 0x12, 0x13, 0x18, 0x19, 0x1A, 0x1B] ++
  [0x20, 0x21, 0x22, 0x23, 0x28, 0x29, 0x2A, 0x2B, 0x30, 0x31, 0x32, 0x33, 0x38, 0x39, 0x3A, 0x3B] ++
  [0x63, 0x69, 0x6B, 0x80, 0x81, 0x83, 0x84, 0x85, 0x86, 0x87, 0x88, 0x89, 0x8A, 0x8B, 0x8D, 0x8F] ++
  [0xC0, 0xC1, 0xC6, 0xC7, 0xD0, 0xD1, 0xD2, 0xD3, 0xF6, 0xF7, 0xFE, 0xFF]

/-- The two-byte opcodes with a ModR/M byte, by their second byte (R161). -/
def secondaryWithModRM : List Byte := [0xAF, 0xB6, 0xB7, 0xBE, 0xBF]

/-- The near branches that begin with one opcode byte (R166). -/
def nearPrimary : List Byte :=
  [0x70, 0x71, 0x72, 0x73, 0x74, 0x75, 0x76, 0x77, 0x78, 0x79, 0x7A, 0x7B, 0x7C, 0x7D, 0x7E, 0x7F] ++
  [0xE8, 0xE9, 0xEB, 0xC2, 0xC3]

/-! ### Operands -/

/-- `n` bytes at `a` lie in memory (20_memory.md R82). -/
abbrev State.inBounds (s : State) (a : Word) (n : Nat) : Prop := a.toNat + n ≤ s.mem.size

/-- The value of `w` bytes of memory (20_memory.md R84). -/
def State.peek (s : State) (a : Word) (w : Width) : BitVec w.bits :=
  BitVec.ofNat w.bits (leValue (s.mem.readBytes a.toNat w.bytes))

/-- The state with `w` bytes of memory stored (20_memory.md R85). -/
def State.poke (s : State) (a : Word) (w : Width) (v : BitVec w.bits) : State :=
  s.withMem (s.mem.writeBytes a.toNat (leBytes w.bytes v.toNat))

/-- The state with some bytes of memory stored. -/
def State.pokeBytes (s : State) (a : Word) (bs : List Byte) : State := s.withMem (s.mem.writeBytes a.toNat bs)

/-- An operand that can be read and written without a BoundsError. -/
def Operand.accessible {w : Width} (op : Operand w) (s : State) : Prop :=
  match op with
  | .mem a => s.inBounds a w.bytes
  | _ => True

/-- An operand whose access raises the BoundsError `k`. -/
def Operand.blocked {w : Width} (op : Operand w) (s : State) (k : FaultKind) : Prop :=
  match op with
  | .mem a => ¬ s.inBounds a w.bytes ∧ k = s.outOfBounds a w.bytes
  | _ => False

/-- What an accessible operand holds. -/
def Operand.value {w : Width} (op : Operand w) (s : State) : BitVec w.bits :=
  match op with
  | .reg i => s.regRead i w
  | .mem a => s.peek a w
  | .imm v => v

/-- The state with an accessible operand written: one register view, or the bytes of one memory operand. -/
def Operand.put {w : Width} (op : Operand w) (v : BitVec w.bits) (s : State) : State :=
  match op with
  | .reg i => s.regWrite i w v
  | .mem a => s.poke a w v
  | .imm _ => s

/-- The state with ESP set. -/
def State.withEsp (s : State) (v : Word) : State := s.regWrite .esp .dword v

/-! ### Forms that share a rule -/

/-- The nine forms of a binary ALU operation (40_alu_flags.md R215), in the table's order. -/
inductive AluForm where
  | ebGb (p : Prefixes) (rm : RM) (r : Reg)
  | evGv (p : Prefixes) (rm : RM) (r : Reg)
  | gbEb (p : Prefixes) (rm : RM) (r : Reg)
  | gvEv (p : Prefixes) (rm : RM) (r : Reg)
  | alIb (p : Prefixes) (imm : Byte)
  | eaxIz (p : Prefixes) (imm : Word)
  | ebIb (p : Prefixes) (rm : RM) (imm : Byte)
  | evIz (p : Prefixes) (rm : RM) (imm : Word)
  | evIb (p : Prefixes) (rm : RM) (imm : Byte)
deriving DecidableEq, Repr

/-- The width column of R215. -/
def AluForm.width : AluForm → Width
  | .ebGb _ _ _ => .byte
  | .evGv p _ _ => p.osz
  | .gbEb _ _ _ => .byte
  | .gvEv p _ _ => p.osz
  | .alIb _ _ => .byte
  | .eaxIz p _ => p.osz
  | .ebIb _ _ _ => .byte
  | .evIz p _ _ => p.osz
  | .evIb p _ _ => p.osz

/-- The destination column of R215. -/
def AluForm.dst (s : State) : (f : AluForm) → Operand f.width
  | .ebGb _ rm _ => rm.operand .byte s
  | .evGv p rm _ => rm.operand p.osz s
  | .gbEb _ _ r => .reg r
  | .gvEv _ _ r => .reg r
  | .alIb _ _ => .reg .eax
  | .eaxIz _ _ => .reg .eax
  | .ebIb _ rm _ => rm.operand .byte s
  | .evIz p rm _ => rm.operand p.osz s
  | .evIb p rm _ => rm.operand p.osz s

/-- The source column of R215. -/
def AluForm.src (s : State) : (f : AluForm) → Operand f.width
  | .ebGb _ _ r => .reg r
  | .evGv _ _ r => .reg r
  | .gbEb _ rm _ => rm.operand .byte s
  | .gvEv p rm _ => rm.operand p.osz s
  | .alIb _ imm => .imm imm
  | .eaxIz p imm => .imm (immZ p imm)
  | .ebIb _ _ imm => .imm imm
  | .evIz p _ imm => .imm (immZ p imm)
  | .evIb p _ imm => .imm (immS p imm)

/-- The 72 instructions of R215. -/
def AluOp.instr : AluOp → AluForm → Instr
  | .add, .ebGb p rm r => .addEbGb p rm r
  | .add, .evGv p rm r => .addEvGv p rm r
  | .add, .gbEb p rm r => .addGbEb p rm r
  | .add, .gvEv p rm r => .addGvEv p rm r
  | .add, .alIb p imm => .addAlIb p imm
  | .add, .eaxIz p imm => .addEaxIz p imm
  | .add, .ebIb p rm imm => .addEbIb p rm imm
  | .add, .evIz p rm imm => .addEvIz p rm imm
  | .add, .evIb p rm imm => .addEvIb p rm imm
  | .or, .ebGb p rm r => .orEbGb p rm r
  | .or, .evGv p rm r => .orEvGv p rm r
  | .or, .gbEb p rm r => .orGbEb p rm r
  | .or, .gvEv p rm r => .orGvEv p rm r
  | .or, .alIb p imm => .orAlIb p imm
  | .or, .eaxIz p imm => .orEaxIz p imm
  | .or, .ebIb p rm imm => .orEbIb p rm imm
  | .or, .evIz p rm imm => .orEvIz p rm imm
  | .or, .evIb p rm imm => .orEvIb p rm imm
  | .adc, .ebGb p rm r => .adcEbGb p rm r
  | .adc, .evGv p rm r => .adcEvGv p rm r
  | .adc, .gbEb p rm r => .adcGbEb p rm r
  | .adc, .gvEv p rm r => .adcGvEv p rm r
  | .adc, .alIb p imm => .adcAlIb p imm
  | .adc, .eaxIz p imm => .adcEaxIz p imm
  | .adc, .ebIb p rm imm => .adcEbIb p rm imm
  | .adc, .evIz p rm imm => .adcEvIz p rm imm
  | .adc, .evIb p rm imm => .adcEvIb p rm imm
  | .sbb, .ebGb p rm r => .sbbEbGb p rm r
  | .sbb, .evGv p rm r => .sbbEvGv p rm r
  | .sbb, .gbEb p rm r => .sbbGbEb p rm r
  | .sbb, .gvEv p rm r => .sbbGvEv p rm r
  | .sbb, .alIb p imm => .sbbAlIb p imm
  | .sbb, .eaxIz p imm => .sbbEaxIz p imm
  | .sbb, .ebIb p rm imm => .sbbEbIb p rm imm
  | .sbb, .evIz p rm imm => .sbbEvIz p rm imm
  | .sbb, .evIb p rm imm => .sbbEvIb p rm imm
  | .and, .ebGb p rm r => .andEbGb p rm r
  | .and, .evGv p rm r => .andEvGv p rm r
  | .and, .gbEb p rm r => .andGbEb p rm r
  | .and, .gvEv p rm r => .andGvEv p rm r
  | .and, .alIb p imm => .andAlIb p imm
  | .and, .eaxIz p imm => .andEaxIz p imm
  | .and, .ebIb p rm imm => .andEbIb p rm imm
  | .and, .evIz p rm imm => .andEvIz p rm imm
  | .and, .evIb p rm imm => .andEvIb p rm imm
  | .sub, .ebGb p rm r => .subEbGb p rm r
  | .sub, .evGv p rm r => .subEvGv p rm r
  | .sub, .gbEb p rm r => .subGbEb p rm r
  | .sub, .gvEv p rm r => .subGvEv p rm r
  | .sub, .alIb p imm => .subAlIb p imm
  | .sub, .eaxIz p imm => .subEaxIz p imm
  | .sub, .ebIb p rm imm => .subEbIb p rm imm
  | .sub, .evIz p rm imm => .subEvIz p rm imm
  | .sub, .evIb p rm imm => .subEvIb p rm imm
  | .xor, .ebGb p rm r => .xorEbGb p rm r
  | .xor, .evGv p rm r => .xorEvGv p rm r
  | .xor, .gbEb p rm r => .xorGbEb p rm r
  | .xor, .gvEv p rm r => .xorGvEv p rm r
  | .xor, .alIb p imm => .xorAlIb p imm
  | .xor, .eaxIz p imm => .xorEaxIz p imm
  | .xor, .ebIb p rm imm => .xorEbIb p rm imm
  | .xor, .evIz p rm imm => .xorEvIz p rm imm
  | .xor, .evIb p rm imm => .xorEvIb p rm imm
  | .cmp, .ebGb p rm r => .cmpEbGb p rm r
  | .cmp, .evGv p rm r => .cmpEvGv p rm r
  | .cmp, .gbEb p rm r => .cmpGbEb p rm r
  | .cmp, .gvEv p rm r => .cmpGvEv p rm r
  | .cmp, .alIb p imm => .cmpAlIb p imm
  | .cmp, .eaxIz p imm => .cmpEaxIz p imm
  | .cmp, .ebIb p rm imm => .cmpEbIb p rm imm
  | .cmp, .evIz p rm imm => .cmpEvIz p rm imm
  | .cmp, .evIb p rm imm => .cmpEvIb p rm imm

/-- The result of a binary ALU operation with carry or borrow in `c` (42_arithmetic.md R300 to R308, 43_logical.md
R350 to R354). -/
def AluOp.result {n : Nat} (op : AluOp) (c : Bool) (a b : BitVec n) : BitVec n :=
  match op with
  | .add => a + b
  | .adc => a + b + BitVec.ofNat n c.toNat
  | .sub => a - b
  | .cmp => a - b
  | .sbb => a - b - BitVec.ofNat n c.toNat
  | .and => a &&& b
  | .or => a ||| b
  | .xor => a ^^^ b

/-- The two forms of an instruction with one r/m operand. -/
inductive UnaryForm where
  | eb (p : Prefixes) (rm : RM)
  | ev (p : Prefixes) (rm : RM)
deriving DecidableEq, Repr

def UnaryForm.width : UnaryForm → Width
  | .eb _ _ => .byte
  | .ev p _ => p.osz

def UnaryForm.operand (s : State) : (f : UnaryForm) → Operand f.width
  | .eb _ rm => rm.operand .byte s
  | .ev p rm => rm.operand p.osz s

/-- The operations with one r/m operand. -/
inductive UnaryOp where
  | inc | dec | not | neg | mul | imul | div | idiv
deriving DecidableEq, Repr

def UnaryOp.instr : UnaryOp → UnaryForm → Instr
  | .inc, .eb p rm => .incEb p rm
  | .inc, .ev p rm => .incEv p rm
  | .dec, .eb p rm => .decEb p rm
  | .dec, .ev p rm => .decEv p rm
  | .not, .eb p rm => .notEb p rm
  | .not, .ev p rm => .notEv p rm
  | .neg, .eb p rm => .negEb p rm
  | .neg, .ev p rm => .negEv p rm
  | .mul, .eb p rm => .mulEb p rm
  | .mul, .ev p rm => .mulEv p rm
  | .imul, .eb p rm => .imulEb p rm
  | .imul, .ev p rm => .imulEv p rm
  | .div, .eb p rm => .divEb p rm
  | .div, .ev p rm => .divEv p rm
  | .idiv, .eb p rm => .idivEb p rm
  | .idiv, .ev p rm => .idivEv p rm

/-- The six forms of a shift (44_shifts.md R380). -/
inductive ShiftForm where
  | ebIb (p : Prefixes) (rm : RM) (imm : Byte)
  | evIb (p : Prefixes) (rm : RM) (imm : Byte)
  | eb1 (p : Prefixes) (rm : RM)
  | ev1 (p : Prefixes) (rm : RM)
  | ebCl (p : Prefixes) (rm : RM)
  | evCl (p : Prefixes) (rm : RM)
deriving DecidableEq, Repr

def ShiftForm.width : ShiftForm → Width
  | .ebIb _ _ _ => .byte
  | .evIb p _ _ => p.osz
  | .eb1 _ _ => .byte
  | .ev1 p _ => p.osz
  | .ebCl _ _ => .byte
  | .evCl p _ => p.osz

/-- The destination column of R380. -/
def ShiftForm.dst (s : State) : (f : ShiftForm) → Operand f.width
  | .ebIb _ rm _ => rm.operand .byte s
  | .evIb p rm _ => rm.operand p.osz s
  | .eb1 _ rm => rm.operand .byte s
  | .ev1 p rm => rm.operand p.osz s
  | .ebCl _ rm => rm.operand .byte s
  | .evCl p rm => rm.operand p.osz s

/-- The count column of R380; CL is bits 7:0 of ECX. -/
def ShiftForm.count (s : State) : ShiftForm → Byte
  | .ebIb _ _ imm => imm
  | .evIb _ _ imm => imm
  | .eb1 _ _ => 1
  | .ev1 _ _ => 1
  | .ebCl _ _ => s.regs.ecx.extractLsb' 0 8
  | .evCl _ _ => s.regs.ecx.extractLsb' 0 8

/-- The 18 shift instructions. -/
def ShiftOp.instr : ShiftOp → ShiftForm → Instr
  | .shl, .ebIb p rm imm => .shlEbIb p rm imm
  | .shl, .evIb p rm imm => .shlEvIb p rm imm
  | .shl, .eb1 p rm => .shlEb1 p rm
  | .shl, .ev1 p rm => .shlEv1 p rm
  | .shl, .ebCl p rm => .shlEbCl p rm
  | .shl, .evCl p rm => .shlEvCl p rm
  | .shr, .ebIb p rm imm => .shrEbIb p rm imm
  | .shr, .evIb p rm imm => .shrEvIb p rm imm
  | .shr, .eb1 p rm => .shrEb1 p rm
  | .shr, .ev1 p rm => .shrEv1 p rm
  | .shr, .ebCl p rm => .shrEbCl p rm
  | .shr, .evCl p rm => .shrEvCl p rm
  | .sar, .ebIb p rm imm => .sarEbIb p rm imm
  | .sar, .evIb p rm imm => .sarEvIb p rm imm
  | .sar, .eb1 p rm => .sarEb1 p rm
  | .sar, .ev1 p rm => .sarEv1 p rm
  | .sar, .ebCl p rm => .sarEbCl p rm
  | .sar, .evCl p rm => .sarEvCl p rm

/-- Whether the low 8 bits of a result hold an even number of ones (40_alu_flags.md R201). -/
def evenParity {n : Nat} (r : BitVec n) : Bool := (List.range 8).countP (fun k => r.getLsbD k) % 2 == 0

/-- The result of a shift by `c` places, over the integers (44_shifts.md R384, R386, R388). -/
def ShiftOp.value {n : Nat} (op : ShiftOp) (a : BitVec n) (c : Nat) : BitVec n :=
  match op with
  | .shl => BitVec.ofNat n (a.toNat * 2 ^ c)
  | .shr => BitVec.ofNat n (a.toNat / 2 ^ c)
  | .sar => BitVec.ofInt n (a.toInt / 2 ^ c)

/-- The six forms of TEST (43_logical.md R358). -/
inductive TestForm where
  | ebGb (p : Prefixes) (rm : RM) (r : Reg)
  | evGv (p : Prefixes) (rm : RM) (r : Reg)
  | alIb (p : Prefixes) (imm : Byte)
  | eaxIz (p : Prefixes) (imm : Word)
  | ebIb (p : Prefixes) (rm : RM) (imm : Byte)
  | evIz (p : Prefixes) (rm : RM) (imm : Word)
deriving DecidableEq, Repr

def TestForm.width : TestForm → Width
  | .ebGb _ _ _ => .byte
  | .evGv p _ _ => p.osz
  | .alIb _ _ => .byte
  | .eaxIz p _ => p.osz
  | .ebIb _ _ _ => .byte
  | .evIz p _ _ => p.osz

def TestForm.op1 (s : State) : (f : TestForm) → Operand f.width
  | .ebGb _ rm _ => rm.operand .byte s
  | .evGv p rm _ => rm.operand p.osz s
  | .alIb _ _ => .reg .eax
  | .eaxIz _ _ => .reg .eax
  | .ebIb _ rm _ => rm.operand .byte s
  | .evIz p rm _ => rm.operand p.osz s

def TestForm.op2 : (f : TestForm) → Operand f.width
  | .ebGb _ _ r => .reg r
  | .evGv _ _ r => .reg r
  | .alIb _ imm => .imm imm
  | .eaxIz p imm => .imm (immZ p imm)
  | .ebIb _ _ imm => .imm imm
  | .evIz p _ imm => .imm (immZ p imm)

def TestForm.instr : TestForm → Instr
  | .ebGb p rm r => .testEbGb p rm r
  | .evGv p rm r => .testEvGv p rm r
  | .alIb p imm => .testAlIb p imm
  | .eaxIz p imm => .testEaxIz p imm
  | .ebIb p rm imm => .testEbIb p rm imm
  | .evIz p rm imm => .testEvIz p rm imm

/-- The thirteen copying forms: MOV (41_data_movement.md R251 to R256) and MOVSXD (R264). -/
inductive MoveForm where
  | ebGb (p : Prefixes) (rm : RM) (r : Reg)
  | evGv (p : Prefixes) (rm : RM) (r : Reg)
  | gbEb (p : Prefixes) (rm : RM) (r : Reg)
  | gvEv (p : Prefixes) (rm : RM) (r : Reg)
  | alOb (p : Prefixes) (a : Word)
  | eaxOv (p : Prefixes) (a : Word)
  | obAl (p : Prefixes) (a : Word)
  | ovEax (p : Prefixes) (a : Word)
  | rbIb (p : Prefixes) (r : Reg) (imm : Byte)
  | rvIz (p : Prefixes) (r : Reg) (imm : Word)
  | ebIb (p : Prefixes) (rm : RM) (imm : Byte)
  | evIz (p : Prefixes) (rm : RM) (imm : Word)
  | sxd (p : Prefixes) (rm : RM) (r : Reg)
deriving DecidableEq, Repr

def MoveForm.width : MoveForm → Width
  | .ebGb _ _ _ => .byte
  | .evGv p _ _ => p.osz
  | .gbEb _ _ _ => .byte
  | .gvEv p _ _ => p.osz
  | .alOb _ _ => .byte
  | .eaxOv p _ => p.osz
  | .obAl _ _ => .byte
  | .ovEax p _ => p.osz
  | .rbIb _ _ _ => .byte
  | .rvIz p _ _ => p.osz
  | .ebIb _ _ _ => .byte
  | .evIz p _ _ => p.osz
  | .sxd p _ _ => p.osz

def MoveForm.dst (s : State) : (f : MoveForm) → Operand f.width
  | .ebGb _ rm _ => rm.operand .byte s
  | .evGv p rm _ => rm.operand p.osz s
  | .gbEb _ _ r => .reg r
  | .gvEv _ _ r => .reg r
  | .alOb _ _ => .reg .eax
  | .eaxOv _ _ => .reg .eax
  | .obAl _ a => .mem a
  | .ovEax _ a => .mem a
  | .rbIb _ r _ => .reg r
  | .rvIz _ r _ => .reg r
  | .ebIb _ rm _ => rm.operand .byte s
  | .evIz p rm _ => rm.operand p.osz s
  | .sxd _ _ r => .reg r

def MoveForm.src (s : State) : (f : MoveForm) → Operand f.width
  | .ebGb _ _ r => .reg r
  | .evGv _ _ r => .reg r
  | .gbEb _ rm _ => rm.operand .byte s
  | .gvEv p rm _ => rm.operand p.osz s
  | .alOb _ a => .mem a
  | .eaxOv _ a => .mem a
  | .obAl _ _ => .reg .eax
  | .ovEax _ _ => .reg .eax
  | .rbIb _ _ imm => .imm imm
  | .rvIz p _ imm => .imm (immZ p imm)
  | .ebIb _ _ imm => .imm imm
  | .evIz p _ imm => .imm (immZ p imm)
  | .sxd p rm _ => rm.operand p.osz s

def MoveForm.instr : MoveForm → Instr
  | .ebGb p rm r => .movEbGb p rm r
  | .evGv p rm r => .movEvGv p rm r
  | .gbEb p rm r => .movGbEb p rm r
  | .gvEv p rm r => .movGvEv p rm r
  | .alOb p a => .movAlOb p a
  | .eaxOv p a => .movEaxOv p a
  | .obAl p a => .movObAl p a
  | .ovEax p a => .movOvEax p a
  | .rbIb p r imm => .movRbIb p r imm
  | .rvIz p r imm => .movRvIz p r imm
  | .ebIb p rm imm => .movEbIb p rm imm
  | .evIz p rm imm => .movEvIz p rm imm
  | .sxd p rm r => .movsxdGvEv p rm r

/-- The short branch on a condition (40_alu_flags.md R230). -/
def Cond.jcc8 : Cond → Prefixes → Byte → Instr
  | .o, q, rel => .joRel8 q rel
  | .no, q, rel => .jnoRel8 q rel
  | .b, q, rel => .jbRel8 q rel
  | .ae, q, rel => .jaeRel8 q rel
  | .e, q, rel => .jeRel8 q rel
  | .ne, q, rel => .jneRel8 q rel
  | .be, q, rel => .jbeRel8 q rel
  | .a, q, rel => .jaRel8 q rel
  | .s, q, rel => .jsRel8 q rel
  | .ns, q, rel => .jnsRel8 q rel
  | .p, q, rel => .jpRel8 q rel
  | .np, q, rel => .jnpRel8 q rel
  | .l, q, rel => .jlRel8 q rel
  | .ge, q, rel => .jgeRel8 q rel
  | .le, q, rel => .jleRel8 q rel
  | .g, q, rel => .jgRel8 q rel

/-- The near branch on a condition. -/
def Cond.jcc32 : Cond → Prefixes → Word → Instr
  | .o, q, rel => .joRel32 q rel
  | .no, q, rel => .jnoRel32 q rel
  | .b, q, rel => .jbRel32 q rel
  | .ae, q, rel => .jaeRel32 q rel
  | .e, q, rel => .jeRel32 q rel
  | .ne, q, rel => .jneRel32 q rel
  | .be, q, rel => .jbeRel32 q rel
  | .a, q, rel => .jaRel32 q rel
  | .s, q, rel => .jsRel32 q rel
  | .ns, q, rel => .jnsRel32 q rel
  | .p, q, rel => .jpRel32 q rel
  | .np, q, rel => .jnpRel32 q rel
  | .l, q, rel => .jlRel32 q rel
  | .ge, q, rel => .jgeRel32 q rel
  | .le, q, rel => .jleRel32 q rel
  | .g, q, rel => .jgRel32 q rel

/-- The code of a condition (R230). -/
def Cond.code : Cond → Byte
  | .o => 0 | .no => 1 | .b => 2 | .ae => 3 | .e => 4 | .ne => 5 | .be => 6 | .a => 7
  | .s => 8 | .ns => 9 | .p => 10 | .np => 11 | .l => 12 | .ge => 13 | .le => 14 | .g => 15

/-- The opposite condition (R231). -/
def Cond.opposite : Cond → Cond
  | .o => .no | .no => .o | .b => .ae | .ae => .b | .e => .ne | .ne => .e | .be => .a | .a => .be
  | .s => .ns | .ns => .s | .p => .np | .np => .p | .l => .ge | .ge => .l | .le => .g | .g => .le

/-- The string move of each width without a rep prefix (47_string.md R452, R454). -/
def Width.movs : Width → Prefixes → Instr
  | .byte, p => .movsb p
  | .word, p => .movsw p
  | .dword, p => .movsd p

/-- The string move of each width with a rep prefix (47_string.md R453). -/
def Width.repMovs : Width → Prefixes → Instr
  | .byte, p => .repMovsb p
  | .word, p => .repMovsw p
  | .dword, p => .repMovsd p

/-- `n` elements moved one after the other, ECX counted down, if none faults (47_string.md R453). -/
def moveTimes (w : Width) : (n : Nat) → State → Except FaultKind State
  | 0, s => .ok s
  | n + 1, s => do
    let t ← moveElement w s
    moveTimes w n (t.regWrite .ecx .dword (s.regs.ecx - 1))

/-- Where element number `k` of a string move lies, from the address of element 0 (47_string.md R450, R455). -/
def elementAddr (w : Width) (f : Flags) (x : Word) (k : Nat) : Word :=
  if f.DF then x - BitVec.ofNat 32 (k * w.bytes) else x + BitVec.ofNat 32 (k * w.bytes)

/-! ### What an instruction may write -/

/-- The name of a flag. -/
inductive FlagBit where
  | CF | PF | AF | ZF | SF | TF | IF | DF | OF
deriving DecidableEq, Repr

def Flags.get (f : Flags) : FlagBit → Bool
  | .CF => f.CF | .PF => f.PF | .AF => f.AF | .ZF => f.ZF | .SF => f.SF
  | .TF => f.TF | .IF => f.IF | .DF => f.DF | .OF => f.OF

/-- The flags a shift of width `w` leaves undefined (40_alu_flags.md R208, 44_shifts.md R382). -/
def shiftUndefined (op : ShiftOp) (w : Width) (count : Byte) : List FlagBit :=
  let c := (count &&& 0x1F).toNat
  if c = 0 then []
  else .AF :: ((if c = 1 then [] else [.OF]) ++ (if op ≠ .sar ∧ w.bits ≤ c then [.CF] else []))

/-- Where a push of width `w` stores (20_memory.md R90). -/
def State.pushStores (s : State) (w : Width) : List (Word × Nat) := [(s.regs.esp - BitVec.ofNat 32 w.bytes, w.bytes)]

/-- Where the elements of a rep string move are stored (47_string.md R453, R455). -/
def State.repStores (s : State) (w : Width) : List (Word × Nat) :=
  (List.range s.regs.ecx.toNat).map fun k => (elementAddr w s.flags s.regs.edi k, w.bytes)

end Sys2Proof.Machine

namespace Sys2Proof

/-- The slot of a register operand of width `w`. -/
def RM.slots (w : Width) : RM → List Reg
  | .reg r => [r.slot w]
  | .mem _ => []

/-- The address and length of a memory operand of width `w`. -/
def RM.stores (rm : RM) (w : Width) (s : Machine.State) : List (Word × Nat) :=
  match rm with
  | .reg _ => []
  | .mem a => [(a.effective s, w.bytes)]

/-- The register slots an instruction may write: its destination, and the registers 10_state.md R36 gives it. -/
def Instr.slots : Instr → List Reg
  | .addEbGb _ rm _ | .orEbGb _ rm _ | .adcEbGb _ rm _ | .sbbEbGb _ rm _ | .andEbGb _ rm _
  | .subEbGb _ rm _ | .xorEbGb _ rm _ | .addEbIb _ rm _ | .orEbIb _ rm _ | .adcEbIb _ rm _
  | .sbbEbIb _ rm _ | .andEbIb _ rm _ | .subEbIb _ rm _ | .xorEbIb _ rm _ | .movEbGb _ rm _
  | .shlEbIb _ rm _ | .shlEb1 _ rm | .shlEbCl _ rm | .shrEbIb _ rm _ | .shrEb1 _ rm | .shrEbCl _ rm
  | .sarEbIb _ rm _ | .sarEb1 _ rm | .sarEbCl _ rm | .movEbIb _ rm _ | .notEb _ rm | .negEb _ rm
  | .incEb _ rm | .decEb _ rm => rm.slots .byte
  | .addEvGv p rm _ | .orEvGv p rm _ | .adcEvGv p rm _ | .sbbEvGv p rm _ | .andEvGv p rm _
  | .subEvGv p rm _ | .xorEvGv p rm _ | .addEvIz p rm _ | .addEvIb p rm _ | .orEvIz p rm _
  | .orEvIb p rm _ | .adcEvIz p rm _ | .adcEvIb p rm _ | .sbbEvIz p rm _ | .sbbEvIb p rm _
  | .andEvIz p rm _ | .andEvIb p rm _ | .subEvIz p rm _ | .subEvIb p rm _ | .xorEvIz p rm _
  | .xorEvIb p rm _ | .movEvGv p rm _ | .shlEvIb p rm _ | .shlEv1 p rm | .shlEvCl p rm | .shrEvIb p rm _
  | .shrEv1 p rm | .shrEvCl p rm | .sarEvIb p rm _ | .sarEv1 p rm | .sarEvCl p rm | .movEvIz p rm _
  | .notEv p rm | .negEv p rm | .incEv p rm | .decEv p rm => rm.slots p.osz
  | .addGbEb _ _ r | .orGbEb _ _ r | .adcGbEb _ _ r | .sbbGbEb _ _ r | .andGbEb _ _ r | .subGbEb _ _ r
  | .xorGbEb _ _ r | .movGbEb _ _ r | .movRbIb _ r _ => [r.slot8]
  | .addGvEv _ _ r | .orGvEv _ _ r | .adcGvEv _ _ r | .sbbGvEv _ _ r | .andGvEv _ _ r | .subGvEv _ _ r
  | .xorGvEv _ _ r | .incR _ r | .decR _ r | .movsxdGvEv _ _ r | .imulGvEvIz _ _ r _
  | .imulGvEvIb _ _ r _ | .movGvEv _ _ r | .leaGvM _ r _ | .movRvIz _ r _ | .imulGvEv _ _ r
  | .movzxGvEb _ _ r | .movzxGvEw _ _ r | .movsxGvEb _ _ r | .movsxGvEw _ _ r => [r]
  | .addAlIb _ _ | .addEaxIz _ _ | .orAlIb _ _ | .orEaxIz _ _ | .adcAlIb _ _ | .adcEaxIz _ _
  | .sbbAlIb _ _ | .sbbEaxIz _ _ | .andAlIb _ _ | .andEaxIz _ _ | .subAlIb _ _ | .subEaxIz _ _
  | .xorAlIb _ _ | .xorEaxIz _ _ | .cwde _ | .cbw _ | .movAlOb _ _ | .movEaxOv _ _ | .int80 _
  | .mulEb _ _ | .imulEb _ _ | .divEb _ _ | .idivEb _ _ => [.eax]
  | .cmpEbGb _ _ _ | .cmpEvGv _ _ _ | .cmpGbEb _ _ _ | .cmpGvEv _ _ _ | .cmpAlIb _ _ | .cmpEaxIz _ _
  | .cmpEbIb _ _ _ | .cmpEvIz _ _ _ | .cmpEvIb _ _ _ | .joRel8 _ _ | .jnoRel8 _ _ | .jbRel8 _ _
  | .jaeRel8 _ _ | .jeRel8 _ _ | .jneRel8 _ _ | .jbeRel8 _ _ | .jaRel8 _ _ | .jsRel8 _ _ | .jnsRel8 _ _
  | .jpRel8 _ _ | .jnpRel8 _ _ | .jlRel8 _ _ | .jgeRel8 _ _ | .jleRel8 _ _ | .jgRel8 _ _
  | .testEbGb _ _ _ | .testEvGv _ _ _ | .nop _ | .movObAl _ _ | .movOvEax _ _ | .testAlIb _ _
  | .testEaxIz _ _ | .jmpRel32 _ _ | .jmpRel8 _ _ | .cmc _ | .testEbIb _ _ _ | .testEvIz _ _ _ | .clc _
  | .stc _ | .cli _ | .sti _ | .cld _ | .std _ | .jmpEv _ _ | .joRel32 _ _ | .jnoRel32 _ _ | .jbRel32 _ _
  | .jaeRel32 _ _ | .jeRel32 _ _ | .jneRel32 _ _ | .jbeRel32 _ _ | .jaRel32 _ _ | .jsRel32 _ _
  | .jnsRel32 _ _ | .jpRel32 _ _ | .jnpRel32 _ _ | .jlRel32 _ _ | .jgeRel32 _ _ | .jleRel32 _ _
  | .jgRel32 _ _ => []
  | .pushR _ _ | .pushIz _ _ | .pushIb _ _ | .retIw _ _ | .ret _ | .callRel32 _ _ | .callEv _ _
  | .pushEv _ _ => [.esp]
  | .popR _ r => [.esp, r]
  | .xchgEbGb _ rm r => rm.slots .byte ++ [r.slot8]
  | .xchgEvGv p rm r => rm.slots p.osz ++ [r]
  | .popEv p rm => .esp :: rm.slots p.osz
  | .xchgEaxR _ r => [.eax, r]
  | .cdq _ | .cwd _ => [.edx]
  | .movsb _ | .movsd _ | .movsw _ => [.esi, .edi]
  | .repMovsb _ | .repMovsd _ | .repMovsw _ => [.esi, .edi, .ecx]
  | .leave _ => [.esp, .ebp]
  | .mulEv _ _ | .imulEv _ _ | .divEv _ _ | .idivEv _ _ => [.eax, .edx]

/-- The flags an instruction may write: the "written by" column of 10_state.md R45. -/
def Instr.flagsWritten : Instr → List Machine.FlagBit
  | .addEbGb _ _ _ | .addEvGv _ _ _ | .addGbEb _ _ _ | .addGvEv _ _ _ | .addAlIb _ _ | .addEaxIz _ _
  | .adcEbGb _ _ _ | .adcEvGv _ _ _ | .adcGbEb _ _ _ | .adcGvEv _ _ _ | .adcAlIb _ _ | .adcEaxIz _ _
  | .sbbEbGb _ _ _ | .sbbEvGv _ _ _ | .sbbGbEb _ _ _ | .sbbGvEv _ _ _ | .sbbAlIb _ _ | .sbbEaxIz _ _
  | .subEbGb _ _ _ | .subEvGv _ _ _ | .subGbEb _ _ _ | .subGvEv _ _ _ | .subAlIb _ _ | .subEaxIz _ _
  | .cmpEbGb _ _ _ | .cmpEvGv _ _ _ | .cmpGbEb _ _ _ | .cmpGvEv _ _ _ | .cmpAlIb _ _ | .cmpEaxIz _ _
  | .addEbIb _ _ _ | .addEvIz _ _ _ | .addEvIb _ _ _ | .adcEbIb _ _ _ | .adcEvIz _ _ _ | .adcEvIb _ _ _
  | .sbbEbIb _ _ _ | .sbbEvIz _ _ _ | .sbbEvIb _ _ _ | .subEbIb _ _ _ | .subEvIz _ _ _ | .subEvIb _ _ _
  | .cmpEbIb _ _ _ | .cmpEvIz _ _ _ | .cmpEvIb _ _ _ | .imulGvEvIz _ _ _ _ | .imulGvEvIb _ _ _ _
  | .shlEbIb _ _ _ | .shlEvIb _ _ _ | .shlEb1 _ _ | .shlEv1 _ _ | .shlEbCl _ _ | .shlEvCl _ _
  | .shrEbIb _ _ _ | .shrEvIb _ _ _ | .shrEb1 _ _ | .shrEv1 _ _ | .shrEbCl _ _ | .shrEvCl _ _
  | .sarEbIb _ _ _ | .sarEvIb _ _ _ | .sarEb1 _ _ | .sarEv1 _ _ | .sarEbCl _ _ | .sarEvCl _ _
  | .negEb _ _ | .negEv _ _ | .mulEb _ _ | .mulEv _ _ | .imulEb _ _ | .imulEv _ _ | .divEb _ _
  | .divEv _ _ | .idivEb _ _ | .idivEv _ _ | .imulGvEv _ _ _ => [.CF, .PF, .AF, .ZF, .SF, .OF]
  | .orEbGb _ _ _ | .orEvGv _ _ _ | .orGbEb _ _ _ | .orGvEv _ _ _ | .orAlIb _ _ | .orEaxIz _ _
  | .andEbGb _ _ _ | .andEvGv _ _ _ | .andGbEb _ _ _ | .andGvEv _ _ _ | .andAlIb _ _ | .andEaxIz _ _
  | .xorEbGb _ _ _ | .xorEvGv _ _ _ | .xorGbEb _ _ _ | .xorGvEv _ _ _ | .xorAlIb _ _ | .xorEaxIz _ _
  | .orEbIb _ _ _ | .orEvIz _ _ _ | .orEvIb _ _ _ | .andEbIb _ _ _ | .andEvIz _ _ _ | .andEvIb _ _ _
  | .xorEbIb _ _ _ | .xorEvIz _ _ _ | .xorEvIb _ _ _ | .testEbGb _ _ _ | .testEvGv _ _ _ | .testAlIb _ _
  | .testEaxIz _ _ | .testEbIb _ _ _ | .testEvIz _ _ _ => [.CF, .PF, .ZF, .SF, .OF]
  | .incR _ _ | .decR _ _ | .incEb _ _ | .decEb _ _ | .incEv _ _ | .decEv _ _ => [.PF, .AF, .ZF, .SF, .OF]
  | .pushR _ _ | .popR _ _ | .movsxdGvEv _ _ _ | .pushIz _ _ | .pushIb _ _ | .joRel8 _ _ | .jnoRel8 _ _
  | .jbRel8 _ _ | .jaeRel8 _ _ | .jeRel8 _ _ | .jneRel8 _ _ | .jbeRel8 _ _ | .jaRel8 _ _ | .jsRel8 _ _
  | .jnsRel8 _ _ | .jpRel8 _ _ | .jnpRel8 _ _ | .jlRel8 _ _ | .jgeRel8 _ _ | .jleRel8 _ _ | .jgRel8 _ _
  | .xchgEbGb _ _ _ | .xchgEvGv _ _ _ | .movEbGb _ _ _ | .movEvGv _ _ _ | .movGbEb _ _ _ | .movGvEv _ _ _
  | .leaGvM _ _ _ | .popEv _ _ | .nop _ | .xchgEaxR _ _ | .cwde _ | .cbw _ | .cdq _ | .cwd _
  | .movAlOb _ _ | .movEaxOv _ _ | .movObAl _ _ | .movOvEax _ _ | .movsb _ | .movsd _ | .movsw _
  | .repMovsb _ | .repMovsd _ | .repMovsw _ | .movRbIb _ _ _ | .movRvIz _ _ _ | .retIw _ _ | .ret _
  | .movEbIb _ _ _ | .movEvIz _ _ _ | .leave _ | .int80 _ | .callRel32 _ _ | .jmpRel32 _ _ | .jmpRel8 _ _
  | .notEb _ _ | .notEv _ _ | .callEv _ _ | .jmpEv _ _ | .pushEv _ _ | .joRel32 _ _ | .jnoRel32 _ _
  | .jbRel32 _ _ | .jaeRel32 _ _ | .jeRel32 _ _ | .jneRel32 _ _ | .jbeRel32 _ _ | .jaRel32 _ _
  | .jsRel32 _ _ | .jnsRel32 _ _ | .jpRel32 _ _ | .jnpRel32 _ _ | .jlRel32 _ _ | .jgeRel32 _ _
  | .jleRel32 _ _ | .jgRel32 _ _ | .movzxGvEb _ _ _ | .movzxGvEw _ _ _ | .movsxGvEb _ _ _
  | .movsxGvEw _ _ _ => []
  | .cmc _ | .clc _ | .stc _ => [.CF]
  | .cli _ | .sti _ => [.IF]
  | .cld _ | .std _ => [.DF]

/-- The bytes an instruction may store to, as addresses and lengths, from the state before it. -/
def Instr.stores (s : Machine.State) : Instr → List (Word × Nat)
  | .addEbGb _ rm _ | .orEbGb _ rm _ | .adcEbGb _ rm _ | .sbbEbGb _ rm _ | .andEbGb _ rm _
  | .subEbGb _ rm _ | .xorEbGb _ rm _ | .addEbIb _ rm _ | .orEbIb _ rm _ | .adcEbIb _ rm _
  | .sbbEbIb _ rm _ | .andEbIb _ rm _ | .subEbIb _ rm _ | .xorEbIb _ rm _ | .xchgEbGb _ rm _
  | .movEbGb _ rm _ | .shlEbIb _ rm _ | .shlEb1 _ rm | .shlEbCl _ rm | .shrEbIb _ rm _ | .shrEb1 _ rm
  | .shrEbCl _ rm | .sarEbIb _ rm _ | .sarEb1 _ rm | .sarEbCl _ rm | .movEbIb _ rm _ | .notEb _ rm
  | .negEb _ rm | .incEb _ rm | .decEb _ rm => rm.stores .byte s
  | .addEvGv p rm _ | .orEvGv p rm _ | .adcEvGv p rm _ | .sbbEvGv p rm _ | .andEvGv p rm _
  | .subEvGv p rm _ | .xorEvGv p rm _ | .addEvIz p rm _ | .addEvIb p rm _ | .orEvIz p rm _
  | .orEvIb p rm _ | .adcEvIz p rm _ | .adcEvIb p rm _ | .sbbEvIz p rm _ | .sbbEvIb p rm _
  | .andEvIz p rm _ | .andEvIb p rm _ | .subEvIz p rm _ | .subEvIb p rm _ | .xorEvIz p rm _
  | .xorEvIb p rm _ | .xchgEvGv p rm _ | .movEvGv p rm _ | .shlEvIb p rm _ | .shlEv1 p rm | .shlEvCl p rm
  | .shrEvIb p rm _ | .shrEv1 p rm | .shrEvCl p rm | .sarEvIb p rm _ | .sarEv1 p rm | .sarEvCl p rm
  | .movEvIz p rm _ | .notEv p rm | .negEv p rm | .incEv p rm | .decEv p rm => rm.stores p.osz s
  | .addGbEb _ _ _ | .addGvEv _ _ _ | .addAlIb _ _ | .addEaxIz _ _ | .orGbEb _ _ _ | .orGvEv _ _ _
  | .orAlIb _ _ | .orEaxIz _ _ | .adcGbEb _ _ _ | .adcGvEv _ _ _ | .adcAlIb _ _ | .adcEaxIz _ _
  | .sbbGbEb _ _ _ | .sbbGvEv _ _ _ | .sbbAlIb _ _ | .sbbEaxIz _ _ | .andGbEb _ _ _ | .andGvEv _ _ _
  | .andAlIb _ _ | .andEaxIz _ _ | .subGbEb _ _ _ | .subGvEv _ _ _ | .subAlIb _ _ | .subEaxIz _ _
  | .xorGbEb _ _ _ | .xorGvEv _ _ _ | .xorAlIb _ _ | .xorEaxIz _ _ | .cmpEbGb _ _ _ | .cmpEvGv _ _ _
  | .cmpGbEb _ _ _ | .cmpGvEv _ _ _ | .cmpAlIb _ _ | .cmpEaxIz _ _ | .cmpEbIb _ _ _ | .cmpEvIz _ _ _
  | .cmpEvIb _ _ _ | .incR _ _ | .decR _ _ | .popR _ _ | .movsxdGvEv _ _ _ | .imulGvEvIz _ _ _ _
  | .imulGvEvIb _ _ _ _ | .joRel8 _ _ | .jnoRel8 _ _ | .jbRel8 _ _ | .jaeRel8 _ _ | .jeRel8 _ _
  | .jneRel8 _ _ | .jbeRel8 _ _ | .jaRel8 _ _ | .jsRel8 _ _ | .jnsRel8 _ _ | .jpRel8 _ _ | .jnpRel8 _ _
  | .jlRel8 _ _ | .jgeRel8 _ _ | .jleRel8 _ _ | .jgRel8 _ _ | .testEbGb _ _ _ | .testEvGv _ _ _
  | .movGbEb _ _ _ | .movGvEv _ _ _ | .leaGvM _ _ _ | .nop _ | .xchgEaxR _ _ | .cwde _ | .cbw _ | .cdq _
  | .cwd _ | .movAlOb _ _ | .movEaxOv _ _ | .testAlIb _ _ | .testEaxIz _ _ | .movRbIb _ _ _
  | .movRvIz _ _ _ | .retIw _ _ | .ret _ | .leave _ | .jmpRel32 _ _ | .jmpRel8 _ _ | .cmc _
  | .testEbIb _ _ _ | .testEvIz _ _ _ | .mulEb _ _ | .mulEv _ _ | .imulEb _ _ | .imulEv _ _ | .divEb _ _
  | .divEv _ _ | .idivEb _ _ | .idivEv _ _ | .clc _ | .stc _ | .cli _ | .sti _ | .cld _ | .std _
  | .jmpEv _ _ | .joRel32 _ _ | .jnoRel32 _ _ | .jbRel32 _ _ | .jaeRel32 _ _ | .jeRel32 _ _
  | .jneRel32 _ _ | .jbeRel32 _ _ | .jaRel32 _ _ | .jsRel32 _ _ | .jnsRel32 _ _ | .jpRel32 _ _
  | .jnpRel32 _ _ | .jlRel32 _ _ | .jgeRel32 _ _ | .jleRel32 _ _ | .jgRel32 _ _ | .imulGvEv _ _ _
  | .movzxGvEb _ _ _ | .movzxGvEw _ _ _ | .movsxGvEb _ _ _ | .movsxGvEw _ _ _ => []
  | .pushR p _ | .pushIz p _ | .pushIb p _ | .pushEv p _ => s.pushStores p.osz
  | .popEv p rm => rm.stores p.osz (s.withEsp (s.regs.esp + BitVec.ofNat 32 p.osz.bytes))
  | .movObAl _ a => [(a, 1)]
  | .movOvEax p a => [(a, p.osz.bytes)]
  | .movsb _ => [(s.regs.edi, 1)]
  | .movsd _ => [(s.regs.edi, 4)]
  | .movsw _ => [(s.regs.edi, 2)]
  | .repMovsb _ => s.repStores .byte
  | .repMovsd _ => s.repStores .dword
  | .repMovsw _ => s.repStores .word
  | .int80 _ => if s.regs.eax = 3 then [(s.regs.ecx, s.regs.edx.toNat)] else []
  | .callRel32 _ _ | .callEv _ _ => s.pushStores .dword

/-- The flags an instruction leaves undefined (40_alu_flags.md R208), from the state before it. -/
def Instr.flagsUndefined (s : Machine.State) : Instr → List Machine.FlagBit
  | .addEbGb _ _ _ | .addEvGv _ _ _ | .addGbEb _ _ _ | .addGvEv _ _ _ | .addAlIb _ _ | .addEaxIz _ _
  | .orEbGb _ _ _ | .orEvGv _ _ _ | .orGbEb _ _ _ | .orGvEv _ _ _ | .orAlIb _ _ | .orEaxIz _ _
  | .adcEbGb _ _ _ | .adcEvGv _ _ _ | .adcGbEb _ _ _ | .adcGvEv _ _ _ | .adcAlIb _ _ | .adcEaxIz _ _
  | .sbbEbGb _ _ _ | .sbbEvGv _ _ _ | .sbbGbEb _ _ _ | .sbbGvEv _ _ _ | .sbbAlIb _ _ | .sbbEaxIz _ _
  | .andEbGb _ _ _ | .andEvGv _ _ _ | .andGbEb _ _ _ | .andGvEv _ _ _ | .andAlIb _ _ | .andEaxIz _ _
  | .subEbGb _ _ _ | .subEvGv _ _ _ | .subGbEb _ _ _ | .subGvEv _ _ _ | .subAlIb _ _ | .subEaxIz _ _
  | .xorEbGb _ _ _ | .xorEvGv _ _ _ | .xorGbEb _ _ _ | .xorGvEv _ _ _ | .xorAlIb _ _ | .xorEaxIz _ _
  | .cmpEbGb _ _ _ | .cmpEvGv _ _ _ | .cmpGbEb _ _ _ | .cmpGvEv _ _ _ | .cmpAlIb _ _ | .cmpEaxIz _ _
  | .addEbIb _ _ _ | .addEvIz _ _ _ | .addEvIb _ _ _ | .orEbIb _ _ _ | .orEvIz _ _ _ | .orEvIb _ _ _
  | .adcEbIb _ _ _ | .adcEvIz _ _ _ | .adcEvIb _ _ _ | .sbbEbIb _ _ _ | .sbbEvIz _ _ _ | .sbbEvIb _ _ _
  | .andEbIb _ _ _ | .andEvIz _ _ _ | .andEvIb _ _ _ | .subEbIb _ _ _ | .subEvIz _ _ _ | .subEvIb _ _ _
  | .xorEbIb _ _ _ | .xorEvIz _ _ _ | .xorEvIb _ _ _ | .cmpEbIb _ _ _ | .cmpEvIz _ _ _ | .cmpEvIb _ _ _
  | .incR _ _ | .decR _ _ | .pushR _ _ | .popR _ _ | .movsxdGvEv _ _ _ | .pushIz _ _ | .pushIb _ _
  | .joRel8 _ _ | .jnoRel8 _ _ | .jbRel8 _ _ | .jaeRel8 _ _ | .jeRel8 _ _ | .jneRel8 _ _ | .jbeRel8 _ _
  | .jaRel8 _ _ | .jsRel8 _ _ | .jnsRel8 _ _ | .jpRel8 _ _ | .jnpRel8 _ _ | .jlRel8 _ _ | .jgeRel8 _ _
  | .jleRel8 _ _ | .jgRel8 _ _ | .testEbGb _ _ _ | .testEvGv _ _ _ | .xchgEbGb _ _ _ | .xchgEvGv _ _ _
  | .movEbGb _ _ _ | .movEvGv _ _ _ | .movGbEb _ _ _ | .movGvEv _ _ _ | .leaGvM _ _ _ | .popEv _ _
  | .nop _ | .xchgEaxR _ _ | .cwde _ | .cbw _ | .cdq _ | .cwd _ | .movAlOb _ _ | .movEaxOv _ _
  | .movObAl _ _ | .movOvEax _ _ | .movsb _ | .movsd _ | .movsw _ | .repMovsb _ | .repMovsd _
  | .repMovsw _ | .testAlIb _ _ | .testEaxIz _ _ | .movRbIb _ _ _ | .movRvIz _ _ _ | .retIw _ _ | .ret _
  | .movEbIb _ _ _ | .movEvIz _ _ _ | .leave _ | .int80 _ | .callRel32 _ _ | .jmpRel32 _ _ | .jmpRel8 _ _
  | .cmc _ | .testEbIb _ _ _ | .testEvIz _ _ _ | .notEb _ _ | .notEv _ _ | .negEb _ _ | .negEv _ _
  | .clc _ | .stc _ | .cli _ | .sti _ | .cld _ | .std _ | .incEb _ _ | .decEb _ _ | .incEv _ _
  | .decEv _ _ | .callEv _ _ | .jmpEv _ _ | .pushEv _ _ | .joRel32 _ _ | .jnoRel32 _ _ | .jbRel32 _ _
  | .jaeRel32 _ _ | .jeRel32 _ _ | .jneRel32 _ _ | .jbeRel32 _ _ | .jaRel32 _ _ | .jsRel32 _ _
  | .jnsRel32 _ _ | .jpRel32 _ _ | .jnpRel32 _ _ | .jlRel32 _ _ | .jgeRel32 _ _ | .jleRel32 _ _
  | .jgRel32 _ _ | .movzxGvEb _ _ _ | .movzxGvEw _ _ _ | .movsxGvEb _ _ _ | .movsxGvEw _ _ _ => []
  | .imulGvEvIz _ _ _ _ | .imulGvEvIb _ _ _ _ | .mulEb _ _ | .mulEv _ _ | .imulEb _ _ | .imulEv _ _
  | .imulGvEv _ _ _ => [.SF, .ZF, .AF, .PF]
  | .shlEbIb _ _ imm => Machine.shiftUndefined .shl .byte imm
  | .shlEvIb p _ imm => Machine.shiftUndefined .shl p.osz imm
  | .shlEb1 _ _ => Machine.shiftUndefined .shl .byte 1
  | .shlEv1 p _ => Machine.shiftUndefined .shl p.osz 1
  | .shlEbCl _ _ => Machine.shiftUndefined .shl .byte (s.regs.ecx.extractLsb' 0 8)
  | .shlEvCl p _ => Machine.shiftUndefined .shl p.osz (s.regs.ecx.extractLsb' 0 8)
  | .shrEbIb _ _ imm => Machine.shiftUndefined .shr .byte imm
  | .shrEvIb p _ imm => Machine.shiftUndefined .shr p.osz imm
  | .shrEb1 _ _ => Machine.shiftUndefined .shr .byte 1
  | .shrEv1 p _ => Machine.shiftUndefined .shr p.osz 1
  | .shrEbCl _ _ => Machine.shiftUndefined .shr .byte (s.regs.ecx.extractLsb' 0 8)
  | .shrEvCl p _ => Machine.shiftUndefined .shr p.osz (s.regs.ecx.extractLsb' 0 8)
  | .sarEbIb _ _ imm => Machine.shiftUndefined .sar .byte imm
  | .sarEvIb p _ imm => Machine.shiftUndefined .sar p.osz imm
  | .sarEb1 _ _ => Machine.shiftUndefined .sar .byte 1
  | .sarEv1 p _ => Machine.shiftUndefined .sar p.osz 1
  | .sarEbCl _ _ => Machine.shiftUndefined .sar .byte (s.regs.ecx.extractLsb' 0 8)
  | .sarEvCl p _ => Machine.shiftUndefined .sar p.osz (s.regs.ecx.extractLsb' 0 8)
  | .divEb _ _ | .divEv _ _ | .idivEb _ _ | .idivEv _ _ => [.CF, .OF, .SF, .ZF, .AF, .PF]

/-- The codes of the faults an r/m operand can raise: BoundsError for memory. -/
def RM.faultCodes : RM → List Nat
  | .reg _ => []
  | .mem _ => [1]

/-- The codes of the faults an instruction can raise when it executes (60_exceptions.md R521). -/
def Instr.faultCodes : Instr → List Nat
  | .addEbGb _ rm _ | .addEvGv _ rm _ | .addGbEb _ rm _ | .addGvEv _ rm _ | .orEbGb _ rm _
  | .orEvGv _ rm _ | .orGbEb _ rm _ | .orGvEv _ rm _ | .adcEbGb _ rm _ | .adcEvGv _ rm _
  | .adcGbEb _ rm _ | .adcGvEv _ rm _ | .sbbEbGb _ rm _ | .sbbEvGv _ rm _ | .sbbGbEb _ rm _
  | .sbbGvEv _ rm _ | .andEbGb _ rm _ | .andEvGv _ rm _ | .andGbEb _ rm _ | .andGvEv _ rm _
  | .subEbGb _ rm _ | .subEvGv _ rm _ | .subGbEb _ rm _ | .subGvEv _ rm _ | .xorEbGb _ rm _
  | .xorEvGv _ rm _ | .xorGbEb _ rm _ | .xorGvEv _ rm _ | .cmpEbGb _ rm _ | .cmpEvGv _ rm _
  | .cmpGbEb _ rm _ | .cmpGvEv _ rm _ | .addEbIb _ rm _ | .addEvIz _ rm _ | .addEvIb _ rm _
  | .orEbIb _ rm _ | .orEvIz _ rm _ | .orEvIb _ rm _ | .adcEbIb _ rm _ | .adcEvIz _ rm _
  | .adcEvIb _ rm _ | .sbbEbIb _ rm _ | .sbbEvIz _ rm _ | .sbbEvIb _ rm _ | .andEbIb _ rm _
  | .andEvIz _ rm _ | .andEvIb _ rm _ | .subEbIb _ rm _ | .subEvIz _ rm _ | .subEvIb _ rm _
  | .xorEbIb _ rm _ | .xorEvIz _ rm _ | .xorEvIb _ rm _ | .cmpEbIb _ rm _ | .cmpEvIz _ rm _
  | .cmpEvIb _ rm _ | .movsxdGvEv _ rm _ | .imulGvEvIz _ rm _ _ | .imulGvEvIb _ rm _ _ | .testEbGb _ rm _
  | .testEvGv _ rm _ | .xchgEbGb _ rm _ | .xchgEvGv _ rm _ | .movEbGb _ rm _ | .movEvGv _ rm _
  | .movGbEb _ rm _ | .movGvEv _ rm _ | .shlEbIb _ rm _ | .shlEvIb _ rm _ | .shlEb1 _ rm | .shlEv1 _ rm
  | .shlEbCl _ rm | .shlEvCl _ rm | .shrEbIb _ rm _ | .shrEvIb _ rm _ | .shrEb1 _ rm | .shrEv1 _ rm
  | .shrEbCl _ rm | .shrEvCl _ rm | .sarEbIb _ rm _ | .sarEvIb _ rm _ | .sarEb1 _ rm | .sarEv1 _ rm
  | .sarEbCl _ rm | .sarEvCl _ rm | .movEbIb _ rm _ | .movEvIz _ rm _ | .testEbIb _ rm _
  | .testEvIz _ rm _ | .notEb _ rm | .notEv _ rm | .negEb _ rm | .negEv _ rm | .mulEb _ rm | .mulEv _ rm
  | .imulEb _ rm | .imulEv _ rm | .incEb _ rm | .decEb _ rm | .incEv _ rm | .decEv _ rm | .jmpEv _ rm
  | .imulGvEv _ rm _ | .movzxGvEb _ rm _ | .movzxGvEw _ rm _ | .movsxGvEb _ rm _ | .movsxGvEw _ rm _ =>
    rm.faultCodes
  | .addAlIb _ _ | .addEaxIz _ _ | .orAlIb _ _ | .orEaxIz _ _ | .adcAlIb _ _ | .adcEaxIz _ _
  | .sbbAlIb _ _ | .sbbEaxIz _ _ | .andAlIb _ _ | .andEaxIz _ _ | .subAlIb _ _ | .subEaxIz _ _
  | .xorAlIb _ _ | .xorEaxIz _ _ | .cmpAlIb _ _ | .cmpEaxIz _ _ | .incR _ _ | .decR _ _ | .joRel8 _ _
  | .jnoRel8 _ _ | .jbRel8 _ _ | .jaeRel8 _ _ | .jeRel8 _ _ | .jneRel8 _ _ | .jbeRel8 _ _ | .jaRel8 _ _
  | .jsRel8 _ _ | .jnsRel8 _ _ | .jpRel8 _ _ | .jnpRel8 _ _ | .jlRel8 _ _ | .jgeRel8 _ _ | .jleRel8 _ _
  | .jgRel8 _ _ | .leaGvM _ _ _ | .nop _ | .xchgEaxR _ _ | .cwde _ | .cbw _ | .cdq _ | .cwd _
  | .testAlIb _ _ | .testEaxIz _ _ | .movRbIb _ _ _ | .movRvIz _ _ _ | .jmpRel32 _ _ | .jmpRel8 _ _
  | .cmc _ | .clc _ | .stc _ | .cli _ | .sti _ | .cld _ | .std _ | .joRel32 _ _ | .jnoRel32 _ _
  | .jbRel32 _ _ | .jaeRel32 _ _ | .jeRel32 _ _ | .jneRel32 _ _ | .jbeRel32 _ _ | .jaRel32 _ _
  | .jsRel32 _ _ | .jnsRel32 _ _ | .jpRel32 _ _ | .jnpRel32 _ _ | .jlRel32 _ _ | .jgeRel32 _ _
  | .jleRel32 _ _ | .jgRel32 _ _ => []
  | .pushR _ _ | .pushIz _ _ | .pushIb _ _ | .movAlOb _ _ | .movEaxOv _ _ | .movObAl _ _ | .movOvEax _ _
  | .movsb _ | .movsd _ | .movsw _ | .repMovsb _ | .repMovsd _ | .repMovsw _ | .callRel32 _ _
  | .callEv _ _ | .pushEv _ _ => [1]
  | .popR _ _ | .retIw _ _ | .ret _ | .leave _ => [4]
  | .popEv _ rm => 4 :: rm.faultCodes
  | .int80 _ => [1, 3]
  | .divEb _ rm | .divEv _ rm | .idivEb _ rm | .idivEv _ rm => 5 :: rm.faultCodes

/-- The r/m or moffs operand whose access comes first in an instruction, with its width. `lea` accesses none, and
`pop r/m` accesses the stack first. -/
def Instr.firstOperand : Instr → Option (RM × Width)
  | .addEbGb _ rm _ | .addGbEb _ rm _ | .orEbGb _ rm _ | .orGbEb _ rm _ | .adcEbGb _ rm _
  | .adcGbEb _ rm _ | .sbbEbGb _ rm _ | .sbbGbEb _ rm _ | .andEbGb _ rm _ | .andGbEb _ rm _
  | .subEbGb _ rm _ | .subGbEb _ rm _ | .xorEbGb _ rm _ | .xorGbEb _ rm _ | .cmpEbGb _ rm _
  | .cmpGbEb _ rm _ | .addEbIb _ rm _ | .orEbIb _ rm _ | .adcEbIb _ rm _ | .sbbEbIb _ rm _
  | .andEbIb _ rm _ | .subEbIb _ rm _ | .xorEbIb _ rm _ | .cmpEbIb _ rm _ | .testEbGb _ rm _
  | .xchgEbGb _ rm _ | .movEbGb _ rm _ | .movGbEb _ rm _ | .shlEbIb _ rm _ | .shlEb1 _ rm | .shlEbCl _ rm
  | .shrEbIb _ rm _ | .shrEb1 _ rm | .shrEbCl _ rm | .sarEbIb _ rm _ | .sarEb1 _ rm | .sarEbCl _ rm
  | .movEbIb _ rm _ | .testEbIb _ rm _ | .notEb _ rm | .negEb _ rm | .mulEb _ rm | .imulEb _ rm
  | .divEb _ rm | .idivEb _ rm | .incEb _ rm | .decEb _ rm | .movzxGvEb _ rm _ | .movsxGvEb _ rm _ =>
    some (rm, .byte)
  | .addEvGv p rm _ | .addGvEv p rm _ | .orEvGv p rm _ | .orGvEv p rm _ | .adcEvGv p rm _
  | .adcGvEv p rm _ | .sbbEvGv p rm _ | .sbbGvEv p rm _ | .andEvGv p rm _ | .andGvEv p rm _
  | .subEvGv p rm _ | .subGvEv p rm _ | .xorEvGv p rm _ | .xorGvEv p rm _ | .cmpEvGv p rm _
  | .cmpGvEv p rm _ | .addEvIz p rm _ | .addEvIb p rm _ | .orEvIz p rm _ | .orEvIb p rm _
  | .adcEvIz p rm _ | .adcEvIb p rm _ | .sbbEvIz p rm _ | .sbbEvIb p rm _ | .andEvIz p rm _
  | .andEvIb p rm _ | .subEvIz p rm _ | .subEvIb p rm _ | .xorEvIz p rm _ | .xorEvIb p rm _
  | .cmpEvIz p rm _ | .cmpEvIb p rm _ | .movsxdGvEv p rm _ | .imulGvEvIz p rm _ _ | .imulGvEvIb p rm _ _
  | .testEvGv p rm _ | .xchgEvGv p rm _ | .movEvGv p rm _ | .movGvEv p rm _ | .shlEvIb p rm _
  | .shlEv1 p rm | .shlEvCl p rm | .shrEvIb p rm _ | .shrEv1 p rm | .shrEvCl p rm | .sarEvIb p rm _
  | .sarEv1 p rm | .sarEvCl p rm | .movEvIz p rm _ | .testEvIz p rm _ | .notEv p rm | .negEv p rm
  | .mulEv p rm | .imulEv p rm | .divEv p rm | .idivEv p rm | .incEv p rm | .decEv p rm | .pushEv p rm
  | .imulGvEv p rm _ => some (rm, p.osz)
  | .addAlIb _ _ | .addEaxIz _ _ | .orAlIb _ _ | .orEaxIz _ _ | .adcAlIb _ _ | .adcEaxIz _ _
  | .sbbAlIb _ _ | .sbbEaxIz _ _ | .andAlIb _ _ | .andEaxIz _ _ | .subAlIb _ _ | .subEaxIz _ _
  | .xorAlIb _ _ | .xorEaxIz _ _ | .cmpAlIb _ _ | .cmpEaxIz _ _ | .incR _ _ | .decR _ _ | .pushR _ _
  | .popR _ _ | .pushIz _ _ | .pushIb _ _ | .joRel8 _ _ | .jnoRel8 _ _ | .jbRel8 _ _ | .jaeRel8 _ _
  | .jeRel8 _ _ | .jneRel8 _ _ | .jbeRel8 _ _ | .jaRel8 _ _ | .jsRel8 _ _ | .jnsRel8 _ _ | .jpRel8 _ _
  | .jnpRel8 _ _ | .jlRel8 _ _ | .jgeRel8 _ _ | .jleRel8 _ _ | .jgRel8 _ _ | .leaGvM _ _ _ | .popEv _ _
  | .nop _ | .xchgEaxR _ _ | .cwde _ | .cbw _ | .cdq _ | .cwd _ | .movsb _ | .movsd _ | .movsw _
  | .repMovsb _ | .repMovsd _ | .repMovsw _ | .testAlIb _ _ | .testEaxIz _ _ | .movRbIb _ _ _
  | .movRvIz _ _ _ | .retIw _ _ | .ret _ | .leave _ | .int80 _ | .callRel32 _ _ | .jmpRel32 _ _
  | .jmpRel8 _ _ | .cmc _ | .clc _ | .stc _ | .cli _ | .sti _ | .cld _ | .std _ | .joRel32 _ _
  | .jnoRel32 _ _ | .jbRel32 _ _ | .jaeRel32 _ _ | .jeRel32 _ _ | .jneRel32 _ _ | .jbeRel32 _ _
  | .jaRel32 _ _ | .jsRel32 _ _ | .jnsRel32 _ _ | .jpRel32 _ _ | .jnpRel32 _ _ | .jlRel32 _ _
  | .jgeRel32 _ _ | .jleRel32 _ _ | .jgRel32 _ _ => none
  | .movAlOb _ a | .movObAl _ a => some (.mem (.direct a), .byte)
  | .movEaxOv p a | .movOvEax p a => some (.mem (.direct a), p.osz)
  | .callEv _ rm | .jmpEv _ rm => some (rm, .dword)
  | .movzxGvEw _ rm _ | .movsxGvEw _ rm _ => some (rm, .word)

end Sys2Proof
end

