-- ==== Sys2Proof/Certificates/Slice0/Obligations.lean ====
section
/-! DEFINITION. The statements for the provers, from the numbered rules of spec/. Throughout, `t` is the state in which
an instruction's handler runs: the state before it with EIP at EIP_next. -/

section
open Sys2Proof Sys2Proof.Machine

/-! ### Encoding -/

/-- Every well-formed instruction decodes from its encoding, whatever bytes follow it (30_encoding.md R120, R121). -/
def Obligations.EncodedInstructionDecodes : Prop :=
  ∀ (i : Instr) (rest : List Byte), i.wf = true → decode (encode i ++ rest) = .ok (i, rest)

/-- What decodes is a well-formed instruction, and the bytes read are its encoding and no others (R120, R121). -/
def Obligations.DecodedBytesAreTheEncoding : Prop :=
  ∀ (bs : List Byte) (i : Instr) (rest : List Byte), decode bs = .ok (i, rest) → i.wf = true ∧ bs = encode i ++ rest

/-- R169: the encodings the source itself shows. -/
def Obligations.SourceEncodingsDecode : Prop :=
  (∀ v : Word,
    decode (0xB8 :: leBytes 4 v.toNat) = .ok (.movRvIz [] .eax v, []) ∧
    decode (0xBB :: leBytes 4 v.toNat) = .ok (.movRvIz [] .ebx v, []) ∧
    decode (0xB9 :: leBytes 4 v.toNat) = .ok (.movRvIz [] .ecx v, []) ∧
    decode (0xBA :: leBytes 4 v.toNat) = .ok (.movRvIz [] .edx v, []) ∧
    decode (0xE9 :: leBytes 4 v.toNat) = .ok (.jmpRel32 [] v, [])) ∧
  decode [0xCD, 0x80] = .ok (.int80 [], []) ∧
  decode [0x89, 0xC8] = .ok (.movEvGv [] (.reg .eax) .ecx, []) ∧
  decode [0x83, 0xE8, 0x05] = .ok (.subEvIb [] (.reg .eax) 5, []) ∧
  decode [0x74, 0x01] = .ok (.jeRel8 [] 1, []) ∧
  decode [0x90] = .ok (.nop [], []) ∧
  decode [0x3D, 0x02, 0x00, 0x00, 0x00] = .ok (.cmpEaxIz [] 2, []) ∧
  decode [0x6A, 0x01] = .ok (.pushIb [] 1, []) ∧
  decode [0x58] = .ok (.popR [] .eax, []) ∧
  decode [0x5B] = .ok (.popR [] .ebx, []) ∧
  decode [0xF8] = .ok (.clc [], []) ∧
  decode [0xD6] = .error (.unknownOpcode .opcode 1)

/-- R127, R129, R130, R167: decoding depends only on which kinds of prefix are present, not on their order or number,
nor on segment overrides; an instruction that decodes with 67 decodes without it. -/
def Obligations.PrefixKindsDecideDecoding : Prop :=
  ∀ (p q : Prefixes) (tail : List Byte) (i : Instr) (rest : List Byte),
    (∀ b bs, tail = b :: bs → Prefix.ofByte? b = none) →
    q.hasOpsize = p.hasOpsize → q.hasRep = p.hasRep → (q.hasAddrsize = p.hasAddrsize ∨ q.hasAddrsize = false) →
    decode (p.bytes ++ tail) = .ok (i, rest) → decode (q.bytes ++ tail) = .ok (i.withPrefixes q, rest)

/-- R125 to R130, R167: an instruction runs the same under any prefix bytes that give the same operand size: from states
that differ in EIP by the difference in length, it ends in the same state, or in the same fault with the EIP of each
start. -/
def Obligations.PrefixSpellingIsInvisible : Prop :=
  ∀ (i : Instr) (p q : Prefixes) (s : State), q.hasOpsize = p.hasOpsize →
    let atP := s.withEip (s.eip - BitVec.ofNat 32 (i.withPrefixes p).length)
    let atQ := s.withEip (s.eip - BitVec.ofNat 32 (i.withPrefixes q).length)
    ∃ u v, exec (i.withPrefixes p) atP = .next u ∧ exec (i.withPrefixes q) atQ = .next v ∧
      (u = v ∨ ∃ (x : State) (k : FaultKind), u = (x.withEip atP.eip).raise k ∧ v = (x.withEip atQ.eip).raise k)

/-- R160 to R163, R184: a byte sequence whose opcode, or whose digit in a group, has no entry in the maps is
UnknownOpcode with the bytes fetched so far, under any prefixes. -/
def Obligations.UnlistedEncodingsFault : Prop :=
  ∀ (s : State) (p : Prefixes), s.run = .running →
    (∀ b ∈ unlistedPrimary, s.atEip (p.bytes ++ [b]) → step s = .next (s.raise (.unknownOpcode (p.bytes ++ [b])))) ∧
    (∀ b, b ∉ listedSecondary → s.atEip (p.bytes ++ [0x0F, b]) →
      step s = .next (s.raise (.unknownOpcode (p.bytes ++ [0x0F, b])))) ∧
    (∀ row ∈ unlistedDigits, ∀ m, regOf m ∈ row.2 → s.atEip (p.bytes ++ [row.1, m]) →
      step s = .next (s.raise (.unknownOpcode (p.bytes ++ [row.1, m]))))

/-- R166: near branches with 66. -/
def Obligations.NearBranchWithOpsizeFaults : Prop :=
  ∀ (s : State) (p : Prefixes), s.run = .running → p.hasOpsize = true →
    (∀ b ∈ nearPrimary, s.atEip (p.bytes ++ [b]) → step s = .next (s.raise (.unknownOpcode (p.bytes ++ [b])))) ∧
    (∀ c : Cond, s.atEip (p.bytes ++ [0x0F, 0x80 + c.code]) →
      step s = .next (s.raise (.unknownOpcode (p.bytes ++ [0x0F, 0x80 + c.code])))) ∧
    (∀ m, (regOf m = 2 ∨ regOf m = 4) → s.atEip (p.bytes ++ [0xFF, m]) →
      step s = .next (s.raise (.unknownOpcode (p.bytes ++ [0xFF, m]))))

/-- R167, its first sentence: 67 on a form whose meaning depends on the address size. -/
def Obligations.AddressSizeFaults : Prop :=
  ∀ (s : State) (p : Prefixes), s.run = .running → p.hasAddrsize = true →
    (∀ b ∈ primaryWithModRM, ∀ m, modOf m ≠ 3 → s.atEip (p.bytes ++ [b, m]) →
      step s = .next (s.raise (.unknownOpcode (p.bytes ++ [b, m])))) ∧
    (∀ b ∈ secondaryWithModRM, ∀ m, modOf m ≠ 3 → s.atEip (p.bytes ++ [0x0F, b, m]) →
      step s = .next (s.raise (.unknownOpcode (p.bytes ++ [0x0F, b, m])))) ∧
    (∀ b ∈ ([0xA0, 0xA1, 0xA2, 0xA3, 0xA4, 0xA5] : List Byte), s.atEip (p.bytes ++ [b]) →
      step s = .next (s.raise (.unknownOpcode (p.bytes ++ [b]))))

/-- R165, R168: `lea` of a register, and `int` with a vector other than 80. -/
def Obligations.LeaRegisterAndIntVectorFault : Prop :=
  ∀ (s : State) (p : Prefixes), s.run = .running →
    (∀ m, modOf m = 3 → s.atEip (p.bytes ++ [0x8D, m]) →
      step s = .next (s.raise (.unknownOpcode (p.bytes ++ [0x8D, m])))) ∧
    (∀ v : Byte, v ≠ 0x80 → s.atEip (p.bytes ++ [0xCD, v]) →
      step s = .next (s.raise (.unknownOpcode (p.bytes ++ [0xCD, v]))))

/-- R135, R138 to R140: the memory operand of every ModR/M byte, SIB byte and displacement is the one the pseudocode of
R140 computes, and the bytes after it are those the pseudocode leaves. -/
def Obligations.EffectiveAddressFollowsModRM : Prop :=
  ∀ (s : State) (m : Byte) (bs : List Byte), modOf m ≠ 3 →
    match addressOf s.regs (modOf m) (rmOf m) bs with
    | some (ea, rest) =>
      ∃ a, decode (0x8B :: m :: bs) = .ok (.movGvEv [] (.mem a) (Reg.ofBits (regOf m)), rest) ∧ a.effective s = ea
    | none => ∃ used len, decode (0x8B :: m :: bs) = .error (.truncated used len)

/-! ### The step -/

/-- R180: a running machine with the bytes of a well-formed instruction at EIP executes that instruction. In a memory
of 2^32 bytes they may go on at address 0 (R41), if no one fetch of the decoder crosses the top. -/
def Obligations.StepRunsTheDecodedInstruction : Prop :=
  ∀ (s : State) (i : Instr), s.run = .running → i.wf = true →
    (s.atEip (encode i) → step s = exec i s) ∧
    (s.mem.size = 2 ^ 32 → s.bytesRound (encode i).length = encode i →
      decodeAt (some s.eip) (encode i) = .ok (i, []) → step s = exec i s)

/-- R122, R522: an instruction that runs off the end of memory raises BoundsError with the address and the length of
the one fetch that does so; an EIP outside memory is the case of no bytes at all (R41, R422). In a memory of 2^32 bytes
the fetches before it may go on at address 0, any number of times, and one that would cross the top itself raises
BoundsError (R82). -/
def Obligations.FetchPastTheEndFaults : Prop :=
  ∀ (s : State) (used len : Nat), s.run = .running →
    (s.mem.size < 2 ^ 32 →
      decode (s.mem.readBytes s.eip.toNat (s.mem.size - s.eip.toNat)) = .error (.truncated used len) →
      step s = .next (s.raise (.boundsError (s.eip + BitVec.ofNat 32 used) len s.mem.size))) ∧
    (s.mem.size = 2 ^ 32 → decode (s.bytesRound used) = .error (.truncated used len) →
      2 ^ 32 < (s.eip + BitVec.ofNat 32 used).toNat + len →
      step s = .next (s.raise (.boundsError (s.eip + BitVec.ofNat 32 used) len (2 ^ 32))))

/-- R60: in Halted the core executes nothing. -/
def Obligations.HaltedExecutesNothing : Prop :=
  ∀ s : State, s.run = .halted → step s = .fault .halted

/-- R182, R183, R590: a running machine always takes a step, so a run that neither exits nor faults goes on for ever. If
all 2^32 bytes of memory are prefix bytes the step is a round of the fetch loop that leaves the state as it is (the
model's form of an endless loop, log entry 6). -/
def Obligations.RunningMachineAlwaysSteps : Prop :=
  ∀ s : State, s.run = .running →
    (∃ t, step s = .next t) ∧
    (s.mem.size = 2 ^ 32 → (∀ a, a < 2 ^ 32 → (Prefix.ofByte? (s.mem.read a)).isSome = true) → step s = .next s)

/-- R182: a step ends in exactly one of success, exit and fault. A round of an endless fetch (log entry 6) is of the first
kind: the machine is running as before. -/
def Obligations.StepEndsInSuccessExitOrFault : Prop :=
  ∀ s t : State, s.Inv → step s = .next t → s.run = .running ∧
    ((t.run = .running ∧ t.outcome = none ∧ t.exitCode = s.exitCode) ∨
     (t.run = .halted ∧ t.outcome = some (.exited t.exitCode) ∧ s.regs.eax = 1 ∧
       ∃ p, s.fetchDecode = .ok (.int80 p)) ∨
     (t.run = .halted ∧ t.exitCode = s.exitCode ∧ ∃ k, t.outcome = some (.fault k (some s.eip))))

/-- Every step keeps the invariant (R60 to R62, R80, R571, R577). -/
def Obligations.InvariantKeptByEveryStep : Prop :=
  ∀ s t : State, s.Inv → step s = .next t → t.Inv

/-- The invariant holds at `State.reset` (whose memory size is the model's choice, log entry 3) and at the start of every
run (R570, R571). -/
def Obligations.InvariantHoldsAtTheStart : Prop :=
  State.reset.Inv ∧
  ∀ (size : Nat) (image : List Byte) (offset : Word) (gpr : Regs) (flags : Flags) (reads : List ReadAnswer)
    (writes : List WriteAnswer), 1 ≤ size → size ≤ 2 ^ 32 →
    (Loader.boot size image offset gpr flags reads writes).Inv

/-- R70, R570, R572, R575: the state at the first instruction, and the load that fails. -/
def Obligations.LoadPlacesTheImage : Prop :=
  ∀ (size : Nat) (image : List Byte) (offset : Word) (gpr : Regs) (flags : Flags) (reads : List ReadAnswer)
    (writes : List WriteAnswer),
    let s := Loader.boot size image offset gpr flags reads writes
    s.flags = flags ∧ s.exitCode = 0 ∧ s.events = [] ∧ s.mem.size = size ∧
    (offset.toNat + image.length ≤ size →
      s.eip = offset ∧ s.run = .running ∧ s.outcome = none ∧ s.regs = { gpr with esp := BitVec.ofNat 32 size } ∧
      ∀ a, s.mem.read a =
        if offset.toNat ≤ a ∧ a < offset.toNat + image.length then image.getD (a - offset.toNat) 0 else 0) ∧
    (size < offset.toNat + image.length →
      s.run = .halted ∧ s.outcome = some (.fault (.boundsError offset image.length size) none) ∧
      ∀ a, s.mem.read a = 0)

/-! ### Registers and memory -/

/-- R33: `RegRead`. -/
def Obligations.RegisterViewsRead : Prop :=
  ∀ (x : Regs) (i : Reg),
    x.read i .dword = x.get i ∧
    (x.read i .word).toNat = (x.get i).toNat % 2 ^ 16 ∧
    (i.bits.toNat < 4 → (x.read i .byte).toNat = (x.get i).toNat % 2 ^ 8) ∧
    (∀ j : Reg, i.bits.toNat = j.bits.toNat + 4 → (x.read i .byte).toNat = (x.get j).toNat / 2 ^ 8 % 2 ^ 8)

/-- R34, R35: `RegWrite`, bit by bit: the written view lies in one slot, at one offset, and every other bit of every
slot is kept. -/
def Obligations.RegisterViewsWrite : Prop :=
  ∀ (x : Regs) (i r : Reg) (w : Width) (v : BitVec w.bits) (k : Nat), k < 32 →
    let slot := if w = .byte then i.bits.toNat % 4 else i.bits.toNat
    let low := if w = .byte ∧ 4 ≤ i.bits.toNat then 8 else 0
    ((x.write i w v).get r).getLsbD k =
      if r.bits.toNat = slot ∧ low ≤ k ∧ k < low + w.bits then v.getLsbD (k - low) else (x.get r).getLsbD k

/-- R82, R83: `get` and `set`, with the bounds check over unbounded integers; a failing `set` writes no byte. -/
def Obligations.MemoryAccessIsBoundsChecked : Prop :=
  ∀ (s : State) (a : Word), s.mem.wf →
    (∀ n, (a.toNat + n ≤ s.mem.size →
        s.getBytes a n = .ok ((List.range n).map fun k => s.mem.read (a.toNat + k))) ∧
      (s.mem.size < a.toNat + n → s.getBytes a n = .error (.boundsError a n s.mem.size))) ∧
    (∀ bs, (a.toNat + bs.length ≤ s.mem.size →
        ∃ m : Memory, s.setBytes a bs = .ok (s.withMem m) ∧ m.wf ∧ m.size = s.mem.size ∧
          ∀ b, m.read b =
            if a.toNat ≤ b ∧ b < a.toNat + bs.length then bs.getD (b - a.toNat) 0 else s.mem.read b) ∧
      (s.mem.size < a.toNat + bs.length → s.setBytes a bs = .error (.boundsError a bs.length s.mem.size)))

/-- R84, R85 and the mixed-width sentence of R87: little-endian reads and writes, and their BoundsError. -/
def Obligations.MemoryIsLittleEndian : Prop :=
  ∀ (s : State) (a : Word), s.mem.wf →
    (∀ w : Width, a.toNat + w.bytes ≤ s.mem.size →
      ∃ v : BitVec w.bits, s.memRead a w = .ok v ∧
        v.toNat = ((List.range w.bytes).map fun k => (s.mem.read (a.toNat + k)).toNat * 2 ^ (8 * k)).sum) ∧
    (∀ (w : Width) (v : BitVec w.bits), a.toNat + w.bytes ≤ s.mem.size →
      ∃ t, s.memWrite a w v = .ok t ∧ t.memRead a w = .ok v ∧
        (∀ k, k < w.bytes → t.mem.read (a.toNat + k) = v.extractLsb' (8 * k) 8) ∧
        (∀ b, b < a.toNat ∨ a.toNat + w.bytes ≤ b → t.mem.read b = s.mem.read b)) ∧
    (∀ v : Word, s.mem.size ≤ 2 ^ 32 → a.toNat + 4 ≤ s.mem.size →
      ∃ t, s.memWrite a .dword v = .ok t ∧ t.memRead a .byte = .ok (v.extractLsb' 0 8) ∧
        t.memRead (a + 1) .word = .ok (v.extractLsb' 8 16) ∧ t.memRead a .word = .ok (v.extractLsb' 0 16)) ∧
    (∀ w : Width, s.mem.size < a.toNat + w.bytes →
      s.memRead a w = .error (.boundsError a w.bytes s.mem.size) ∧
      ∀ v : BitVec w.bits, s.memWrite a w v = .error (.boundsError a w.bytes s.mem.size))

/-- R93, and the first half of R440: every push form followed by `pop r`. -/
def Obligations.PushThenPopReturnsTheValue : Prop :=
  ∀ (s : State) (i : Instr) (v : Word) (q : Prefixes) (r : Reg), s.mem.wf → 4 ≤ s.regs.esp.toNat →
    s.regs.esp.toNat ≤ s.mem.size → q.hasOpsize = false →
    ((∃ p x, i = .pushR p x ∧ p.hasOpsize = false ∧ v = s.regs.get x) ∨
     (∃ p, i = .pushIz p v ∧ p.hasOpsize = false) ∨
     (∃ p imm, i = .pushIb p imm ∧ p.hasOpsize = false ∧ v = imm.signExtend 32) ∨
     (∃ p rm, i = .pushEv p rm ∧ p.hasOpsize = false ∧ (rm.operand .dword s).accessible s ∧
       v = (rm.operand .dword s).value s)) →
    ∃ t u, exec i s = .next t ∧ exec (.popR q r) t = .next u ∧ u.regs.get r = v ∧
      (r ≠ .esp → u.regs.esp = s.regs.esp)

/-- R420: a call, then in the callee a `ret` with ESP at its value on entry and the return address still there. -/
def Obligations.CallThenRetReturns : Prop :=
  ∀ (s : State) (i : Instr) (q : Prefixes), s.mem.wf → 4 ≤ s.regs.esp.toNat → s.regs.esp.toNat ≤ s.mem.size →
    ((∃ p rel, i = .callRel32 p rel) ∨ (∃ p rm, i = .callEv p rm ∧ (rm.operand .dword s).accessible s)) →
    ∃ t, exec i s = .next t ∧
      ∀ u : State, u.regs.esp = t.regs.esp → u.mem.size = t.mem.size →
        (∀ k, k < 4 → u.mem.read (t.regs.esp.toNat + k) = t.mem.read (t.regs.esp.toNat + k)) →
        ∃ v, exec (.ret q) u = .next v ∧ v.eip = s.nextEip i ∧ v.regs.esp = s.regs.esp

/-! ### Flags -/

/-- R201 to R203, R340: what the flags of `add` and `adc` mean: CF the unsigned overflow, OF the signed overflow, AF the
carry out of the low four bits. -/
def Obligations.AdditionFlagsMeanOverflow : Prop :=
  ∀ (w : Width) (f : Flags) (a b : BitVec w.bits) (op : AluOp) (c : Bool),
    (op = .add ∧ c = false) ∨ (op = .adc ∧ c = f.CF) →
    let r := (op.apply f a b).1
    let sum : Int := a.toInt + b.toInt + c.toNat
    r.toNat = (a.toNat + b.toNat + c.toNat) % 2 ^ w.bits ∧
    (op.apply f a b).2 =
      { f with
        CF := decide (2 ^ w.bits ≤ a.toNat + b.toNat + c.toNat)
        OF := decide (sum < -2 ^ (w.bits - 1) ∨ 2 ^ (w.bits - 1) ≤ sum)
        AF := decide (16 ≤ a.toNat % 16 + b.toNat % 16 + c.toNat)
        SF := decide (r.toInt < 0), ZF := decide (r.toNat = 0), PF := evenParity r }

/-- R201, R202, R204, R340: what the flags of `sub`, `cmp` and `sbb` mean: CF the unsigned borrow, OF the signed
overflow, AF the borrow into the low four bits. -/
def Obligations.SubtractionFlagsMeanBorrow : Prop :=
  ∀ (w : Width) (f : Flags) (a b : BitVec w.bits) (op : AluOp) (c : Bool),
    ((op = .sub ∨ op = .cmp) ∧ c = false) ∨ (op = .sbb ∧ c = f.CF) →
    let r := (op.apply f a b).1
    let difference : Int := a.toInt - b.toInt - c.toNat
    (r.toNat : Int) = ((a.toNat : Int) - b.toNat - c.toNat) % 2 ^ w.bits ∧
    (op.apply f a b).2 =
      { f with
        CF := decide (a.toNat < b.toNat + c.toNat)
        OF := decide (difference < -2 ^ (w.bits - 1) ∨ 2 ^ (w.bits - 1) ≤ difference)
        AF := decide (a.toNat % 16 < b.toNat % 16 + c.toNat)
        SF := decide (r.toInt < 0), ZF := decide (r.toNat = 0), PF := evenParity r }

/-- R205 with R201: the flags of `and`, `or` and `xor`; AF is unchanged. -/
def Obligations.LogicFlagsKeepAdjust : Prop :=
  ∀ (w : Width) (f : Flags) (a b : BitVec w.bits) (op : AluOp), op = .and ∨ op = .or ∨ op = .xor →
    (op.apply f a b).2 =
      { f with
        CF := false, OF := false
        SF := decide ((op.result f.CF a b).toInt < 0), ZF := decide ((op.result f.CF a b).toNat = 0)
        PF := evenParity (op.result f.CF a b) }

/-- R232: the laws of `cmp`. -/
def Obligations.CompareDecidesTheOrder : Prop :=
  (∀ (w : Width) (f : Flags) (a b : BitVec w.bits),
    let g := (AluOp.cmp.apply f a b).2
    g.ZF = decide (a = b) ∧ g.CF = decide (a.toNat < b.toNat) ∧ (AluOp.sub.apply f a b).2 = g ∧
    Cond.b.holds g = decide (a.toNat < b.toNat) ∧ Cond.l.holds g = decide (a.toInt < b.toInt) ∧
    Cond.e.holds g = decide (a = b)) ∧
  (∀ (form : AluForm) (s t : State), exec (AluOp.cmp.instr form) s = .next t → t.regs = s.regs ∧ t.mem = s.mem)

/-- R230, R231: the sixteen conditions, the bytes that select them, what they read, and their complements. -/
def Obligations.ConditionCodesFollowTheTable : Prop :=
  ∀ (c : Cond) (f : Flags),
    (c.holds f = true ↔
      match c with
      | .o => f.OF = true | .no => f.OF = false | .b => f.CF = true | .ae => f.CF = false
      | .e => f.ZF = true | .ne => f.ZF = false | .be => f.CF = true ∨ f.ZF = true
      | .a => f.CF = false ∧ f.ZF = false | .s => f.SF = true | .ns => f.SF = false
      | .p => f.PF = true | .np => f.PF = false | .l => f.SF ≠ f.OF | .ge => f.SF = f.OF
      | .le => f.ZF = true ∨ f.SF ≠ f.OF | .g => f.ZF = false ∧ f.SF = f.OF) ∧
    (∀ g : Flags, g.CF = f.CF → g.ZF = f.ZF → g.SF = f.SF → g.OF = f.OF → g.PF = f.PF → c.holds g = c.holds f) ∧
    c.opposite.code = c.code ^^^ 1 ∧ c.opposite.holds f = !c.holds f ∧
    (∀ rel : Byte, decode [0x70 + c.code, rel] = .ok (c.jcc8 [] rel, [])) ∧
    (∀ rel : Word, decode (0x0F :: (0x80 + c.code) :: leBytes 4 rel.toNat) = .ok (c.jcc32 [] rel, []))

/-! ### Each family completes with the state its rules give -/

/-- R215, R216 and 42_arithmetic.md, 43_logical.md: the 72 binary ALU instructions. -/
def Obligations.BinaryAluCompletes : Prop :=
  ∀ (op : AluOp) (form : AluForm) (s : State),
    let t := s.atNext (op.instr form)
    let dst := form.dst t
    let src := form.src t
    let g := (op.apply t.flags (dst.value t) (src.value t)).2
    (dst.accessible t → src.accessible t →
      exec (op.instr form) s =
        .next (if op = .cmp then t.withFlags g
          else dst.put (op.result t.flags.CF (dst.value t) (src.value t)) (t.withFlags g))) ∧
    (∀ k, dst.blocked t k ∨ src.blocked t k → exec (op.instr form) s = .next (s.raise k))

/-- R358: the six forms of `test`. -/
def Obligations.TestCompletes : Prop :=
  ∀ (form : TestForm) (s : State),
    let t := s.atNext form.instr
    (form.op1 t).accessible t → form.op2.accessible t →
    let r := (form.op1 t).value t &&& form.op2.value t
    exec form.instr s =
      .next (t.withFlags { t.flags with
        CF := false, OF := false, SF := r.msb, ZF := decide (r.toNat = 0), PF := evenParity r })

/-- R251 to R256, R264: the twelve forms of `mov`, and `movsxd`. -/
def Obligations.MoveCompletes : Prop :=
  ∀ (form : MoveForm) (s : State),
    let t := s.atNext form.instr
    ((form.dst t).accessible t → (form.src t).accessible t →
      exec form.instr s = .next ((form.dst t).put ((form.src t).value t) t)) ∧
    (∀ k, (form.dst t).blocked t k ∨ (form.src t).blocked t k → exec form.instr s = .next (s.raise k))

/-- R262, R263: `movzx` and `movsx`. -/
def Obligations.WideningMovesComplete : Prop :=
  ∀ (p : Prefixes) (rm : RM) (r : Reg) (s : State),
    (let t := s.atNext (.movzxGvEb p rm r)
     (rm.operand .byte t).accessible t →
      exec (.movzxGvEb p rm r) s =
        .next (t.regWrite r p.osz (BitVec.ofNat p.osz.bits ((rm.operand .byte t).value t).toNat))) ∧
    (let t := s.atNext (.movzxGvEw p rm r)
     (rm.operand .word t).accessible t →
      exec (.movzxGvEw p rm r) s =
        .next (t.regWrite r p.osz (BitVec.ofNat p.osz.bits ((rm.operand .word t).value t).toNat))) ∧
    (let t := s.atNext (.movsxGvEb p rm r)
     (rm.operand .byte t).accessible t →
      exec (.movsxGvEb p rm r) s =
        .next (t.regWrite r p.osz (BitVec.ofInt p.osz.bits ((rm.operand .byte t).value t).toInt))) ∧
    (let t := s.atNext (.movsxGvEw p rm r)
     (rm.operand .word t).accessible t →
      exec (.movsxGvEw p rm r) s =
        .next (t.regWrite r p.osz (BitVec.ofInt p.osz.bits ((rm.operand .word t).value t).toInt)))

/-- R270, R271: the three forms of `xchg`; both operands are read before either is written. -/
def Obligations.ExchangeCompletes : Prop :=
  ∀ (p : Prefixes) (rm : RM) (r : Reg) (s : State),
    (let t := s.atNext (.xchgEbGb p rm r)
     let op1 := rm.operand .byte t
     op1.accessible t →
      exec (.xchgEbGb p rm r) s = .next ((op1.put (t.regRead r .byte) t).regWrite r .byte (op1.value t))) ∧
    (let t := s.atNext (.xchgEvGv p rm r)
     let op1 := rm.operand p.osz t
     op1.accessible t →
      exec (.xchgEvGv p rm r) s = .next ((op1.put (t.regRead r p.osz) t).regWrite r p.osz (op1.value t))) ∧
    (let t := s.atNext (.xchgEaxR p r)
     exec (.xchgEaxR p r) s =
      .next ((t.regWrite .eax p.osz (t.regRead r p.osz)).regWrite r p.osz (t.regRead .eax p.osz)))

/-- R275, R335, R337: `lea` takes any address, and the sign extensions of the accumulator. -/
def Obligations.LeaAndSignExtensionComplete : Prop :=
  ∀ (p : Prefixes) (s : State),
    (∀ (r : Reg) (a : Addr),
      let t := s.atNext (.leaGvM p r a)
      exec (.leaGvM p r a) s = .next (t.regWrite r p.osz (BitVec.ofNat p.osz.bits (a.effective t).toNat))) ∧
    (let t := s.atNext (.cwde p)
     exec (.cwde p) s = .next (t.regWrite .eax .dword (BitVec.ofInt 32 (t.regRead .eax .word).toInt))) ∧
    (let t := s.atNext (.cbw p)
     exec (.cbw p) s = .next (t.regWrite .eax .word (BitVec.ofInt 16 (t.regRead .eax .byte).toInt))) ∧
    (let t := s.atNext (.cdq p)
     exec (.cdq p) s = .next (t.regWrite .edx .dword (if t.regs.eax.toInt < 0 then 0xFFFFFFFF else 0))) ∧
    (let t := s.atNext (.cwd p)
     exec (.cwd p) s =
      .next (t.regWrite .edx .word (if (t.regRead .eax .word).toInt < 0 then 0xFFFF#16 else 0)))

/-- R206, R310, R312: `inc` and `dec` are the addition and subtraction of 1 with CF kept. -/
def Obligations.IncrementAndDecrementComplete : Prop :=
  (∀ (form : UnaryForm) (s : State),
    (let t := s.atNext (UnaryOp.inc.instr form)
     let dst := form.operand t
     dst.accessible t →
      exec (UnaryOp.inc.instr form) s =
        .next (dst.put (dst.value t + 1)
          (t.withFlags { (AluOp.add.apply t.flags (dst.value t) 1).2 with CF := t.flags.CF }))) ∧
    (let t := s.atNext (UnaryOp.dec.instr form)
     let dst := form.operand t
     dst.accessible t →
      exec (UnaryOp.dec.instr form) s =
        .next (dst.put (dst.value t - 1)
          (t.withFlags { (AluOp.sub.apply t.flags (dst.value t) 1).2 with CF := t.flags.CF })))) ∧
  (∀ (p : Prefixes) (r : Reg) (s : State),
    (let t := s.atNext (.incR p r)
     exec (.incR p r) s =
      .next ((t.withFlags { (AluOp.add.apply t.flags (t.regRead r p.osz) 1).2 with CF := t.flags.CF }).regWrite r p.osz
        (t.regRead r p.osz + 1))) ∧
    (let t := s.atNext (.decR p r)
     exec (.decR p r) s =
      .next ((t.withFlags { (AluOp.sub.apply t.flags (t.regRead r p.osz) 1).2 with CF := t.flags.CF }).regWrite r p.osz
        (t.regRead r p.osz - 1))))

/-- R314, R356: `neg` is the subtraction from 0; `not` changes no flag. -/
def Obligations.NegateAndComplementComplete : Prop :=
  ∀ (form : UnaryForm) (s : State),
    (let t := s.atNext (UnaryOp.neg.instr form)
     let dst := form.operand t
     dst.accessible t →
      exec (UnaryOp.neg.instr form) s =
        .next (dst.put (-(dst.value t)) (t.withFlags (AluOp.sub.apply t.flags 0 (dst.value t)).2)) ∧
      (AluOp.sub.apply t.flags 0 (dst.value t)).2.CF = decide (dst.value t ≠ 0)) ∧
    (let t := s.atNext (UnaryOp.not.instr form)
     let dst := form.operand t
     dst.accessible t →
      exec (UnaryOp.not.instr form) s =
        .next (dst.put (BitVec.ofNat form.width.bits (2 ^ form.width.bits - 1 - (dst.value t).toNat)) t))

/-- R320, R322, R340: one-operand `mul` and `imul` leave the exact product in the accumulator pair; CF and OF say that it
does not fit the low half; SF, ZF, AF and PF are undefined, which the model makes free bits (log entry 4). -/
def Obligations.MultiplyCompletes : Prop :=
  ∀ (form : UnaryForm) (s : State),
    let w := form.width
    (let t := s.atNext (UnaryOp.mul.instr form)
     let src := form.operand t
     let product := (t.regRead .eax w).toNat * (src.value t).toNat
     src.accessible t →
      ∃ u, exec (UnaryOp.mul.instr form) s = .next u ∧ (readPair w u).toNat = product ∧
        u = ((writePair w (BitVec.ofNat w.bits (product / 2 ^ w.bits)) (BitVec.ofNat w.bits product) t).withFlags
          { t.undefinedFlags with
            CF := decide (2 ^ w.bits ≤ product), OF := decide (2 ^ w.bits ≤ product) }).endDraws) ∧
    (let t := s.atNext (UnaryOp.imul.instr form)
     let src := form.operand t
     let product := (t.regRead .eax w).toInt * (src.value t).toInt
     let overflow := decide (product < -2 ^ (w.bits - 1) ∨ 2 ^ (w.bits - 1) - 1 < product)
     src.accessible t →
      ∃ u, exec (UnaryOp.imul.instr form) s = .next u ∧ (readPair w u).toInt = product ∧
        u = ((writePair w (BitVec.ofInt w.bits (product / 2 ^ w.bits)) (BitVec.ofInt w.bits product) t).withFlags
          { t.undefinedFlags with CF := overflow, OF := overflow }).endDraws)

/-- R324, R325: two- and three-operand `imul` write the product modulo 2^N to a register; the undefined flags are free bits
(log entry 4). -/
def Obligations.TruncatingMultiplyCompletes : Prop :=
  ∀ (p : Prefixes) (rm : RM) (r : Reg) (s : State),
    let result (t : State) (a b : BitVec p.osz.bits) : State :=
      let product := a.toInt * b.toInt
      let overflow := decide (product < -2 ^ (p.osz.bits - 1) ∨ 2 ^ (p.osz.bits - 1) - 1 < product)
      ((t.regWrite r p.osz (BitVec.ofInt p.osz.bits product)).withFlags
        { t.undefinedFlags with CF := overflow, OF := overflow }).endDraws
    (let t := s.atNext (.imulGvEv p rm r)
     (rm.operand p.osz t).accessible t →
      exec (.imulGvEv p rm r) s = .next (result t (t.regRead r p.osz) ((rm.operand p.osz t).value t))) ∧
    (∀ imm : Word,
     let t := s.atNext (.imulGvEvIz p rm r imm)
     (rm.operand p.osz t).accessible t →
      exec (.imulGvEvIz p rm r imm) s =
        .next (result t ((rm.operand p.osz t).value t) (BitVec.ofNat p.osz.bits imm.toNat))) ∧
    (∀ imm : Byte,
     let t := s.atNext (.imulGvEvIb p rm r imm)
     (rm.operand p.osz t).accessible t →
      exec (.imulGvEvIb p rm r imm) s =
        .next (result t ((rm.operand p.osz t).value t) (BitVec.ofInt p.osz.bits imm.toInt)))

/-- R327, R329, R340: `div` and `idiv` write quotient and remainder, all six status flags undefined (free bits, log
entry 4), or raise DivideError on a zero divisor or a quotient out of range. -/
def Obligations.DivideCompletesOrFaults : Prop :=
  ∀ (form : UnaryForm) (s : State),
    let w := form.width
    (let t := s.atNext (UnaryOp.div.instr form)
     let src := form.operand t
     let n := (t.regRead (highIndex w) w).toNat * 2 ^ w.bits + (t.regRead .eax w).toNat
     let d := (src.value t).toNat
     src.accessible t →
      (d ≠ 0 → n / d ≤ 2 ^ w.bits - 1 →
        exec (UnaryOp.div.instr form) s =
          .next (((writePair w (BitVec.ofNat w.bits (n % d)) (BitVec.ofNat w.bits (n / d)) t).withFlags
            t.undefinedFlags).endDraws)) ∧
      (d = 0 ∨ 2 ^ w.bits - 1 < n / d → exec (UnaryOp.div.instr form) s = .next (s.raise .divideError))) ∧
    (let t := s.atNext (UnaryOp.idiv.instr form)
     let src := form.operand t
     let n := (t.regRead (highIndex w) w).toInt * 2 ^ w.bits + (t.regRead .eax w).toNat
     let d := (src.value t).toInt
     let q := n.tdiv d
     src.accessible t →
      (d ≠ 0 → -2 ^ (w.bits - 1) ≤ q → q ≤ 2 ^ (w.bits - 1) - 1 →
        exec (UnaryOp.idiv.instr form) s =
          .next (((writePair w (BitVec.ofInt w.bits (n.tmod d)) (BitVec.ofInt w.bits q) t).withFlags
            t.undefinedFlags).endDraws)) ∧
      (d = 0 ∨ q < -2 ^ (w.bits - 1) ∨ 2 ^ (w.bits - 1) - 1 < q →
        exec (UnaryOp.idiv.instr form) s = .next (s.raise .divideError)))

/-- R380 to R388: the 18 shifts. The count is masked to five bits; a count of zero changes nothing; the undefined flags
are free bits (log entry 4). -/
def Obligations.ShiftCompletes : Prop :=
  ∀ (op : ShiftOp) (form : ShiftForm) (s : State),
    let t := s.atNext (op.instr form)
    let dst := form.dst t
    let c := (form.count t).toNat % 32
    let a := dst.value t
    let r := op.value a c
    let n := form.width.bits
    let carry := match op with
      | .shl => if c < n then a.getLsbD (n - c) else t.undefinedFlags.CF
      | .shr => if c < n then a.getLsbD (c - 1) else t.undefinedFlags.CF
      | .sar => if c < n then a.getLsbD (c - 1) else a.msb
    let overflow := match op with
      | .shl => xor r.msb carry
      | .shr => a.msb
      | .sar => false
    (dst.accessible t → c = 0 → exec (op.instr form) s = .next t) ∧
    (dst.accessible t → c ≠ 0 →
      exec (op.instr form) s =
        .next (dst.put r (t.withFlags { t.flags with
          CF := carry, OF := if c = 1 then overflow else t.undefinedFlags.OF, AF := t.undefinedFlags.AF
          SF := r.msb, ZF := decide (r.toNat = 0), PF := evenParity r })).endDraws) ∧
    (∀ k, dst.blocked t k → exec (op.instr form) s = .next (s.raise k))

/-- R152, R400 to R406: the jumps and the 32 conditional branches; relative targets count from EIP_next, modulo 2^32. -/
def Obligations.BranchesComplete : Prop :=
  ∀ (p : Prefixes) (s : State),
    let target (i : Instr) (offset : Int) : Word := BitVec.ofInt 32 ((s.nextEip i).toNat + offset)
    (∀ rel : Byte, exec (.jmpRel8 p rel) s = .next (s.withEip (target (.jmpRel8 p rel) rel.toInt))) ∧
    (∀ rel : Word, exec (.jmpRel32 p rel) s = .next (s.withEip (target (.jmpRel32 p rel) rel.toInt))) ∧
    (∀ rm : RM,
      let t := s.atNext (.jmpEv p rm)
      ((rm.operand .dword t).accessible t →
        exec (.jmpEv p rm) s = .next (s.withEip ((rm.operand .dword t).value t))) ∧
      (∀ k, (rm.operand .dword t).blocked t k → exec (.jmpEv p rm) s = .next (s.raise k))) ∧
    (∀ (c : Cond) (rel : Byte),
      exec (c.jcc8 p rel) s =
        .next (s.withEip (if c.holds s.flags then target (c.jcc8 p rel) rel.toInt else s.nextEip (c.jcc8 p rel)))) ∧
    (∀ (c : Cond) (rel : Word),
      exec (c.jcc32 p rel) s =
        .next (s.withEip (if c.holds s.flags then target (c.jcc32 p rel) rel.toInt else s.nextEip (c.jcc32 p rel))))

/-- R90, R91, R410 to R416: `call` and `ret`. -/
def Obligations.CallAndRetComplete : Prop :=
  ∀ (p : Prefixes) (s : State),
    let called (t : State) (target : Word) : State :=
      ((t.poke (t.regs.esp - 4) .dword t.eip).withEsp (t.regs.esp - 4)).withEip target
    (∀ rel : Word,
      let t := s.atNext (.callRel32 p rel)
      (s.inBounds (s.regs.esp - 4) 4 → exec (.callRel32 p rel) s = .next (called t (t.eip + rel))) ∧
      (¬ s.inBounds (s.regs.esp - 4) 4 →
        exec (.callRel32 p rel) s = .next (s.raise (s.outOfBounds (s.regs.esp - 4) 4)))) ∧
    (∀ rm : RM,
      let t := s.atNext (.callEv p rm)
      ((rm.operand .dword t).accessible t → s.inBounds (s.regs.esp - 4) 4 →
        exec (.callEv p rm) s = .next (called t ((rm.operand .dword t).value t))) ∧
      ((rm.operand .dword t).accessible t → ¬ s.inBounds (s.regs.esp - 4) 4 →
        exec (.callEv p rm) s = .next (s.raise (s.outOfBounds (s.regs.esp - 4) 4))) ∧
      (∀ k, (rm.operand .dword t).blocked t k → exec (.callEv p rm) s = .next (s.raise k))) ∧
    (s.inBounds s.regs.esp 4 →
      exec (.ret p) s = .next ((s.withEsp (s.regs.esp + 4)).withEip (s.peek s.regs.esp .dword)) ∧
      ∀ imm : BitVec 16, exec (.retIw p imm) s =
        .next ((s.withEsp (s.regs.esp + 4 + BitVec.ofNat 32 imm.toNat)).withEip (s.peek s.regs.esp .dword))) ∧
    (¬ s.inBounds s.regs.esp 4 →
      exec (.ret p) s = .next (s.raise (.stackUnderflow s.regs.esp 4 s.mem.size)) ∧
      ∀ imm : BitVec 16, exec (.retIw p imm) s = .next (s.raise (.stackUnderflow s.regs.esp 4 s.mem.size)))

/-- R90, R430 to R433: the four push forms; the operand is read before ESP changes, and a push that faults leaves ESP. -/
def Obligations.PushCompletes : Prop :=
  ∀ (p : Prefixes) (s : State),
    let new := s.regs.esp - BitVec.ofNat 32 p.osz.bytes
    let pushed (t : State) (v : BitVec p.osz.bits) : State := (t.poke new p.osz v).withEsp new
    (s.inBounds new p.osz.bytes →
      (∀ r : Reg, exec (.pushR p r) s = .next (pushed (s.atNext (.pushR p r)) (s.regRead r p.osz))) ∧
      (∀ imm : Word, exec (.pushIz p imm) s =
        .next (pushed (s.atNext (.pushIz p imm)) (BitVec.ofNat p.osz.bits imm.toNat))) ∧
      (∀ imm : Byte, exec (.pushIb p imm) s =
        .next (pushed (s.atNext (.pushIb p imm)) (BitVec.ofInt p.osz.bits imm.toInt))) ∧
      (∀ rm : RM, (rm.operand p.osz s).accessible s → exec (.pushEv p rm) s =
        .next (pushed (s.atNext (.pushEv p rm)) ((rm.operand p.osz s).value s)))) ∧
    (¬ s.inBounds new p.osz.bytes →
      (∀ r : Reg, exec (.pushR p r) s = .next (s.raise (s.outOfBounds new p.osz.bytes))) ∧
      (∀ imm : Word, exec (.pushIz p imm) s = .next (s.raise (s.outOfBounds new p.osz.bytes))) ∧
      (∀ imm : Byte, exec (.pushIb p imm) s = .next (s.raise (s.outOfBounds new p.osz.bytes))) ∧
      (∀ rm : RM, (rm.operand p.osz s).accessible s →
        exec (.pushEv p rm) s = .next (s.raise (s.outOfBounds new p.osz.bytes)))) ∧
    (∀ (rm : RM) (k : FaultKind), (rm.operand p.osz s).blocked s k → exec (.pushEv p rm) s = .next (s.raise k))

/-- R91, R435, R436, R438: the two pop forms and `leave`; the address of a popped memory operand uses the new ESP. -/
def Obligations.PopAndLeaveComplete : Prop :=
  ∀ (p : Prefixes) (s : State),
    let size := p.osz.bytes
    let popped (t : State) : State := t.withEsp (t.regs.esp + BitVec.ofNat 32 size)
    (s.inBounds s.regs.esp size →
      (∀ r : Reg, exec (.popR p r) s =
        .next ((popped (s.atNext (.popR p r))).regWrite r p.osz (s.peek s.regs.esp p.osz))) ∧
      (∀ rm : RM,
        let t := popped (s.atNext (.popEv p rm))
        ((rm.operand p.osz t).accessible t →
          exec (.popEv p rm) s = .next ((rm.operand p.osz t).put (s.peek s.regs.esp p.osz) t)) ∧
        (∀ k, (rm.operand p.osz t).blocked t k → exec (.popEv p rm) s = .next (s.raise k)))) ∧
    (¬ s.inBounds s.regs.esp size →
      (∀ r : Reg, exec (.popR p r) s = .next (s.raise (.stackUnderflow s.regs.esp size s.mem.size))) ∧
      (∀ rm : RM, exec (.popEv p rm) s = .next (s.raise (.stackUnderflow s.regs.esp size s.mem.size)))) ∧
    (s.inBounds s.regs.ebp size →
      exec (.leave p) s =
        .next (((s.atNext (.leave p)).withEsp (s.regs.ebp + BitVec.ofNat 32 size)).regWrite .ebp p.osz
          (s.peek s.regs.ebp p.osz))) ∧
    (¬ s.inBounds s.regs.ebp size →
      exec (.leave p) s = .next (s.raise (.stackUnderflow s.regs.ebp size s.mem.size)))

/-- R450 to R454, R525: the string moves. One move steps ESI and EDI in the direction of DF; a rep string move is ECX
single moves with ECX counted down, and a fault in one keeps those before it, with EIP at EIP_start. -/
def Obligations.StringMovesComplete : Prop :=
  ∀ (w : Width) (p : Prefixes) (s : State),
    let one := Width.movs w p
    let rep := Width.repMovs w p
    let delta (x : Word) : Word := if s.flags.DF then x - BitVec.ofNat 32 w.bytes else x + BitVec.ofNat 32 w.bytes
    (s.inBounds s.regs.esi w.bytes → s.inBounds s.regs.edi w.bytes →
      exec one s =
        .next ((((s.atNext one).poke s.regs.edi w (s.peek s.regs.esi w)).regWrite .esi .dword
          (delta s.regs.esi)).regWrite .edi .dword (delta s.regs.edi))) ∧
    (¬ s.inBounds s.regs.esi w.bytes → exec one s = .next (s.raise (s.outOfBounds s.regs.esi w.bytes))) ∧
    (s.inBounds s.regs.esi w.bytes → ¬ s.inBounds s.regs.edi w.bytes →
      exec one s = .next (s.raise (s.outOfBounds s.regs.edi w.bytes))) ∧
    (∀ u, moveTimes w s.regs.ecx.toNat s = .ok u → exec rep s = .next (u.atNext rep)) ∧
    (∀ m u a, m < s.regs.ecx.toNat → moveTimes w m s = .ok u →
      (a = u.regs.esi ∨ (u.inBounds u.regs.esi w.bytes ∧ a = u.regs.edi)) → ¬ u.inBounds a w.bytes →
      exec rep s = .next (u.raise (u.outOfBounds a w.bytes)) ∧ u.eip = s.eip ∧
        u.regs.ecx.toNat = s.regs.ecx.toNat - m)

/-- R455: when every accessed byte lies in memory, a rep string move leaves ECX = 0 and ESI and EDI stepped ECX times;
`rep movsb` copies each byte when the ranges do not overlap. -/
def Obligations.RepMoveCopiesTheBlock : Prop :=
  ∀ (w : Width) (p : Prefixes) (s : State),
    let n := s.regs.ecx.toNat
    let src (k : Nat) := elementAddr w s.flags s.regs.esi k
    let dst (k : Nat) := elementAddr w s.flags s.regs.edi k
    s.mem.wf → (∀ k, k < n → s.inBounds (src k) w.bytes ∧ s.inBounds (dst k) w.bytes) →
    ∃ u, exec (Width.repMovs w p) s = .next u ∧ u.regs.ecx = 0 ∧ u.regs.esi = src n ∧ u.regs.edi = dst n ∧
      (w = .byte → (∀ i j, i < n → j < n → src i ≠ dst j) →
        ∀ i, i < n → u.mem.read (dst i).toNat = s.mem.read (src i).toNat)

/-- R470 to R479: the seven flag instructions and `nop`, with their encodings; none of them can fault. -/
def Obligations.FlagInstructionsComplete : Prop :=
  ∀ (p : Prefixes) (s : State),
    let after (i : Instr) (f : Flags) : Result := .next ((s.atNext i).withFlags f)
    exec (.clc p) s = after (.clc p) { s.flags with CF := false } ∧
    exec (.stc p) s = after (.stc p) { s.flags with CF := true } ∧
    exec (.cmc p) s = after (.cmc p) { s.flags with CF := !s.flags.CF } ∧
    exec (.cld p) s = after (.cld p) { s.flags with DF := false } ∧
    exec (.std p) s = after (.std p) { s.flags with DF := true } ∧
    exec (.sti p) s = after (.sti p) { s.flags with IF := true } ∧
    exec (.cli p) s = after (.cli p) { s.flags with IF := false } ∧
    exec (.nop p) s = after (.nop p) s.flags ∧
    decode (p.bytes ++ [0xF8]) = .ok (.clc p, []) ∧ decode (p.bytes ++ [0xF9]) = .ok (.stc p, []) ∧
    decode (p.bytes ++ [0xF5]) = .ok (.cmc p, []) ∧ decode (p.bytes ++ [0xFC]) = .ok (.cld p, []) ∧
    decode (p.bytes ++ [0xFD]) = .ok (.std p, []) ∧ decode (p.bytes ++ [0xFB]) = .ok (.sti p, []) ∧
    decode (p.bytes ++ [0xFA]) = .ok (.cli p, []) ∧ decode (p.bytes ++ [0x90]) = .ok (.nop p, [])

/-! ### The syscall gate -/

/-- R491, R493, R494: exit, an unsupported number, and a descriptor that names no stream. -/
def Obligations.SyscallExitAndRefusals : Prop :=
  ∀ (p : Prefixes) (s : State),
    let t := s.atNext (.int80 p)
    (s.regs.eax = 1 →
      exec (.int80 p) s =
        .next { t with
          exitCode := s.regs.ebx.extractLsb' 0 8, run := .halted
          outcome := some (.exited (s.regs.ebx.extractLsb' 0 8)) }) ∧
    (s.regs.eax ≠ 1 → s.regs.eax ≠ 3 → s.regs.eax ≠ 4 →
      exec (.int80 p) s = .next (s.raise (.unsupportedSyscall s.regs.eax))) ∧
    (s.regs.eax = 3 ∨ s.regs.eax = 4 → 2 < s.regs.ebx.toNat →
      exec (.int80 p) s = .next (t.regWrite .eax .dword 0xFFFFFFFF))

/-- R494, R495, R499: `read` from one of the three streams. The host's answer is the model's own (log entry 5). -/
def Obligations.SyscallReadCompletes : Prop :=
  ∀ (p : Prefixes) (s : State) (fd : Fd), s.regs.eax = 3 → s.regs.ebx.toNat = fd.toNat →
    let t := s.atNext (.int80 p)
    let count := s.regs.edx.toNat
    (¬ s.inBounds s.regs.ecx count → exec (.int80 p) s = .next (s.raise (s.outOfBounds s.regs.ecx count))) ∧
    (s.inBounds s.regs.ecx count →
      ∃ answer,
        let u : State := { t with
          readAnswers := t.readAnswers.drop 1, events := t.events ++ [.read fd count answer] }
        (∀ a, t.readAnswers.head? = some a → answer = a.limit count) ∧
        match answer with
        | .data bs => bs.length ≤ count ∧
          exec (.int80 p) s =
            .next ((u.pokeBytes s.regs.ecx bs).regWrite .eax .dword (BitVec.ofNat 32 bs.length))
        | .ioError => exec (.int80 p) s = .next (u.regWrite .eax .dword 0xFFFFFFFF))

/-- R494, R497, R499: `write` to one of the three streams. The host's answer is the model's own (log entry 5). -/
def Obligations.SyscallWriteCompletes : Prop :=
  ∀ (p : Prefixes) (s : State) (fd : Fd), s.regs.eax = 4 → s.regs.ebx.toNat = fd.toNat →
    let t := s.atNext (.int80 p)
    let count := s.regs.edx.toNat
    let bs := (List.range count).map fun k => s.mem.read (s.regs.ecx.toNat + k)
    (¬ s.inBounds s.regs.ecx count → exec (.int80 p) s = .next (s.raise (s.outOfBounds s.regs.ecx count))) ∧
    (s.inBounds s.regs.ecx count →
      ∃ answer,
        let u : State := { t with
          writeAnswers := t.writeAnswers.drop 1, events := t.events ++ [.write fd bs answer] }
        (∀ a, t.writeAnswers.head? = some a → answer = a) ∧
        exec (.int80 p) s =
          .next (u.regWrite .eax .dword (if answer = .ok then s.regs.edx else 0xFFFFFFFF)))

/-! ### What instructions leave alone -/

/-- R45, R480, R501: no instruction writes a flag outside the "written by" column. -/
def Obligations.FlagsOutsideTheTableAreKept : Prop :=
  ∀ (i : Instr) (s t : State) (f : FlagBit), exec i s = .next t → f ∉ i.flagsWritten → t.flags.get f = s.flags.get f

/-- R34, R36, R492: no instruction writes a register slot other than its destination's and those its rule names. -/
def Obligations.RegistersOutsideTheDestinationAreKept : Prop :=
  ∀ (i : Instr) (s t : State) (r : Reg), exec i s = .next t → r ∉ i.slots → t.regs.get r = s.regs.get r

/-- R85, R90, R97, R451: no byte of memory changes outside those the instruction stores to, and the memory keeps its
size. -/
def Obligations.MemoryOutsideTheStoreIsKept : Prop :=
  ∀ (i : Instr) (s t : State), s.mem.wf → exec i s = .next t →
    t.mem.size = s.mem.size ∧
    ∀ a : Nat, (∀ e ∈ i.stores s, a < e.1.toNat ∨ e.1.toNat + e.2 ≤ a) → t.mem.read a = s.mem.read a

/-- R6, R61: only `int 0x80` reaches the host streams or writes the exit code. -/
def Obligations.OnlyTheGateReachesTheHost : Prop :=
  ∀ (i : Instr) (s t : State), (∀ p, i ≠ .int80 p) → exec i s = .next t →
    t.events = s.events ∧ t.readAnswers = s.readAnswers ∧ t.writeAnswers = s.writeAnswers ∧ t.exitCode = s.exitCode

/-- R525: a fault is precise and terminal, whether the instruction raises it or its fetch does. -/
def Obligations.FaultsArePrecise : Prop :=
  (∀ (i : Instr) (s t : State) (k : FaultKind) (e : Option Word), s.outcome = none → exec i s = .next t →
    t.outcome = some (.fault k e) →
    t = s.raise k ∨
    ∃ w p m u, i = Width.repMovs w p ∧ m < s.regs.ecx.toNat ∧ moveTimes w m s = .ok u ∧ u.eip = s.eip ∧
      t = u.raise k) ∧
  (∀ (s t : State) (k : FaultKind) (e : Option Word), s.outcome = none → step s = .next t →
    t.outcome = some (.fault k e) →
    (∃ i, s.fetchDecode = .ok i ∧ exec i s = .next t) ∨ t = s.raise k)

/-- R82, R101, R531: an r/m or moffs operand outside memory raises BoundsError with its address and width, before
anything else of the instruction happens. -/
def Obligations.OperandOutsideMemoryFaults : Prop :=
  ∀ (i : Instr) (s : State) (a : Addr) (w : Width), i.firstOperand = some (.mem a, w) →
    s.mem.size < (a.effective s).toNat + w.bytes →
    exec i s = .next (s.raise (.boundsError (a.effective s) w.bytes s.mem.size))

/-- R521: which instruction raises which fault. -/
def Obligations.FaultsComeFromTheirInstructions : Prop :=
  ∀ (i : Instr) (s t : State) (k : FaultKind) (e : Option Word), s.outcome = none → exec i s = .next t →
    t.outcome = some (.fault k e) → k.code ∈ i.faultCodes

/-- R47: TF and IF have no effect on execution. -/
def Obligations.TrapAndInterruptFlagsHaveNoEffect : Prop :=
  ∀ (s : State) (tf iflag : Bool),
    match step s, step (s.withFlags { s.flags with TF := tf, IF := iflag }) with
    | .next t, .next u =>
      u.withFlags { u.flags with TF := t.flags.TF, IF := t.flags.IF } = t ∧ u.flags.TF = tf ∧
        (u.flags.IF = t.flags.IF ∨ (u.flags.IF = iflag ∧ t.flags.IF = s.flags.IF))
    | .fault a, .fault b => a = b
    | _, _ => False

/-- R208, R212: the draws (the model's own counter and free bits, log entry 4) decide nothing but the flags the executed
instruction leaves undefined. -/
def Obligations.DrawsDecideOnlyUndefinedFlags : Prop :=
  ∀ (s t : State) (d : Nat), step s = .next t →
    ∃ u, step (s.withDraws d) = .next u ∧
      u.regs = t.regs ∧ u.eip = t.eip ∧ u.mem = t.mem ∧ u.run = t.run ∧ u.exitCode = t.exitCode ∧
      u.outcome = t.outcome ∧ u.events = t.events ∧ u.readAnswers = t.readAnswers ∧
      u.writeAnswers = t.writeAnswers ∧
      ∀ f : FlagBit, u.flags.get f = t.flags.get f ∨ ∃ i, s.fetchDecode = .ok i ∧ f ∈ i.flagsUndefined s

end
end

