-- ==== Sys2Proof/Laws/State.lean ====
section
/-! SUPPORT. One lemma per field per update of the state, so that no proof unfolds a record update. -/

namespace Sys2Proof.Machine

variable (s : State)

@[simp] theorem State.withRegs_regs (v : Regs) : (s.withRegs v).regs = v := rfl
@[simp] theorem State.withRegs_eip (v : Regs) : (s.withRegs v).eip = s.eip := rfl
@[simp] theorem State.withRegs_flags (v : Regs) : (s.withRegs v).flags = s.flags := rfl
@[simp] theorem State.withRegs_mem (v : Regs) : (s.withRegs v).mem = s.mem := rfl
@[simp] theorem State.withRegs_run (v : Regs) : (s.withRegs v).run = s.run := rfl
@[simp] theorem State.withRegs_exitCode (v : Regs) : (s.withRegs v).exitCode = s.exitCode := rfl
@[simp] theorem State.withRegs_outcome (v : Regs) : (s.withRegs v).outcome = s.outcome := rfl
@[simp] theorem State.withRegs_events (v : Regs) : (s.withRegs v).events = s.events := rfl
@[simp] theorem State.withRegs_draws (v : Regs) : (s.withRegs v).draws = s.draws := rfl
@[simp] theorem State.withRegs_readAnswers (v : Regs) : (s.withRegs v).readAnswers = s.readAnswers := rfl
@[simp] theorem State.withRegs_writeAnswers (v : Regs) : (s.withRegs v).writeAnswers = s.writeAnswers := rfl

@[simp] theorem State.withEip_regs (v : Word) : (s.withEip v).regs = s.regs := rfl
@[simp] theorem State.withEip_eip (v : Word) : (s.withEip v).eip = v := rfl
@[simp] theorem State.withEip_flags (v : Word) : (s.withEip v).flags = s.flags := rfl
@[simp] theorem State.withEip_mem (v : Word) : (s.withEip v).mem = s.mem := rfl
@[simp] theorem State.withEip_run (v : Word) : (s.withEip v).run = s.run := rfl
@[simp] theorem State.withEip_exitCode (v : Word) : (s.withEip v).exitCode = s.exitCode := rfl
@[simp] theorem State.withEip_outcome (v : Word) : (s.withEip v).outcome = s.outcome := rfl
@[simp] theorem State.withEip_events (v : Word) : (s.withEip v).events = s.events := rfl
@[simp] theorem State.withEip_draws (v : Word) : (s.withEip v).draws = s.draws := rfl
@[simp] theorem State.withEip_readAnswers (v : Word) : (s.withEip v).readAnswers = s.readAnswers := rfl
@[simp] theorem State.withEip_writeAnswers (v : Word) : (s.withEip v).writeAnswers = s.writeAnswers := rfl

@[simp] theorem State.withFlags_regs (v : Flags) : (s.withFlags v).regs = s.regs := rfl
@[simp] theorem State.withFlags_eip (v : Flags) : (s.withFlags v).eip = s.eip := rfl
@[simp] theorem State.withFlags_flags (v : Flags) : (s.withFlags v).flags = v := rfl
@[simp] theorem State.withFlags_mem (v : Flags) : (s.withFlags v).mem = s.mem := rfl
@[simp] theorem State.withFlags_run (v : Flags) : (s.withFlags v).run = s.run := rfl
@[simp] theorem State.withFlags_exitCode (v : Flags) : (s.withFlags v).exitCode = s.exitCode := rfl
@[simp] theorem State.withFlags_outcome (v : Flags) : (s.withFlags v).outcome = s.outcome := rfl
@[simp] theorem State.withFlags_events (v : Flags) : (s.withFlags v).events = s.events := rfl
@[simp] theorem State.withFlags_draws (v : Flags) : (s.withFlags v).draws = s.draws := rfl
@[simp] theorem State.withFlags_readAnswers (v : Flags) : (s.withFlags v).readAnswers = s.readAnswers := rfl
@[simp] theorem State.withFlags_writeAnswers (v : Flags) : (s.withFlags v).writeAnswers = s.writeAnswers := rfl

@[simp] theorem State.withMem_regs (v : Memory) : (s.withMem v).regs = s.regs := rfl
@[simp] theorem State.withMem_eip (v : Memory) : (s.withMem v).eip = s.eip := rfl
@[simp] theorem State.withMem_flags (v : Memory) : (s.withMem v).flags = s.flags := rfl
@[simp] theorem State.withMem_mem (v : Memory) : (s.withMem v).mem = v := rfl
@[simp] theorem State.withMem_run (v : Memory) : (s.withMem v).run = s.run := rfl
@[simp] theorem State.withMem_exitCode (v : Memory) : (s.withMem v).exitCode = s.exitCode := rfl
@[simp] theorem State.withMem_outcome (v : Memory) : (s.withMem v).outcome = s.outcome := rfl
@[simp] theorem State.withMem_events (v : Memory) : (s.withMem v).events = s.events := rfl
@[simp] theorem State.withMem_draws (v : Memory) : (s.withMem v).draws = s.draws := rfl
@[simp] theorem State.withMem_readAnswers (v : Memory) : (s.withMem v).readAnswers = s.readAnswers := rfl
@[simp] theorem State.withMem_writeAnswers (v : Memory) : (s.withMem v).writeAnswers = s.writeAnswers := rfl

@[simp] theorem State.withDraws_regs (v : Nat) : (s.withDraws v).regs = s.regs := rfl
@[simp] theorem State.withDraws_eip (v : Nat) : (s.withDraws v).eip = s.eip := rfl
@[simp] theorem State.withDraws_flags (v : Nat) : (s.withDraws v).flags = s.flags := rfl
@[simp] theorem State.withDraws_mem (v : Nat) : (s.withDraws v).mem = s.mem := rfl
@[simp] theorem State.withDraws_run (v : Nat) : (s.withDraws v).run = s.run := rfl
@[simp] theorem State.withDraws_exitCode (v : Nat) : (s.withDraws v).exitCode = s.exitCode := rfl
@[simp] theorem State.withDraws_outcome (v : Nat) : (s.withDraws v).outcome = s.outcome := rfl
@[simp] theorem State.withDraws_events (v : Nat) : (s.withDraws v).events = s.events := rfl
@[simp] theorem State.withDraws_draws (v : Nat) : (s.withDraws v).draws = v := rfl
@[simp] theorem State.withDraws_readAnswers (v : Nat) : (s.withDraws v).readAnswers = s.readAnswers := rfl
@[simp] theorem State.withDraws_writeAnswers (v : Nat) : (s.withDraws v).writeAnswers = s.writeAnswers := rfl

@[simp] theorem State.regWrite_regs (i : Reg) (w : Width) (v : BitVec w.bits) : (s.regWrite i w v).regs = s.regs.write i w v := rfl
@[simp] theorem State.regWrite_eip (i : Reg) (w : Width) (v : BitVec w.bits) : (s.regWrite i w v).eip = s.eip := rfl
@[simp] theorem State.regWrite_flags (i : Reg) (w : Width) (v : BitVec w.bits) : (s.regWrite i w v).flags = s.flags := rfl
@[simp] theorem State.regWrite_mem (i : Reg) (w : Width) (v : BitVec w.bits) : (s.regWrite i w v).mem = s.mem := rfl
@[simp] theorem State.regWrite_run (i : Reg) (w : Width) (v : BitVec w.bits) : (s.regWrite i w v).run = s.run := rfl
@[simp] theorem State.regWrite_exitCode (i : Reg) (w : Width) (v : BitVec w.bits) : (s.regWrite i w v).exitCode = s.exitCode := rfl
@[simp] theorem State.regWrite_outcome (i : Reg) (w : Width) (v : BitVec w.bits) : (s.regWrite i w v).outcome = s.outcome := rfl
@[simp] theorem State.regWrite_events (i : Reg) (w : Width) (v : BitVec w.bits) : (s.regWrite i w v).events = s.events := rfl
@[simp] theorem State.regWrite_draws (i : Reg) (w : Width) (v : BitVec w.bits) : (s.regWrite i w v).draws = s.draws := rfl
@[simp] theorem State.regWrite_readAnswers (i : Reg) (w : Width) (v : BitVec w.bits) : (s.regWrite i w v).readAnswers = s.readAnswers := rfl
@[simp] theorem State.regWrite_writeAnswers (i : Reg) (w : Width) (v : BitVec w.bits) : (s.regWrite i w v).writeAnswers = s.writeAnswers := rfl

@[simp] theorem State.atNext_regs (i : Instr) : (s.atNext i).regs = s.regs := rfl
@[simp] theorem State.atNext_eip (i : Instr) : (s.atNext i).eip = s.nextEip i := rfl
@[simp] theorem State.atNext_flags (i : Instr) : (s.atNext i).flags = s.flags := rfl
@[simp] theorem State.atNext_mem (i : Instr) : (s.atNext i).mem = s.mem := rfl
@[simp] theorem State.atNext_run (i : Instr) : (s.atNext i).run = s.run := rfl
@[simp] theorem State.atNext_exitCode (i : Instr) : (s.atNext i).exitCode = s.exitCode := rfl
@[simp] theorem State.atNext_outcome (i : Instr) : (s.atNext i).outcome = s.outcome := rfl
@[simp] theorem State.atNext_events (i : Instr) : (s.atNext i).events = s.events := rfl
@[simp] theorem State.atNext_draws (i : Instr) : (s.atNext i).draws = s.draws := rfl
@[simp] theorem State.atNext_readAnswers (i : Instr) : (s.atNext i).readAnswers = s.readAnswers := rfl
@[simp] theorem State.atNext_writeAnswers (i : Instr) : (s.atNext i).writeAnswers = s.writeAnswers := rfl

@[simp] theorem State.raise_regs (k : FaultKind) : (s.raise k).regs = s.regs := rfl
@[simp] theorem State.raise_eip (k : FaultKind) : (s.raise k).eip = s.eip := rfl
@[simp] theorem State.raise_flags (k : FaultKind) : (s.raise k).flags = s.flags := rfl
@[simp] theorem State.raise_mem (k : FaultKind) : (s.raise k).mem = s.mem := rfl
@[simp] theorem State.raise_run (k : FaultKind) : (s.raise k).run = .halted := rfl
@[simp] theorem State.raise_exitCode (k : FaultKind) : (s.raise k).exitCode = s.exitCode := rfl
@[simp] theorem State.raise_outcome (k : FaultKind) : (s.raise k).outcome = some (.fault k (some s.eip)) := rfl
@[simp] theorem State.raise_events (k : FaultKind) : (s.raise k).events = s.events := rfl
@[simp] theorem State.raise_draws (k : FaultKind) : (s.raise k).draws = s.draws := rfl
@[simp] theorem State.raise_readAnswers (k : FaultKind) : (s.raise k).readAnswers = s.readAnswers := rfl
@[simp] theorem State.raise_writeAnswers (k : FaultKind) : (s.raise k).writeAnswers = s.writeAnswers := rfl

@[simp] theorem State.exit_regs (c : Byte) : (s.exit c).regs = s.regs := rfl
@[simp] theorem State.exit_eip (c : Byte) : (s.exit c).eip = s.eip := rfl
@[simp] theorem State.exit_flags (c : Byte) : (s.exit c).flags = s.flags := rfl
@[simp] theorem State.exit_mem (c : Byte) : (s.exit c).mem = s.mem := rfl
@[simp] theorem State.exit_run (c : Byte) : (s.exit c).run = .halted := rfl
@[simp] theorem State.exit_exitCode (c : Byte) : (s.exit c).exitCode = c := rfl
@[simp] theorem State.exit_outcome (c : Byte) : (s.exit c).outcome = some (.exited c) := rfl
@[simp] theorem State.exit_events (c : Byte) : (s.exit c).events = s.events := rfl
@[simp] theorem State.exit_draws (c : Byte) : (s.exit c).draws = s.draws := rfl
@[simp] theorem State.exit_readAnswers (c : Byte) : (s.exit c).readAnswers = s.readAnswers := rfl
@[simp] theorem State.exit_writeAnswers (c : Byte) : (s.exit c).writeAnswers = s.writeAnswers := rfl

@[simp] theorem State.endDraws_regs : s.endDraws.regs = s.regs := rfl
@[simp] theorem State.endDraws_eip : s.endDraws.eip = s.eip := rfl
@[simp] theorem State.endDraws_flags : s.endDraws.flags = s.flags := rfl
@[simp] theorem State.endDraws_mem : s.endDraws.mem = s.mem := rfl
@[simp] theorem State.endDraws_run : s.endDraws.run = s.run := rfl
@[simp] theorem State.endDraws_exitCode : s.endDraws.exitCode = s.exitCode := rfl
@[simp] theorem State.endDraws_outcome : s.endDraws.outcome = s.outcome := rfl
@[simp] theorem State.endDraws_events : s.endDraws.events = s.events := rfl
@[simp] theorem State.endDraws_draws : s.endDraws.draws = s.draws + 6 := rfl
@[simp] theorem State.endDraws_readAnswers : s.endDraws.readAnswers = s.readAnswers := rfl
@[simp] theorem State.endDraws_writeAnswers : s.endDraws.writeAnswers = s.writeAnswers := rfl

@[simp] theorem State.poke_regs (a : Word) (w : Width) (v : BitVec w.bits) : (s.poke a w v).regs = s.regs := rfl
@[simp] theorem State.poke_eip (a : Word) (w : Width) (v : BitVec w.bits) : (s.poke a w v).eip = s.eip := rfl
@[simp] theorem State.poke_flags (a : Word) (w : Width) (v : BitVec w.bits) : (s.poke a w v).flags = s.flags := rfl
@[simp] theorem State.poke_mem (a : Word) (w : Width) (v : BitVec w.bits) : (s.poke a w v).mem = s.mem.writeBytes a.toNat (leBytes w.bytes v.toNat) := rfl
@[simp] theorem State.poke_run (a : Word) (w : Width) (v : BitVec w.bits) : (s.poke a w v).run = s.run := rfl
@[simp] theorem State.poke_exitCode (a : Word) (w : Width) (v : BitVec w.bits) : (s.poke a w v).exitCode = s.exitCode := rfl
@[simp] theorem State.poke_outcome (a : Word) (w : Width) (v : BitVec w.bits) : (s.poke a w v).outcome = s.outcome := rfl
@[simp] theorem State.poke_events (a : Word) (w : Width) (v : BitVec w.bits) : (s.poke a w v).events = s.events := rfl
@[simp] theorem State.poke_draws (a : Word) (w : Width) (v : BitVec w.bits) : (s.poke a w v).draws = s.draws := rfl
@[simp] theorem State.poke_readAnswers (a : Word) (w : Width) (v : BitVec w.bits) : (s.poke a w v).readAnswers = s.readAnswers := rfl
@[simp] theorem State.poke_writeAnswers (a : Word) (w : Width) (v : BitVec w.bits) : (s.poke a w v).writeAnswers = s.writeAnswers := rfl

@[simp] theorem State.jump_regs (v : Word) : (s.jump v).regs = s.regs := rfl
@[simp] theorem State.jump_eip (v : Word) : (s.jump v).eip = v := rfl
@[simp] theorem State.jump_flags (v : Word) : (s.jump v).flags = s.flags := rfl
@[simp] theorem State.jump_mem (v : Word) : (s.jump v).mem = s.mem := rfl
@[simp] theorem State.jump_run (v : Word) : (s.jump v).run = s.run := rfl
@[simp] theorem State.jump_exitCode (v : Word) : (s.jump v).exitCode = s.exitCode := rfl
@[simp] theorem State.jump_outcome (v : Word) : (s.jump v).outcome = s.outcome := rfl
@[simp] theorem State.jump_events (v : Word) : (s.jump v).events = s.events := rfl
@[simp] theorem State.jump_draws (v : Word) : (s.jump v).draws = s.draws := rfl
@[simp] theorem State.jump_readAnswers (v : Word) : (s.jump v).readAnswers = s.readAnswers := rfl
@[simp] theorem State.jump_writeAnswers (v : Word) : (s.jump v).writeAnswers = s.writeAnswers := rfl

@[simp] theorem State.regRead_regs (i : Reg) (w : Width) : s.regRead i w = s.regs.read i w := rfl

@[simp] theorem State.nextEip_withEip (v : Word) (i : Instr) :
    (s.withEip v).nextEip i = v + BitVec.ofNat 32 i.length := rfl

end Sys2Proof.Machine
end

