-- ==== Sys2Proof/Laws/Memory.lean ====
section
/-! SUPPORT. The laws of memory: what a write leaves to be read, and that every operation keeps the canonical
form. -/

namespace Sys2Proof.Machine

/-! ### Cells -/

theorem lookupCell_of_lt {cs : List Host.Cell} {a : Nat} (h : ∀ c ∈ cs, a < c.1) : lookupCell cs a = 0 := by
  induction cs with
  | nil => rfl
  | cons c cs ih =>
    have hc := h c (by simp)
    simp only [lookupCell]
    rw [if_neg (by omega)]
    exact ih fun d hd => h d (by simp [hd])

theorem lookupCell_setCell {cs : List Host.Cell} (h : cs.Pairwise (fun c d => c.1 < d.1)) (a b : Nat) (v : Byte) :
    lookupCell (setCell cs a v) b = if b = a then v else lookupCell cs b := by
  induction cs with
  | nil =>
    by_cases hv : v = 0
    · rw [setCell, if_pos hv, hv, lookupCell, ite_self]
    · rw [setCell, if_neg hv, lookupCell, lookupCell]
      exact if_congr eq_comm rfl rfl
  | cons c cs ih =>
    obtain ⟨k, w⟩ := c
    rw [List.pairwise_cons] at h
    have ih := ih h.2
    have above {x : Nat} (hx : x ≤ k) : lookupCell cs x = 0 :=
      lookupCell_of_lt fun c hc => lt_of_le_of_lt hx (h.1 c hc)
    rcases Nat.lt_trichotomy a k with h1 | rfl | h1
    · by_cases hv : v = 0
      · rw [setCell, if_pos h1, if_pos hv, hv, lookupCell]
        by_cases hb : b = a
        · rw [if_pos hb, if_neg (by omega), above (by omega)]
        · rw [if_neg hb]
      · rw [setCell, if_pos h1, if_neg hv, lookupCell]
        by_cases hb : b = a
        · rw [if_pos hb, if_pos hb.symm]
        · rw [if_neg hb, if_neg (Ne.symm hb)]
    · by_cases hv : v = 0
      · rw [setCell, if_neg (lt_irrefl _), if_pos rfl, if_pos hv, hv, lookupCell]
        by_cases hb : b = a
        · rw [if_pos hb, above (by omega)]
        · rw [if_neg hb, if_neg (Ne.symm hb)]
      · rw [setCell, if_neg (lt_irrefl _), if_pos rfl, if_neg hv, lookupCell, lookupCell]
        by_cases hb : b = a
        · rw [if_pos hb, if_pos hb.symm]
        · rw [if_neg hb, if_neg (Ne.symm hb), if_neg (Ne.symm hb)]
    · rw [setCell, if_neg (by omega), if_neg (by omega), lookupCell, lookupCell, ih]
      by_cases hk : k = b
      · rw [if_pos hk, if_neg (by omega), if_pos hk]
      · rw [if_neg hk, if_neg hk]

theorem mem_setCell {cs : List Host.Cell} {a : Nat} {v : Byte} {c : Host.Cell} (h : c ∈ setCell cs a v) :
    c ∈ cs ∨ (c = (a, v) ∧ v ≠ 0) := by
  induction cs with
  | nil =>
    simp only [setCell] at h
    split_ifs at h with hv
    · cases h
    · exact .inr ⟨List.mem_singleton.mp h, hv⟩
  | cons d cs ih =>
    obtain ⟨k, w⟩ := d
    simp only [setCell] at h
    split_ifs at h with h1 hv h2 hv
    · exact .inl h
    · rcases List.mem_cons.mp h with rfl | h
      · exact .inr ⟨rfl, hv⟩
      · exact .inl h
    · exact .inl (List.mem_cons_of_mem _ h)
    · rcases List.mem_cons.mp h with rfl | h
      · exact .inr ⟨rfl, hv⟩
      · exact .inl (List.mem_cons_of_mem _ h)
    · rcases List.mem_cons.mp h with rfl | h
      · exact .inl (List.mem_cons_self ..)
      · exact (ih h).imp (List.mem_cons_of_mem _) id

theorem setCell_pairwise {cs : List Host.Cell} (h : cs.Pairwise (fun c d => c.1 < d.1)) (a : Nat) (v : Byte) :
    (setCell cs a v).Pairwise (fun c d => c.1 < d.1) := by
  induction cs with
  | nil =>
    simp only [setCell]
    split_ifs
    · exact List.Pairwise.nil
    · exact List.pairwise_singleton _ _
  | cons c cs ih =>
    obtain ⟨k, w⟩ := c
    have h' := h
    rw [List.pairwise_cons] at h
    simp only [setCell]
    split_ifs with h1 h2 h3 h4
    · exact h'
    · refine List.pairwise_cons.mpr ⟨fun d hd => ?_, h'⟩
      rcases List.mem_cons.mp hd with rfl | hd
      · exact h1
      · exact lt_trans h1 (h.1 d hd)
    · exact h.2
    · subst h3
      exact List.pairwise_cons.mpr ⟨fun d hd => h.1 d hd, h.2⟩
    · refine List.pairwise_cons.mpr ⟨fun d hd => ?_, ih h.2⟩
      rcases mem_setCell hd with hd | ⟨rfl, _⟩
      · exact h.1 d hd
      · exact lt_of_le_of_ne (not_lt.mp h1) (Ne.symm h3)

/-- Cells in canonical form are determined by what they read as. -/
theorem cells_ext {cs ds : List Host.Cell} (hc : cs.Pairwise (fun c d => c.1 < d.1)) (hc0 : ∀ c ∈ cs, c.2 ≠ 0)
    (hd : ds.Pairwise (fun c d => c.1 < d.1)) (hd0 : ∀ c ∈ ds, c.2 ≠ 0)
    (h : ∀ a, lookupCell cs a = lookupCell ds a) : cs = ds := by
  induction cs generalizing ds with
  | nil =>
    cases ds with
    | nil => rfl
    | cons d ds => exact absurd (h d.1).symm (by simpa [lookupCell] using hd0 d (by simp))
  | cons c cs ih =>
    cases ds with
    | nil => exact absurd (h c.1) (by simpa [lookupCell] using hc0 c (by simp))
    | cons d ds =>
      obtain ⟨k, v⟩ := c
      obtain ⟨l, w⟩ := d
      rw [List.pairwise_cons] at hc hd
      have hv : v ≠ 0 := hc0 (k, v) (by simp)
      have hw : w ≠ 0 := hd0 (l, w) (by simp)
      have hkl : k = l := by
        rcases Nat.lt_trichotomy k l with hlt | heq | hgt
        · have := h k
          simp only [lookupCell, if_pos] at this
          rw [if_neg (by omega), lookupCell_of_lt fun c hc => lt_trans hlt (hd.1 c hc)] at this
          exact absurd this hv
        · exact heq
        · have := h l
          simp only [lookupCell, if_pos] at this
          rw [if_neg (by omega), lookupCell_of_lt fun c hc' => lt_trans hgt (hc.1 c hc')] at this
          exact absurd this.symm hw
      subst hkl
      have hvw : v = w := by simpa [lookupCell] using h k
      subst hvw
      congr 1
      refine ih hc.2 (fun c h' => hc0 c (by simp [h'])) hd.2 (fun c h' => hd0 c (by simp [h'])) fun a => ?_
      by_cases ha : k = a
      · subst ha
        rw [lookupCell_of_lt fun c hc' => hc.1 c hc', lookupCell_of_lt fun c hc' => hd.1 c hc']
      · simpa [lookupCell, ha] using h a

/-! ### Memory -/

@[simp] theorem Memory.writeByte_size (m : Memory) (a : Nat) (v : Byte) : (m.writeByte a v).size = m.size := rfl

@[simp] theorem Memory.writeBytes_size (m : Memory) (a : Nat) (bs : List Byte) :
    (m.writeBytes a bs).size = m.size := by
  induction bs generalizing m a with
  | nil => rfl
  | cons b bs ih => simp [Memory.writeBytes, ih]

theorem Memory.wf_writeByte {m : Memory} (h : m.wf) {a : Nat} (v : Byte) (ha : a < m.size) :
    (m.writeByte a v).wf := by
  refine ⟨setCell_pairwise h.1 a v, fun c hc => ?_⟩
  rcases mem_setCell hc with hc | ⟨rfl, hv⟩
  · exact h.2 c hc
  · exact ⟨ha, hv⟩

/-- Writing bytes inside the memory keeps the canonical form. -/
theorem Memory.wf_writeBytes {m : Memory} (h : m.wf) {a : Nat} {bs : List Byte} (ha : a + bs.length ≤ m.size) :
    (m.writeBytes a bs).wf := by
  induction bs generalizing m a with
  | nil => exact h
  | cons b bs ih =>
    simp only [List.length_cons] at ha
    exact ih (Memory.wf_writeByte h b (by omega)) (by simp; omega)

theorem Memory.read_writeByte {m : Memory} (h : m.wf) (a b : Nat) (v : Byte) :
    (m.writeByte a v).read b = if b = a then v else m.read b := lookupCell_setCell h.1 a b v

/-- What any address reads as after bytes are written: the byte written there, or what was there before. -/
theorem Memory.read_writeBytes {m : Memory} (h : m.wf) {a : Nat} {bs : List Byte} (ha : a + bs.length ≤ m.size)
    (b : Nat) :
    (m.writeBytes a bs).read b = if a ≤ b ∧ b < a + bs.length then bs.getD (b - a) 0 else m.read b := by
  induction bs generalizing m a with
  | nil =>
    rw [if_neg (by simp only [List.length_nil]; omega)]
    rfl
  | cons c bs ih =>
    simp only [List.length_cons] at ha
    rw [Memory.writeBytes, ih (Memory.wf_writeByte h c (by omega)) (by simp; omega), Memory.read_writeByte h]
    by_cases hb : b = a
    · subst hb
      simp
    · rw [if_neg hb, List.length_cons]
      by_cases hr : a ≤ b ∧ b < a + (bs.length + 1)
      · obtain ⟨k, rfl⟩ : ∃ k, b = a + 1 + k := ⟨b - (a + 1), by omega⟩
        have e1 : a + 1 + k - (a + 1) = k := by omega
        have e2 : a + 1 + k - a = k + 1 := by omega
        rw [if_pos (by omega), if_pos hr, e1, e2]
        rfl
      · rw [if_neg (by omega), if_neg hr]

theorem Memory.read_writeBytes_outside {m : Memory} (h : m.wf) {a : Nat} {bs : List Byte}
    (ha : a + bs.length ≤ m.size) {b : Nat} (hb : b < a ∨ a + bs.length ≤ b) :
    (m.writeBytes a bs).read b = m.read b := by
  rw [Memory.read_writeBytes h ha, if_neg (by omega)]

@[simp] theorem Memory.readBytes_length (m : Memory) (a n : Nat) : (m.readBytes a n).length = n := by
  induction n generalizing a with
  | zero => rfl
  | succ n ih => simp [Memory.readBytes, ih]

theorem Memory.readBytes_congr {m m' : Memory} {a n : Nat} (h : ∀ b, a ≤ b → b < a + n → m.read b = m'.read b) :
    m.readBytes a n = m'.readBytes a n := by
  induction n generalizing a with
  | zero => rfl
  | succ n ih =>
    simp only [Memory.readBytes]
    rw [h a (by omega) (by omega), ih fun b h1 h2 => h b (by omega) (by omega)]

/-- The bytes written are the bytes read (20_memory.md R87). -/
theorem Memory.readBytes_writeBytes {m : Memory} (h : m.wf) {a : Nat} {bs : List Byte}
    (ha : a + bs.length ≤ m.size) : (m.writeBytes a bs).readBytes a bs.length = bs := by
  induction bs generalizing m a with
  | nil => rfl
  | cons b bs ih =>
    have hw := Memory.read_writeBytes h ha a
    simp only [List.length_cons] at ha hw ⊢
    simp only [Memory.readBytes]
    refine congr_arg₂ _ ?_ (ih (Memory.wf_writeByte h b (by omega)) (by simp; omega))
    rw [hw, if_pos (by omega)]
    simp

theorem Memory.get_eq {m : Memory} {a n : Nat} (h : a + n ≤ m.size) : m.get a n = some (m.readBytes a n) := if_pos h

theorem Memory.get_eq_none {m : Memory} {a n : Nat} (h : m.size < a + n) : m.get a n = none := if_neg (by omega)

/-- All that `set` can do. -/
theorem Memory.set_cases {m m' : Memory} {a : Nat} {bs : List Byte} (h : m.set a bs = some m') :
    a + bs.length ≤ m.size ∧ m' = m.writeBytes a bs := by
  simp only [Memory.set] at h
  split at h
  · exact ⟨‹_›, (Option.some.inj h).symm⟩
  · cases h

theorem Memory.set_eq {m : Memory} {a : Nat} {bs : List Byte} (h : a + bs.length ≤ m.size) :
    m.set a bs = some (m.writeBytes a bs) := if_pos h

theorem Memory.set_eq_none {m : Memory} {a : Nat} {bs : List Byte} (h : m.size < a + bs.length) :
    m.set a bs = none := if_neg (by omega)

/-- `set` keeps the canonical form and the size. -/
theorem Memory.set_wf {m m' : Memory} {a : Nat} {bs : List Byte} (hw : m.wf) (h : m.set a bs = some m') :
    m'.wf ∧ m'.size = m.size := by
  obtain ⟨ha, rfl⟩ := Memory.set_cases h
  exact ⟨Memory.wf_writeBytes hw ha, Memory.writeBytes_size m a bs⟩

/-- The test aid of `withFetchWord` keeps the canonical form too. -/
theorem Memory.storeInside_wf {m : Memory} (hw : m.wf) {a : Nat} (ha : a ≤ m.size) (bs : List Byte) :
    (m.storeInside a bs).wf :=
  Memory.wf_writeBytes hw (by simp only [List.length_take]; omega)

theorem State.reset_mem_wf : State.reset.mem.wf := by decide

end Sys2Proof.Machine
end

