-- ==== Sys2Proof/Laws/Regs.lean ====
section
/-! SUPPORT. The laws of the register file (10_state.md R30 to R35). -/

namespace Sys2Proof

@[simp] theorem Width.bits_byte : Width.byte.bits = 8 := rfl
@[simp] theorem Width.bits_word : Width.word.bits = 16 := rfl
@[simp] theorem Width.bits_dword : Width.dword.bits = 32 := rfl
@[simp] theorem Width.bytes_byte : Width.byte.bytes = 1 := rfl
@[simp] theorem Width.bytes_word : Width.word.bytes = 2 := rfl
@[simp] theorem Width.bytes_dword : Width.dword.bytes = 4 := rfl

theorem Reg.ofBits_bits (r : Reg) : Reg.ofBits r.bits = r := by cases r <;> rfl

theorem Reg.bits_ofBits (b : BitVec 3) : (Reg.ofBits b).bits = b := by revert b; decide

@[simp] theorem Prefixes.osz_bits (p : Prefixes) (h : p.hasOpsize = true) : p.osz = .word := by
  simp [Prefixes.osz, h]

theorem Prefixes.osz_cases (p : Prefixes) : p.osz = .word ∨ p.osz = .dword := by
  unfold Prefixes.osz; split <;> simp

theorem Reg.slot_of_ne_byte (r : Reg) {w : Width} (h : w ≠ .byte) : r.slot w = r := by
  cases w <;> first | rfl | exact absurd rfl h

@[simp] theorem Reg.slot_osz (r : Reg) (p : Prefixes) : r.slot p.osz = r := by
  rcases p.osz_cases with h | h <;> rw [h] <;> rfl

end Sys2Proof

namespace Sys2Proof.Machine

/-! ### Slots -/

theorem Regs.get_set (x : Regs) (i j : Reg) (v : Word) : (x.set i v).get j = if j = i then v else x.get j := by
  cases i <;> cases j <;> rfl

@[simp] theorem Regs.get_set_same (x : Regs) (i : Reg) (v : Word) : (x.set i v).get i = v := by cases i <;> rfl

theorem Regs.get_set_ne (x : Regs) {i j : Reg} (v : Word) (h : j ≠ i) : (x.set i v).get j = x.get j := by
  rw [Regs.get_set, if_neg h]

/-- Two register files with equal slots are equal. -/
theorem Regs.ext_get {x y : Regs} (h : ∀ i, x.get i = y.get i) : x = y := by
  cases x; cases y
  have h0 := h .eax; have h1 := h .ecx; have h2 := h .edx; have h3 := h .ebx
  have h4 := h .esp; have h5 := h .ebp; have h6 := h .esi; have h7 := h .edi
  simp only [Regs.get] at h0 h1 h2 h3 h4 h5 h6 h7
  subst h0 h1 h2 h3 h4 h5 h6 h7
  rfl

@[simp] theorem Regs.set_get (x : Regs) (i : Reg) : x.set i (x.get i) = x := by cases i <;> rfl

@[simp] theorem Regs.set_set (x : Regs) (i : Reg) (v w : Word) : (x.set i v).set i w = x.set i w := by
  cases i <;> rfl

theorem Regs.set_comm (x : Regs) {i j : Reg} (h : i ≠ j) (v w : Word) :
    (x.set i v).set j w = (x.set j w).set i v := by
  refine Regs.ext_get fun k => ?_
  simp only [Regs.get_set]
  by_cases hi : k = i <;> by_cases hj : k = j <;> simp_all

/-! ### Views -/

@[simp] theorem Regs.read_dword (x : Regs) (i : Reg) : x.read i .dword = x.get i := rfl

@[simp] theorem Regs.write_dword (x : Regs) (i : Reg) (v : Word) : x.write i .dword v = x.set i v := rfl

/-- A write of a view touches one slot only (R34). -/
theorem Regs.get_write_ne (x : Regs) (i j : Reg) (w : Width) (v : BitVec w.bits) (h : j ≠ i.slot w) :
    (x.write i w v).get j = x.get j := by
  cases w <;> exact Regs.get_set_ne _ _ h

/-- Which bits a read of a view gives (R33). -/
theorem Regs.getLsbD_read (x : Regs) (i : Reg) (w : Width) (k : Nat) :
    (x.read i w).getLsbD k = (decide (k < w.bits) && (x.get (i.slot w)).getLsbD (viewOffset i w + k)) := by
  cases w
  · simp only [Regs.read, Reg.slot, viewOffset, BitVec.getLsbD_extractLsb']
  · simp only [Regs.read, Reg.slot, viewOffset, BitVec.getLsbD_extractLsb']
  · simp only [Regs.read, Reg.slot, viewOffset, Nat.zero_add]
    by_cases hk : k < 32
    · simp [hk]
    · simp [hk, BitVec.getLsbD_of_ge _ _ (Nat.le_of_not_lt hk)]

/-- Which bits a write of a view changes (R34). -/
theorem Regs.getLsbD_write (x : Regs) (i j : Reg) (w : Width) (v : BitVec w.bits) (k : Nat) :
    ((x.write i w v).get j).getLsbD k =
      if j = i.slot w ∧ viewOffset i w ≤ k ∧ k < viewOffset i w + w.bits then v.getLsbD (k - viewOffset i w)
      else (x.get j).getLsbD k := by
  by_cases hj : j = i.slot w
  · subst hj
    cases w
    · simp only [Regs.write, Reg.slot, Regs.get_set_same, viewOffset, true_and]
      cases i.isHigh
      · simp only [Bool.false_eq_true, if_false, BitVec.getLsbD_append, BitVec.getLsbD_extractLsb', Nat.zero_le,
          true_and, Nat.zero_add, Nat.sub_zero]
        by_cases h8 : k < 8
        · simp [h8]
        · by_cases h32 : k - 8 < 24
          · have e : 8 + (k - 8) = k := by omega
            simp [h8, h32, e]
          · simp [h8, h32, BitVec.getLsbD_of_ge (x.get i.slot8) k (by omega)]
      · simp only [if_true, BitVec.getLsbD_append, BitVec.getLsbD_extractLsb']
        by_cases h8 : k < 8
        · have h8' : ¬ 8 ≤ k := by omega
          simp [h8, h8']
        · by_cases h16 : k - 8 < 8
          · have h8' : 8 ≤ k := by omega
            simp [h8, h8', h16, show k < 8 + 8 by omega]
          · by_cases h32 : k - 8 - 8 < 16
            · have e : 16 + (k - 8 - 8) = k := by omega
              simp [h8, h16, show ¬ k < 8 + 8 by omega, h32, e]
            · simp [h8, h16, show ¬ k < 8 + 8 by omega, h32, BitVec.getLsbD_of_ge (x.get i.slot8) k (by omega)]
    · simp only [Regs.write, Reg.slot, Regs.get_set_same, viewOffset, true_and, BitVec.getLsbD_append,
        BitVec.getLsbD_extractLsb', Nat.zero_le, Nat.zero_add, Nat.sub_zero]
      by_cases h16 : k < 16
      · simp [h16]
      · by_cases h32 : k - 16 < 16
        · have e : 16 + (k - 16) = k := by omega
          simp [h16, h32, e]
        · simp [h16, h32, BitVec.getLsbD_of_ge (x.get i) k (by omega)]
    · simp only [Regs.write, Reg.slot, Regs.get_set_same, viewOffset, true_and, Nat.zero_le, Nat.zero_add,
        Nat.sub_zero]
      by_cases h32 : k < 32
      · rw [if_pos h32]
      · rw [if_neg h32, BitVec.getLsbD_of_ge v k (by simpa using h32), BitVec.getLsbD_of_ge _ k (by omega)]
  · rw [Regs.get_write_ne x i j w v hj, if_neg (fun h => hj h.1)]

/-- What is written to a view is what it reads as. -/
@[simp] theorem Regs.read_write (x : Regs) (i : Reg) (w : Width) (v : BitVec w.bits) :
    (x.write i w v).read i w = v := by
  refine BitVec.eq_of_getLsbD_eq fun k hk => ?_
  rw [Regs.getLsbD_read, Regs.getLsbD_write, if_pos ⟨rfl, by omega, by omega⟩]
  simp [hk]

/-- A view whose slot is not written reads as before. -/
theorem Regs.read_write_ne (x : Regs) (i j : Reg) (w u : Width) (v : BitVec w.bits) (h : j.slot u ≠ i.slot w) :
    (x.write i w v).read j u = x.read j u := by
  refine BitVec.eq_of_getLsbD_eq fun k _ => ?_
  rw [Regs.getLsbD_read, Regs.getLsbD_read, Regs.get_write_ne x i _ w v h]

/-- AX is AH above AL (R31). -/
theorem Regs.read_ax (x : Regs) : x.read .eax .word = x.read .esp .byte ++ x.read .eax .byte := by
  refine BitVec.eq_of_getLsbD_eq fun k hk => ?_
  rw [Regs.getLsbD_read]
  have hk : k < 16 := hk
  simp only [Regs.read, Reg.slot, Reg.slot8, Reg.isHigh, viewOffset, BitVec.getLsbD_append,
    BitVec.getLsbD_extractLsb', if_true, Bool.false_eq_true, if_false, Nat.zero_add]
  by_cases h8 : k < 8
  · simp [h8, show k < 16 by omega]
  · simp [h8, show k < 16 by omega, show k - 8 < 8 by omega, show 8 + (k - 8) = k by omega]

end Sys2Proof.Machine
end

