-- ==== Sys2Proof/Laws/Codec.lean ====
section
/-! SUPPORT. The laws of the decoder: which bytes each part reads (forward, on encoded bytes, and backward, from what
it answers), and that it looks at no byte beyond those it fetches. -/

namespace Sys2Proof

/-! ### Fields of ModR/M and SIB (30_encoding.md R135, R139) -/

@[simp] theorem modOf_fieldByte (h : BitVec 2) (m l : BitVec 3) : modOf (fieldByte h m l) = h := by
  revert h m l; decide

@[simp] theorem regOf_fieldByte (h : BitVec 2) (m l : BitVec 3) : regOf (fieldByte h m l) = m := by
  revert h m l; decide

@[simp] theorem rmOf_fieldByte (h : BitVec 2) (m l : BitVec 3) : rmOf (fieldByte h m l) = l := by
  revert h m l; decide

@[simp] theorem fieldByte_fields (b : Byte) : fieldByte (modOf b) (regOf b) (rmOf b) = b := by
  revert b; decide

/-! ### Prefixes (R124) -/

@[simp] theorem Prefix.ofByte?_byte (x : Prefix) : Prefix.ofByte? x.byte = some x := by
  rcases x with _ | _ | _ | _ | s <;> first | rfl | (cases s <;> rfl)

theorem Prefix.byte_of_ofByte? {b : Byte} {x : Prefix} (h : Prefix.ofByte? b = some x) : x.byte = b := by
  revert h
  unfold Prefix.ofByte?
  split
  all_goals first
    | (intro h; cases h; apply BitVec.eq_of_toNat_eq; rw [‹b.toNat = _›]; rfl)
    | (intro h; cases h)

theorem splitPrefixes_bytes (p : Prefixes) {b : Byte} (h : Prefix.ofByte? b = none) (bs : List Byte) :
    splitPrefixes (p.bytes ++ b :: bs) = (p, b :: bs) := by
  induction p with
  | nil => simp only [Prefixes.bytes, List.map_nil, List.nil_append, splitPrefixes, h]
  | cons x p ih =>
    simp only [Prefixes.bytes, List.map_cons, List.cons_append, splitPrefixes, Prefix.ofByte?_byte]
    simp only [Prefixes.bytes] at ih
    rw [ih]

/-- The bytes are the prefix bytes and the rest, and the rest begins with no prefix byte. -/
theorem splitPrefixes_eq (bs : List Byte) :
    bs = (splitPrefixes bs).1.bytes ++ (splitPrefixes bs).2 ∧
      ∀ b rest, (splitPrefixes bs).2 = b :: rest → Prefix.ofByte? b = none := by
  induction bs with
  | nil => exact ⟨rfl, by simp [splitPrefixes]⟩
  | cons b bs ih =>
    simp only [splitPrefixes]
    cases h : Prefix.ofByte? b with
    | none =>
      refine ⟨rfl, fun c rest hc => ?_⟩
      cases hc
      exact h
    | some x =>
      refine ⟨?_, ih.2⟩
      simp only [Prefixes.bytes, List.map_cons, List.cons_append, Prefix.byte_of_ofByte? h]
      exact congr_arg _ ih.1

@[simp] theorem Prefixes.bytes_length (p : Prefixes) : p.bytes.length = p.length := by simp [Prefixes.bytes]

/-! ### Fetches -/

@[simp] theorem fetchFits_none (u n : Nat) : fetchFits none u n = true := rfl

theorem fetchFits_some (a : Word) (u n : Nat) :
    fetchFits (some a) u n = true ↔ (a.toNat + u) % 4294967296 + n ≤ 4294967296 := by
  simp only [fetchFits, decide_eq_true_eq, BitVec.toNat_add, BitVec.toNat_ofNat, Nat.add_mod_mod]
  exact Iff.rfl

/-- A fetch of one byte crosses nothing. -/
@[simp] theorem fetchFits_one (e : Option Word) (u : Nat) : fetchFits e u 1 = true := by
  cases e with
  | none => rfl
  | some a => rw [fetchFits_some]; omega

/-- Bytes that lie inside the space lie there in any cut. -/
theorem fetchFits_add {e : Option Word} {u n k : Nat} (h : fetchFits e u (n + k) = true) :
    fetchFits e u n = true ∧ fetchFits e (u + n) k = true := by
  cases e with
  | none => exact ⟨rfl, rfl⟩
  | some a => rw [fetchFits_some] at *; rw [fetchFits_some]; omega

/-- Bytes from the start that end within the space. -/
theorem fetchFits_start {a : Word} {n : Nat} (h : a.toNat + n ≤ 2 ^ 32) : fetchFits (some a) 0 n = true := by
  have := a.isLt
  rw [fetchFits_some]; omega

/-- No part of bytes that lie inside the space crosses its end. -/
theorem fetchFits_part {e : Option Word} {l u n : Nat} (h : fetchFits e 0 l = true) (hn : u + n ≤ l) :
    fetchFits e u n = true := by
  obtain ⟨k, rfl⟩ := Nat.exists_eq_add_of_le hn
  have := (fetchFits_add (fetchFits_add h).1).2
  rwa [Nat.zero_add] at this

theorem fetchFits_tail {e : Option Word} {u n : Nat} (h : fetchFits e u (n + 1) = true) :
    fetchFits e (u + 1) n = true := by
  rw [Nat.add_comm] at h; exact (fetchFits_add h).2

theorem Stream.fetch_append {e : Option Word} {u n : Nat} {bs : List Byte} (hn : bs.length = n)
    (h : fetchFits e u n = true)
    (rest : List Byte) : Stream.fetch n ⟨u, e, bs ++ rest⟩ = .ok (bs, ⟨u + n, e, rest⟩) := by
  subst hn
  rw [Stream.fetch, if_pos ⟨by simp, h⟩]
  simp

theorem Stream.fetchValue_append {e : Option Word} {u n : Nat} {bs : List Byte} (hn : bs.length = n)
    (h : fetchFits e u n = true)
    (rest : List Byte) : Stream.fetchValue n ⟨u, e, bs ++ rest⟩ = .ok (leValue bs, ⟨u + n, e, rest⟩) := by
  rw [Stream.fetchValue, Stream.fetch_append hn h]; rfl

@[simp] theorem Stream.fetchByte_cons (e : Option Word) (u : Nat) (b : Byte) (rest : List Byte) :
    Stream.fetchByte ⟨u, e, b :: rest⟩ = .ok (b, ⟨u + 1, e, rest⟩) := by
  have h : Stream.fetchValue 1 ⟨u, e, b :: rest⟩ = .ok (leValue [b], ⟨u + 1, e, rest⟩) :=
    Stream.fetchValue_append (bs := [b]) rfl (fetchFits_one e u) rest
  rw [Stream.fetchByte, h]
  simp [leValue, bind, Except.bind]

@[simp] theorem Stream.fetchByte_nil (e : Option Word) (u : Nat) :
    Stream.fetchByte ⟨u, e, []⟩ = .error (.truncated u 1) := rfl

theorem Stream.fetchWord_leBytes {e : Option Word} {u : Nat} (h : fetchFits e u 4 = true) (v : Word) (rest : List Byte) :
    Stream.fetchWord ⟨u, e, leBytes 4 v.toNat ++ rest⟩ = .ok (v, ⟨u + 4, e, rest⟩) := by
  rw [Stream.fetchWord, Stream.fetchValue_append (leBytes_length ..) h, leValue_leBytes]
  simp only [bind, Except.bind]
  rw [Nat.mod_eq_of_lt (by exact v.isLt), BitVec.ofNat_toNat, BitVec.setWidth_eq]

theorem Stream.fetchZ_izBytes {e : Option Word} {u : Nat} {p : Prefixes} (h : fetchFits e u p.osz.bytes = true) {v : Word}
    (hv : immFits p v = true) (rest : List Byte) :
    Stream.fetchZ p ⟨u, e, izBytes p v ++ rest⟩ = .ok (v, ⟨u + p.osz.bytes, e, rest⟩) := by
  have hv' : v.toNat < 256 ^ p.osz.bytes := by
    rw [show 256 ^ p.osz.bytes = 2 ^ p.osz.bits by rcases p.osz_cases with h | h <;> rw [h] <;> rfl]
    simpa [immFits] using hv
  rw [Stream.fetchZ, izBytes, Stream.fetchValue_append (leBytes_length ..) h, leValue_leBytes]
  simp only [bind, Except.bind]
  rw [Nat.mod_eq_of_lt hv', BitVec.ofNat_toNat, BitVec.setWidth_eq]

theorem Stream.fetch16_leBytes {e : Option Word} {u : Nat} (h : fetchFits e u 2 = true) (v : BitVec 16) (rest : List Byte) :
    Stream.fetchValue 2 ⟨u, e, leBytes 2 v.toNat ++ rest⟩ = .ok (v.toNat, ⟨u + 2, e, rest⟩) := by
  rw [Stream.fetchValue_append (leBytes_length ..) h, leValue_leBytes, Nat.mod_eq_of_lt (by exact v.isLt)]

/-- What a fetch that succeeds has read. -/
theorem Stream.fetch_eq {n : Nat} {st st' : Stream} {bs : List Byte} (h : st.fetch n = .ok (bs, st')) :
    bs.length = n ∧ st.rest = bs ++ st'.rest := by
  simp only [Stream.fetch] at h
  split at h
  · rename_i hn
    cases h
    simp [hn.1]
  · cases h

theorem Stream.fetchValue_eq {n v : Nat} {st st' : Stream} (h : st.fetchValue n = .ok (v, st')) :
    v < 256 ^ n ∧ st.rest = leBytes n v ++ st'.rest := by
  simp only [Stream.fetchValue, bind, Except.bind] at h
  split at h
  · cases h
  · rename_i x hx
    obtain ⟨bs, st2⟩ := x
    cases h
    obtain ⟨hl, hr⟩ := Stream.fetch_eq hx
    subst hl
    exact ⟨leValue_lt bs, by rw [leBytes_leValue]; exact hr⟩

theorem Stream.fetchByte_eq {st st' : Stream} {b : Byte} (h : st.fetchByte = .ok (b, st')) :
    st.rest = b :: st'.rest := by
  simp only [Stream.fetchByte, bind, Except.bind] at h
  split at h
  · cases h
  · rename_i x hx
    obtain ⟨v, st2⟩ := x
    cases h
    exact (Stream.fetchValue_eq hx).2

theorem Stream.fetchWord_eq {st st' : Stream} {v : Word} (h : st.fetchWord = .ok (v, st')) :
    st.rest = leBytes 4 v.toNat ++ st'.rest := by
  simp only [Stream.fetchWord, bind, Except.bind] at h
  split at h
  · cases h
  · rename_i x hx
    obtain ⟨n, st2⟩ := x
    cases h
    obtain ⟨hl, hr⟩ := Stream.fetchValue_eq hx
    rw [BitVec.toNat_ofNat, Nat.mod_eq_of_lt (by exact hl)]
    exact hr

theorem Stream.fetchZ_eq {p : Prefixes} {st st' : Stream} {v : Word} (h : st.fetchZ p = .ok (v, st')) :
    immFits p v = true ∧ st.rest = izBytes p v ++ st'.rest := by
  simp only [Stream.fetchZ, bind, Except.bind] at h
  split at h
  · cases h
  · rename_i x hx
    obtain ⟨n, st2⟩ := x
    cases h
    obtain ⟨hl, hr⟩ := Stream.fetchValue_eq hx
    have hp : 256 ^ p.osz.bytes = 2 ^ p.osz.bits ∧ 256 ^ p.osz.bytes ≤ 2 ^ 32 := by
      rcases p.osz_cases with h | h <;> rw [h] <;> decide
    have hn : n % 2 ^ 32 = n := Nat.mod_eq_of_lt (by omega)
    refine ⟨?_, ?_⟩
    · simp only [immFits, BitVec.toNat_ofNat, hn, decide_eq_true_eq]; omega
    · rw [izBytes, BitVec.toNat_ofNat, hn]; exact hr

/-! ### Displacement, address and r/m, forward -/

theorem Disp.bytes_length_le (d : Disp) : d.bytes.length ≤ 4 := by cases d <;> simp [Disp.bytes]

theorem decodeDisp_bytes {e : Option Word} {u : Nat} (d : Disp) (h : fetchFits e u d.bytes.length = true) (rest : List Byte) :
    decodeDisp d.mod ⟨u, e, d.bytes ++ rest⟩ = .ok (d, ⟨u + d.bytes.length, e, rest⟩) := by
  cases d with
  | none => rfl
  | d8 v => simp [decodeDisp, Disp.mod, Disp.bytes, bind, Except.bind]
  | d32 v =>
    simp only [decodeDisp, Disp.mod, Disp.bytes]
    rw [show (2 : BitVec 2).toNat = 2 from rfl]
    simp only [Stream.fetchWord_leBytes (by simpa [Disp.bytes] using h), bind, Except.bind, leBytes_length]

theorem Disp.mod_ne_three (d : Disp) : d.mod ≠ 3 := by cases d <;> simp [Disp.mod]

theorem Disp.mod_eq_zero {d : Disp} : d.mod = 0 ↔ d = .none := by cases d <;> simp [Disp.mod]

/-- A memory form decodes from its bytes. -/
theorem decodeAddr_bytes {e : Option Word} {u : Nat} {a : Addr} (ha : a.wf = true) (reg : BitVec 3) {m : Byte} {tail : List Byte}
    (hb : (RM.mem a).bytes reg = m :: tail) (h : fetchFits e u tail.length = true) (rest : List Byte) :
    modOf m ≠ 3 ∧ regOf m = reg ∧ decodeAddr m ⟨u, e, tail ++ rest⟩ = .ok (a, ⟨u + tail.length, e, rest⟩) := by
  cases a with
  | direct d =>
    obtain ⟨rfl, rfl⟩ := List.cons.inj hb
    refine ⟨by simp, by simp, ?_⟩
    simp only [decodeAddr, rmOf_fieldByte, modOf_fieldByte]
    rw [show (5 : BitVec 3).toNat = 5 from rfl]
    simp only [if_true, Stream.fetchWord_leBytes (by simpa using h), bind, Except.bind, leBytes_length]
  | base b d =>
    obtain ⟨rfl, rfl⟩ := List.cons.inj hb
    refine ⟨by simpa using d.mod_ne_three, by simp, ?_⟩
    simp only [Addr.wf, Bool.and_eq_true, Bool.or_eq_true, bne_iff_ne] at ha
    simp only [decodeAddr, rmOf_fieldByte, modOf_fieldByte]
    cases b
    case esp => exact absurd rfl ha.1
    case ebp =>
      rw [show Reg.ebp.bits.toNat = 5 from rfl]
      have hd : ¬ d.mod = 0 := fun hd => ha.2.elim (fun h => h rfl) (fun h => h (Disp.mod_eq_zero.mp hd))
      simp only [hd, if_false, decodeDisp_bytes d h, bind, Except.bind]
    all_goals
      simp only [Reg.bits, decodeDisp_bytes d h, bind, Except.bind]
      rfl
  | sib scale index b d =>
    obtain ⟨rfl, rfl⟩ := List.cons.inj hb
    refine ⟨by simpa using d.mod_ne_three, by simp, ?_⟩
    have h' : fetchFits e (u + 1) d.bytes.length = true := by
      rw [List.length_cons] at h; exact fetchFits_tail h
    have hn : ¬ (b.bits = 5 ∧ d.mod = 0) := by
      rintro ⟨hb5, hd⟩
      have : b = .ebp := by rw [← Reg.ofBits_bits b, hb5]; rfl
      subst this
      rw [Disp.mod_eq_zero] at hd
      subst hd
      simp [Addr.wf] at ha
    simp only [decodeAddr, rmOf_fieldByte, modOf_fieldByte]
    rw [show (4 : BitVec 3).toNat = 4 from rfl]
    simp only [List.cons_append, Stream.fetchByte_cons, bind, Except.bind, rmOf_fieldByte, modOf_fieldByte,
      regOf_fieldByte, hn, if_false, decodeDisp_bytes d h', Reg.ofBits_bits, List.length_cons]
    rw [Nat.add_assoc, Nat.add_comm 1]
  | sibNoBase scale index d =>
    obtain ⟨rfl, rfl⟩ := List.cons.inj hb
    refine ⟨by simp, by simp, ?_⟩
    have h' : fetchFits e (u + 1) 4 = true := by
      rw [List.length_cons, leBytes_length] at h; exact fetchFits_tail h
    simp only [decodeAddr, rmOf_fieldByte, modOf_fieldByte]
    rw [show (4 : BitVec 3).toNat = 4 from rfl]
    simp only [List.cons_append, Stream.fetchByte_cons, bind, Except.bind, rmOf_fieldByte, modOf_fieldByte,
      regOf_fieldByte, and_self, if_true, Stream.fetchWord_leBytes h', Reg.ofBits_bits, List.length_cons,
      leBytes_length]

theorem RM.bytes_cons (rm : RM) (reg : BitVec 3) : ∃ m tail, rm.bytes reg = m :: tail := by
  rcases rm with r | (_ | _ | _ | _) <;> exact ⟨_, _, rfl⟩

/-- The r/m side decodes from its bytes, its ModR/M byte fetched already. -/
theorem decodeRM_bytes {e : Option Word} {u : Nat} {p : Prefixes} {rm : RM} (hw : rm.wf p = true) (reg : BitVec 3) {m : Byte}
    {tail : List Byte} (hb : rm.bytes reg = m :: tail) (h : fetchFits e u tail.length = true) (rest : List Byte) :
    regOf m = reg ∧ decodeRM p m ⟨u, e, tail ++ rest⟩ = .ok (rm, ⟨u + tail.length, e, rest⟩) := by
  cases rm with
  | reg r =>
    obtain ⟨rfl, rfl⟩ := List.cons.inj hb
    refine ⟨by simp, ?_⟩
    simp [decodeRM, Reg.ofBits_bits]
  | mem a =>
    simp only [RM.wf, Bool.and_eq_true, Bool.not_eq_true'] at hw
    obtain ⟨h3, hr, hd⟩ := decodeAddr_bytes hw.1 reg hb h rest
    refine ⟨hr, ?_⟩
    rw [decodeRM, if_neg h3, hw.2]
    simp only [Bool.false_eq_true, if_false, hd, bind, Except.bind]

/-! ### Displacement, address and r/m, backward -/

theorem decodeDisp_eq {mod : BitVec 2} (h3 : mod ≠ 3) {st st' : Stream} {d : Disp}
    (h : decodeDisp mod st = .ok (d, st')) : d.mod = mod ∧ st.rest = d.bytes ++ st'.rest := by
  have hm : mod = 0 ∨ mod = 1 ∨ mod = 2 := by clear h; revert mod; decide
  rcases hm with rfl | rfl | rfl
  · cases h; exact ⟨rfl, rfl⟩
  · rw [decodeDisp, show (1 : BitVec 2).toNat = 1 from rfl] at h
    simp only [bind, Except.bind] at h
    split at h
    · cases h
    · rename_i x hx
      cases h
      exact ⟨rfl, Stream.fetchByte_eq hx⟩
  · rw [decodeDisp, show (2 : BitVec 2).toNat = 2 from rfl] at h
    simp only [bind, Except.bind] at h
    split at h
    · cases h
    · rename_i x hx
      cases h
      exact ⟨rfl, Stream.fetchWord_eq hx⟩

theorem fieldByte_of {m : Byte} {h : BitVec 2} {l : BitVec 3} (hm : modOf m = h) (hl : rmOf m = l) :
    fieldByte h (regOf m) l = m := by rw [← hm, ← hl, fieldByte_fields]

/-- What a memory form that was decoded has read. -/
theorem decodeAddr_eq {m : Byte} (h3 : modOf m ≠ 3) {st st' : Stream} {a : Addr}
    (h : decodeAddr m st = .ok (a, st')) :
    a.wf = true ∧ m :: st.rest = (RM.mem a).bytes (regOf m) ++ st'.rest := by
  have hr : (rmOf m).toNat < 8 := (rmOf m).isLt
  by_cases h4 : (rmOf m).toNat = 4
  · have h4' : rmOf m = 4 := BitVec.eq_of_toNat_eq h4
    rw [decodeAddr, h4] at h
    simp only [bind, Except.bind] at h
    split at h
    · cases h
    · rename_i x hx
      obtain ⟨s, st1⟩ := x
      have hs := Stream.fetchByte_eq hx
      simp only at h
      split at h
      · rename_i hc
        split at h
        · cases h
        · rename_i y hy
          obtain ⟨d, st2⟩ := y
          cases h
          refine ⟨rfl, ?_⟩
          rw [RM.bytes, hs, Stream.fetchWord_eq hy, Reg.bits_ofBits, fieldByte_of hc.2 h4', fieldByte_of rfl hc.1]
          rfl
      · rename_i hc
        split at h
        · cases h
        · rename_i y hy
          obtain ⟨d, st2⟩ := y
          cases h
          obtain ⟨hd, hr2⟩ := decodeDisp_eq h3 hy
          refine ⟨?_, ?_⟩
          · simp only [Addr.wf, Bool.or_eq_true, bne_iff_ne]
            by_contra hn
            rw [not_or, not_not, not_not] at hn
            refine hc ⟨?_, by rw [← hd, hn.2]; rfl⟩
            rw [← Reg.bits_ofBits (rmOf s), hn.1]; rfl
          · rw [RM.bytes, hs, hr2, Reg.bits_ofBits, Reg.bits_ofBits, hd, fieldByte_of rfl h4', fieldByte_fields]
            rfl
  · by_cases h5 : (rmOf m).toNat = 5
    · have h5' : rmOf m = 5 := BitVec.eq_of_toNat_eq h5
      rw [decodeAddr, h5] at h
      simp only [bind, Except.bind] at h
      split at h
      · rename_i h0
        split at h
        · cases h
        · rename_i y hy
          obtain ⟨d, st2⟩ := y
          cases h
          refine ⟨rfl, ?_⟩
          rw [RM.bytes, Stream.fetchWord_eq hy, fieldByte_of h0 h5']
          rfl
      · rename_i h0
        split at h
        · cases h
        · rename_i y hy
          obtain ⟨d, st2⟩ := y
          cases h
          obtain ⟨hd, hr2⟩ := decodeDisp_eq h3 hy
          refine ⟨?_, ?_⟩
          · have : d ≠ .none := fun hn => h0 (by rw [← hd, hn]; rfl)
            simp [Addr.wf, this]
          · rw [RM.bytes, hr2, hd, show Reg.ebp.bits = 5 from rfl, fieldByte_of rfl h5']
            rfl
    · have hg : decodeAddr m st = (do
          let (d, st) ← decodeDisp (modOf m) st
          .ok (.base (Reg.ofBits (rmOf m)) d, st)) := by
        unfold decodeAddr
        split
        · exact absurd ‹_› h4
        · exact absurd ‹_› h5
        · rfl
      rw [hg] at h
      simp only [bind, Except.bind] at h
      split at h
      · cases h
      · rename_i y hy
        obtain ⟨d, st2⟩ := y
        cases h
        obtain ⟨hd, hr2⟩ := decodeDisp_eq h3 hy
        refine ⟨?_, ?_⟩
        · have n4 : Reg.ofBits (rmOf m) ≠ .esp := fun hn => h4 (by rw [← Reg.bits_ofBits (rmOf m), hn]; rfl)
          have n5 : Reg.ofBits (rmOf m) ≠ .ebp := fun hn => h5 (by rw [← Reg.bits_ofBits (rmOf m), hn]; rfl)
          simp [Addr.wf, n4, n5]
        · rw [RM.bytes, hr2, hd, Reg.bits_ofBits, fieldByte_fields]
          rfl

/-- What an r/m side that was decoded has read. -/
theorem decodeRM_eq {p : Prefixes} {m : Byte} {st st' : Stream} {rm : RM} (h : decodeRM p m st = .ok (rm, st')) :
    rm.wf p = true ∧ m :: st.rest = rm.bytes (regOf m) ++ st'.rest := by
  rw [decodeRM] at h
  split at h
  · rename_i h3
    cases h
    refine ⟨rfl, ?_⟩
    rw [RM.bytes, Reg.bits_ofBits, fieldByte_of h3 rfl]
    rfl
  · rename_i h3
    split at h
    · cases h
    · rename_i ha
      simp only [bind, Except.bind] at h
      split at h
      · cases h
      · rename_i y hy
        obtain ⟨a, st2⟩ := y
        cases h
        obtain ⟨hw, hr⟩ := decodeAddr_eq h3 hy
        refine ⟨?_, hr⟩
        simp [RM.wf, hw, ha]

end Sys2Proof
end

