-- ==== Sys2Proof/Laws/Decoder.lean ====
section
/-! SUPPORT. The laws of the opcode maps: every entry makes well-formed instructions whose bytes are those read, each
shape of entry decodes from its bytes, and a decoding depends on nothing but the bytes fetched. -/

namespace Sys2Proof

/-! ### Every entry agrees with the encoder -/

/-- A group member of `/digit` `d` under opcode `op` makes well-formed instructions with their own bytes. -/
def GroupEntry.Agrees (op : List Byte) (d : BitVec 3) : GroupEntry → Prop
  | .none => True
  | .rm mk => ∀ p rm, rm.wf p = true → (mk p rm).wf = true ∧ encode (mk p rm) = layout p op (rm.bytes d) []
  | .rmNear mk => ∀ p rm, rm.wf p = true → p.hasOpsize = false →
      (mk p rm).wf = true ∧ encode (mk p rm) = layout p op (rm.bytes d) []
  | .rm8 mk => ∀ p rm v, rm.wf p = true → (mk p rm v).wf = true ∧ encode (mk p rm v) = layout p op (rm.bytes d) [v]
  | .rmZ mk => ∀ p rm v, rm.wf p = true → immFits p v = true →
      (mk p rm v).wf = true ∧ encode (mk p rm v) = layout p op (rm.bytes d) (izBytes p v)

/-- An entry of opcode `op` makes well-formed instructions with their own bytes. -/
def Entry.Agrees (op : List Byte) : Entry → Prop
  | .none => True
  | .plain mk => ∀ p, (mk p).wf = true ∧ encode (mk p) = layout p op [] []
  | .strings mk => ∀ p, p.hasAddrsize = false → (mk p).wf = true ∧ encode (mk p) = layout p op [] []
  | .near mk => ∀ p, p.hasOpsize = false → (mk p).wf = true ∧ encode (mk p) = layout p op [] []
  | .imm8 mk => ∀ p v, (mk p v).wf = true ∧ encode (mk p v) = layout p op [v] []
  | .immZ mk => ∀ p v, immFits p v = true → (mk p v).wf = true ∧ encode (mk p v) = layout p op (izBytes p v) []
  | .near16 mk => ∀ p v, p.hasOpsize = false →
      (mk p v).wf = true ∧ encode (mk p v) = layout p op (leBytes 2 v.toNat) []
  | .rel8 mk => ∀ p v, p.hasOpsize = false → (mk p v).wf = true ∧ encode (mk p v) = layout p op [v] []
  | .rel32 mk => ∀ p v, p.hasOpsize = false →
      (mk p v).wf = true ∧ encode (mk p v) = layout p op (leBytes 4 v.toNat) []
  | .moffs mk => ∀ p v, p.hasAddrsize = false →
      (mk p v).wf = true ∧ encode (mk p v) = layout p op (leBytes 4 v.toNat) []
  | .vector mk => ∀ p, (mk p).wf = true ∧ encode (mk p) = layout p op [0x80] []
  | .rmReg mk => ∀ p rm r, rm.wf p = true →
      (mk p rm r).wf = true ∧ encode (mk p rm r) = layout p op (rm.bytes r.bits) []
  | .rmReg8 mk => ∀ p rm r v, rm.wf p = true →
      (mk p rm r v).wf = true ∧ encode (mk p rm r v) = layout p op (rm.bytes r.bits) [v]
  | .rmRegZ mk => ∀ p rm r v, rm.wf p = true → immFits p v = true →
      (mk p rm r v).wf = true ∧ encode (mk p rm r v) = layout p op (rm.bytes r.bits) (izBytes p v)
  | .lea mk => ∀ p r a, a.wf = true → p.hasAddrsize = false →
      (mk p r a).wf = true ∧ encode (mk p r a) = layout p op ((RM.mem a).bytes r.bits) []
  | .group select => ∀ d, (select d).Agrees op d

theorem bitVec3_cases (d : BitVec 3) : d = 0 ∨ d = 1 ∨ d = 2 ∨ d = 3 ∨ d = 4 ∨ d = 5 ∨ d = 6 ∨ d = 7 := by
  revert d; decide

theorem group80_agrees (d : BitVec 3) : (group80 d).Agrees [0x80] d := by
  rcases bitVec3_cases d with rfl | rfl | rfl | rfl | rfl | rfl | rfl | rfl <;> exact fun p rm v h => ⟨h, rfl⟩

theorem group81_agrees (d : BitVec 3) : (group81 d).Agrees [0x81] d := by
  rcases bitVec3_cases d with rfl | rfl | rfl | rfl | rfl | rfl | rfl | rfl <;>
    exact fun p rm v h hv => ⟨by simp [Instr.wf, h, hv], rfl⟩

theorem group83_agrees (d : BitVec 3) : (group83 d).Agrees [0x83] d := by
  rcases bitVec3_cases d with rfl | rfl | rfl | rfl | rfl | rfl | rfl | rfl <;> exact fun p rm v h => ⟨h, rfl⟩

theorem group8F_agrees (d : BitVec 3) : (group8F d).Agrees [0x8F] d := by
  rcases bitVec3_cases d with rfl | rfl | rfl | rfl | rfl | rfl | rfl | rfl <;>
    first | exact trivial | exact fun p rm h => ⟨h, rfl⟩

theorem groupC0_agrees (d : BitVec 3) : (groupC0 d).Agrees [0xC0] d := by
  rcases bitVec3_cases d with rfl | rfl | rfl | rfl | rfl | rfl | rfl | rfl <;>
    first | exact trivial | exact fun p rm v h => ⟨h, rfl⟩

theorem groupC1_agrees (d : BitVec 3) : (groupC1 d).Agrees [0xC1] d := by
  rcases bitVec3_cases d with rfl | rfl | rfl | rfl | rfl | rfl | rfl | rfl <;>
    first | exact trivial | exact fun p rm v h => ⟨h, rfl⟩

theorem groupC6_agrees (d : BitVec 3) : (groupC6 d).Agrees [0xC6] d := by
  rcases bitVec3_cases d with rfl | rfl | rfl | rfl | rfl | rfl | rfl | rfl <;>
    first | exact trivial | exact fun p rm v h => ⟨h, rfl⟩

theorem groupC7_agrees (d : BitVec 3) : (groupC7 d).Agrees [0xC7] d := by
  rcases bitVec3_cases d with rfl | rfl | rfl | rfl | rfl | rfl | rfl | rfl <;>
    first | exact trivial | exact fun p rm v h hv => ⟨by simp [Instr.wf, h, hv], rfl⟩

theorem groupD0_agrees (d : BitVec 3) : (groupD0 d).Agrees [0xD0] d := by
  rcases bitVec3_cases d with rfl | rfl | rfl | rfl | rfl | rfl | rfl | rfl <;>
    first | exact trivial | exact fun p rm h => ⟨h, rfl⟩

theorem groupD1_agrees (d : BitVec 3) : (groupD1 d).Agrees [0xD1] d := by
  rcases bitVec3_cases d with rfl | rfl | rfl | rfl | rfl | rfl | rfl | rfl <;>
    first | exact trivial | exact fun p rm h => ⟨h, rfl⟩

theorem groupD2_agrees (d : BitVec 3) : (groupD2 d).Agrees [0xD2] d := by
  rcases bitVec3_cases d with rfl | rfl | rfl | rfl | rfl | rfl | rfl | rfl <;>
    first | exact trivial | exact fun p rm h => ⟨h, rfl⟩

theorem groupD3_agrees (d : BitVec 3) : (groupD3 d).Agrees [0xD3] d := by
  rcases bitVec3_cases d with rfl | rfl | rfl | rfl | rfl | rfl | rfl | rfl <;>
    first | exact trivial | exact fun p rm h => ⟨h, rfl⟩

theorem groupF6_agrees (d : BitVec 3) : (groupF6 d).Agrees [0xF6] d := by
  rcases bitVec3_cases d with rfl | rfl | rfl | rfl | rfl | rfl | rfl | rfl <;>
    first | exact trivial | exact fun p rm h => ⟨h, rfl⟩ | exact fun p rm v h => ⟨h, rfl⟩

theorem groupF7_agrees (d : BitVec 3) : (groupF7 d).Agrees [0xF7] d := by
  rcases bitVec3_cases d with rfl | rfl | rfl | rfl | rfl | rfl | rfl | rfl <;>
    first
    | exact trivial
    | exact fun p rm h => ⟨h, rfl⟩
    | exact fun p rm v h hv => ⟨by simp [Instr.wf, h, hv], rfl⟩

theorem groupFE_agrees (d : BitVec 3) : (groupFE d).Agrees [0xFE] d := by
  rcases bitVec3_cases d with rfl | rfl | rfl | rfl | rfl | rfl | rfl | rfl <;>
    first | exact trivial | exact fun p rm h => ⟨h, rfl⟩

theorem groupFF_agrees (d : BitVec 3) : (groupFF d).Agrees [0xFF] d := by
  rcases bitVec3_cases d with rfl | rfl | rfl | rfl | rfl | rfl | rfl | rfl <;>
    first
    | exact trivial
    | exact fun p rm h => ⟨h, rfl⟩
    | exact fun p rm h hp => ⟨by simp [Instr.wf, nearOk, h, hp], rfl⟩

/-- The opcode bytes of a `+r` row are its base plus the register number (30_encoding.md R160). -/
theorem plusR_byte (b : Byte) (row : Nat) (h : b.toNat / 8 = row) :
    plusRByte (BitVec.ofNat 8 (8 * row)) (Reg.ofBits (b.extractLsb' 0 3)) = b := by
  subst h
  rw [plusRByte, Reg.bits_ofBits]
  revert b
  decide

theorem plusR_agrees (b : Byte) (h90 : b ≠ 0x90) :
    (plusR (b.toNat / 8) (Reg.ofBits (b.extractLsb' 0 3))).Agrees [b] := by
  have hb := plusR_byte b _ rfl
  unfold plusR
  split
  case h_5 h =>
    rw [h] at hb
    refine fun p => ⟨?_, by rw [encode, show (0x90 : Byte) = BitVec.ofNat 8 (8 * 18) from rfl, hb]⟩
    simp only [Instr.wf, bne_iff_ne]
    intro he
    rw [he] at hb
    exact h90 hb.symm
  case h_7 h =>
    rw [h] at hb
    exact fun p v hv => ⟨hv, by rw [encode, show (0xB8 : Byte) = BitVec.ofNat 8 (8 * 23) from rfl, hb]⟩
  case h_6 h =>
    rw [h] at hb
    exact fun p v => ⟨rfl, by rw [encode, show (0xB0 : Byte) = BitVec.ofNat 8 (8 * 22) from rfl, hb]⟩
  case h_1 h =>
    rw [h] at hb
    exact fun p => ⟨rfl, by rw [encode, show (0x40 : Byte) = BitVec.ofNat 8 (8 * 8) from rfl, hb]⟩
  case h_2 h =>
    rw [h] at hb
    exact fun p => ⟨rfl, by rw [encode, show (0x48 : Byte) = BitVec.ofNat 8 (8 * 9) from rfl, hb]⟩
  case h_3 h =>
    rw [h] at hb
    exact fun p => ⟨rfl, by rw [encode, show (0x50 : Byte) = BitVec.ofNat 8 (8 * 10) from rfl, hb]⟩
  case h_4 h =>
    rw [h] at hb
    exact fun p => ⟨rfl, by rw [encode, show (0x58 : Byte) = BitVec.ofNat 8 (8 * 11) from rfl, hb]⟩
  case h_8 => exact trivial

theorem Byte.eq_of_toNat {b : Byte} {n : Nat} (hn : n < 256) (h : b.toNat = n) : b = BitVec.ofNat 8 n :=
  BitVec.eq_of_toNat_eq (by rw [h, BitVec.toNat_ofNat, Nat.mod_eq_of_lt hn])

theorem cwde_cbw_agrees :
    (Entry.plain fun p => if p.hasOpsize then .cbw p else .cwde p).Agrees [0x98] := by
  intro p
  beta_reduce
  by_cases h : p.hasOpsize = true
  · rw [if_pos h]; exact ⟨h, rfl⟩
  · rw [if_neg h]; exact ⟨by rw [Instr.wf, Bool.not_eq_true']; exact Bool.eq_false_iff.mpr h, rfl⟩

theorem cdq_cwd_agrees :
    (Entry.plain fun p => if p.hasOpsize then .cwd p else .cdq p).Agrees [0x99] := by
  intro p
  beta_reduce
  by_cases h : p.hasOpsize = true
  · rw [if_pos h]; exact ⟨h, rfl⟩
  · rw [if_neg h]; exact ⟨by rw [Instr.wf, Bool.not_eq_true']; exact Bool.eq_false_iff.mpr h, rfl⟩

theorem movsb_agrees : (Entry.strings fun p => if p.hasRep then .repMovsb p else .movsb p).Agrees [0xA4] := by
  intro p ha
  beta_reduce
  by_cases h : p.hasRep = true
  · rw [if_pos h]; exact ⟨by rw [Instr.wf, addrOk, ha, h]; rfl, rfl⟩
  · rw [if_neg h]; exact ⟨by rw [Instr.wf, addrOk, ha, Bool.eq_false_iff.mpr h]; rfl, rfl⟩

theorem stringMove_agrees : (Entry.strings stringMove).Agrees [0xA5] := by
  intro p ha
  unfold stringMove
  split <;> rename_i hr ho <;> exact ⟨by rw [Instr.wf, addrOk, ha, hr, ho]; rfl, rfl⟩

/-- Every entry of the primary map agrees with the encoder (R160). -/
theorem primary_agrees (b : Byte) : (primary b).Agrees [b] := by
  unfold primary
  split
  all_goals first
    | (rename_i h
       obtain rfl := Byte.eq_of_toNat (by decide) h
       first
       | exact fun p rm r h => ⟨h, rfl⟩
       | exact fun p v => ⟨rfl, rfl⟩
       | exact fun p v h => ⟨h, rfl⟩
       | exact fun p v h => ⟨by simp [Instr.wf, nearOk, addrOk, h], rfl⟩
       | exact fun p => ⟨rfl, rfl⟩
       | exact fun p h => ⟨by simp [Instr.wf, nearOk, addrOk, h], rfl⟩
       | exact fun p rm r v h => ⟨h, rfl⟩
       | exact fun p rm r v h hv => ⟨by simp [Instr.wf, h, hv], rfl⟩
       | exact fun p r a h hp => ⟨by simp [Instr.wf, addrOk, h, hp], rfl⟩
       | exact group80_agrees | exact group81_agrees | exact group83_agrees | exact group8F_agrees
       | exact groupC0_agrees | exact groupC1_agrees | exact groupC6_agrees | exact groupC7_agrees
       | exact groupD0_agrees | exact groupD1_agrees | exact groupD2_agrees | exact groupD3_agrees
       | exact groupF6_agrees | exact groupF7_agrees | exact groupFE_agrees | exact groupFF_agrees
       | exact cwde_cbw_agrees | exact cdq_cwd_agrees | exact movsb_agrees | exact stringMove_agrees)
    | exact plusR_agrees b (fun h => by subst h; exact absurd rfl ‹_›)

/-- Every entry of the secondary map agrees with the encoder (R161). -/
theorem secondary_agrees (b : Byte) : (secondary b).Agrees [0x0F, b] := by
  unfold secondary
  split
  all_goals first
    | exact trivial
    | (rename_i h
       obtain rfl := Byte.eq_of_toNat (by decide) h
       first
       | exact fun p rm r h => ⟨h, rfl⟩
       | exact fun p v h => ⟨by rw [Instr.wf, nearOk, h]; rfl, rfl⟩)

/-! ### What a decoding has read -/

/-- If a fetch inside a decoding succeeds, the decoding goes on from what it answered. -/
theorem bind_eq_ok {α β : Type} {x : Except DecodeError α} {f : α → Except DecodeError β} {b : β}
    (h : (x >>= f) = .ok b) : ∃ a, x = .ok a ∧ f a = .ok b := by
  cases x with
  | error e => cases h
  | ok a => exact ⟨a, rfl, h⟩

theorem decodeGroup_eq {op : List Byte} {p : Prefixes} {m : Byte} {e : GroupEntry} (ha : e.Agrees op (regOf m))
    {st st' : Stream} {i : Instr} (h : decodeGroup p m e st = .ok (i, st')) :
    i.wf = true ∧ p.bytes ++ (op ++ m :: st.rest) = encode i ++ st'.rest := by
  cases e with
  | none => cases h
  | rm mk =>
    obtain ⟨⟨rm, st1⟩, h1, h2⟩ := bind_eq_ok h
    cases h2
    obtain ⟨hw, hr⟩ := decodeRM_eq h1
    obtain ⟨h3, h4⟩ := ha p rm hw
    exact ⟨h3, by rw [h4, hr]; simp [layout]⟩
  | rmNear mk =>
    simp only [decodeGroup] at h
    split at h
    · cases h
    · rename_i ho
      obtain ⟨⟨rm, st1⟩, h1, h2⟩ := bind_eq_ok h
      cases h2
      obtain ⟨hw, hr⟩ := decodeRM_eq h1
      obtain ⟨h3, h4⟩ := ha p rm hw (by simpa using ho)
      exact ⟨h3, by rw [h4, hr]; simp [layout]⟩
  | rm8 mk =>
    obtain ⟨⟨rm, st1⟩, h1, h2⟩ := bind_eq_ok h
    obtain ⟨⟨v, st2⟩, h3, h4⟩ := bind_eq_ok h2
    cases h4
    obtain ⟨hw, hr⟩ := decodeRM_eq h1
    obtain ⟨h5, h6⟩ := ha p rm v hw
    exact ⟨h5, by rw [h6, hr, Stream.fetchByte_eq h3]; simp [layout]⟩
  | rmZ mk =>
    obtain ⟨⟨rm, st1⟩, h1, h2⟩ := bind_eq_ok h
    obtain ⟨⟨v, st2⟩, h3, h4⟩ := bind_eq_ok h2
    cases h4
    obtain ⟨hw, hr⟩ := decodeRM_eq h1
    obtain ⟨hv, hr2⟩ := Stream.fetchZ_eq h3
    obtain ⟨h5, h6⟩ := ha p rm v hw hv
    exact ⟨h5, by rw [h6, hr, hr2]; simp [layout]⟩

/-- What an entry that decoded has read: the bytes of a well-formed instruction. -/
theorem decodeEntry_eq {op : List Byte} {p : Prefixes} {e : Entry} (ha : e.Agrees op) {st st' : Stream} {i : Instr}
    (h : decodeEntry p e st = .ok (i, st')) :
    i.wf = true ∧ p.bytes ++ (op ++ st.rest) = encode i ++ st'.rest := by
  cases e with
  | none => cases h
  | plain mk =>
    cases h
    exact ⟨(ha p).1, by rw [(ha p).2]; simp [layout]⟩
  | strings mk =>
    simp only [decodeEntry] at h
    split at h
    · cases h
    · rename_i hx
      cases h
      obtain ⟨h1, h2⟩ := ha p (by simpa using hx)
      exact ⟨h1, by rw [h2]; simp [layout]⟩
  | near mk =>
    simp only [decodeEntry] at h
    split at h
    · cases h
    · rename_i hx
      cases h
      obtain ⟨h1, h2⟩ := ha p (by simpa using hx)
      exact ⟨h1, by rw [h2]; simp [layout]⟩
  | imm8 mk =>
    obtain ⟨⟨v, st1⟩, h1, h2⟩ := bind_eq_ok h
    cases h2
    exact ⟨(ha p v).1, by rw [(ha p v).2, Stream.fetchByte_eq h1]; simp [layout]⟩
  | immZ mk =>
    obtain ⟨⟨v, st1⟩, h1, h2⟩ := bind_eq_ok h
    cases h2
    obtain ⟨hv, hr⟩ := Stream.fetchZ_eq h1
    obtain ⟨h3, h4⟩ := ha p v hv
    exact ⟨h3, by rw [h4, hr]; simp [layout]⟩
  | near16 mk =>
    simp only [decodeEntry] at h
    split at h
    · cases h
    · rename_i hx
      obtain ⟨⟨v, st1⟩, h1, h2⟩ := bind_eq_ok h
      cases h2
      obtain ⟨hv, hr⟩ := Stream.fetchValue_eq h1
      obtain ⟨h3, h4⟩ := ha p (BitVec.ofNat 16 v) (by simpa using hx)
      have hm : v % 2 ^ 16 = v := Nat.mod_eq_of_lt (by omega)
      exact ⟨h3, by rw [h4, hr, BitVec.toNat_ofNat, hm]; simp [layout]⟩
  | rel8 mk =>
    simp only [decodeEntry] at h
    split at h
    · cases h
    · rename_i hx
      obtain ⟨⟨v, st1⟩, h1, h2⟩ := bind_eq_ok h
      cases h2
      obtain ⟨h3, h4⟩ := ha p v (by simpa using hx)
      exact ⟨h3, by rw [h4, Stream.fetchByte_eq h1]; simp [layout]⟩
  | rel32 mk =>
    simp only [decodeEntry] at h
    split at h
    · cases h
    · rename_i hx
      obtain ⟨⟨v, st1⟩, h1, h2⟩ := bind_eq_ok h
      cases h2
      obtain ⟨h3, h4⟩ := ha p v (by simpa using hx)
      exact ⟨h3, by rw [h4, Stream.fetchWord_eq h1]; simp [layout]⟩
  | moffs mk =>
    simp only [decodeEntry] at h
    split at h
    · cases h
    · rename_i hx
      obtain ⟨⟨v, st1⟩, h1, h2⟩ := bind_eq_ok h
      cases h2
      obtain ⟨h3, h4⟩ := ha p v (by simpa using hx)
      exact ⟨h3, by rw [h4, Stream.fetchWord_eq h1]; simp [layout]⟩
  | vector mk =>
    obtain ⟨⟨v, st1⟩, h1, h2⟩ := bind_eq_ok h
    simp only at h2
    split at h2
    · rename_i hv
      cases h2
      exact ⟨(ha p).1, by rw [(ha p).2, Stream.fetchByte_eq h1, hv]; simp [layout]⟩
    · cases h2
  | rmReg mk =>
    obtain ⟨⟨m, st1⟩, h1, h2⟩ := bind_eq_ok h
    obtain ⟨⟨rm, st2⟩, h3, h4⟩ := bind_eq_ok h2
    cases h4
    obtain ⟨hw, hr⟩ := decodeRM_eq h3
    obtain ⟨h5, h6⟩ := ha p rm (Reg.ofBits (regOf m)) hw
    exact ⟨h5, by rw [h6, Stream.fetchByte_eq h1, hr, Reg.bits_ofBits]; simp [layout]⟩
  | rmReg8 mk =>
    obtain ⟨⟨m, st1⟩, h1, h2⟩ := bind_eq_ok h
    obtain ⟨⟨rm, st2⟩, h3, h4⟩ := bind_eq_ok h2
    obtain ⟨⟨v, st3⟩, h5, h6⟩ := bind_eq_ok h4
    cases h6
    obtain ⟨hw, hr⟩ := decodeRM_eq h3
    obtain ⟨h7, h8⟩ := ha p rm (Reg.ofBits (regOf m)) v hw
    exact ⟨h7, by rw [h8, Stream.fetchByte_eq h1, hr, Stream.fetchByte_eq h5, Reg.bits_ofBits]; simp [layout]⟩
  | rmRegZ mk =>
    obtain ⟨⟨m, st1⟩, h1, h2⟩ := bind_eq_ok h
    obtain ⟨⟨rm, st2⟩, h3, h4⟩ := bind_eq_ok h2
    obtain ⟨⟨v, st3⟩, h5, h6⟩ := bind_eq_ok h4
    cases h6
    obtain ⟨hw, hr⟩ := decodeRM_eq h3
    obtain ⟨hv, hr2⟩ := Stream.fetchZ_eq h5
    obtain ⟨h7, h8⟩ := ha p rm (Reg.ofBits (regOf m)) v hw hv
    exact ⟨h7, by rw [h8, Stream.fetchByte_eq h1, hr, hr2, Reg.bits_ofBits]; simp [layout]⟩
  | lea mk =>
    obtain ⟨⟨m, st1⟩, h1, h2⟩ := bind_eq_ok h
    simp only at h2
    split at h2
    · cases h2
    · rename_i h3
      split at h2
      · cases h2
      · rename_i hx
        obtain ⟨⟨a, st2⟩, h4, h5⟩ := bind_eq_ok h2
        cases h5
        obtain ⟨hw, hr⟩ := decodeAddr_eq h3 h4
        obtain ⟨h6, h7⟩ := ha p (Reg.ofBits (regOf m)) a hw (by simpa using hx)
        exact ⟨h6, by rw [h7, Stream.fetchByte_eq h1, hr, Reg.bits_ofBits]; simp [layout]⟩
  | group select =>
    obtain ⟨⟨m, st1⟩, h1, h2⟩ := bind_eq_ok h
    have := decodeGroup_eq (ha (regOf m)) h2
    rw [Stream.fetchByte_eq h1]
    exact this

theorem decodeOpcode_eq {p : Prefixes} {st st' : Stream} {i : Instr} (h : decodeOpcode p st = .ok (i, st')) :
    i.wf = true ∧ p.bytes ++ st.rest = encode i ++ st'.rest := by
  obtain ⟨⟨b, st1⟩, h1, h2⟩ := bind_eq_ok h
  simp only at h2
  rw [Stream.fetchByte_eq h1]
  split at h2
  · rename_i hb
    obtain ⟨⟨b2, st2⟩, h3, h4⟩ := bind_eq_ok h2
    rw [Stream.fetchByte_eq h3, hb]
    exact decodeEntry_eq (secondary_agrees b2) h4
  · exact decodeEntry_eq (primary_agrees b) h2

/-! ### Decoding what the encoder wrote, one lemma per shape of entry -/

theorem decodeOpcode_one {p : Prefixes} {u : Nat} {e : Option Word} {b : Byte} (hb : b ≠ 0x0F) (bs : List Byte) :
    decodeOpcode p ⟨u, e, b :: bs⟩ = decodeEntry p (primary b) ⟨u + 1, e, bs⟩ := by
  simp only [decodeOpcode, Stream.fetchByte_cons, bind, Except.bind, hb, if_false]

theorem decodeOpcode_two {p : Prefixes} {u : Nat} {e : Option Word} (b : Byte) (bs : List Byte) :
    decodeOpcode p ⟨u, e, 0x0F :: b :: bs⟩ = decodeEntry p (secondary b) ⟨u + 2, e, bs⟩ := by
  simp only [decodeOpcode, Stream.fetchByte_cons, bind, Except.bind, if_true]

/-- An instruction with a one-byte opcode decodes if its entry does. -/
theorem decodeAt_one {p : Prefixes} {e : Option Word} {n : Nat} {b : Byte} {operand immediate rest : List Byte} {i : Instr}
    (hb : b ≠ 0x0F) (hp : Prefix.ofByte? b = none)
    (h : decodeEntry p (primary b) ⟨p.length + 1, e, operand ++ (immediate ++ rest)⟩ = .ok (i, ⟨n, e, rest⟩)) :
    decodeAt e (layout p [b] operand immediate ++ rest) = .ok (i, rest) := by
  have hl : layout p [b] operand immediate ++ rest = p.bytes ++ b :: (operand ++ (immediate ++ rest)) := by
    simp [layout]
  simp only [hl, decodeAt, splitPrefixes_bytes p hp, decodeOpcode_one hb, h]

/-- An instruction with a two-byte opcode decodes if its entry does. -/
theorem decodeAt_two {p : Prefixes} {e : Option Word} {n : Nat} {b : Byte} {operand immediate rest : List Byte} {i : Instr}
    (h : decodeEntry p (secondary b) ⟨p.length + 2, e, operand ++ (immediate ++ rest)⟩ = .ok (i, ⟨n, e, rest⟩)) :
    decodeAt e (layout p [0x0F, b] operand immediate ++ rest) = .ok (i, rest) := by
  have hl : layout p [0x0F, b] operand immediate ++ rest =
      p.bytes ++ 0x0F :: (b :: (operand ++ (immediate ++ rest))) := by simp [layout]
  simp only [hl, decodeAt, splitPrefixes_bytes p (show Prefix.ofByte? 0x0F = none from rfl), decodeOpcode_two, h]

section shapes
variable {p : Prefixes} {u : Nat} {e : Option Word} (rest : List Byte)

theorem decodeEntry_imm8 (mk : Prefixes → Byte → Instr) (v : Byte) :
    decodeEntry p (.imm8 mk) ⟨u, e, [v] ++ ([] ++ rest)⟩ = .ok (mk p v, ⟨u + 1, e, rest⟩) := by
  simp only [decodeEntry, List.singleton_append, List.nil_append, Stream.fetchByte_cons, bind, Except.bind]

theorem decodeEntry_immZ (mk : Prefixes → Word → Instr) {v : Word} (hv : immFits p v = true)
    (h : fetchFits e u p.osz.bytes = true) :
    decodeEntry p (.immZ mk) ⟨u, e, izBytes p v ++ ([] ++ rest)⟩ = .ok (mk p v, ⟨u + p.osz.bytes, e, rest⟩) := by
  simp only [decodeEntry, List.nil_append, Stream.fetchZ_izBytes h hv, bind, Except.bind]

theorem decodeEntry_near16 (mk : Prefixes → BitVec 16 → Instr) (v : BitVec 16) (hp : p.hasOpsize = false)
    (h : fetchFits e u 2 = true) :
    decodeEntry p (.near16 mk) ⟨u, e, leBytes 2 v.toNat ++ ([] ++ rest)⟩ = .ok (mk p v, ⟨u + 2, e, rest⟩) := by
  simp only [decodeEntry, hp, Bool.false_eq_true, if_false, List.nil_append, Stream.fetch16_leBytes h, bind,
    Except.bind, BitVec.ofNat_toNat, BitVec.setWidth_eq]

theorem decodeEntry_rel8 (mk : Prefixes → Byte → Instr) (v : Byte) (hp : p.hasOpsize = false) :
    decodeEntry p (.rel8 mk) ⟨u, e, [v] ++ ([] ++ rest)⟩ = .ok (mk p v, ⟨u + 1, e, rest⟩) := by
  simp only [decodeEntry, hp, Bool.false_eq_true, if_false, List.singleton_append, List.nil_append,
    Stream.fetchByte_cons, bind, Except.bind]

theorem decodeEntry_rel32 (mk : Prefixes → Word → Instr) (v : Word) (hp : p.hasOpsize = false)
    (h : fetchFits e u 4 = true) :
    decodeEntry p (.rel32 mk) ⟨u, e, leBytes 4 v.toNat ++ ([] ++ rest)⟩ = .ok (mk p v, ⟨u + 4, e, rest⟩) := by
  simp only [decodeEntry, hp, Bool.false_eq_true, if_false, List.nil_append, Stream.fetchWord_leBytes h, bind,
    Except.bind]

theorem decodeEntry_moffs (mk : Prefixes → Word → Instr) (v : Word) (hp : p.hasAddrsize = false)
    (h : fetchFits e u 4 = true) :
    decodeEntry p (.moffs mk) ⟨u, e, leBytes 4 v.toNat ++ ([] ++ rest)⟩ = .ok (mk p v, ⟨u + 4, e, rest⟩) := by
  simp only [decodeEntry, hp, Bool.false_eq_true, if_false, List.nil_append, Stream.fetchWord_leBytes h, bind,
    Except.bind]

theorem decodeEntry_rmReg (mk : Prefixes → RM → Reg → Instr) {rm : RM} (r : Reg) (hw : rm.wf p = true)
    (h : fetchFits e u (rm.bytes r.bits).length = true) :
    decodeEntry p (.rmReg mk) ⟨u, e, rm.bytes r.bits ++ ([] ++ rest)⟩ =
      .ok (mk p rm r, ⟨u + (rm.bytes r.bits).length, e, rest⟩) := by
  obtain ⟨m, tail, hb⟩ := rm.bytes_cons r.bits
  rw [hb, List.length_cons] at h
  obtain ⟨hr, hd⟩ := decodeRM_bytes (e := e) (u := u + 1) hw r.bits hb (fetchFits_tail h) rest
  simp only [decodeEntry, hb, List.cons_append, List.nil_append, Stream.fetchByte_cons, bind, Except.bind, hd, hr,
    Reg.ofBits_bits, List.length_cons]
  rw [Nat.add_assoc, Nat.add_comm 1]

theorem decodeEntry_rmReg8 (mk : Prefixes → RM → Reg → Byte → Instr) {rm : RM} (r : Reg) (v : Byte)
    (hw : rm.wf p = true) (h : fetchFits e u (rm.bytes r.bits).length = true) :
    decodeEntry p (.rmReg8 mk) ⟨u, e, rm.bytes r.bits ++ ([v] ++ rest)⟩ =
      .ok (mk p rm r v, ⟨u + (rm.bytes r.bits).length + 1, e, rest⟩) := by
  obtain ⟨m, tail, hb⟩ := rm.bytes_cons r.bits
  rw [hb, List.length_cons] at h
  obtain ⟨hr, hd⟩ := decodeRM_bytes (e := e) (u := u + 1) hw r.bits hb (fetchFits_tail h) (v :: rest)
  simp only [decodeEntry, hb, List.cons_append, List.nil_append, Stream.fetchByte_cons, bind, Except.bind, hd, hr,
    Reg.ofBits_bits, List.length_cons]
  rw [Nat.add_assoc u 1, Nat.add_comm 1]

theorem decodeEntry_rmRegZ (mk : Prefixes → RM → Reg → Word → Instr) {rm : RM} (r : Reg) {v : Word}
    (hw : rm.wf p = true) (hv : immFits p v = true)
    (h : fetchFits e u ((rm.bytes r.bits).length + p.osz.bytes) = true) :
    decodeEntry p (.rmRegZ mk) ⟨u, e, rm.bytes r.bits ++ (izBytes p v ++ rest)⟩ =
      .ok (mk p rm r v, ⟨u + (rm.bytes r.bits).length + p.osz.bytes, e, rest⟩) := by
  obtain ⟨m, tail, hb⟩ := rm.bytes_cons r.bits
  rw [hb, List.length_cons] at h
  obtain ⟨hr, hd⟩ := decodeRM_bytes (e := e) (u := u + 1) hw r.bits hb (fetchFits_tail (fetchFits_add h).1) (izBytes p v ++ rest)
  simp only [decodeEntry, hb, List.cons_append, Stream.fetchByte_cons, bind, Except.bind, hd, hr,
    Stream.fetchZ_izBytes (e := e) (u := u + 1 + tail.length) (p := p)
      (by rw [Nat.add_assoc, Nat.add_comm 1]; exact (fetchFits_add h).2) hv, Reg.ofBits_bits, List.length_cons]
  rw [Nat.add_assoc u 1, Nat.add_comm 1]

theorem decodeEntry_lea (mk : Prefixes → Reg → Addr → Instr) (r : Reg) {a : Addr} (hw : a.wf = true)
    (hp : p.hasAddrsize = false) (h : fetchFits e u ((RM.mem a).bytes r.bits).length = true) :
    decodeEntry p (.lea mk) ⟨u, e, (RM.mem a).bytes r.bits ++ ([] ++ rest)⟩ =
      .ok (mk p r a, ⟨u + ((RM.mem a).bytes r.bits).length, e, rest⟩) := by
  obtain ⟨m, tail, hb⟩ := (RM.mem a).bytes_cons r.bits
  rw [hb, List.length_cons] at h
  obtain ⟨h3, hr, hd⟩ := decodeAddr_bytes (e := e) (u := u + 1) hw r.bits hb (fetchFits_tail h) rest
  simp only [decodeEntry, hb, List.cons_append, List.nil_append, Stream.fetchByte_cons, bind, Except.bind, h3,
    if_false, hp, Bool.false_eq_true, hd, hr, Reg.ofBits_bits, List.length_cons]
  rw [Nat.add_assoc, Nat.add_comm 1]

theorem decodeEntry_groupRM {select : BitVec 3 → GroupEntry} {mk : Prefixes → RM → Instr} {d : BitVec 3}
    (hs : select d = .rm mk) {rm : RM} (hw : rm.wf p = true)
    (h : fetchFits e u (rm.bytes d).length = true) :
    decodeEntry p (.group select) ⟨u, e, rm.bytes d ++ ([] ++ rest)⟩ =
      .ok (mk p rm, ⟨u + (rm.bytes d).length, e, rest⟩) := by
  obtain ⟨m, tail, hb⟩ := rm.bytes_cons d
  rw [hb, List.length_cons] at h
  obtain ⟨hr, hd⟩ := decodeRM_bytes (e := e) (u := u + 1) hw d hb (fetchFits_tail h) rest
  simp only [decodeEntry, hb, List.cons_append, List.nil_append, Stream.fetchByte_cons, bind, Except.bind, hr, hs,
    decodeGroup, hd, List.length_cons]
  rw [Nat.add_assoc, Nat.add_comm 1]

theorem decodeEntry_groupNear {select : BitVec 3 → GroupEntry} {mk : Prefixes → RM → Instr} {d : BitVec 3}
    (hs : select d = .rmNear mk) {rm : RM} (hw : rm.wf p = true) (hp : p.hasOpsize = false)
    (h : fetchFits e u (rm.bytes d).length = true) :
    decodeEntry p (.group select) ⟨u, e, rm.bytes d ++ ([] ++ rest)⟩ =
      .ok (mk p rm, ⟨u + (rm.bytes d).length, e, rest⟩) := by
  obtain ⟨m, tail, hb⟩ := rm.bytes_cons d
  rw [hb, List.length_cons] at h
  obtain ⟨hr, hd⟩ := decodeRM_bytes (e := e) (u := u + 1) hw d hb (fetchFits_tail h) rest
  simp only [decodeEntry, hb, List.cons_append, List.nil_append, Stream.fetchByte_cons, bind, Except.bind, hr, hs,
    decodeGroup, hp, Bool.false_eq_true, if_false, hd, List.length_cons]
  rw [Nat.add_assoc, Nat.add_comm 1]

theorem decodeEntry_group8 {select : BitVec 3 → GroupEntry} {mk : Prefixes → RM → Byte → Instr} {d : BitVec 3}
    (hs : select d = .rm8 mk) {rm : RM} (v : Byte) (hw : rm.wf p = true)
    (h : fetchFits e u (rm.bytes d).length = true) :
    decodeEntry p (.group select) ⟨u, e, rm.bytes d ++ ([v] ++ rest)⟩ =
      .ok (mk p rm v, ⟨u + (rm.bytes d).length + 1, e, rest⟩) := by
  obtain ⟨m, tail, hb⟩ := rm.bytes_cons d
  rw [hb, List.length_cons] at h
  obtain ⟨hr, hd⟩ := decodeRM_bytes (e := e) (u := u + 1) hw d hb (fetchFits_tail h) (v :: rest)
  simp only [decodeEntry, hb, List.cons_append, List.nil_append, Stream.fetchByte_cons, bind, Except.bind, hr, hs,
    decodeGroup, hd, List.length_cons]
  rw [Nat.add_assoc u 1, Nat.add_comm 1]

theorem decodeEntry_groupZ {select : BitVec 3 → GroupEntry} {mk : Prefixes → RM → Word → Instr} {d : BitVec 3}
    (hs : select d = .rmZ mk) {rm : RM} {v : Word} (hw : rm.wf p = true) (hv : immFits p v = true)
    (h : fetchFits e u ((rm.bytes d).length + p.osz.bytes) = true) :
    decodeEntry p (.group select) ⟨u, e, rm.bytes d ++ (izBytes p v ++ rest)⟩ =
      .ok (mk p rm v, ⟨u + (rm.bytes d).length + p.osz.bytes, e, rest⟩) := by
  obtain ⟨m, tail, hb⟩ := rm.bytes_cons d
  rw [hb, List.length_cons] at h
  obtain ⟨hr, hd⟩ := decodeRM_bytes (e := e) (u := u + 1) hw d hb (fetchFits_tail (fetchFits_add h).1) (izBytes p v ++ rest)
  simp only [decodeEntry, hb, List.cons_append, Stream.fetchByte_cons, bind, Except.bind, hr, hs, decodeGroup, hd,
    Stream.fetchZ_izBytes (e := e) (u := u + 1 + tail.length) (p := p)
      (by rw [Nat.add_assoc, Nat.add_comm 1]; exact (fetchFits_add h).2) hv, List.length_cons]
  rw [Nat.add_assoc u 1, Nat.add_comm 1]

end shapes

end Sys2Proof
end

