-- ==== Sys2Proof/Laws/Ops.lean ====
section
/-! SUPPORT. What the shared operations can do, once each: the lemmas the claims about instructions cite instead of
unfolding them. -/

namespace Sys2Proof.Machine

/-! ### Accessible and blocked operands -/

/-- An operand is accessible, or its access raises one BoundsError. -/
theorem Operand.accessible_or_blocked {w : Width} (op : Operand w) (s : State) :
    op.accessible s ∨ ∃ k, op.blocked s k := by
  cases op with
  | reg i => exact .inl trivial
  | imm v => exact .inl trivial
  | mem a =>
    by_cases h : s.inBounds a w.bytes
    · exact .inl h
    · exact .inr ⟨_, h, rfl⟩

theorem Operand.blocked_of_not_accessible {w : Width} {op : Operand w} {s : State} (h : ¬ op.accessible s) :
    ∃ k, op.blocked s k := (op.accessible_or_blocked s).resolve_left h

theorem Operand.not_accessible_of_blocked {w : Width} {op : Operand w} {s : State} {k : FaultKind}
    (h : op.blocked s k) : ¬ op.accessible s := by
  cases op with
  | reg i => exact h.elim
  | imm v => exact h.elim
  | mem a => exact h.1

/-- Only the size of the memory decides what is accessible. -/
theorem Operand.accessible_congr {w : Width} (op : Operand w) {s t : State} (h : s.mem.size = t.mem.size) :
    op.accessible s ↔ op.accessible t := by
  cases op <;> simp [Operand.accessible, State.inBounds, h]

theorem Operand.blocked_congr {w : Width} (op : Operand w) {s t : State} (h : s.mem.size = t.mem.size)
    (k : FaultKind) : op.blocked s k ↔ op.blocked t k := by
  cases op <;> simp [Operand.blocked, State.inBounds, State.outOfBounds, h]

/-! ### Memory accesses -/

theorem State.getBytes_ok {s : State} {a : Word} {n : Nat} (h : s.inBounds a n) :
    s.getBytes a n = .ok (s.mem.readBytes a.toNat n) := by
  simp only [State.getBytes, Memory.get_eq h]

theorem State.getBytes_error {s : State} {a : Word} {n : Nat} (h : ¬ s.inBounds a n) :
    s.getBytes a n = .error (s.outOfBounds a n) := by
  simp only [State.getBytes, Memory.get_eq_none (Nat.lt_of_not_le h)]

theorem State.setBytes_ok {s : State} {a : Word} {bs : List Byte} (h : s.inBounds a bs.length) :
    s.setBytes a bs = .ok (s.pokeBytes a bs) := by
  simp only [State.setBytes, Memory.set_eq h]; rfl

theorem State.setBytes_error {s : State} {a : Word} {bs : List Byte} (h : ¬ s.inBounds a bs.length) :
    s.setBytes a bs = .error (s.outOfBounds a bs.length) := by
  simp only [State.setBytes, Memory.set_eq_none (Nat.lt_of_not_le h)]

theorem State.memRead_ok {s : State} {a : Word} {w : Width} (h : s.inBounds a w.bytes) :
    s.memRead a w = .ok (s.peek a w) := by
  simp only [State.memRead, State.getBytes_ok h]; rfl

theorem State.memRead_error {s : State} {a : Word} {w : Width} (h : ¬ s.inBounds a w.bytes) :
    s.memRead a w = .error (s.outOfBounds a w.bytes) := by
  simp only [State.memRead, State.getBytes_error h]; rfl

theorem State.memWrite_ok {s : State} {a : Word} {w : Width} (v : BitVec w.bits) (h : s.inBounds a w.bytes) :
    s.memWrite a w v = .ok (s.poke a w v) := by
  rw [State.memWrite, State.setBytes_ok (by rwa [leBytes_length])]; rfl

theorem State.memWrite_error {s : State} {a : Word} {w : Width} (v : BitVec w.bits) (h : ¬ s.inBounds a w.bytes) :
    s.memWrite a w v = .error (s.outOfBounds a w.bytes) := by
  rw [State.memWrite, State.setBytes_error (by rwa [leBytes_length]), leBytes_length]

/-- What is stored is what is read (20_memory.md R87). -/
theorem State.peek_poke {s : State} (hw : s.mem.wf) {a : Word} {w : Width} (v : BitVec w.bits)
    (h : s.inBounds a w.bytes) : (s.poke a w v).peek a w = v := by
  have hb := Memory.readBytes_writeBytes hw (a := a.toNat) (bs := leBytes w.bytes v.toNat) (by rwa [leBytes_length])
  rw [leBytes_length] at hb
  rw [State.peek, State.poke_mem, hb, ofNat_leValue_leBytes]

/-- A store leaves every other byte as it was. -/
theorem State.poke_read_outside {s : State} (hw : s.mem.wf) {a : Word} {w : Width} (v : BitVec w.bits)
    (h : s.inBounds a w.bytes) {b : Nat} (hb : b < a.toNat ∨ a.toNat + w.bytes ≤ b) :
    (s.poke a w v).mem.read b = s.mem.read b := by
  rw [State.poke_mem]
  exact Memory.read_writeBytes_outside hw (by rwa [leBytes_length]) (by rwa [leBytes_length])

theorem State.poke_mem_size (s : State) (a : Word) (w : Width) (v : BitVec w.bits) :
    (s.poke a w v).mem.size = s.mem.size := by simp

theorem State.poke_wf {s : State} (hw : s.mem.wf) {a : Word} {w : Width} (v : BitVec w.bits)
    (h : s.inBounds a w.bytes) : (s.poke a w v).mem.wf := by
  rw [State.poke_mem]
  exact Memory.wf_writeBytes hw (by rwa [leBytes_length])

@[simp] theorem State.pokeBytes_mem (s : State) (a : Word) (bs : List Byte) :
    (s.pokeBytes a bs).mem = s.mem.writeBytes a.toNat bs := rfl

/-! ### Operands -/

theorem readOp_ok {w : Width} {op : Operand w} {s : State} (h : op.accessible s) :
    readOp op s = .ok (op.value s) := by
  cases op with
  | reg i => rfl
  | imm v => rfl
  | mem a => exact State.memRead_ok h

theorem readOp_error {w : Width} {op : Operand w} {s : State} {k : FaultKind} (h : op.blocked s k) :
    readOp op s = .error k := by
  cases op with
  | reg i => exact h.elim
  | imm v => exact h.elim
  | mem a => obtain ⟨h, rfl⟩ := h; exact State.memRead_error h

theorem writeOp_ok {w : Width} {op : Operand w} {s : State} (v : BitVec w.bits) (h : op.accessible s) :
    writeOp op v s = .ok (op.put v s) := by
  cases op with
  | reg i => rfl
  | imm v => rfl
  | mem a => exact State.memWrite_ok v h

theorem writeOp_error {w : Width} {op : Operand w} {s : State} (v : BitVec w.bits) {k : FaultKind}
    (h : op.blocked s k) : writeOp op v s = .error k := by
  cases op with
  | reg i => exact h.elim
  | imm v => exact h.elim
  | mem a => obtain ⟨h, rfl⟩ := h; exact State.memWrite_error v h

section put
variable {w : Width} (op : Operand w) (v : BitVec w.bits) (s : State)

@[simp] theorem Operand.put_eip : (op.put v s).eip = s.eip := by cases op <;> rfl
@[simp] theorem Operand.put_flags : (op.put v s).flags = s.flags := by cases op <;> rfl
@[simp] theorem Operand.put_run : (op.put v s).run = s.run := by cases op <;> rfl
@[simp] theorem Operand.put_exitCode : (op.put v s).exitCode = s.exitCode := by cases op <;> rfl
@[simp] theorem Operand.put_outcome : (op.put v s).outcome = s.outcome := by cases op <;> rfl
@[simp] theorem Operand.put_events : (op.put v s).events = s.events := by cases op <;> rfl
@[simp] theorem Operand.put_draws : (op.put v s).draws = s.draws := by cases op <;> rfl
@[simp] theorem Operand.put_readAnswers : (op.put v s).readAnswers = s.readAnswers := by cases op <;> rfl
@[simp] theorem Operand.put_writeAnswers : (op.put v s).writeAnswers = s.writeAnswers := by cases op <;> rfl
@[simp] theorem Operand.put_mem_size : (op.put v s).mem.size = s.mem.size := by cases op <;> simp [Operand.put]

/-- A write of an operand keeps the memory canonical. -/
theorem Operand.put_wf {op : Operand w} {s : State} (hw : s.mem.wf) (h : op.accessible s) :
    (op.put v s).mem.wf := by
  cases op with
  | reg i => exact hw
  | imm v => exact hw
  | mem a => exact State.poke_wf hw v h

end put

/-! ### The stack -/

theorem push_ok {w : Width} (v : BitVec w.bits) {s : State} (h : s.inBounds (s.regs.esp - BitVec.ofNat 32 w.bytes) w.bytes) :
    push v s = .ok ((s.poke (s.regs.esp - BitVec.ofNat 32 w.bytes) w v).withEsp (s.regs.esp - BitVec.ofNat 32 w.bytes)) := by
  simp only [push, State.memWrite_ok v h]; rfl

theorem push_error {w : Width} (v : BitVec w.bits) {s : State} (h : ¬ s.inBounds (s.regs.esp - BitVec.ofNat 32 w.bytes) w.bytes) :
    push v s = .error (s.outOfBounds (s.regs.esp - BitVec.ofNat 32 w.bytes) w.bytes) := by
  simp only [push, State.memWrite_error v h]; rfl

theorem pop_ok {w : Width} {s : State} (h : s.inBounds s.regs.esp w.bytes) :
    pop w s = .ok (s.peek s.regs.esp w, s.withEsp (s.regs.esp + BitVec.ofNat 32 w.bytes)) := by
  rw [pop, if_neg (Nat.not_lt.mpr h)]
  simp only [State.memRead_ok h]; rfl

theorem pop_error {w : Width} {s : State} (h : ¬ s.inBounds s.regs.esp w.bytes) :
    pop w s = .error (.stackUnderflow s.regs.esp w.bytes s.mem.size) := if_pos (Nat.lt_of_not_le h)

/-! ### Running a handler -/

theorem complete_ok {i : Instr} {handler : State → Except FaultKind State} {s t : State}
    (h : handler (s.atNext i) = .ok t) : complete i handler s = .next t := by
  simp only [complete, h]

theorem complete_error {i : Instr} {handler : State → Except FaultKind State} {s : State} {k : FaultKind}
    (h : handler (s.atNext i) = .error k) : complete i handler s = .next (s.raise k) := by
  simp only [complete, h]

/-- All that running a handler can answer. -/
theorem complete_cases (i : Instr) (handler : State → Except FaultKind State) (s : State) :
    (∃ t, handler (s.atNext i) = .ok t ∧ complete i handler s = .next t) ∨
    (∃ k, handler (s.atNext i) = .error k ∧ complete i handler s = .next (s.raise k)) := by
  cases h : handler (s.atNext i) with
  | ok t => exact .inl ⟨t, rfl, complete_ok h⟩
  | error k => exact .inr ⟨k, rfl, complete_error h⟩

/-! ### The host port -/

section host
variable (s : State) (fd : Fd) (count : Nat) (bs : List Byte)

@[simp] theorem State.hostRead_regs : (s.hostRead fd count).2.regs = s.regs := rfl
@[simp] theorem State.hostRead_eip : (s.hostRead fd count).2.eip = s.eip := rfl
@[simp] theorem State.hostRead_flags : (s.hostRead fd count).2.flags = s.flags := rfl
@[simp] theorem State.hostRead_mem : (s.hostRead fd count).2.mem = s.mem := rfl
@[simp] theorem State.hostRead_run : (s.hostRead fd count).2.run = s.run := rfl
@[simp] theorem State.hostRead_exitCode : (s.hostRead fd count).2.exitCode = s.exitCode := rfl
@[simp] theorem State.hostRead_outcome : (s.hostRead fd count).2.outcome = s.outcome := rfl
@[simp] theorem State.hostRead_draws : (s.hostRead fd count).2.draws = s.draws := rfl
@[simp] theorem State.hostRead_events :
    (s.hostRead fd count).2.events = s.events ++ [.read fd count (s.hostRead fd count).1] := rfl

@[simp] theorem State.hostWrite_regs : (s.hostWrite fd bs).2.regs = s.regs := rfl
@[simp] theorem State.hostWrite_eip : (s.hostWrite fd bs).2.eip = s.eip := rfl
@[simp] theorem State.hostWrite_flags : (s.hostWrite fd bs).2.flags = s.flags := rfl
@[simp] theorem State.hostWrite_mem : (s.hostWrite fd bs).2.mem = s.mem := rfl
@[simp] theorem State.hostWrite_run : (s.hostWrite fd bs).2.run = s.run := rfl
@[simp] theorem State.hostWrite_exitCode : (s.hostWrite fd bs).2.exitCode = s.exitCode := rfl
@[simp] theorem State.hostWrite_outcome : (s.hostWrite fd bs).2.outcome = s.outcome := rfl
@[simp] theorem State.hostWrite_draws : (s.hostWrite fd bs).2.draws = s.draws := rfl
@[simp] theorem State.hostWrite_events :
    (s.hostWrite fd bs).2.events = s.events ++ [.write fd bs (s.hostWrite fd bs).1] := rfl

/-- A read answer never holds more than was asked for (49_syscall.md R499). -/
theorem State.hostRead_length {s : State} {fd : Fd} {count : Nat} {bs : List Byte}
    (h : (s.hostRead fd count).1 = .data bs) : bs.length ≤ count := by
  simp only [State.hostRead, ReadAnswer.limit] at h
  split at h
  · cases h; simp
  · cases h

end host

end Sys2Proof.Machine
end

