-- ==== Sys2Proof/Laws/Meanings.lean ====
section
/-! SUPPORT. One lemma per shared handler: the state it ends in where its operands are accessible, and the fault it
raises where one is not. -/

namespace Sys2Proof.Machine

variable {w : Width} {s : State}

/-! ### Binary and unary operations -/

theorem alu_ok (op : AluOp) {dst src : Operand w} (hd : dst.accessible s) (hs : src.accessible s) :
    alu op dst src s =
      .ok (if op = .cmp then s.withFlags (op.apply s.flags (dst.value s) (src.value s)).2
        else dst.put (op.apply s.flags (dst.value s) (src.value s)).1
          (s.withFlags (op.apply s.flags (dst.value s) (src.value s)).2)) := by
  have hd' : dst.accessible (s.withFlags (op.apply s.flags (dst.value s) (src.value s)).2) :=
    (dst.accessible_congr rfl).mp hd
  simp only [alu, readOp_ok hd, readOp_ok hs]
  split
  · rfl
  · exact writeOp_ok _ hd'

theorem alu_error (op : AluOp) {dst src : Operand w} {k : FaultKind} (hd : dst.accessible s)
    (hs : src.blocked s k) : alu op dst src s = .error k := by
  simp only [alu, readOp_ok hd, readOp_error hs]; rfl

theorem alu_error_dst (op : AluOp) {dst src : Operand w} {k : FaultKind} (hd : dst.blocked s k) :
    alu op dst src s = .error k := by
  simp only [alu, readOp_error hd]; rfl

theorem modify_ok {dst : Operand w} (f : Flags → BitVec w.bits → BitVec w.bits × Flags) (hd : dst.accessible s) :
    modify dst f s = .ok (dst.put (f s.flags (dst.value s)).1 (s.withFlags (f s.flags (dst.value s)).2)) := by
  simp only [modify, readOp_ok hd, bind, Except.bind]
  exact writeOp_ok _ ((dst.accessible_congr rfl).mp hd)

theorem modify_error {dst : Operand w} (f : Flags → BitVec w.bits → BitVec w.bits × Flags) {k : FaultKind}
    (hd : dst.blocked s k) : modify dst f s = .error k := by
  simp only [modify, readOp_error hd]; rfl

theorem complement_ok {dst : Operand w} (hd : dst.accessible s) :
    complement dst s = .ok (dst.put (~~~dst.value s) s) := by
  simp only [complement, readOp_ok hd, bind, Except.bind]
  exact writeOp_ok _ hd

theorem complement_error {dst : Operand w} {k : FaultKind} (hd : dst.blocked s k) :
    complement dst s = .error k := by
  simp only [complement, readOp_error hd]; rfl

theorem test_ok {op1 op2 : Operand w} (h1 : op1.accessible s) (h2 : op2.accessible s) :
    test op1 op2 s = .ok (s.withFlags (logicFlags s.flags (op1.value s &&& op2.value s)).2) := by
  simp only [test, readOp_ok h1, readOp_ok h2]; rfl

theorem test_error {op1 op2 : Operand w} {k : FaultKind} (h1 : op1.blocked s k) : test op1 op2 s = .error k := by
  simp only [test, readOp_error h1]; rfl

/-! ### Data movement -/

theorem move_ok {dst src : Operand w} (hd : dst.accessible s) (hs : src.accessible s) :
    move dst src s = .ok (dst.put (src.value s) s) := by
  simp only [move, readOp_ok hs, bind, Except.bind]
  exact writeOp_ok _ hd

theorem move_error_src {dst src : Operand w} {k : FaultKind} (hs : src.blocked s k) :
    move dst src s = .error k := by
  simp only [move, readOp_error hs]; rfl

theorem move_error_dst {dst src : Operand w} {k : FaultKind} (hs : src.accessible s) (hd : dst.blocked s k) :
    move dst src s = .error k := by
  simp only [move, readOp_ok hs, bind, Except.bind]
  exact writeOp_error _ hd

theorem moveZeroExtend_ok {ws : Width} (r : Reg) {src : Operand ws} (hs : src.accessible s) :
    moveZeroExtend w r src s = .ok (s.regWrite r w ((src.value s).setWidth w.bits)) := by
  simp only [moveZeroExtend, readOp_ok hs]; rfl

theorem moveZeroExtend_error {ws : Width} (r : Reg) {src : Operand ws} {k : FaultKind} (hs : src.blocked s k) :
    moveZeroExtend w r src s = .error k := by
  simp only [moveZeroExtend, readOp_error hs]; rfl

theorem moveSignExtend_ok {ws : Width} (r : Reg) {src : Operand ws} (hs : src.accessible s) :
    moveSignExtend w r src s = .ok (s.regWrite r w ((src.value s).signExtend w.bits)) := by
  simp only [moveSignExtend, readOp_ok hs]; rfl

theorem moveSignExtend_error {ws : Width} (r : Reg) {src : Operand ws} {k : FaultKind} (hs : src.blocked s k) :
    moveSignExtend w r src s = .error k := by
  simp only [moveSignExtend, readOp_error hs]; rfl

theorem exchange_ok {op1 op2 : Operand w} (h1 : op1.accessible s) (h2 : op2.accessible s) :
    exchange op1 op2 s = .ok (op2.put (op1.value s) (op1.put (op2.value s) s)) := by
  simp only [exchange, readOp_ok h1, readOp_ok h2, bind, Except.bind, writeOp_ok _ h1]
  exact writeOp_ok _ ((op2.accessible_congr (Operand.put_mem_size ..).symm).mp h2)

theorem exchange_error {op1 op2 : Operand w} {k : FaultKind} (h1 : op1.blocked s k) :
    exchange op1 op2 s = .error k := by
  simp only [exchange, readOp_error h1]; rfl

/-! ### Multiply and divide -/

theorem mulAcc_ok {src : Operand w} (hs : src.accessible s) :
    mulAcc src s =
      .ok (((writePair w (BitVec.ofNat w.bits ((s.regRead .eax w).toNat * (src.value s).toNat / 2 ^ w.bits))
          (BitVec.ofNat w.bits ((s.regRead .eax w).toNat * (src.value s).toNat)) s).withFlags
        (mulFlags s.flags s.undefinedFlags
          ((s.regRead .eax w).toNat * (src.value s).toNat / 2 ^ w.bits != 0))).endDraws) := by
  simp only [mulAcc, readOp_ok hs]; rfl

theorem mulAcc_error {src : Operand w} {k : FaultKind} (hs : src.blocked s k) : mulAcc src s = .error k := by
  simp only [mulAcc, readOp_error hs]; rfl

theorem imulAcc_ok {src : Operand w} (hs : src.accessible s) :
    imulAcc src s =
      .ok (((writePair w (BitVec.ofInt w.bits ((s.regRead .eax w).toInt * (src.value s).toInt / 2 ^ w.bits))
          (BitVec.ofInt w.bits ((s.regRead .eax w).toInt * (src.value s).toInt)) s).withFlags
        (mulFlags s.flags s.undefinedFlags
          (!fitsSigned w.bits ((s.regRead .eax w).toInt * (src.value s).toInt)))).endDraws) := by
  simp only [imulAcc, readOp_ok hs]; rfl

theorem imulAcc_error {src : Operand w} {k : FaultKind} (hs : src.blocked s k) : imulAcc src s = .error k := by
  simp only [imulAcc, readOp_error hs]; rfl

theorem imulTo_ok (r : Reg) {src1 src2 : Operand w} (h1 : src1.accessible s) (h2 : src2.accessible s) :
    imulTo r src1 src2 s =
      .ok (((s.regWrite r w (BitVec.ofInt w.bits ((src1.value s).toInt * (src2.value s).toInt))).withFlags
        (mulFlags s.flags s.undefinedFlags
          (!fitsSigned w.bits ((src1.value s).toInt * (src2.value s).toInt)))).endDraws) := by
  simp only [imulTo, readOp_ok h1, readOp_ok h2]; rfl

theorem imulTo_error_fst (r : Reg) {src1 src2 : Operand w} {k : FaultKind} (h1 : src1.blocked s k) :
    imulTo r src1 src2 s = .error k := by
  simp only [imulTo, readOp_error h1]; rfl

theorem imulTo_error_snd (r : Reg) {src1 src2 : Operand w} {k : FaultKind} (h1 : src1.accessible s)
    (h2 : src2.blocked s k) : imulTo r src1 src2 s = .error k := by
  simp only [imulTo, readOp_ok h1, readOp_error h2]; rfl

/-- The dividend of DIV as a number (42_arithmetic.md R327). -/
theorem readPair_toNat (w : Width) (s : State) :
    (readPair w s).toNat = (s.regRead (highIndex w) w).toNat * 2 ^ w.bits + (s.regRead .eax w).toNat := by
  rw [readPair, BitVec.toNat_append, Nat.shiftLeft_eq, Nat.mul_comm, ← Nat.two_pow_add_eq_or_of_lt (BitVec.isLt _)]

theorem divide_ok {src : Operand w} (hs : src.accessible s) :
    divide src s =
      if (src.value s).toNat = 0 ∨ (readPair w s).toNat / (src.value s).toNat > 2 ^ w.bits - 1 then
        .error .divideError
      else .ok (endDivide w (BitVec.ofNat w.bits ((readPair w s).toNat / (src.value s).toNat))
        (BitVec.ofNat w.bits ((readPair w s).toNat % (src.value s).toNat)) s) := by
  simp only [divide, readOp_ok hs, bind, Except.bind]
  by_cases h0 : (src.value s).toNat = 0
  · simp [h0]
  · simp [h0]

theorem divide_error {src : Operand w} {k : FaultKind} (hs : src.blocked s k) : divide src s = .error k := by
  simp only [divide, readOp_error hs]; rfl

theorem idivide_ok {src : Operand w} (hs : src.accessible s) :
    idivide src s =
      if (src.value s).toInt = 0 ∨ fitsSigned w.bits ((readPair w s).toInt.tdiv (src.value s).toInt) = false then
        .error .divideError
      else .ok (endDivide w (BitVec.ofInt w.bits ((readPair w s).toInt.tdiv (src.value s).toInt))
        (BitVec.ofInt w.bits ((readPair w s).toInt -
          (readPair w s).toInt.tdiv (src.value s).toInt * (src.value s).toInt)) s) := by
  simp only [idivide, readOp_ok hs, bind, Except.bind]
  by_cases h0 : (src.value s).toInt = 0
  · simp [h0]
  · cases hf : fitsSigned w.bits ((readPair w s).toInt.tdiv (src.value s).toInt) <;> simp [h0]

theorem idivide_error {src : Operand w} {k : FaultKind} (hs : src.blocked s k) : idivide src s = .error k := by
  simp only [idivide, readOp_error hs]; rfl

/-! ### Shifts -/

theorem shift_zero (op : ShiftOp) {dst : Operand w} {count : Byte} (hd : dst.accessible s)
    (hc : (count &&& 0x1F).toNat = 0) : shift op dst count s = .ok s := by
  simp only [shift, readOp_ok hd, bind, Except.bind]
  exact if_pos hc

theorem shift_ok (op : ShiftOp) {dst : Operand w} {count : Byte} (hd : dst.accessible s)
    (hc : (count &&& 0x1F).toNat ≠ 0) :
    shift op dst count s =
      .ok (dst.put (op.result (dst.value s) (count &&& 0x1F).toNat)
        (s.withFlags (op.flags s.flags s.undefinedFlags (dst.value s) (count &&& 0x1F).toNat))).endDraws := by
  simp only [shift, readOp_ok hd, bind, Except.bind]
  have hd' (f : Flags) : dst.accessible (s.withFlags f) := (dst.accessible_congr rfl).mp hd
  rw [if_neg hc, writeOp_ok _ (hd' _)]

theorem shift_error (op : ShiftOp) {dst : Operand w} (count : Byte) {k : FaultKind} (hd : dst.blocked s k) :
    shift op dst count s = .error k := by
  simp only [shift, readOp_error hd]; rfl

/-! ### Control transfer and the stack -/

theorem jumpVia_ok {op : Operand .dword} (h : op.accessible s) : jumpVia op s = .ok (s.jump (op.value s)) := by
  simp only [jumpVia, readOp_ok h]; rfl

theorem jumpVia_error {op : Operand .dword} {k : FaultKind} (h : op.blocked s k) : jumpVia op s = .error k := by
  simp only [jumpVia, readOp_error h]; rfl

theorem callTo_ok (target : Word) (h : s.inBounds (s.regs.esp - 4) 4) :
    callTo target s = .ok (((s.poke (s.regs.esp - 4) .dword s.eip).withEsp (s.regs.esp - 4)).jump target) := by
  simp only [callTo]
  erw [push_ok (w := .dword) s.eip h]
  rfl

theorem callTo_error (target : Word) (h : ¬ s.inBounds (s.regs.esp - 4) 4) :
    callTo target s = .error (s.outOfBounds (s.regs.esp - 4) 4) := by
  simp only [callTo]
  erw [push_error (w := .dword) s.eip h]
  rfl

theorem callVia_ok {op : Operand .dword} (h : op.accessible s) : callVia op s = callTo (op.value s) s := by
  simp only [callVia, readOp_ok h]; rfl

theorem callVia_error {op : Operand .dword} {k : FaultKind} (h : op.blocked s k) : callVia op s = .error k := by
  simp only [callVia, readOp_error h]; rfl

theorem returnNear_ok (h : s.inBounds s.regs.esp 4) :
    returnNear s = .ok ((s.withEsp (s.regs.esp + 4)).jump (s.peek s.regs.esp .dword)) := by
  simp only [returnNear]
  erw [pop_ok (w := .dword) h]
  rfl

theorem returnNear_error (h : ¬ s.inBounds s.regs.esp 4) :
    returnNear s = .error (.stackUnderflow s.regs.esp 4 s.mem.size) := by
  simp only [returnNear]
  erw [pop_error (w := .dword) h]
  rfl

theorem returnAdjust_ok (imm : BitVec 16) (h : s.inBounds s.regs.esp 4) :
    returnAdjust imm s =
      .ok ((s.withEsp (s.regs.esp + 4 + imm.setWidth 32)).jump (s.peek s.regs.esp .dword)) := by
  simp only [returnAdjust]
  erw [pop_ok (w := .dword) h]
  rfl

theorem returnAdjust_error (imm : BitVec 16) (h : ¬ s.inBounds s.regs.esp 4) :
    returnAdjust imm s = .error (.stackUnderflow s.regs.esp 4 s.mem.size) := by
  simp only [returnAdjust]
  erw [pop_error (w := .dword) h]
  rfl

theorem pushFrom_ok {op : Operand w} (h : op.accessible s) : pushFrom op s = push (op.value s) s := by
  simp only [pushFrom, readOp_ok h]; rfl

theorem pushFrom_error {op : Operand w} {k : FaultKind} (h : op.blocked s k) : pushFrom op s = .error k := by
  simp only [pushFrom, readOp_error h]; rfl

theorem popTo_ok {dst : State → Operand w} (h : s.inBounds s.regs.esp w.bytes)
    (hd : (dst (s.withEsp (s.regs.esp + BitVec.ofNat 32 w.bytes))).accessible s) :
    popTo w dst s =
      .ok ((dst (s.withEsp (s.regs.esp + BitVec.ofNat 32 w.bytes))).put (s.peek s.regs.esp w)
        (s.withEsp (s.regs.esp + BitVec.ofNat 32 w.bytes))) := by
  simp only [popTo, pop_ok h, bind, Except.bind]
  exact writeOp_ok _ ((Operand.accessible_congr _ rfl).mp hd)

theorem popTo_underflow {dst : State → Operand w} (h : ¬ s.inBounds s.regs.esp w.bytes) :
    popTo w dst s = .error (.stackUnderflow s.regs.esp w.bytes s.mem.size) := by
  simp only [popTo, pop_error h]; rfl

theorem popTo_error {dst : State → Operand w} {k : FaultKind} (h : s.inBounds s.regs.esp w.bytes)
    (hd : (dst (s.withEsp (s.regs.esp + BitVec.ofNat 32 w.bytes))).blocked s k) :
    popTo w dst s = .error k := by
  simp only [popTo, pop_ok h, bind, Except.bind]
  exact writeOp_error _ ((Operand.blocked_congr _ rfl _).mp hd)

theorem leaveFrame_ok (h : s.inBounds s.regs.ebp w.bytes) :
    leaveFrame w s =
      .ok ((s.withEsp (s.regs.ebp + BitVec.ofNat 32 w.bytes)).regWrite .ebp w (s.peek s.regs.ebp w)) := by
  simp only [leaveFrame, pop_ok (s := s.regWrite .esp .dword s.regs.ebp) h]; rfl

theorem leaveFrame_error (h : ¬ s.inBounds s.regs.ebp w.bytes) :
    leaveFrame w s = .error (.stackUnderflow s.regs.ebp w.bytes s.mem.size) := by
  simp only [leaveFrame, pop_error (s := s.regWrite .esp .dword s.regs.ebp) h]; rfl

/-! ### String moves -/

/-- The state after one element is moved (47_string.md R451). -/
theorem moveElement_ok (hs : s.inBounds s.regs.esi w.bytes) (hd : s.inBounds s.regs.edi w.bytes) :
    moveElement w s =
      .ok (((s.poke s.regs.edi w (s.peek s.regs.esi w)).regWrite .esi .dword (stepIndex w s.flags s.regs.esi)).regWrite
        .edi .dword (stepIndex w s.flags s.regs.edi)) := by
  simp only [moveElement, State.memRead_ok hs, bind, Except.bind, State.memWrite_ok _ hd]

theorem moveElement_error_src (hs : ¬ s.inBounds s.regs.esi w.bytes) :
    moveElement w s = .error (s.outOfBounds s.regs.esi w.bytes) := by
  simp only [moveElement, State.memRead_error hs]; rfl

theorem moveElement_error_dst (hs : s.inBounds s.regs.esi w.bytes) (hd : ¬ s.inBounds s.regs.edi w.bytes) :
    moveElement w s = .error (s.outOfBounds s.regs.edi w.bytes) := by
  simp only [moveElement, State.memRead_ok hs, bind, Except.bind, State.memWrite_error _ hd]

/-- All that moving one element can do. -/
theorem moveElement_cases (w : Width) (s : State) :
    (s.inBounds s.regs.esi w.bytes ∧ s.inBounds s.regs.edi w.bytes ∧
      moveElement w s =
        .ok (((s.poke s.regs.edi w (s.peek s.regs.esi w)).regWrite .esi .dword
          (stepIndex w s.flags s.regs.esi)).regWrite .edi .dword (stepIndex w s.flags s.regs.edi))) ∨
    ∃ a, ¬ s.inBounds a w.bytes ∧ moveElement w s = .error (s.outOfBounds a w.bytes) := by
  by_cases hs : s.inBounds s.regs.esi w.bytes
  · by_cases hd : s.inBounds s.regs.edi w.bytes
    · exact .inl ⟨hs, hd, moveElement_ok hs hd⟩
    · exact .inr ⟨_, hd, moveElement_error_dst hs hd⟩
  · exact .inr ⟨_, hs, moveElement_error_src hs⟩

/-- The repeated move is the longest run of moves that do not fault (47_string.md R453). -/
theorem moveElements_cases (w : Width) (n : Nat) (s : State) :
    (∃ t, moveTimes w n s = .ok t ∧ moveElements w n s = (t, none)) ∨
    (∃ m t k, m < n ∧ moveTimes w m s = .ok t ∧ moveElement w t = .error k ∧ moveElements w n s = (t, some k)) := by
  induction n generalizing s with
  | zero => exact .inl ⟨s, rfl, rfl⟩
  | succ n ih =>
    cases h : moveElement w s with
    | error k => exact .inr ⟨0, s, k, by omega, rfl, h, by simp only [moveElements, h]⟩
    | ok t =>
      rcases ih (t.regWrite .ecx .dword (s.regs.ecx - 1)) with ⟨u, h1, h2⟩ | ⟨m, u, k, hm, h1, h2, h3⟩
      · refine .inl ⟨u, ?_, by simp only [moveElements, h, h2]⟩
        simp only [moveTimes, h, bind, Except.bind]; exact h1
      · refine .inr ⟨m + 1, u, k, by omega, ?_, h2, by simp only [moveElements, h, h3]⟩
        simp only [moveTimes, h, bind, Except.bind]; exact h1

/-- All that a rep string move can answer. -/
theorem repeatMove_cases (w : Width) (i : Instr) (s : State) :
    (∃ t, moveTimes w s.regs.ecx.toNat s = .ok t ∧ repeatMove w i s = .next (t.atNext i)) ∨
    (∃ m t k, m < s.regs.ecx.toNat ∧ moveTimes w m s = .ok t ∧ moveElement w t = .error k ∧
      repeatMove w i s = .next (t.raise k)) := by
  rcases moveElements_cases w s.regs.ecx.toNat s with ⟨t, h1, h2⟩ | ⟨m, t, k, hm, h1, h2, h3⟩
  · exact .inl ⟨t, h1, by simp only [repeatMove, h2]⟩
  · exact .inr ⟨m, t, k, hm, h1, h2, by simp only [repeatMove, h3]⟩

/-! ### The syscall gate -/

/-- All that the gate can do (49_syscall.md R491 to R502). -/
theorem syscallGate_cases (s : State) :
    (s.regs.eax = 1 ∧ syscallGate s = .ok (s.exit (s.regs.ebx.setWidth 8))) ∨
    (s.regs.eax = 3 ∧ syscallGate s = sysRead s) ∨
    (s.regs.eax = 4 ∧ syscallGate s = sysWrite s) ∨
    (s.regs.eax ≠ 1 ∧ s.regs.eax ≠ 3 ∧ s.regs.eax ≠ 4 ∧
      syscallGate s = .error (.unsupportedSyscall s.regs.eax)) := by
  have toNat_eq {n : Nat} (hn : n < 2 ^ 32) : s.regs.eax.toNat = n ↔ s.regs.eax = BitVec.ofNat 32 n := by
    rw [← BitVec.toNat_inj, BitVec.toNat_ofNat, Nat.mod_eq_of_lt hn]
  rw [syscallGate]
  split
  · rename_i h; exact .inl ⟨(toNat_eq (by decide)).mp h, rfl⟩
  · rename_i h; exact .inr (.inl ⟨(toNat_eq (by decide)).mp h, rfl⟩)
  · rename_i h; exact .inr (.inr (.inl ⟨(toNat_eq (by decide)).mp h, rfl⟩))
  · rename_i h1 h3 h4
    exact .inr (.inr (.inr ⟨fun h => h1 ((toNat_eq (by decide)).mpr h), fun h => h3 ((toNat_eq (by decide)).mpr h),
      fun h => h4 ((toNat_eq (by decide)).mpr h), rfl⟩))

theorem sysRead_badFd (h : Fd.ofWord? s.regs.ebx = none) : sysRead s = .ok (s.withEax 0xFFFFFFFF) := by
  simp only [sysRead, h]

theorem sysRead_bounds {fd : Fd} (h : Fd.ofWord? s.regs.ebx = some fd)
    (hb : ¬ s.inBounds s.regs.ecx s.regs.edx.toNat) :
    sysRead s = .error (s.outOfBounds s.regs.ecx s.regs.edx.toNat) := by
  simp only [sysRead, h]
  exact if_pos (Nat.lt_of_not_le hb)

theorem sysRead_data {fd : Fd} (h : Fd.ofWord? s.regs.ebx = some fd) (hb : s.inBounds s.regs.ecx s.regs.edx.toNat)
    {bs : List Byte} (ha : (s.hostRead fd s.regs.edx.toNat).1 = .data bs) :
    sysRead s =
      .ok (((s.hostRead fd s.regs.edx.toNat).2.pokeBytes s.regs.ecx bs).withEax (BitVec.ofNat 32 bs.length)) := by
  have hl := State.hostRead_length ha
  simp only [sysRead, h]
  rw [if_neg (Nat.not_lt.mpr hb)]
  generalize hq : s.hostRead fd s.regs.edx.toNat = q at ha
  obtain ⟨a, t⟩ := q
  subst ha
  have ht : t.mem = s.mem := by rw [← State.hostRead_mem s fd s.regs.edx.toNat, hq]
  simp only []
  rw [State.setBytes_ok (by rw [State.inBounds, ht]; exact le_trans (Nat.add_le_add_left hl _) hb)]
  rfl

theorem sysRead_ioError {fd : Fd} (h : Fd.ofWord? s.regs.ebx = some fd)
    (hb : s.inBounds s.regs.ecx s.regs.edx.toNat) (ha : (s.hostRead fd s.regs.edx.toNat).1 = .ioError) :
    sysRead s = .ok ((s.hostRead fd s.regs.edx.toNat).2.withEax 0xFFFFFFFF) := by
  simp only [sysRead, h]
  rw [if_neg (Nat.not_lt.mpr hb)]
  generalize s.hostRead fd s.regs.edx.toNat = q at ha
  obtain ⟨a, t⟩ := q
  subst ha
  rfl

theorem sysWrite_badFd (h : Fd.ofWord? s.regs.ebx = none) : sysWrite s = .ok (s.withEax 0xFFFFFFFF) := by
  simp only [sysWrite, h]

theorem sysWrite_bounds {fd : Fd} (h : Fd.ofWord? s.regs.ebx = some fd)
    (hb : ¬ s.inBounds s.regs.ecx s.regs.edx.toNat) :
    sysWrite s = .error (s.outOfBounds s.regs.ecx s.regs.edx.toNat) := by
  simp only [sysWrite, h, State.getBytes_error hb]; rfl

theorem sysWrite_ok {fd : Fd} (h : Fd.ofWord? s.regs.ebx = some fd) (hb : s.inBounds s.regs.ecx s.regs.edx.toNat)
    (ha : (s.hostWrite fd (s.mem.readBytes s.regs.ecx.toNat s.regs.edx.toNat)).1 = .ok) :
    sysWrite s =
      .ok ((s.hostWrite fd (s.mem.readBytes s.regs.ecx.toNat s.regs.edx.toNat)).2.withEax s.regs.edx) := by
  simp only [sysWrite, h, State.getBytes_ok hb, bind, Except.bind]
  generalize s.hostWrite fd (s.mem.readBytes s.regs.ecx.toNat s.regs.edx.toNat) = q at ha
  obtain ⟨a, t⟩ := q
  subst ha
  rfl

theorem sysWrite_ioError {fd : Fd} (h : Fd.ofWord? s.regs.ebx = some fd)
    (hb : s.inBounds s.regs.ecx s.regs.edx.toNat)
    (ha : (s.hostWrite fd (s.mem.readBytes s.regs.ecx.toNat s.regs.edx.toNat)).1 = .ioError) :
    sysWrite s =
      .ok ((s.hostWrite fd (s.mem.readBytes s.regs.ecx.toNat s.regs.edx.toNat)).2.withEax 0xFFFFFFFF) := by
  simp only [sysWrite, h, State.getBytes_ok hb, bind, Except.bind]
  generalize s.hostWrite fd (s.mem.readBytes s.regs.ecx.toNat s.regs.edx.toNat) = q at ha
  obtain ⟨a, t⟩ := q
  subst ha
  rfl

end Sys2Proof.Machine
end

