-- ==== Sys2Proof/Laws/Effects.lean ====
section
/-! SUPPORT. What a handler may change, as one predicate with one lemma per shared operation, and `exec_effect`: every
instruction but `int 0x80` and the rep moves runs a handler that keeps to its lists in Safety. The frames, the faults
and the invariant follow from it without unfolding a meaning. -/

namespace Sys2Proof.Machine

/-- `t` differs from `s` at most in EIP, the draws, the slots, flags and bytes listed. -/
structure Kept (slots : List Reg) (fl : List FlagBit) (stores : List (Word × Nat)) (s t : State) : Prop where
  regs : ∀ r, r ∉ slots → t.regs.get r = s.regs.get r
  flags : ∀ f, f ∉ fl → t.flags.get f = s.flags.get f
  size : t.mem.size = s.mem.size
  wf : s.mem.wf → t.mem.wf
  mem : s.mem.wf → ∀ a, (∀ e ∈ stores, a < e.1.toNat ∨ e.1.toNat + e.2 ≤ a) → t.mem.read a = s.mem.read a
  run : t.run = s.run
  exitCode : t.exitCode = s.exitCode
  outcome : t.outcome = s.outcome
  events : t.events = s.events
  readAnswers : t.readAnswers = s.readAnswers
  writeAnswers : t.writeAnswers = s.writeAnswers

/-- A handler that ends in a state it may change so, or raises a fault with one of the codes. -/
def Effect (slots : List Reg) (fl : List FlagBit) (stores : List (Word × Nat)) (codes : List Nat) (s : State)
    (x : Except FaultKind State) : Prop :=
  match x with
  | .ok t => Kept slots fl stores s t
  | .error k => k.code ∈ codes

/-- The slot an operand lies in. -/
def Operand.slots {w : Width} : Operand w → List Reg
  | .reg r => [r.slot w]
  | _ => []

/-- The bytes an operand lies in. -/
def Operand.stores {w : Width} : Operand w → List (Word × Nat)
  | .mem a => [(a, w.bytes)]
  | _ => []

/-- The codes of the faults an access of the operand can raise. -/
def Operand.codes {w : Width} : Operand w → List Nat
  | .mem _ => [1]
  | _ => []

variable {slots : List Reg} {fl : List FlagBit} {stores : List (Word × Nat)} {codes : List Nat}

theorem Kept.refl (s : State) : Kept slots fl stores s s :=
  ⟨fun _ _ => rfl, fun _ _ => rfl, rfl, id, fun _ _ _ => rfl, rfl, rfl, rfl, rfl, rfl, rfl⟩

theorem Kept.trans {s t u : State} (h : Kept slots fl stores s t) (g : Kept slots fl stores t u) :
    Kept slots fl stores s u :=
  ⟨fun r hr => (g.regs r hr).trans (h.regs r hr), fun f hf => (g.flags f hf).trans (h.flags f hf),
    g.size.trans h.size, fun w => g.wf (h.wf w), fun w a ha => (g.mem (h.wf w) a ha).trans (h.mem w a ha),
    g.run.trans h.run, g.exitCode.trans h.exitCode, g.outcome.trans h.outcome, g.events.trans h.events,
    g.readAnswers.trans h.readAnswers, g.writeAnswers.trans h.writeAnswers⟩

/-! ### The elementary updates -/

section updates
variable {s : State}

theorem Kept.withFlags {g : Flags} (h : ∀ f, f ∉ fl → g.get f = s.flags.get f) :
    Kept slots fl stores s (s.withFlags g) :=
  ⟨fun _ _ => rfl, h, rfl, id, fun _ _ _ => rfl, rfl, rfl, rfl, rfl, rfl, rfl⟩

theorem Kept.withEip (v : Word) : Kept slots fl stores s (s.withEip v) :=
  ⟨fun _ _ => rfl, fun _ _ => rfl, rfl, id, fun _ _ _ => rfl, rfl, rfl, rfl, rfl, rfl, rfl⟩

theorem Kept.endDraws : Kept slots fl stores s s.endDraws :=
  ⟨fun _ _ => rfl, fun _ _ => rfl, rfl, id, fun _ _ _ => rfl, rfl, rfl, rfl, rfl, rfl, rfl⟩

theorem Kept.regWrite {i : Reg} {w : Width} (v : BitVec w.bits) (h : i.slot w ∈ slots) :
    Kept slots fl stores s (s.regWrite i w v) :=
  ⟨fun _ hr => Regs.get_write_ne _ _ _ _ _ (fun e => hr (e ▸ h)), fun _ _ => rfl, rfl, id, fun _ _ _ => rfl, rfl, rfl,
    rfl, rfl, rfl, rfl⟩

theorem Kept.poke {a : Word} {w : Width} (v : BitVec w.bits) (hb : s.inBounds a w.bytes)
    (h : (a, w.bytes) ∈ stores) : Kept slots fl stores s (s.poke a w v) :=
  ⟨fun _ _ => rfl, fun _ _ => rfl, s.poke_mem_size a w v, fun hw => State.poke_wf hw v hb,
    fun hw _ hx => State.poke_read_outside hw v hb (hx _ h), rfl, rfl, rfl, rfl, rfl, rfl⟩

end updates

/-! ### Operands -/

theorem Operand.codes_of_blocked {w : Width} {op : Operand w} {s : State} {k : FaultKind} (h : op.blocked s k) :
    k.code ∈ op.codes := by
  cases op with
  | mem a => obtain ⟨_, rfl⟩ := h; exact List.mem_singleton.mpr rfl
  | _ => exact h.elim

theorem Kept.put {w : Width} {op : Operand w} {s : State} (v : BitVec w.bits) (h : op.accessible s)
    (hr : op.slots ⊆ slots) (hm : op.stores ⊆ stores) : Kept slots fl stores s (op.put v s) := by
  cases op with
  | reg i => exact .regWrite v (hr (List.mem_singleton.mpr rfl))
  | mem a => exact .poke v h (hm (List.mem_singleton.mpr rfl))
  | imm _ => exact .refl s

/-- A handler that reads an operand first. -/
theorem Effect.of_operand {w : Width} (op : Operand w) {s : State} {x : Except FaultKind State}
    (hc : op.codes ⊆ codes) (hb : ∀ k, op.blocked s k → x = .error k)
    (ho : op.accessible s → Effect slots fl stores codes s x) : Effect slots fl stores codes s x := by
  rcases op.accessible_or_blocked s with h | ⟨k, h⟩
  · exact ho h
  · rw [hb k h]; exact hc (Operand.codes_of_blocked h)

/-! ### The flag engine writes the six status flags at most -/

/-- The six flags arithmetic writes. -/
abbrev statusFlags : List FlagBit := [.CF, .PF, .AF, .ZF, .SF, .OF]

/-- The flags AND, OR, XOR and TEST write. -/
abbrev logicWritten : List FlagBit := [.CF, .PF, .ZF, .SF, .OF]

/-- The flags INC and DEC write. -/
abbrev stepWritten : List FlagBit := [.PF, .AF, .ZF, .SF, .OF]

section flags
variable {n : Nat} (f u : Flags) (a b : BitVec n) (b0 : FlagBit)

theorem addFlags_kept (c : Bool) (h : b0 ∉ statusFlags) : (addFlags f a b c).2.get b0 = f.get b0 := by
  cases b0 <;> first | rfl | exact absurd (by decide) h

theorem subFlags_kept (c : Bool) (h : b0 ∉ statusFlags) : (subFlags f a b c).2.get b0 = f.get b0 := by
  cases b0 <;> first | rfl | exact absurd (by decide) h

theorem logicFlags_kept (h : b0 ∉ logicWritten) : (logicFlags f a).2.get b0 = f.get b0 := by
  cases b0 <;> first | rfl | exact absurd (by decide) h

theorem incFlags_kept (h : b0 ∉ stepWritten) : (incFlags f a).2.get b0 = f.get b0 := by
  cases b0 <;> first | rfl | exact absurd (by decide) h

theorem decFlags_kept (h : b0 ∉ stepWritten) : (decFlags f a).2.get b0 = f.get b0 := by
  cases b0 <;> first | rfl | exact absurd (by decide) h

theorem shiftFlags_kept (op : ShiftOp) (c : Nat) (h : b0 ∉ statusFlags) : (op.flags f u a c).get b0 = f.get b0 := by
  cases b0 <;> first | rfl | exact absurd (by decide) h

theorem mulFlags_kept (o : Bool) (h : b0 ∉ statusFlags) : (mulFlags f u o).get b0 = f.get b0 := by
  cases b0 <;> first | rfl | exact absurd (by decide) h

theorem undefinedFlags_kept (s : State) (h : b0 ∉ statusFlags) : s.undefinedFlags.get b0 = s.flags.get b0 := by
  cases b0 <;> first | rfl | exact absurd (by decide) h

/-- The flags an ALU operation writes. -/
def AluOp.written : AluOp → List FlagBit
  | .and | .or | .xor => logicWritten
  | _ => statusFlags

theorem AluOp.apply_kept (op : AluOp) (h : b0 ∉ op.written) : (op.apply f a b).2.get b0 = f.get b0 := by
  cases op <;>
    first
    | exact addFlags_kept f a b b0 _ h
    | exact subFlags_kept f a b b0 _ h
    | exact logicFlags_kept f _ b0 h

end flags

/-! ### One lemma per shared handler -/

section handlers
variable {w : Width} {s : State}

theorem alu_effect (op : AluOp) (dst src : Operand w) (hf : op.written ⊆ fl) (hr : op ≠ .cmp → dst.slots ⊆ slots)
    (hm : op ≠ .cmp → dst.stores ⊆ stores) (hd : dst.codes ⊆ codes) (hs : src.codes ⊆ codes) :
    Effect slots fl stores codes s (alu op dst src s) := by
  refine .of_operand dst hd (fun k => alu_error_dst op) fun h1 => ?_
  refine .of_operand src hs (fun k => alu_error op h1) fun h2 => ?_
  rw [alu_ok op h1 h2]
  have hk : Kept slots fl stores s (s.withFlags (op.apply s.flags (dst.value s) (src.value s)).2) :=
    .withFlags fun b hb => AluOp.apply_kept _ _ _ b op fun h => hb (hf h)
  show Kept _ _ _ _ _
  split
  · exact hk
  · rename_i h
    exact hk.trans (.put _ ((dst.accessible_congr rfl).mp h1) (hr h) (hm h))

theorem modify_effect (dst : Operand w) (f : Flags → BitVec w.bits → BitVec w.bits × Flags)
    (hf : ∀ g a b, b ∉ fl → (f g a).2.get b = g.get b) (hr : dst.slots ⊆ slots) (hm : dst.stores ⊆ stores)
    (hd : dst.codes ⊆ codes) : Effect slots fl stores codes s (modify dst f s) := by
  refine .of_operand dst hd (fun k => modify_error f) fun h => ?_
  rw [modify_ok f h]
  exact (Kept.withFlags fun b hb => hf _ _ b hb).trans (.put _ ((dst.accessible_congr rfl).mp h) hr hm)

theorem increment_effect (dst : Operand w) (hf : stepWritten ⊆ fl) (hr : dst.slots ⊆ slots)
    (hm : dst.stores ⊆ stores) (hd : dst.codes ⊆ codes) : Effect slots fl stores codes s (increment dst s) :=
  modify_effect dst _ (fun _ _ _ hb => incFlags_kept _ _ _ fun h => hb (hf h)) hr hm hd

theorem decrement_effect (dst : Operand w) (hf : stepWritten ⊆ fl) (hr : dst.slots ⊆ slots)
    (hm : dst.stores ⊆ stores) (hd : dst.codes ⊆ codes) : Effect slots fl stores codes s (decrement dst s) :=
  modify_effect dst _ (fun _ _ _ hb => decFlags_kept _ _ _ fun h => hb (hf h)) hr hm hd

theorem negate_effect (dst : Operand w) (hf : statusFlags ⊆ fl) (hr : dst.slots ⊆ slots)
    (hm : dst.stores ⊆ stores) (hd : dst.codes ⊆ codes) : Effect slots fl stores codes s (negate dst s) :=
  modify_effect dst _ (fun _ _ _ hb => subFlags_kept _ _ _ _ _ fun h => hb (hf h)) hr hm hd

theorem complement_effect (dst : Operand w) (hr : dst.slots ⊆ slots) (hm : dst.stores ⊆ stores)
    (hd : dst.codes ⊆ codes) : Effect slots fl stores codes s (complement dst s) := by
  refine .of_operand dst hd (fun k => complement_error) fun h => ?_
  rw [complement_ok h]
  exact Kept.put _ h hr hm

theorem test_effect (op1 op2 : Operand w) (hf : logicWritten ⊆ fl) (h1 : op1.codes ⊆ codes) (h2 : op2.accessible s) :
    Effect slots fl stores codes s (test op1 op2 s) := by
  refine .of_operand op1 h1 (fun k => test_error) fun h => ?_
  rw [test_ok h h2]
  exact Kept.withFlags fun b hb => logicFlags_kept _ _ b fun h => hb (hf h)

theorem move_effect (dst src : Operand w) (hr : dst.slots ⊆ slots) (hm : dst.stores ⊆ stores)
    (hd : dst.codes ⊆ codes) (hs : src.codes ⊆ codes) : Effect slots fl stores codes s (move dst src s) := by
  refine .of_operand src hs (fun k => move_error_src) fun h2 => ?_
  refine .of_operand dst hd (fun k => move_error_dst h2) fun h1 => ?_
  rw [move_ok h1 h2]
  exact Kept.put _ h1 hr hm

theorem moveZeroExtend_effect {ws : Width} (r : Reg) (src : Operand ws) (hr : r.slot w ∈ slots)
    (hs : src.codes ⊆ codes) : Effect slots fl stores codes s (moveZeroExtend w r src s) := by
  refine .of_operand src hs (fun k => moveZeroExtend_error r) fun h => ?_
  rw [moveZeroExtend_ok r h]
  exact Kept.regWrite _ hr

theorem moveSignExtend_effect {ws : Width} (r : Reg) (src : Operand ws) (hr : r.slot w ∈ slots)
    (hs : src.codes ⊆ codes) : Effect slots fl stores codes s (moveSignExtend w r src s) := by
  refine .of_operand src hs (fun k => moveSignExtend_error r) fun h => ?_
  rw [moveSignExtend_ok r h]
  exact Kept.regWrite _ hr

theorem exchange_effect (op1 : Operand w) (r : Reg) (h1 : op1.slots ⊆ slots) (h2 : r.slot w ∈ slots)
    (hm : op1.stores ⊆ stores) (hc : op1.codes ⊆ codes) :
    Effect slots fl stores codes s (exchange op1 (.reg r) s) := by
  refine .of_operand op1 hc (fun k => exchange_error) fun h => ?_
  rw [exchange_ok (op2 := .reg r) h trivial]
  exact (Kept.put _ h h1 hm).trans (.regWrite _ h2)

theorem Kept.writePair (hi lo : BitVec w.bits) (h1 : Reg.eax ∈ slots) (h2 : (highIndex w).slot w ∈ slots) :
    Kept slots fl stores s (writePair w hi lo s) :=
  (Kept.regWrite lo (i := .eax) (by cases w <;> exact h1)).trans (.regWrite hi h2)

theorem Kept.finishMul {t : State} (h : Kept slots fl stores s t) {g : Flags}
    (hg : ∀ b, b ∉ fl → g.get b = s.flags.get b) : Kept slots fl stores s (t.withFlags g).endDraws :=
  (h.trans (.withFlags fun b hb => (hg b hb).trans (h.flags b hb).symm)).trans .endDraws

theorem mulAcc_effect (src : Operand w) (hf : statusFlags ⊆ fl) (h1 : Reg.eax ∈ slots)
    (h2 : (highIndex w).slot w ∈ slots) (hc : src.codes ⊆ codes) : Effect slots fl stores codes s (mulAcc src s) := by
  refine .of_operand src hc (fun k => mulAcc_error) fun h => ?_
  rw [mulAcc_ok h]
  exact (Kept.writePair _ _ h1 h2).finishMul fun b hb => mulFlags_kept _ _ b _ fun h => hb (hf h)

theorem imulAcc_effect (src : Operand w) (hf : statusFlags ⊆ fl) (h1 : Reg.eax ∈ slots)
    (h2 : (highIndex w).slot w ∈ slots) (hc : src.codes ⊆ codes) : Effect slots fl stores codes s (imulAcc src s) := by
  refine .of_operand src hc (fun k => imulAcc_error) fun h => ?_
  rw [imulAcc_ok h]
  exact (Kept.writePair _ _ h1 h2).finishMul fun b hb => mulFlags_kept _ _ b _ fun h => hb (hf h)

theorem imulTo_effect (r : Reg) (src1 src2 : Operand w) (hf : statusFlags ⊆ fl) (hr : r.slot w ∈ slots)
    (h1 : src1.codes ⊆ codes) (h2 : src2.codes ⊆ codes) :
    Effect slots fl stores codes s (imulTo r src1 src2 s) := by
  refine .of_operand src1 h1 (fun k => imulTo_error_fst r) fun g1 => ?_
  refine .of_operand src2 h2 (fun k => imulTo_error_snd r g1) fun g2 => ?_
  rw [imulTo_ok r g1 g2]
  exact (Kept.regWrite _ hr).finishMul fun b hb => mulFlags_kept _ _ b _ fun h => hb (hf h)

theorem Kept.endDivide (q m : BitVec w.bits) (hf : statusFlags ⊆ fl) (h1 : Reg.eax ∈ slots)
    (h2 : (highIndex w).slot w ∈ slots) : Kept slots fl stores s (endDivide w q m s) :=
  (Kept.writePair _ _ h1 h2).finishMul fun b hb => undefinedFlags_kept b s fun h => hb (hf h)

theorem divide_effect (src : Operand w) (hf : statusFlags ⊆ fl) (h1 : Reg.eax ∈ slots)
    (h2 : (highIndex w).slot w ∈ slots) (hc : src.codes ⊆ codes) (h5 : 5 ∈ codes) :
    Effect slots fl stores codes s (divide src s) := by
  refine .of_operand src hc (fun k => divide_error) fun h => ?_
  rw [divide_ok h]
  split
  · exact h5
  · exact Kept.endDivide _ _ hf h1 h2

theorem idivide_effect (src : Operand w) (hf : statusFlags ⊆ fl) (h1 : Reg.eax ∈ slots)
    (h2 : (highIndex w).slot w ∈ slots) (hc : src.codes ⊆ codes) (h5 : 5 ∈ codes) :
    Effect slots fl stores codes s (idivide src s) := by
  refine .of_operand src hc (fun k => idivide_error) fun h => ?_
  rw [idivide_ok h]
  split
  · exact h5
  · exact Kept.endDivide _ _ hf h1 h2

theorem shift_effect (op : ShiftOp) (dst : Operand w) (count : Byte) (hf : statusFlags ⊆ fl)
    (hr : dst.slots ⊆ slots) (hm : dst.stores ⊆ stores) (hd : dst.codes ⊆ codes) :
    Effect slots fl stores codes s (shift op dst count s) := by
  refine .of_operand dst hd (fun k => shift_error op count) fun h => ?_
  by_cases hc : (count &&& 0x1F).toNat = 0
  · rw [shift_zero op h hc]; exact .refl s
  · rw [shift_ok op h hc]
    exact ((Kept.withFlags fun b hb => shiftFlags_kept _ _ _ b op _ fun h => hb (hf h)).trans
      (.put _ ((dst.accessible_congr rfl).mp h) hr hm)).trans .endDraws

theorem jumpIf_effect (c : Cond) (rel : Word) : Effect slots fl stores codes s (jumpIf c rel s) := by
  show Kept _ _ _ _ _
  split
  · exact .withEip _
  · exact .refl s

theorem jumpVia_effect (op : Operand .dword) (hc : op.codes ⊆ codes) :
    Effect slots fl stores codes s (jumpVia op s) := by
  refine .of_operand op hc (fun k => jumpVia_error) fun h => ?_
  rw [jumpVia_ok h]; exact Kept.withEip _

theorem Kept.withEsp (v : Word) (h : Reg.esp ∈ slots) : Kept slots fl stores s (s.withEsp v) :=
  .regWrite (i := .esp) (w := .dword) v h

theorem push_effect (v : BitVec w.bits) (hr : Reg.esp ∈ slots) (hm : s.pushStores w ⊆ stores) (h1 : 1 ∈ codes) :
    Effect slots fl stores codes s (push v s) := by
  by_cases h : s.inBounds (s.regs.esp - BitVec.ofNat 32 w.bytes) w.bytes
  · rw [push_ok v h]
    exact (Kept.poke v h (hm (List.mem_singleton.mpr rfl))).trans (.withEsp _ hr)
  · rw [push_error v h]; exact h1

theorem pushFrom_effect (op : Operand w) (hr : Reg.esp ∈ slots) (hm : s.pushStores w ⊆ stores) (h1 : 1 ∈ codes)
    (hc : op.codes ⊆ codes) : Effect slots fl stores codes s (pushFrom op s) := by
  refine .of_operand op hc (fun k => pushFrom_error) fun h => ?_
  rw [pushFrom_ok h]; exact push_effect _ hr hm h1

theorem callTo_effect (target : Word) (hr : Reg.esp ∈ slots) (hm : s.pushStores .dword ⊆ stores) (h1 : 1 ∈ codes) :
    Effect slots fl stores codes s (callTo target s) := by
  by_cases h : s.inBounds (s.regs.esp - 4) 4
  · rw [callTo_ok target h]
    exact ((Kept.poke (w := .dword) s.eip h (hm (List.mem_singleton.mpr rfl))).trans (.withEsp _ hr)).trans (.withEip _)
  · rw [callTo_error target h]; exact h1

theorem callVia_effect (op : Operand .dword) (hr : Reg.esp ∈ slots) (hm : s.pushStores .dword ⊆ stores)
    (h1 : 1 ∈ codes) (hc : op.codes ⊆ codes) : Effect slots fl stores codes s (callVia op s) := by
  refine .of_operand op hc (fun k => callVia_error) fun h => ?_
  rw [callVia_ok h]; exact callTo_effect _ hr hm h1

theorem returnNear_effect (hr : Reg.esp ∈ slots) (h4 : 4 ∈ codes) :
    Effect slots fl stores codes s (returnNear s) := by
  by_cases h : s.inBounds s.regs.esp 4
  · rw [returnNear_ok h]; exact (Kept.withEsp _ hr).trans (.withEip _)
  · rw [returnNear_error h]; exact h4

theorem returnAdjust_effect (imm : BitVec 16) (hr : Reg.esp ∈ slots) (h4 : 4 ∈ codes) :
    Effect slots fl stores codes s (returnAdjust imm s) := by
  by_cases h : s.inBounds s.regs.esp 4
  · rw [returnAdjust_ok imm h]; exact (Kept.withEsp _ hr).trans (.withEip _)
  · rw [returnAdjust_error imm h]; exact h4

theorem popTo_effect (dst : State → Operand w) (hr : Reg.esp ∈ slots) (h4 : 4 ∈ codes)
    (hd : (dst (s.withEsp (s.regs.esp + BitVec.ofNat 32 w.bytes))).slots ⊆ slots)
    (hm : (dst (s.withEsp (s.regs.esp + BitVec.ofNat 32 w.bytes))).stores ⊆ stores)
    (hc : (dst (s.withEsp (s.regs.esp + BitVec.ofNat 32 w.bytes))).codes ⊆ codes) :
    Effect slots fl stores codes s (popTo w dst s) := by
  by_cases h : s.inBounds s.regs.esp w.bytes
  · refine .of_operand (s := s) (dst (s.withEsp (s.regs.esp + BitVec.ofNat 32 w.bytes))) hc ?_ fun ha => ?_
    · exact fun k hk => popTo_error h ((Operand.blocked_congr _ rfl _).mp hk)
    · rw [popTo_ok h ((Operand.accessible_congr _ rfl).mp ha)]
      exact (Kept.withEsp _ hr).trans (.put _ ((Operand.accessible_congr _ rfl).mp ha) hd hm)
  · rw [popTo_underflow h]; exact h4

theorem leaveFrame_effect (h1 : Reg.esp ∈ slots) (h2 : Reg.ebp.slot w ∈ slots) (h4 : 4 ∈ codes) :
    Effect slots fl stores codes s (leaveFrame w s) := by
  by_cases h : s.inBounds s.regs.ebp w.bytes
  · rw [leaveFrame_ok h]; exact (Kept.withEsp _ h1).trans (.regWrite _ h2)
  · rw [leaveFrame_error h]; exact h4

theorem moveElement_effect (w : Width) (h1 : Reg.esi ∈ slots) (h2 : Reg.edi ∈ slots)
    (hm : (s.regs.edi, w.bytes) ∈ stores) (hc : 1 ∈ codes) :
    Effect slots fl stores codes s (moveElement w s) := by
  rcases moveElement_cases w s with ⟨hs, hd, h⟩ | ⟨a, _, h⟩
  · rw [h]
    exact ((Kept.poke _ hd hm).trans (.regWrite (i := .esi) (w := .dword) _ h1)).trans
      (.regWrite (i := .edi) (w := .dword) _ h2)
  · rw [h]; exact hc

end handlers

/-! ### Repeated string moves -/

theorem elementAddr_zero (w : Width) (f : Flags) (x : Word) : elementAddr w f x 0 = x := by
  simp [elementAddr]

theorem stepIndex_eq (w : Width) (f : Flags) (x : Word) : stepIndex w f x = elementAddr w f x 1 := by
  simp [stepIndex, elementAddr]

theorem elementAddr_succ (w : Width) (f : Flags) (x : Word) (k : Nat) :
    elementAddr w f (elementAddr w f x 1) k = elementAddr w f x (k + 1) := by
  simp only [elementAddr, Nat.add_mul, Nat.one_mul, BitVec.ofNat_add]
  split <;> (generalize BitVec.ofNat 32 (k * w.bytes) = a; generalize BitVec.ofNat 32 w.bytes = b; bv_omega)

/-- One iteration of a rep string move. -/
theorem moveStep_ok {w : Width} {s t : State} (h : moveElement w s = .ok t) :
    s.inBounds s.regs.esi w.bytes ∧ s.inBounds s.regs.edi w.bytes ∧
    t = ((s.poke s.regs.edi w (s.peek s.regs.esi w)).regWrite .esi .dword (stepIndex w s.flags s.regs.esi)).regWrite
        .edi .dword (stepIndex w s.flags s.regs.edi) := by
  rcases moveElement_cases w s with ⟨hs, hd, h'⟩ | ⟨a, _, h'⟩
  · rw [h'] at h; cases h; exact ⟨hs, hd, rfl⟩
  · rw [h'] at h; cases h

/-- Everything `n` elements moved in a row do: the index registers and ECX after them, and that nothing else changes but
the bytes of the `n` destinations (47_string.md R453, R455). -/
theorem moveTimes_ok {w : Width} {n : Nat} {s t : State} (h : moveTimes w n s = .ok t) :
    t.regs.esi = elementAddr w s.flags s.regs.esi n ∧ t.regs.edi = elementAddr w s.flags s.regs.edi n ∧
    t.regs.ecx = s.regs.ecx - BitVec.ofNat 32 n ∧ t.eip = s.eip ∧ t.draws = s.draws ∧
    Kept [.esi, .edi, .ecx] [] ((List.range n).map fun k => (elementAddr w s.flags s.regs.edi k, w.bytes)) s t := by
  induction n generalizing s with
  | zero =>
    cases h
    exact ⟨(elementAddr_zero ..).symm, (elementAddr_zero ..).symm, (BitVec.sub_zero _).symm, rfl, rfl, .refl _⟩
  | succ n ih =>
    simp only [moveTimes] at h
    cases hm : moveElement w s with
    | error k => rw [hm] at h; cases h
    | ok u =>
      rw [hm] at h
      obtain ⟨hs, hd, rfl⟩ := moveStep_ok hm
      simp only [bind, Except.bind] at h
      obtain ⟨h1, h2, h3, h4, h5, h6⟩ := ih h
      simp only [State.regWrite_flags, State.poke_flags, State.regWrite_regs, State.poke_regs, Regs.write_dword, stepIndex_eq,
        State.regWrite_eip, State.poke_eip, State.regWrite_draws, State.poke_draws] at h1 h2 h3 h4 h5 h6
      have e1 : (((s.regs.set .esi (elementAddr w s.flags s.regs.esi 1)).set .edi (elementAddr w s.flags s.regs.edi 1)).set .ecx
        (s.regs.ecx - 1)).esi = elementAddr w s.flags s.regs.esi 1 := rfl
      have e2 : (((s.regs.set .esi (elementAddr w s.flags s.regs.esi 1)).set .edi (elementAddr w s.flags s.regs.edi 1)).set .ecx
        (s.regs.ecx - 1)).edi = elementAddr w s.flags s.regs.edi 1 := rfl
      have e3 : (((s.regs.set .esi (elementAddr w s.flags s.regs.esi 1)).set .edi (elementAddr w s.flags s.regs.edi 1)).set .ecx
        (s.regs.ecx - 1)).ecx = s.regs.ecx - 1 := rfl
      rw [e1, elementAddr_succ] at h1
      rw [e2, elementAddr_succ] at h2
      rw [e3] at h3
      rw [e2] at h6
      refine ⟨h1, h2, ?_, h4, h5, ?_⟩
      · rw [h3, Nat.add_comm n 1, BitVec.ofNat_add]; bv_omega
      · rw [List.range_succ_eq_map, List.map_cons, List.map_map]
        have hk : Kept [.esi, .edi, .ecx] [] ((elementAddr w s.flags s.regs.edi 0, w.bytes) :: (List.range n).map
            ((fun k => (elementAddr w s.flags s.regs.edi k, w.bytes)) ∘ Nat.succ)) s _ :=
          (((Kept.poke (s.peek s.regs.esi w) hd (by rw [elementAddr_zero]; exact List.mem_cons_self ..)).trans
            (.regWrite (i := .esi) (w := .dword) (stepIndex w s.flags s.regs.esi) (by decide))).trans
            (.regWrite (i := .edi) (w := .dword) (stepIndex w s.flags s.regs.edi) (by decide))).trans
            (.regWrite (i := .ecx) (w := .dword) (s.regs.ecx - 1) (by decide))
        rw [stepIndex_eq, stepIndex_eq] at hk
        refine hk.trans ⟨h6.regs, h6.flags, h6.size, h6.wf, fun hw a ha => h6.mem hw a fun e he => ?_, h6.run, h6.exitCode,
          h6.outcome, h6.events, h6.readAnswers, h6.writeAnswers⟩
        refine ha e (List.mem_cons_of_mem _ ?_)
        obtain ⟨k, hk, rfl⟩ := List.mem_map.mp he
        exact List.mem_map.mpr ⟨k, hk, by simp only [Function.comp, Nat.succ_eq_add_one, elementAddr_succ]⟩

/-! ### The syscall gate -/

/-- What the gate may change: EAX, the exit, the host port, and for `read` the bytes of its buffer. -/
structure GateKept (s t : State) : Prop where
  regs : ∀ r, r ≠ .eax → t.regs.get r = s.regs.get r
  flags : t.flags = s.flags
  eip : t.eip = s.eip
  draws : t.draws = s.draws
  size : t.mem.size = s.mem.size
  wf : s.mem.wf → t.mem.wf
  mem : s.mem.wf → ∀ a : Nat,
    (s.regs.eax = 3 → a < s.regs.ecx.toNat ∨ s.regs.ecx.toNat + s.regs.edx.toNat ≤ a) → t.mem.read a = s.mem.read a
  run : (t.run = s.run ∧ t.outcome = s.outcome ∧ t.exitCode = s.exitCode) ∨
    (s.regs.eax = 1 ∧ t = s.exit (s.regs.ebx.setWidth 8))

theorem get_withEax (x : Regs) (v : Word) (r : Reg) (h : r ≠ .eax) : (x.write .eax .dword v).get r = x.get r :=
  Regs.get_set_ne _ _ h

theorem sysRead_effect (s : State) (he : s.regs.eax = 3) :
    match sysRead s with
    | .ok t => GateKept s t
    | .error k => k.code ∈ [1, 3] := by
  cases hf : Fd.ofWord? s.regs.ebx with
  | none =>
    rw [sysRead_badFd hf]
    exact ⟨fun r => get_withEax _ _ r, rfl, rfl, rfl, rfl, id, fun _ _ _ => rfl, .inl ⟨rfl, rfl, rfl⟩⟩
  | some fd =>
    by_cases hb : s.inBounds s.regs.ecx s.regs.edx.toNat
    · cases ha : (s.hostRead fd s.regs.edx.toNat).1 with
      | ioError =>
        rw [sysRead_ioError hf hb ha]
        exact ⟨fun r => get_withEax _ _ r, rfl, rfl, rfl, rfl, id, fun _ _ _ => rfl, .inl ⟨rfl, rfl, rfl⟩⟩
      | data bs =>
        have hl := State.hostRead_length ha
        have hb' : s.regs.ecx.toNat + bs.length ≤ s.mem.size := le_trans (Nat.add_le_add_left hl _) hb
        rw [sysRead_data hf hb ha]
        refine ⟨fun r => get_withEax _ _ r, rfl, rfl, rfl, Memory.writeBytes_size .., fun hw => Memory.wf_writeBytes hw hb',
          fun hw a h => ?_, .inl ⟨rfl, rfl, rfl⟩⟩
        refine Memory.read_writeBytes_outside hw hb' ?_
        rcases h he with h | h
        · exact .inl h
        · exact .inr (le_trans (Nat.add_le_add_left hl _) h)
    · rw [sysRead_bounds hf hb]; exact List.mem_cons_self ..

theorem sysWrite_effect (s : State) :
    match sysWrite s with
    | .ok t => GateKept s t
    | .error k => k.code ∈ [1, 3] := by
  cases hf : Fd.ofWord? s.regs.ebx with
  | none =>
    rw [sysWrite_badFd hf]
    exact ⟨fun r => get_withEax _ _ r, rfl, rfl, rfl, rfl, id, fun _ _ _ => rfl, .inl ⟨rfl, rfl, rfl⟩⟩
  | some fd =>
    by_cases hb : s.inBounds s.regs.ecx s.regs.edx.toNat
    · cases ha : (s.hostWrite fd (s.mem.readBytes s.regs.ecx.toNat s.regs.edx.toNat)).1 with
      | ok =>
        rw [sysWrite_ok hf hb ha]
        exact ⟨fun r => get_withEax _ _ r, rfl, rfl, rfl, rfl, id, fun _ _ _ => rfl, .inl ⟨rfl, rfl, rfl⟩⟩
      | ioError =>
        rw [sysWrite_ioError hf hb ha]
        exact ⟨fun r => get_withEax _ _ r, rfl, rfl, rfl, rfl, id, fun _ _ _ => rfl, .inl ⟨rfl, rfl, rfl⟩⟩
    · rw [sysWrite_bounds hf hb]; exact List.mem_cons_self ..

/-- All that `int 0x80` may change, and the faults it may raise (49_syscall.md R492, R501, R503). -/
theorem syscallGate_effect (s : State) :
    match syscallGate s with
    | .ok t => GateKept s t
    | .error k => k.code ∈ [1, 3] := by
  rcases syscallGate_cases s with ⟨h, e⟩ | ⟨h, e⟩ | ⟨h, e⟩ | ⟨_, _, _, e⟩ <;> rw [e]
  · exact ⟨fun _ _ => rfl, rfl, rfl, rfl, rfl, id, fun _ _ _ => rfl, .inr ⟨h, rfl⟩⟩
  · exact sysRead_effect s h
  · exact sysWrite_effect s
  · exact List.mem_cons_of_mem _ (List.mem_cons_self ..)

end Sys2Proof.Machine
end

