-- ==== Sys2Proof/Laws/ExecEffects.lean ====
section
/-! SUPPORT. `exec_effect`: what every instruction may change and which faults it may raise, one lemma per constructor
from the lemmas of Laws/Effects. -/

namespace Sys2Proof.Machine

theorem RM.slots_sub (rm : RM) (w : Width) (s : State) : (rm.operand w s).slots ⊆ rm.slots w := by
  cases rm <;> exact List.Subset.refl _

theorem RM.stores_sub (rm : RM) (w : Width) (i : Instr) (s : State) :
    (rm.operand w (s.atNext i)).stores ⊆ rm.stores w s := by
  cases rm <;> exact List.Subset.refl _

theorem RM.codes_sub (rm : RM) (w : Width) (s : State) : (rm.operand w s).codes ⊆ rm.faultCodes := by
  cases rm <;> exact List.Subset.refl _

theorem RM.codes_sub_one (rm : RM) (w : Width) (s : State) : (rm.operand w s).codes ⊆ [1] := by
  cases rm
  · exact List.nil_subset _
  · exact List.Subset.refl _

theorem RM.stores_pop_sub (rm : RM) (w : Width) (i : Instr) (s : State) (v : Word) :
    (rm.operand w ((s.atNext i).withEsp v)).stores ⊆ rm.stores w (s.withEsp v) := by
  cases rm <;> exact List.Subset.refl _

theorem slot_sub (r : Reg) (p : Prefixes) : [r.slot p.osz] ⊆ [r] := by rw [Reg.slot_osz]; exact List.Subset.refl _

theorem slot_mem (r : Reg) (p : Prefixes) : r.slot p.osz ∈ [r] := by rw [Reg.slot_osz]; exact List.mem_singleton.mpr rfl

theorem one_mem {α : Type} {a : α} : a ∈ [a] := List.mem_singleton.mpr rfl

theorem highSlot_mem (p : Prefixes) : (highIndex p.osz).slot p.osz ∈ [Reg.eax, .edx] := by
  rcases p.osz_cases with h | h <;> rw [h] <;> decide

/-- An instruction that runs one handler from EIP_next, which keeps to the lists of Safety. -/
def HasEffect (i : Instr) (s : State) : Prop :=
  ∃ handler, exec i s = complete i handler s ∧
    Effect i.slots i.flagsWritten (i.stores s) i.faultCodes (s.atNext i) (handler (s.atNext i))

theorem effect_addEbGb (p : Prefixes) (rm : RM) (r : Reg) (s : State) : HasEffect (.addEbGb p rm r) s :=
  ⟨_, (rfl : execAddEbGb p rm r s = complete _ _ s),
    alu_effect _ _ _ (List.Subset.refl _) (fun _ => (RM.slots_sub ..)) (fun _ => (RM.stores_sub ..)) (RM.codes_sub ..) (List.nil_subset _)⟩

theorem effect_addEvGv (p : Prefixes) (rm : RM) (r : Reg) (s : State) : HasEffect (.addEvGv p rm r) s :=
  ⟨_, (rfl : execAddEvGv p rm r s = complete _ _ s),
    alu_effect _ _ _ (List.Subset.refl _) (fun _ => (RM.slots_sub ..)) (fun _ => (RM.stores_sub ..)) (RM.codes_sub ..) (List.nil_subset _)⟩

theorem effect_addGbEb (p : Prefixes) (rm : RM) (r : Reg) (s : State) : HasEffect (.addGbEb p rm r) s :=
  ⟨_, (rfl : execAddGbEb p rm r s = complete _ _ s),
    alu_effect _ _ _ (List.Subset.refl _) (fun _ => (List.Subset.refl _)) (fun _ => (List.Subset.refl _)) (List.nil_subset _) (RM.codes_sub ..)⟩

theorem effect_addGvEv (p : Prefixes) (rm : RM) (r : Reg) (s : State) : HasEffect (.addGvEv p rm r) s :=
  ⟨_, (rfl : execAddGvEv p rm r s = complete _ _ s),
    alu_effect _ _ _ (List.Subset.refl _) (fun _ => (slot_sub ..)) (fun _ => (List.Subset.refl _)) (List.nil_subset _) (RM.codes_sub ..)⟩

theorem effect_addAlIb (p : Prefixes) (imm : Byte) (s : State) : HasEffect (.addAlIb p imm) s :=
  ⟨_, (rfl : execAddAlIb p imm s = complete _ _ s),
    alu_effect _ _ _ (List.Subset.refl _) (fun _ => (List.Subset.refl _)) (fun _ => (List.Subset.refl _)) (List.nil_subset _) (List.nil_subset _)⟩

theorem effect_addEaxIz (p : Prefixes) (imm : Word) (s : State) : HasEffect (.addEaxIz p imm) s :=
  ⟨_, (rfl : execAddEaxIz p imm s = complete _ _ s),
    alu_effect _ _ _ (List.Subset.refl _) (fun _ => (slot_sub ..)) (fun _ => (List.Subset.refl _)) (List.nil_subset _) (List.nil_subset _)⟩

theorem effect_orEbGb (p : Prefixes) (rm : RM) (r : Reg) (s : State) : HasEffect (.orEbGb p rm r) s :=
  ⟨_, (rfl : execOrEbGb p rm r s = complete _ _ s),
    alu_effect _ _ _ (List.Subset.refl _) (fun _ => (RM.slots_sub ..)) (fun _ => (RM.stores_sub ..)) (RM.codes_sub ..) (List.nil_subset _)⟩

theorem effect_orEvGv (p : Prefixes) (rm : RM) (r : Reg) (s : State) : HasEffect (.orEvGv p rm r) s :=
  ⟨_, (rfl : execOrEvGv p rm r s = complete _ _ s),
    alu_effect _ _ _ (List.Subset.refl _) (fun _ => (RM.slots_sub ..)) (fun _ => (RM.stores_sub ..)) (RM.codes_sub ..) (List.nil_subset _)⟩

theorem effect_orGbEb (p : Prefixes) (rm : RM) (r : Reg) (s : State) : HasEffect (.orGbEb p rm r) s :=
  ⟨_, (rfl : execOrGbEb p rm r s = complete _ _ s),
    alu_effect _ _ _ (List.Subset.refl _) (fun _ => (List.Subset.refl _)) (fun _ => (List.Subset.refl _)) (List.nil_subset _) (RM.codes_sub ..)⟩

theorem effect_orGvEv (p : Prefixes) (rm : RM) (r : Reg) (s : State) : HasEffect (.orGvEv p rm r) s :=
  ⟨_, (rfl : execOrGvEv p rm r s = complete _ _ s),
    alu_effect _ _ _ (List.Subset.refl _) (fun _ => (slot_sub ..)) (fun _ => (List.Subset.refl _)) (List.nil_subset _) (RM.codes_sub ..)⟩

theorem effect_orAlIb (p : Prefixes) (imm : Byte) (s : State) : HasEffect (.orAlIb p imm) s :=
  ⟨_, (rfl : execOrAlIb p imm s = complete _ _ s),
    alu_effect _ _ _ (List.Subset.refl _) (fun _ => (List.Subset.refl _)) (fun _ => (List.Subset.refl _)) (List.nil_subset _) (List.nil_subset _)⟩

theorem effect_orEaxIz (p : Prefixes) (imm : Word) (s : State) : HasEffect (.orEaxIz p imm) s :=
  ⟨_, (rfl : execOrEaxIz p imm s = complete _ _ s),
    alu_effect _ _ _ (List.Subset.refl _) (fun _ => (slot_sub ..)) (fun _ => (List.Subset.refl _)) (List.nil_subset _) (List.nil_subset _)⟩

theorem effect_adcEbGb (p : Prefixes) (rm : RM) (r : Reg) (s : State) : HasEffect (.adcEbGb p rm r) s :=
  ⟨_, (rfl : execAdcEbGb p rm r s = complete _ _ s),
    alu_effect _ _ _ (List.Subset.refl _) (fun _ => (RM.slots_sub ..)) (fun _ => (RM.stores_sub ..)) (RM.codes_sub ..) (List.nil_subset _)⟩

theorem effect_adcEvGv (p : Prefixes) (rm : RM) (r : Reg) (s : State) : HasEffect (.adcEvGv p rm r) s :=
  ⟨_, (rfl : execAdcEvGv p rm r s = complete _ _ s),
    alu_effect _ _ _ (List.Subset.refl _) (fun _ => (RM.slots_sub ..)) (fun _ => (RM.stores_sub ..)) (RM.codes_sub ..) (List.nil_subset _)⟩

theorem effect_adcGbEb (p : Prefixes) (rm : RM) (r : Reg) (s : State) : HasEffect (.adcGbEb p rm r) s :=
  ⟨_, (rfl : execAdcGbEb p rm r s = complete _ _ s),
    alu_effect _ _ _ (List.Subset.refl _) (fun _ => (List.Subset.refl _)) (fun _ => (List.Subset.refl _)) (List.nil_subset _) (RM.codes_sub ..)⟩

theorem effect_adcGvEv (p : Prefixes) (rm : RM) (r : Reg) (s : State) : HasEffect (.adcGvEv p rm r) s :=
  ⟨_, (rfl : execAdcGvEv p rm r s = complete _ _ s),
    alu_effect _ _ _ (List.Subset.refl _) (fun _ => (slot_sub ..)) (fun _ => (List.Subset.refl _)) (List.nil_subset _) (RM.codes_sub ..)⟩

theorem effect_adcAlIb (p : Prefixes) (imm : Byte) (s : State) : HasEffect (.adcAlIb p imm) s :=
  ⟨_, (rfl : execAdcAlIb p imm s = complete _ _ s),
    alu_effect _ _ _ (List.Subset.refl _) (fun _ => (List.Subset.refl _)) (fun _ => (List.Subset.refl _)) (List.nil_subset _) (List.nil_subset _)⟩

theorem effect_adcEaxIz (p : Prefixes) (imm : Word) (s : State) : HasEffect (.adcEaxIz p imm) s :=
  ⟨_, (rfl : execAdcEaxIz p imm s = complete _ _ s),
    alu_effect _ _ _ (List.Subset.refl _) (fun _ => (slot_sub ..)) (fun _ => (List.Subset.refl _)) (List.nil_subset _) (List.nil_subset _)⟩

theorem effect_sbbEbGb (p : Prefixes) (rm : RM) (r : Reg) (s : State) : HasEffect (.sbbEbGb p rm r) s :=
  ⟨_, (rfl : execSbbEbGb p rm r s = complete _ _ s),
    alu_effect _ _ _ (List.Subset.refl _) (fun _ => (RM.slots_sub ..)) (fun _ => (RM.stores_sub ..)) (RM.codes_sub ..) (List.nil_subset _)⟩

theorem effect_sbbEvGv (p : Prefixes) (rm : RM) (r : Reg) (s : State) : HasEffect (.sbbEvGv p rm r) s :=
  ⟨_, (rfl : execSbbEvGv p rm r s = complete _ _ s),
    alu_effect _ _ _ (List.Subset.refl _) (fun _ => (RM.slots_sub ..)) (fun _ => (RM.stores_sub ..)) (RM.codes_sub ..) (List.nil_subset _)⟩

theorem effect_sbbGbEb (p : Prefixes) (rm : RM) (r : Reg) (s : State) : HasEffect (.sbbGbEb p rm r) s :=
  ⟨_, (rfl : execSbbGbEb p rm r s = complete _ _ s),
    alu_effect _ _ _ (List.Subset.refl _) (fun _ => (List.Subset.refl _)) (fun _ => (List.Subset.refl _)) (List.nil_subset _) (RM.codes_sub ..)⟩

theorem effect_sbbGvEv (p : Prefixes) (rm : RM) (r : Reg) (s : State) : HasEffect (.sbbGvEv p rm r) s :=
  ⟨_, (rfl : execSbbGvEv p rm r s = complete _ _ s),
    alu_effect _ _ _ (List.Subset.refl _) (fun _ => (slot_sub ..)) (fun _ => (List.Subset.refl _)) (List.nil_subset _) (RM.codes_sub ..)⟩

theorem effect_sbbAlIb (p : Prefixes) (imm : Byte) (s : State) : HasEffect (.sbbAlIb p imm) s :=
  ⟨_, (rfl : execSbbAlIb p imm s = complete _ _ s),
    alu_effect _ _ _ (List.Subset.refl _) (fun _ => (List.Subset.refl _)) (fun _ => (List.Subset.refl _)) (List.nil_subset _) (List.nil_subset _)⟩

theorem effect_sbbEaxIz (p : Prefixes) (imm : Word) (s : State) : HasEffect (.sbbEaxIz p imm) s :=
  ⟨_, (rfl : execSbbEaxIz p imm s = complete _ _ s),
    alu_effect _ _ _ (List.Subset.refl _) (fun _ => (slot_sub ..)) (fun _ => (List.Subset.refl _)) (List.nil_subset _) (List.nil_subset _)⟩

theorem effect_andEbGb (p : Prefixes) (rm : RM) (r : Reg) (s : State) : HasEffect (.andEbGb p rm r) s :=
  ⟨_, (rfl : execAndEbGb p rm r s = complete _ _ s),
    alu_effect _ _ _ (List.Subset.refl _) (fun _ => (RM.slots_sub ..)) (fun _ => (RM.stores_sub ..)) (RM.codes_sub ..) (List.nil_subset _)⟩

theorem effect_andEvGv (p : Prefixes) (rm : RM) (r : Reg) (s : State) : HasEffect (.andEvGv p rm r) s :=
  ⟨_, (rfl : execAndEvGv p rm r s = complete _ _ s),
    alu_effect _ _ _ (List.Subset.refl _) (fun _ => (RM.slots_sub ..)) (fun _ => (RM.stores_sub ..)) (RM.codes_sub ..) (List.nil_subset _)⟩

theorem effect_andGbEb (p : Prefixes) (rm : RM) (r : Reg) (s : State) : HasEffect (.andGbEb p rm r) s :=
  ⟨_, (rfl : execAndGbEb p rm r s = complete _ _ s),
    alu_effect _ _ _ (List.Subset.refl _) (fun _ => (List.Subset.refl _)) (fun _ => (List.Subset.refl _)) (List.nil_subset _) (RM.codes_sub ..)⟩

theorem effect_andGvEv (p : Prefixes) (rm : RM) (r : Reg) (s : State) : HasEffect (.andGvEv p rm r) s :=
  ⟨_, (rfl : execAndGvEv p rm r s = complete _ _ s),
    alu_effect _ _ _ (List.Subset.refl _) (fun _ => (slot_sub ..)) (fun _ => (List.Subset.refl _)) (List.nil_subset _) (RM.codes_sub ..)⟩

theorem effect_andAlIb (p : Prefixes) (imm : Byte) (s : State) : HasEffect (.andAlIb p imm) s :=
  ⟨_, (rfl : execAndAlIb p imm s = complete _ _ s),
    alu_effect _ _ _ (List.Subset.refl _) (fun _ => (List.Subset.refl _)) (fun _ => (List.Subset.refl _)) (List.nil_subset _) (List.nil_subset _)⟩

theorem effect_andEaxIz (p : Prefixes) (imm : Word) (s : State) : HasEffect (.andEaxIz p imm) s :=
  ⟨_, (rfl : execAndEaxIz p imm s = complete _ _ s),
    alu_effect _ _ _ (List.Subset.refl _) (fun _ => (slot_sub ..)) (fun _ => (List.Subset.refl _)) (List.nil_subset _) (List.nil_subset _)⟩

theorem effect_subEbGb (p : Prefixes) (rm : RM) (r : Reg) (s : State) : HasEffect (.subEbGb p rm r) s :=
  ⟨_, (rfl : execSubEbGb p rm r s = complete _ _ s),
    alu_effect _ _ _ (List.Subset.refl _) (fun _ => (RM.slots_sub ..)) (fun _ => (RM.stores_sub ..)) (RM.codes_sub ..) (List.nil_subset _)⟩

theorem effect_subEvGv (p : Prefixes) (rm : RM) (r : Reg) (s : State) : HasEffect (.subEvGv p rm r) s :=
  ⟨_, (rfl : execSubEvGv p rm r s = complete _ _ s),
    alu_effect _ _ _ (List.Subset.refl _) (fun _ => (RM.slots_sub ..)) (fun _ => (RM.stores_sub ..)) (RM.codes_sub ..) (List.nil_subset _)⟩

theorem effect_subGbEb (p : Prefixes) (rm : RM) (r : Reg) (s : State) : HasEffect (.subGbEb p rm r) s :=
  ⟨_, (rfl : execSubGbEb p rm r s = complete _ _ s),
    alu_effect _ _ _ (List.Subset.refl _) (fun _ => (List.Subset.refl _)) (fun _ => (List.Subset.refl _)) (List.nil_subset _) (RM.codes_sub ..)⟩

theorem effect_subGvEv (p : Prefixes) (rm : RM) (r : Reg) (s : State) : HasEffect (.subGvEv p rm r) s :=
  ⟨_, (rfl : execSubGvEv p rm r s = complete _ _ s),
    alu_effect _ _ _ (List.Subset.refl _) (fun _ => (slot_sub ..)) (fun _ => (List.Subset.refl _)) (List.nil_subset _) (RM.codes_sub ..)⟩

theorem effect_subAlIb (p : Prefixes) (imm : Byte) (s : State) : HasEffect (.subAlIb p imm) s :=
  ⟨_, (rfl : execSubAlIb p imm s = complete _ _ s),
    alu_effect _ _ _ (List.Subset.refl _) (fun _ => (List.Subset.refl _)) (fun _ => (List.Subset.refl _)) (List.nil_subset _) (List.nil_subset _)⟩

theorem effect_subEaxIz (p : Prefixes) (imm : Word) (s : State) : HasEffect (.subEaxIz p imm) s :=
  ⟨_, (rfl : execSubEaxIz p imm s = complete _ _ s),
    alu_effect _ _ _ (List.Subset.refl _) (fun _ => (slot_sub ..)) (fun _ => (List.Subset.refl _)) (List.nil_subset _) (List.nil_subset _)⟩

theorem effect_xorEbGb (p : Prefixes) (rm : RM) (r : Reg) (s : State) : HasEffect (.xorEbGb p rm r) s :=
  ⟨_, (rfl : execXorEbGb p rm r s = complete _ _ s),
    alu_effect _ _ _ (List.Subset.refl _) (fun _ => (RM.slots_sub ..)) (fun _ => (RM.stores_sub ..)) (RM.codes_sub ..) (List.nil_subset _)⟩

theorem effect_xorEvGv (p : Prefixes) (rm : RM) (r : Reg) (s : State) : HasEffect (.xorEvGv p rm r) s :=
  ⟨_, (rfl : execXorEvGv p rm r s = complete _ _ s),
    alu_effect _ _ _ (List.Subset.refl _) (fun _ => (RM.slots_sub ..)) (fun _ => (RM.stores_sub ..)) (RM.codes_sub ..) (List.nil_subset _)⟩

theorem effect_xorGbEb (p : Prefixes) (rm : RM) (r : Reg) (s : State) : HasEffect (.xorGbEb p rm r) s :=
  ⟨_, (rfl : execXorGbEb p rm r s = complete _ _ s),
    alu_effect _ _ _ (List.Subset.refl _) (fun _ => (List.Subset.refl _)) (fun _ => (List.Subset.refl _)) (List.nil_subset _) (RM.codes_sub ..)⟩

theorem effect_xorGvEv (p : Prefixes) (rm : RM) (r : Reg) (s : State) : HasEffect (.xorGvEv p rm r) s :=
  ⟨_, (rfl : execXorGvEv p rm r s = complete _ _ s),
    alu_effect _ _ _ (List.Subset.refl _) (fun _ => (slot_sub ..)) (fun _ => (List.Subset.refl _)) (List.nil_subset _) (RM.codes_sub ..)⟩

theorem effect_xorAlIb (p : Prefixes) (imm : Byte) (s : State) : HasEffect (.xorAlIb p imm) s :=
  ⟨_, (rfl : execXorAlIb p imm s = complete _ _ s),
    alu_effect _ _ _ (List.Subset.refl _) (fun _ => (List.Subset.refl _)) (fun _ => (List.Subset.refl _)) (List.nil_subset _) (List.nil_subset _)⟩

theorem effect_xorEaxIz (p : Prefixes) (imm : Word) (s : State) : HasEffect (.xorEaxIz p imm) s :=
  ⟨_, (rfl : execXorEaxIz p imm s = complete _ _ s),
    alu_effect _ _ _ (List.Subset.refl _) (fun _ => (slot_sub ..)) (fun _ => (List.Subset.refl _)) (List.nil_subset _) (List.nil_subset _)⟩

theorem effect_cmpEbGb (p : Prefixes) (rm : RM) (r : Reg) (s : State) : HasEffect (.cmpEbGb p rm r) s :=
  ⟨_, (rfl : execCmpEbGb p rm r s = complete _ _ s),
    alu_effect _ _ _ (List.Subset.refl _) (absurd rfl) (absurd rfl) (RM.codes_sub ..) (List.nil_subset _)⟩

theorem effect_cmpEvGv (p : Prefixes) (rm : RM) (r : Reg) (s : State) : HasEffect (.cmpEvGv p rm r) s :=
  ⟨_, (rfl : execCmpEvGv p rm r s = complete _ _ s),
    alu_effect _ _ _ (List.Subset.refl _) (absurd rfl) (absurd rfl) (RM.codes_sub ..) (List.nil_subset _)⟩

theorem effect_cmpGbEb (p : Prefixes) (rm : RM) (r : Reg) (s : State) : HasEffect (.cmpGbEb p rm r) s :=
  ⟨_, (rfl : execCmpGbEb p rm r s = complete _ _ s),
    alu_effect _ _ _ (List.Subset.refl _) (absurd rfl) (absurd rfl) (List.nil_subset _) (RM.codes_sub ..)⟩

theorem effect_cmpGvEv (p : Prefixes) (rm : RM) (r : Reg) (s : State) : HasEffect (.cmpGvEv p rm r) s :=
  ⟨_, (rfl : execCmpGvEv p rm r s = complete _ _ s),
    alu_effect _ _ _ (List.Subset.refl _) (absurd rfl) (absurd rfl) (List.nil_subset _) (RM.codes_sub ..)⟩

theorem effect_cmpAlIb (p : Prefixes) (imm : Byte) (s : State) : HasEffect (.cmpAlIb p imm) s :=
  ⟨_, (rfl : execCmpAlIb p imm s = complete _ _ s),
    alu_effect _ _ _ (List.Subset.refl _) (absurd rfl) (absurd rfl) (List.nil_subset _) (List.nil_subset _)⟩

theorem effect_cmpEaxIz (p : Prefixes) (imm : Word) (s : State) : HasEffect (.cmpEaxIz p imm) s :=
  ⟨_, (rfl : execCmpEaxIz p imm s = complete _ _ s),
    alu_effect _ _ _ (List.Subset.refl _) (absurd rfl) (absurd rfl) (List.nil_subset _) (List.nil_subset _)⟩

theorem effect_addEbIb (p : Prefixes) (rm : RM) (imm : Byte) (s : State) : HasEffect (.addEbIb p rm imm) s :=
  ⟨_, (rfl : execAddEbIb p rm imm s = complete _ _ s),
    alu_effect _ _ _ (List.Subset.refl _) (fun _ => (RM.slots_sub ..)) (fun _ => (RM.stores_sub ..)) (RM.codes_sub ..) (List.nil_subset _)⟩

theorem effect_addEvIz (p : Prefixes) (rm : RM) (imm : Word) (s : State) : HasEffect (.addEvIz p rm imm) s :=
  ⟨_, (rfl : execAddEvIz p rm imm s = complete _ _ s),
    alu_effect _ _ _ (List.Subset.refl _) (fun _ => (RM.slots_sub ..)) (fun _ => (RM.stores_sub ..)) (RM.codes_sub ..) (List.nil_subset _)⟩

theorem effect_addEvIb (p : Prefixes) (rm : RM) (imm : Byte) (s : State) : HasEffect (.addEvIb p rm imm) s :=
  ⟨_, (rfl : execAddEvIb p rm imm s = complete _ _ s),
    alu_effect _ _ _ (List.Subset.refl _) (fun _ => (RM.slots_sub ..)) (fun _ => (RM.stores_sub ..)) (RM.codes_sub ..) (List.nil_subset _)⟩

theorem effect_orEbIb (p : Prefixes) (rm : RM) (imm : Byte) (s : State) : HasEffect (.orEbIb p rm imm) s :=
  ⟨_, (rfl : execOrEbIb p rm imm s = complete _ _ s),
    alu_effect _ _ _ (List.Subset.refl _) (fun _ => (RM.slots_sub ..)) (fun _ => (RM.stores_sub ..)) (RM.codes_sub ..) (List.nil_subset _)⟩

theorem effect_orEvIz (p : Prefixes) (rm : RM) (imm : Word) (s : State) : HasEffect (.orEvIz p rm imm) s :=
  ⟨_, (rfl : execOrEvIz p rm imm s = complete _ _ s),
    alu_effect _ _ _ (List.Subset.refl _) (fun _ => (RM.slots_sub ..)) (fun _ => (RM.stores_sub ..)) (RM.codes_sub ..) (List.nil_subset _)⟩

theorem effect_orEvIb (p : Prefixes) (rm : RM) (imm : Byte) (s : State) : HasEffect (.orEvIb p rm imm) s :=
  ⟨_, (rfl : execOrEvIb p rm imm s = complete _ _ s),
    alu_effect _ _ _ (List.Subset.refl _) (fun _ => (RM.slots_sub ..)) (fun _ => (RM.stores_sub ..)) (RM.codes_sub ..) (List.nil_subset _)⟩

theorem effect_adcEbIb (p : Prefixes) (rm : RM) (imm : Byte) (s : State) : HasEffect (.adcEbIb p rm imm) s :=
  ⟨_, (rfl : execAdcEbIb p rm imm s = complete _ _ s),
    alu_effect _ _ _ (List.Subset.refl _) (fun _ => (RM.slots_sub ..)) (fun _ => (RM.stores_sub ..)) (RM.codes_sub ..) (List.nil_subset _)⟩

theorem effect_adcEvIz (p : Prefixes) (rm : RM) (imm : Word) (s : State) : HasEffect (.adcEvIz p rm imm) s :=
  ⟨_, (rfl : execAdcEvIz p rm imm s = complete _ _ s),
    alu_effect _ _ _ (List.Subset.refl _) (fun _ => (RM.slots_sub ..)) (fun _ => (RM.stores_sub ..)) (RM.codes_sub ..) (List.nil_subset _)⟩

theorem effect_adcEvIb (p : Prefixes) (rm : RM) (imm : Byte) (s : State) : HasEffect (.adcEvIb p rm imm) s :=
  ⟨_, (rfl : execAdcEvIb p rm imm s = complete _ _ s),
    alu_effect _ _ _ (List.Subset.refl _) (fun _ => (RM.slots_sub ..)) (fun _ => (RM.stores_sub ..)) (RM.codes_sub ..) (List.nil_subset _)⟩

theorem effect_sbbEbIb (p : Prefixes) (rm : RM) (imm : Byte) (s : State) : HasEffect (.sbbEbIb p rm imm) s :=
  ⟨_, (rfl : execSbbEbIb p rm imm s = complete _ _ s),
    alu_effect _ _ _ (List.Subset.refl _) (fun _ => (RM.slots_sub ..)) (fun _ => (RM.stores_sub ..)) (RM.codes_sub ..) (List.nil_subset _)⟩

theorem effect_sbbEvIz (p : Prefixes) (rm : RM) (imm : Word) (s : State) : HasEffect (.sbbEvIz p rm imm) s :=
  ⟨_, (rfl : execSbbEvIz p rm imm s = complete _ _ s),
    alu_effect _ _ _ (List.Subset.refl _) (fun _ => (RM.slots_sub ..)) (fun _ => (RM.stores_sub ..)) (RM.codes_sub ..) (List.nil_subset _)⟩

theorem effect_sbbEvIb (p : Prefixes) (rm : RM) (imm : Byte) (s : State) : HasEffect (.sbbEvIb p rm imm) s :=
  ⟨_, (rfl : execSbbEvIb p rm imm s = complete _ _ s),
    alu_effect _ _ _ (List.Subset.refl _) (fun _ => (RM.slots_sub ..)) (fun _ => (RM.stores_sub ..)) (RM.codes_sub ..) (List.nil_subset _)⟩

theorem effect_andEbIb (p : Prefixes) (rm : RM) (imm : Byte) (s : State) : HasEffect (.andEbIb p rm imm) s :=
  ⟨_, (rfl : execAndEbIb p rm imm s = complete _ _ s),
    alu_effect _ _ _ (List.Subset.refl _) (fun _ => (RM.slots_sub ..)) (fun _ => (RM.stores_sub ..)) (RM.codes_sub ..) (List.nil_subset _)⟩

theorem effect_andEvIz (p : Prefixes) (rm : RM) (imm : Word) (s : State) : HasEffect (.andEvIz p rm imm) s :=
  ⟨_, (rfl : execAndEvIz p rm imm s = complete _ _ s),
    alu_effect _ _ _ (List.Subset.refl _) (fun _ => (RM.slots_sub ..)) (fun _ => (RM.stores_sub ..)) (RM.codes_sub ..) (List.nil_subset _)⟩

theorem effect_andEvIb (p : Prefixes) (rm : RM) (imm : Byte) (s : State) : HasEffect (.andEvIb p rm imm) s :=
  ⟨_, (rfl : execAndEvIb p rm imm s = complete _ _ s),
    alu_effect _ _ _ (List.Subset.refl _) (fun _ => (RM.slots_sub ..)) (fun _ => (RM.stores_sub ..)) (RM.codes_sub ..) (List.nil_subset _)⟩

theorem effect_subEbIb (p : Prefixes) (rm : RM) (imm : Byte) (s : State) : HasEffect (.subEbIb p rm imm) s :=
  ⟨_, (rfl : execSubEbIb p rm imm s = complete _ _ s),
    alu_effect _ _ _ (List.Subset.refl _) (fun _ => (RM.slots_sub ..)) (fun _ => (RM.stores_sub ..)) (RM.codes_sub ..) (List.nil_subset _)⟩

theorem effect_subEvIz (p : Prefixes) (rm : RM) (imm : Word) (s : State) : HasEffect (.subEvIz p rm imm) s :=
  ⟨_, (rfl : execSubEvIz p rm imm s = complete _ _ s),
    alu_effect _ _ _ (List.Subset.refl _) (fun _ => (RM.slots_sub ..)) (fun _ => (RM.stores_sub ..)) (RM.codes_sub ..) (List.nil_subset _)⟩

theorem effect_subEvIb (p : Prefixes) (rm : RM) (imm : Byte) (s : State) : HasEffect (.subEvIb p rm imm) s :=
  ⟨_, (rfl : execSubEvIb p rm imm s = complete _ _ s),
    alu_effect _ _ _ (List.Subset.refl _) (fun _ => (RM.slots_sub ..)) (fun _ => (RM.stores_sub ..)) (RM.codes_sub ..) (List.nil_subset _)⟩

theorem effect_xorEbIb (p : Prefixes) (rm : RM) (imm : Byte) (s : State) : HasEffect (.xorEbIb p rm imm) s :=
  ⟨_, (rfl : execXorEbIb p rm imm s = complete _ _ s),
    alu_effect _ _ _ (List.Subset.refl _) (fun _ => (RM.slots_sub ..)) (fun _ => (RM.stores_sub ..)) (RM.codes_sub ..) (List.nil_subset _)⟩

theorem effect_xorEvIz (p : Prefixes) (rm : RM) (imm : Word) (s : State) : HasEffect (.xorEvIz p rm imm) s :=
  ⟨_, (rfl : execXorEvIz p rm imm s = complete _ _ s),
    alu_effect _ _ _ (List.Subset.refl _) (fun _ => (RM.slots_sub ..)) (fun _ => (RM.stores_sub ..)) (RM.codes_sub ..) (List.nil_subset _)⟩

theorem effect_xorEvIb (p : Prefixes) (rm : RM) (imm : Byte) (s : State) : HasEffect (.xorEvIb p rm imm) s :=
  ⟨_, (rfl : execXorEvIb p rm imm s = complete _ _ s),
    alu_effect _ _ _ (List.Subset.refl _) (fun _ => (RM.slots_sub ..)) (fun _ => (RM.stores_sub ..)) (RM.codes_sub ..) (List.nil_subset _)⟩

theorem effect_cmpEbIb (p : Prefixes) (rm : RM) (imm : Byte) (s : State) : HasEffect (.cmpEbIb p rm imm) s :=
  ⟨_, (rfl : execCmpEbIb p rm imm s = complete _ _ s),
    alu_effect _ _ _ (List.Subset.refl _) (absurd rfl) (absurd rfl) (RM.codes_sub ..) (List.nil_subset _)⟩

theorem effect_cmpEvIz (p : Prefixes) (rm : RM) (imm : Word) (s : State) : HasEffect (.cmpEvIz p rm imm) s :=
  ⟨_, (rfl : execCmpEvIz p rm imm s = complete _ _ s),
    alu_effect _ _ _ (List.Subset.refl _) (absurd rfl) (absurd rfl) (RM.codes_sub ..) (List.nil_subset _)⟩

theorem effect_cmpEvIb (p : Prefixes) (rm : RM) (imm : Byte) (s : State) : HasEffect (.cmpEvIb p rm imm) s :=
  ⟨_, (rfl : execCmpEvIb p rm imm s = complete _ _ s),
    alu_effect _ _ _ (List.Subset.refl _) (absurd rfl) (absurd rfl) (RM.codes_sub ..) (List.nil_subset _)⟩

theorem effect_incR (p : Prefixes) (r : Reg) (s : State) : HasEffect (.incR p r) s :=
  ⟨_, (rfl : execIncR p r s = complete _ _ s),
    increment_effect _ (List.Subset.refl _) (slot_sub ..) (List.Subset.refl _) (List.nil_subset _)⟩

theorem effect_decR (p : Prefixes) (r : Reg) (s : State) : HasEffect (.decR p r) s :=
  ⟨_, (rfl : execDecR p r s = complete _ _ s),
    decrement_effect _ (List.Subset.refl _) (slot_sub ..) (List.Subset.refl _) (List.nil_subset _)⟩

theorem effect_pushR (p : Prefixes) (r : Reg) (s : State) : HasEffect (.pushR p r) s :=
  ⟨_, (rfl : execPushR p r s = complete _ _ s),
    push_effect _ one_mem (List.Subset.refl _) one_mem⟩

theorem effect_popR (p : Prefixes) (r : Reg) (s : State) : HasEffect (.popR p r) s :=
  ⟨_, (rfl : execPopR p r s = complete _ _ s),
    popTo_effect _ (List.mem_cons_self ..) one_mem (fun _ hx => List.mem_cons_of_mem _ (slot_sub _ _ hx)) (List.nil_subset _) (List.nil_subset _)⟩

theorem effect_movsxdGvEv (p : Prefixes) (rm : RM) (r : Reg) (s : State) : HasEffect (.movsxdGvEv p rm r) s :=
  ⟨_, (rfl : execMovsxdGvEv p rm r s = complete _ _ s),
    move_effect _ _ (slot_sub ..) (List.Subset.refl _) (List.nil_subset _) (RM.codes_sub ..)⟩

theorem effect_pushIz (p : Prefixes) (imm : Word) (s : State) : HasEffect (.pushIz p imm) s :=
  ⟨_, (rfl : execPushIz p imm s = complete _ _ s),
    push_effect _ one_mem (List.Subset.refl _) one_mem⟩

theorem effect_imulGvEvIz (p : Prefixes) (rm : RM) (r : Reg) (imm : Word) (s : State) : HasEffect (.imulGvEvIz p rm r imm) s :=
  ⟨_, (rfl : execImulGvEvIz p rm r imm s = complete _ _ s),
    imulTo_effect _ _ _ (List.Subset.refl _) (slot_mem ..) (RM.codes_sub ..) (List.nil_subset _)⟩

theorem effect_pushIb (p : Prefixes) (imm : Byte) (s : State) : HasEffect (.pushIb p imm) s :=
  ⟨_, (rfl : execPushIb p imm s = complete _ _ s),
    push_effect _ one_mem (List.Subset.refl _) one_mem⟩

theorem effect_imulGvEvIb (p : Prefixes) (rm : RM) (r : Reg) (imm : Byte) (s : State) : HasEffect (.imulGvEvIb p rm r imm) s :=
  ⟨_, (rfl : execImulGvEvIb p rm r imm s = complete _ _ s),
    imulTo_effect _ _ _ (List.Subset.refl _) (slot_mem ..) (RM.codes_sub ..) (List.nil_subset _)⟩

theorem effect_joRel8 (p : Prefixes) (rel : Byte) (s : State) : HasEffect (.joRel8 p rel) s :=
  ⟨_, (rfl : execJoRel8 p rel s = complete _ _ s),
    jumpIf_effect _ _⟩

theorem effect_jnoRel8 (p : Prefixes) (rel : Byte) (s : State) : HasEffect (.jnoRel8 p rel) s :=
  ⟨_, (rfl : execJnoRel8 p rel s = complete _ _ s),
    jumpIf_effect _ _⟩

theorem effect_jbRel8 (p : Prefixes) (rel : Byte) (s : State) : HasEffect (.jbRel8 p rel) s :=
  ⟨_, (rfl : execJbRel8 p rel s = complete _ _ s),
    jumpIf_effect _ _⟩

theorem effect_jaeRel8 (p : Prefixes) (rel : Byte) (s : State) : HasEffect (.jaeRel8 p rel) s :=
  ⟨_, (rfl : execJaeRel8 p rel s = complete _ _ s),
    jumpIf_effect _ _⟩

theorem effect_jeRel8 (p : Prefixes) (rel : Byte) (s : State) : HasEffect (.jeRel8 p rel) s :=
  ⟨_, (rfl : execJeRel8 p rel s = complete _ _ s),
    jumpIf_effect _ _⟩

theorem effect_jneRel8 (p : Prefixes) (rel : Byte) (s : State) : HasEffect (.jneRel8 p rel) s :=
  ⟨_, (rfl : execJneRel8 p rel s = complete _ _ s),
    jumpIf_effect _ _⟩

theorem effect_jbeRel8 (p : Prefixes) (rel : Byte) (s : State) : HasEffect (.jbeRel8 p rel) s :=
  ⟨_, (rfl : execJbeRel8 p rel s = complete _ _ s),
    jumpIf_effect _ _⟩

theorem effect_jaRel8 (p : Prefixes) (rel : Byte) (s : State) : HasEffect (.jaRel8 p rel) s :=
  ⟨_, (rfl : execJaRel8 p rel s = complete _ _ s),
    jumpIf_effect _ _⟩

theorem effect_jsRel8 (p : Prefixes) (rel : Byte) (s : State) : HasEffect (.jsRel8 p rel) s :=
  ⟨_, (rfl : execJsRel8 p rel s = complete _ _ s),
    jumpIf_effect _ _⟩

theorem effect_jnsRel8 (p : Prefixes) (rel : Byte) (s : State) : HasEffect (.jnsRel8 p rel) s :=
  ⟨_, (rfl : execJnsRel8 p rel s = complete _ _ s),
    jumpIf_effect _ _⟩

theorem effect_jpRel8 (p : Prefixes) (rel : Byte) (s : State) : HasEffect (.jpRel8 p rel) s :=
  ⟨_, (rfl : execJpRel8 p rel s = complete _ _ s),
    jumpIf_effect _ _⟩

theorem effect_jnpRel8 (p : Prefixes) (rel : Byte) (s : State) : HasEffect (.jnpRel8 p rel) s :=
  ⟨_, (rfl : execJnpRel8 p rel s = complete _ _ s),
    jumpIf_effect _ _⟩

theorem effect_jlRel8 (p : Prefixes) (rel : Byte) (s : State) : HasEffect (.jlRel8 p rel) s :=
  ⟨_, (rfl : execJlRel8 p rel s = complete _ _ s),
    jumpIf_effect _ _⟩

theorem effect_jgeRel8 (p : Prefixes) (rel : Byte) (s : State) : HasEffect (.jgeRel8 p rel) s :=
  ⟨_, (rfl : execJgeRel8 p rel s = complete _ _ s),
    jumpIf_effect _ _⟩

theorem effect_jleRel8 (p : Prefixes) (rel : Byte) (s : State) : HasEffect (.jleRel8 p rel) s :=
  ⟨_, (rfl : execJleRel8 p rel s = complete _ _ s),
    jumpIf_effect _ _⟩

theorem effect_jgRel8 (p : Prefixes) (rel : Byte) (s : State) : HasEffect (.jgRel8 p rel) s :=
  ⟨_, (rfl : execJgRel8 p rel s = complete _ _ s),
    jumpIf_effect _ _⟩

theorem effect_testEbGb (p : Prefixes) (rm : RM) (r : Reg) (s : State) : HasEffect (.testEbGb p rm r) s :=
  ⟨_, (rfl : execTestEbGb p rm r s = complete _ _ s),
    test_effect _ _ (List.Subset.refl _) (RM.codes_sub ..) trivial⟩

theorem effect_testEvGv (p : Prefixes) (rm : RM) (r : Reg) (s : State) : HasEffect (.testEvGv p rm r) s :=
  ⟨_, (rfl : execTestEvGv p rm r s = complete _ _ s),
    test_effect _ _ (List.Subset.refl _) (RM.codes_sub ..) trivial⟩

theorem effect_xchgEbGb (p : Prefixes) (rm : RM) (r : Reg) (s : State) : HasEffect (.xchgEbGb p rm r) s :=
  ⟨_, (rfl : execXchgEbGb p rm r s = complete _ _ s),
    exchange_effect _ _ (fun _ hx => List.mem_append_left _ (RM.slots_sub _ _ _ hx)) (List.mem_append_right _ (List.mem_singleton.mpr rfl)) (RM.stores_sub ..) (RM.codes_sub ..)⟩

theorem effect_xchgEvGv (p : Prefixes) (rm : RM) (r : Reg) (s : State) : HasEffect (.xchgEvGv p rm r) s :=
  ⟨_, (rfl : execXchgEvGv p rm r s = complete _ _ s),
    exchange_effect _ _ (fun _ hx => List.mem_append_left _ (RM.slots_sub _ _ _ hx)) (List.mem_append_right _ (slot_mem ..)) (RM.stores_sub ..) (RM.codes_sub ..)⟩

theorem effect_movEbGb (p : Prefixes) (rm : RM) (r : Reg) (s : State) : HasEffect (.movEbGb p rm r) s :=
  ⟨_, (rfl : execMovEbGb p rm r s = complete _ _ s),
    move_effect _ _ (RM.slots_sub ..) (RM.stores_sub ..) (RM.codes_sub ..) (List.nil_subset _)⟩

theorem effect_movEvGv (p : Prefixes) (rm : RM) (r : Reg) (s : State) : HasEffect (.movEvGv p rm r) s :=
  ⟨_, (rfl : execMovEvGv p rm r s = complete _ _ s),
    move_effect _ _ (RM.slots_sub ..) (RM.stores_sub ..) (RM.codes_sub ..) (List.nil_subset _)⟩

theorem effect_movGbEb (p : Prefixes) (rm : RM) (r : Reg) (s : State) : HasEffect (.movGbEb p rm r) s :=
  ⟨_, (rfl : execMovGbEb p rm r s = complete _ _ s),
    move_effect _ _ (List.Subset.refl _) (List.Subset.refl _) (List.nil_subset _) (RM.codes_sub ..)⟩

theorem effect_movGvEv (p : Prefixes) (rm : RM) (r : Reg) (s : State) : HasEffect (.movGvEv p rm r) s :=
  ⟨_, (rfl : execMovGvEv p rm r s = complete _ _ s),
    move_effect _ _ (slot_sub ..) (List.Subset.refl _) (List.nil_subset _) (RM.codes_sub ..)⟩

theorem effect_leaGvM (p : Prefixes) (r : Reg) (a : Addr) (s : State) : HasEffect (.leaGvM p r a) s :=
  ⟨_, (rfl : execLeaGvM p r a s = complete _ _ s),
    Kept.regWrite _ (slot_mem ..)⟩

theorem effect_popEv (p : Prefixes) (rm : RM) (s : State) : HasEffect (.popEv p rm) s :=
  ⟨_, (rfl : execPopEv p rm s = complete _ _ s),
    popTo_effect _ (List.mem_cons_self ..) (List.mem_cons_self ..) (fun _ hx => List.mem_cons_of_mem _ (RM.slots_sub _ _ _ hx)) (RM.stores_pop_sub ..) (fun _ hx => List.mem_cons_of_mem _ (RM.codes_sub _ _ _ hx))⟩

theorem effect_nop (p : Prefixes) (s : State) : HasEffect (.nop p) s :=
  ⟨_, (rfl : execNop p s = complete _ _ s),
    Kept.refl _⟩

theorem effect_xchgEaxR (p : Prefixes) (r : Reg) (s : State) : HasEffect (.xchgEaxR p r) s :=
  ⟨_, (rfl : execXchgEaxR p r s = complete _ _ s),
    exchange_effect _ _ (fun _ hx => List.mem_cons.mpr (.inl ((List.mem_singleton.mp hx).trans (Reg.slot_osz ..)))) (List.mem_cons_of_mem _ (slot_mem ..)) (List.nil_subset _) (List.nil_subset _)⟩

theorem effect_cwde (p : Prefixes) (s : State) : HasEffect (.cwde p) s :=
  ⟨_, (rfl : execCwde p s = complete _ _ s),
    Kept.regWrite _ one_mem⟩

theorem effect_cbw (p : Prefixes) (s : State) : HasEffect (.cbw p) s :=
  ⟨_, (rfl : execCbw p s = complete _ _ s),
    Kept.regWrite _ one_mem⟩

theorem effect_cdq (p : Prefixes) (s : State) : HasEffect (.cdq p) s :=
  ⟨_, (rfl : execCdq p s = complete _ _ s),
    Kept.regWrite _ one_mem⟩

theorem effect_cwd (p : Prefixes) (s : State) : HasEffect (.cwd p) s :=
  ⟨_, (rfl : execCwd p s = complete _ _ s),
    Kept.regWrite _ one_mem⟩

theorem effect_movAlOb (p : Prefixes) (a : Word) (s : State) : HasEffect (.movAlOb p a) s :=
  ⟨_, (rfl : execMovAlOb p a s = complete _ _ s),
    move_effect _ _ (List.Subset.refl _) (List.Subset.refl _) (List.nil_subset _) (List.Subset.refl _)⟩

theorem effect_movEaxOv (p : Prefixes) (a : Word) (s : State) : HasEffect (.movEaxOv p a) s :=
  ⟨_, (rfl : execMovEaxOv p a s = complete _ _ s),
    move_effect _ _ (slot_sub ..) (List.Subset.refl _) (List.nil_subset _) (List.Subset.refl _)⟩

theorem effect_movObAl (p : Prefixes) (a : Word) (s : State) : HasEffect (.movObAl p a) s :=
  ⟨_, (rfl : execMovObAl p a s = complete _ _ s),
    move_effect _ _ (List.Subset.refl _) (List.Subset.refl _) (List.Subset.refl _) (List.nil_subset _)⟩

theorem effect_movOvEax (p : Prefixes) (a : Word) (s : State) : HasEffect (.movOvEax p a) s :=
  ⟨_, (rfl : execMovOvEax p a s = complete _ _ s),
    move_effect _ _ (List.Subset.refl _) (List.Subset.refl _) (List.Subset.refl _) (List.nil_subset _)⟩

theorem effect_movsb (p : Prefixes) (s : State) : HasEffect (.movsb p) s :=
  ⟨_, (rfl : execMovsb p s = complete _ _ s),
    moveElement_effect _ (List.mem_cons_self ..) (List.mem_cons_of_mem _ one_mem) one_mem one_mem⟩

theorem effect_movsd (p : Prefixes) (s : State) : HasEffect (.movsd p) s :=
  ⟨_, (rfl : execMovsd p s = complete _ _ s),
    moveElement_effect _ (List.mem_cons_self ..) (List.mem_cons_of_mem _ one_mem) one_mem one_mem⟩

theorem effect_movsw (p : Prefixes) (s : State) : HasEffect (.movsw p) s :=
  ⟨_, (rfl : execMovsw p s = complete _ _ s),
    moveElement_effect _ (List.mem_cons_self ..) (List.mem_cons_of_mem _ one_mem) one_mem one_mem⟩

theorem effect_testAlIb (p : Prefixes) (imm : Byte) (s : State) : HasEffect (.testAlIb p imm) s :=
  ⟨_, (rfl : execTestAlIb p imm s = complete _ _ s),
    test_effect _ _ (List.Subset.refl _) (List.nil_subset _) trivial⟩

theorem effect_testEaxIz (p : Prefixes) (imm : Word) (s : State) : HasEffect (.testEaxIz p imm) s :=
  ⟨_, (rfl : execTestEaxIz p imm s = complete _ _ s),
    test_effect _ _ (List.Subset.refl _) (List.nil_subset _) trivial⟩

theorem effect_movRbIb (p : Prefixes) (r : Reg) (imm : Byte) (s : State) : HasEffect (.movRbIb p r imm) s :=
  ⟨_, (rfl : execMovRbIb p r imm s = complete _ _ s),
    move_effect _ _ (List.Subset.refl _) (List.Subset.refl _) (List.nil_subset _) (List.nil_subset _)⟩

theorem effect_movRvIz (p : Prefixes) (r : Reg) (imm : Word) (s : State) : HasEffect (.movRvIz p r imm) s :=
  ⟨_, (rfl : execMovRvIz p r imm s = complete _ _ s),
    move_effect _ _ (slot_sub ..) (List.Subset.refl _) (List.nil_subset _) (List.nil_subset _)⟩

theorem effect_shlEbIb (p : Prefixes) (rm : RM) (imm : Byte) (s : State) : HasEffect (.shlEbIb p rm imm) s :=
  ⟨_, (rfl : execShlEbIb p rm imm s = complete _ _ s),
    shift_effect _ _ _ (List.Subset.refl _) (RM.slots_sub ..) (RM.stores_sub ..) (RM.codes_sub ..)⟩

theorem effect_shlEvIb (p : Prefixes) (rm : RM) (imm : Byte) (s : State) : HasEffect (.shlEvIb p rm imm) s :=
  ⟨_, (rfl : execShlEvIb p rm imm s = complete _ _ s),
    shift_effect _ _ _ (List.Subset.refl _) (RM.slots_sub ..) (RM.stores_sub ..) (RM.codes_sub ..)⟩

theorem effect_shlEb1 (p : Prefixes) (rm : RM) (s : State) : HasEffect (.shlEb1 p rm) s :=
  ⟨_, (rfl : execShlEb1 p rm s = complete _ _ s),
    shift_effect _ _ _ (List.Subset.refl _) (RM.slots_sub ..) (RM.stores_sub ..) (RM.codes_sub ..)⟩

theorem effect_shlEv1 (p : Prefixes) (rm : RM) (s : State) : HasEffect (.shlEv1 p rm) s :=
  ⟨_, (rfl : execShlEv1 p rm s = complete _ _ s),
    shift_effect _ _ _ (List.Subset.refl _) (RM.slots_sub ..) (RM.stores_sub ..) (RM.codes_sub ..)⟩

theorem effect_shlEbCl (p : Prefixes) (rm : RM) (s : State) : HasEffect (.shlEbCl p rm) s :=
  ⟨_, (rfl : execShlEbCl p rm s = complete _ _ s),
    shift_effect _ _ _ (List.Subset.refl _) (RM.slots_sub ..) (RM.stores_sub ..) (RM.codes_sub ..)⟩

theorem effect_shlEvCl (p : Prefixes) (rm : RM) (s : State) : HasEffect (.shlEvCl p rm) s :=
  ⟨_, (rfl : execShlEvCl p rm s = complete _ _ s),
    shift_effect _ _ _ (List.Subset.refl _) (RM.slots_sub ..) (RM.stores_sub ..) (RM.codes_sub ..)⟩

theorem effect_shrEbIb (p : Prefixes) (rm : RM) (imm : Byte) (s : State) : HasEffect (.shrEbIb p rm imm) s :=
  ⟨_, (rfl : execShrEbIb p rm imm s = complete _ _ s),
    shift_effect _ _ _ (List.Subset.refl _) (RM.slots_sub ..) (RM.stores_sub ..) (RM.codes_sub ..)⟩

theorem effect_shrEvIb (p : Prefixes) (rm : RM) (imm : Byte) (s : State) : HasEffect (.shrEvIb p rm imm) s :=
  ⟨_, (rfl : execShrEvIb p rm imm s = complete _ _ s),
    shift_effect _ _ _ (List.Subset.refl _) (RM.slots_sub ..) (RM.stores_sub ..) (RM.codes_sub ..)⟩

theorem effect_shrEb1 (p : Prefixes) (rm : RM) (s : State) : HasEffect (.shrEb1 p rm) s :=
  ⟨_, (rfl : execShrEb1 p rm s = complete _ _ s),
    shift_effect _ _ _ (List.Subset.refl _) (RM.slots_sub ..) (RM.stores_sub ..) (RM.codes_sub ..)⟩

theorem effect_shrEv1 (p : Prefixes) (rm : RM) (s : State) : HasEffect (.shrEv1 p rm) s :=
  ⟨_, (rfl : execShrEv1 p rm s = complete _ _ s),
    shift_effect _ _ _ (List.Subset.refl _) (RM.slots_sub ..) (RM.stores_sub ..) (RM.codes_sub ..)⟩

theorem effect_shrEbCl (p : Prefixes) (rm : RM) (s : State) : HasEffect (.shrEbCl p rm) s :=
  ⟨_, (rfl : execShrEbCl p rm s = complete _ _ s),
    shift_effect _ _ _ (List.Subset.refl _) (RM.slots_sub ..) (RM.stores_sub ..) (RM.codes_sub ..)⟩

theorem effect_shrEvCl (p : Prefixes) (rm : RM) (s : State) : HasEffect (.shrEvCl p rm) s :=
  ⟨_, (rfl : execShrEvCl p rm s = complete _ _ s),
    shift_effect _ _ _ (List.Subset.refl _) (RM.slots_sub ..) (RM.stores_sub ..) (RM.codes_sub ..)⟩

theorem effect_sarEbIb (p : Prefixes) (rm : RM) (imm : Byte) (s : State) : HasEffect (.sarEbIb p rm imm) s :=
  ⟨_, (rfl : execSarEbIb p rm imm s = complete _ _ s),
    shift_effect _ _ _ (List.Subset.refl _) (RM.slots_sub ..) (RM.stores_sub ..) (RM.codes_sub ..)⟩

theorem effect_sarEvIb (p : Prefixes) (rm : RM) (imm : Byte) (s : State) : HasEffect (.sarEvIb p rm imm) s :=
  ⟨_, (rfl : execSarEvIb p rm imm s = complete _ _ s),
    shift_effect _ _ _ (List.Subset.refl _) (RM.slots_sub ..) (RM.stores_sub ..) (RM.codes_sub ..)⟩

theorem effect_sarEb1 (p : Prefixes) (rm : RM) (s : State) : HasEffect (.sarEb1 p rm) s :=
  ⟨_, (rfl : execSarEb1 p rm s = complete _ _ s),
    shift_effect _ _ _ (List.Subset.refl _) (RM.slots_sub ..) (RM.stores_sub ..) (RM.codes_sub ..)⟩

theorem effect_sarEv1 (p : Prefixes) (rm : RM) (s : State) : HasEffect (.sarEv1 p rm) s :=
  ⟨_, (rfl : execSarEv1 p rm s = complete _ _ s),
    shift_effect _ _ _ (List.Subset.refl _) (RM.slots_sub ..) (RM.stores_sub ..) (RM.codes_sub ..)⟩

theorem effect_sarEbCl (p : Prefixes) (rm : RM) (s : State) : HasEffect (.sarEbCl p rm) s :=
  ⟨_, (rfl : execSarEbCl p rm s = complete _ _ s),
    shift_effect _ _ _ (List.Subset.refl _) (RM.slots_sub ..) (RM.stores_sub ..) (RM.codes_sub ..)⟩

theorem effect_sarEvCl (p : Prefixes) (rm : RM) (s : State) : HasEffect (.sarEvCl p rm) s :=
  ⟨_, (rfl : execSarEvCl p rm s = complete _ _ s),
    shift_effect _ _ _ (List.Subset.refl _) (RM.slots_sub ..) (RM.stores_sub ..) (RM.codes_sub ..)⟩

theorem effect_retIw (p : Prefixes) (imm : BitVec 16) (s : State) : HasEffect (.retIw p imm) s :=
  ⟨_, (rfl : execRetIw p imm s = complete _ _ s),
    returnAdjust_effect _ one_mem one_mem⟩

theorem effect_ret (p : Prefixes) (s : State) : HasEffect (.ret p) s :=
  ⟨_, (rfl : execRet p s = complete _ _ s),
    returnNear_effect one_mem one_mem⟩

theorem effect_movEbIb (p : Prefixes) (rm : RM) (imm : Byte) (s : State) : HasEffect (.movEbIb p rm imm) s :=
  ⟨_, (rfl : execMovEbIb p rm imm s = complete _ _ s),
    move_effect _ _ (RM.slots_sub ..) (RM.stores_sub ..) (RM.codes_sub ..) (List.nil_subset _)⟩

theorem effect_movEvIz (p : Prefixes) (rm : RM) (imm : Word) (s : State) : HasEffect (.movEvIz p rm imm) s :=
  ⟨_, (rfl : execMovEvIz p rm imm s = complete _ _ s),
    move_effect _ _ (RM.slots_sub ..) (RM.stores_sub ..) (RM.codes_sub ..) (List.nil_subset _)⟩

theorem effect_leave (p : Prefixes) (s : State) : HasEffect (.leave p) s :=
  ⟨_, (rfl : execLeave p s = complete _ _ s),
    leaveFrame_effect (List.mem_cons_self ..) (List.mem_cons_of_mem _ (slot_mem ..)) one_mem⟩

theorem effect_callRel32 (p : Prefixes) (rel : Word) (s : State) : HasEffect (.callRel32 p rel) s :=
  ⟨_, (rfl : execCallRel32 p rel s = complete _ _ s),
    callTo_effect _ one_mem (List.Subset.refl _) one_mem⟩

theorem effect_jmpRel32 (p : Prefixes) (rel : Word) (s : State) : HasEffect (.jmpRel32 p rel) s :=
  ⟨_, (rfl : execJmpRel32 p rel s = complete _ _ s),
    Kept.withEip _⟩

theorem effect_jmpRel8 (p : Prefixes) (rel : Byte) (s : State) : HasEffect (.jmpRel8 p rel) s :=
  ⟨_, (rfl : execJmpRel8 p rel s = complete _ _ s),
    Kept.withEip _⟩

theorem effect_cmc (p : Prefixes) (s : State) : HasEffect (.cmc p) s :=
  ⟨_, (rfl : execCmc p s = complete _ _ s),
    Kept.withFlags fun b hb => by cases b <;> first | rfl | exact absurd one_mem hb⟩

theorem effect_testEbIb (p : Prefixes) (rm : RM) (imm : Byte) (s : State) : HasEffect (.testEbIb p rm imm) s :=
  ⟨_, (rfl : execTestEbIb p rm imm s = complete _ _ s),
    test_effect _ _ (List.Subset.refl _) (RM.codes_sub ..) trivial⟩

theorem effect_testEvIz (p : Prefixes) (rm : RM) (imm : Word) (s : State) : HasEffect (.testEvIz p rm imm) s :=
  ⟨_, (rfl : execTestEvIz p rm imm s = complete _ _ s),
    test_effect _ _ (List.Subset.refl _) (RM.codes_sub ..) trivial⟩

theorem effect_notEb (p : Prefixes) (rm : RM) (s : State) : HasEffect (.notEb p rm) s :=
  ⟨_, (rfl : execNotEb p rm s = complete _ _ s),
    complement_effect _ (RM.slots_sub ..) (RM.stores_sub ..) (RM.codes_sub ..)⟩

theorem effect_notEv (p : Prefixes) (rm : RM) (s : State) : HasEffect (.notEv p rm) s :=
  ⟨_, (rfl : execNotEv p rm s = complete _ _ s),
    complement_effect _ (RM.slots_sub ..) (RM.stores_sub ..) (RM.codes_sub ..)⟩

theorem effect_negEb (p : Prefixes) (rm : RM) (s : State) : HasEffect (.negEb p rm) s :=
  ⟨_, (rfl : execNegEb p rm s = complete _ _ s),
    negate_effect _ (List.Subset.refl _) (RM.slots_sub ..) (RM.stores_sub ..) (RM.codes_sub ..)⟩

theorem effect_negEv (p : Prefixes) (rm : RM) (s : State) : HasEffect (.negEv p rm) s :=
  ⟨_, (rfl : execNegEv p rm s = complete _ _ s),
    negate_effect _ (List.Subset.refl _) (RM.slots_sub ..) (RM.stores_sub ..) (RM.codes_sub ..)⟩

theorem effect_mulEb (p : Prefixes) (rm : RM) (s : State) : HasEffect (.mulEb p rm) s :=
  ⟨_, (rfl : execMulEb p rm s = complete _ _ s),
    mulAcc_effect _ (List.Subset.refl _) (List.mem_singleton.mpr rfl) (List.mem_singleton.mpr rfl) (RM.codes_sub ..)⟩

theorem effect_mulEv (p : Prefixes) (rm : RM) (s : State) : HasEffect (.mulEv p rm) s :=
  ⟨_, (rfl : execMulEv p rm s = complete _ _ s),
    mulAcc_effect _ (List.Subset.refl _) (List.mem_cons_self ..) (highSlot_mem ..) (RM.codes_sub ..)⟩

theorem effect_imulEb (p : Prefixes) (rm : RM) (s : State) : HasEffect (.imulEb p rm) s :=
  ⟨_, (rfl : execImulEb p rm s = complete _ _ s),
    imulAcc_effect _ (List.Subset.refl _) (List.mem_singleton.mpr rfl) (List.mem_singleton.mpr rfl) (RM.codes_sub ..)⟩

theorem effect_imulEv (p : Prefixes) (rm : RM) (s : State) : HasEffect (.imulEv p rm) s :=
  ⟨_, (rfl : execImulEv p rm s = complete _ _ s),
    imulAcc_effect _ (List.Subset.refl _) (List.mem_cons_self ..) (highSlot_mem ..) (RM.codes_sub ..)⟩

theorem effect_divEb (p : Prefixes) (rm : RM) (s : State) : HasEffect (.divEb p rm) s :=
  ⟨_, (rfl : execDivEb p rm s = complete _ _ s),
    divide_effect _ (List.Subset.refl _) (List.mem_singleton.mpr rfl) (List.mem_singleton.mpr rfl) (fun _ hx => List.mem_cons_of_mem _ (RM.codes_sub _ _ _ hx)) (List.mem_cons_self ..)⟩

theorem effect_divEv (p : Prefixes) (rm : RM) (s : State) : HasEffect (.divEv p rm) s :=
  ⟨_, (rfl : execDivEv p rm s = complete _ _ s),
    divide_effect _ (List.Subset.refl _) (List.mem_cons_self ..) (highSlot_mem ..) (fun _ hx => List.mem_cons_of_mem _ (RM.codes_sub _ _ _ hx)) (List.mem_cons_self ..)⟩

theorem effect_idivEb (p : Prefixes) (rm : RM) (s : State) : HasEffect (.idivEb p rm) s :=
  ⟨_, (rfl : execIdivEb p rm s = complete _ _ s),
    idivide_effect _ (List.Subset.refl _) (List.mem_singleton.mpr rfl) (List.mem_singleton.mpr rfl) (fun _ hx => List.mem_cons_of_mem _ (RM.codes_sub _ _ _ hx)) (List.mem_cons_self ..)⟩

theorem effect_idivEv (p : Prefixes) (rm : RM) (s : State) : HasEffect (.idivEv p rm) s :=
  ⟨_, (rfl : execIdivEv p rm s = complete _ _ s),
    idivide_effect _ (List.Subset.refl _) (List.mem_cons_self ..) (highSlot_mem ..) (fun _ hx => List.mem_cons_of_mem _ (RM.codes_sub _ _ _ hx)) (List.mem_cons_self ..)⟩

theorem effect_clc (p : Prefixes) (s : State) : HasEffect (.clc p) s :=
  ⟨_, (rfl : execClc p s = complete _ _ s),
    Kept.withFlags fun b hb => by cases b <;> first | rfl | exact absurd one_mem hb⟩

theorem effect_stc (p : Prefixes) (s : State) : HasEffect (.stc p) s :=
  ⟨_, (rfl : execStc p s = complete _ _ s),
    Kept.withFlags fun b hb => by cases b <;> first | rfl | exact absurd one_mem hb⟩

theorem effect_cli (p : Prefixes) (s : State) : HasEffect (.cli p) s :=
  ⟨_, (rfl : execCli p s = complete _ _ s),
    Kept.withFlags fun b hb => by cases b <;> first | rfl | exact absurd one_mem hb⟩

theorem effect_sti (p : Prefixes) (s : State) : HasEffect (.sti p) s :=
  ⟨_, (rfl : execSti p s = complete _ _ s),
    Kept.withFlags fun b hb => by cases b <;> first | rfl | exact absurd one_mem hb⟩

theorem effect_cld (p : Prefixes) (s : State) : HasEffect (.cld p) s :=
  ⟨_, (rfl : execCld p s = complete _ _ s),
    Kept.withFlags fun b hb => by cases b <;> first | rfl | exact absurd one_mem hb⟩

theorem effect_std (p : Prefixes) (s : State) : HasEffect (.std p) s :=
  ⟨_, (rfl : execStd p s = complete _ _ s),
    Kept.withFlags fun b hb => by cases b <;> first | rfl | exact absurd one_mem hb⟩

theorem effect_incEb (p : Prefixes) (rm : RM) (s : State) : HasEffect (.incEb p rm) s :=
  ⟨_, (rfl : execIncEb p rm s = complete _ _ s),
    increment_effect _ (List.Subset.refl _) (RM.slots_sub ..) (RM.stores_sub ..) (RM.codes_sub ..)⟩

theorem effect_decEb (p : Prefixes) (rm : RM) (s : State) : HasEffect (.decEb p rm) s :=
  ⟨_, (rfl : execDecEb p rm s = complete _ _ s),
    decrement_effect _ (List.Subset.refl _) (RM.slots_sub ..) (RM.stores_sub ..) (RM.codes_sub ..)⟩

theorem effect_incEv (p : Prefixes) (rm : RM) (s : State) : HasEffect (.incEv p rm) s :=
  ⟨_, (rfl : execIncEv p rm s = complete _ _ s),
    increment_effect _ (List.Subset.refl _) (RM.slots_sub ..) (RM.stores_sub ..) (RM.codes_sub ..)⟩

theorem effect_decEv (p : Prefixes) (rm : RM) (s : State) : HasEffect (.decEv p rm) s :=
  ⟨_, (rfl : execDecEv p rm s = complete _ _ s),
    decrement_effect _ (List.Subset.refl _) (RM.slots_sub ..) (RM.stores_sub ..) (RM.codes_sub ..)⟩

theorem effect_callEv (p : Prefixes) (rm : RM) (s : State) : HasEffect (.callEv p rm) s :=
  ⟨_, (rfl : execCallEv p rm s = complete _ _ s),
    callVia_effect _ one_mem (List.Subset.refl _) one_mem (RM.codes_sub_one ..)⟩

theorem effect_jmpEv (p : Prefixes) (rm : RM) (s : State) : HasEffect (.jmpEv p rm) s :=
  ⟨_, (rfl : execJmpEv p rm s = complete _ _ s),
    jumpVia_effect _ (RM.codes_sub ..)⟩

theorem effect_pushEv (p : Prefixes) (rm : RM) (s : State) : HasEffect (.pushEv p rm) s :=
  ⟨_, (rfl : execPushEv p rm s = complete _ _ s),
    pushFrom_effect _ one_mem (List.Subset.refl _) one_mem (RM.codes_sub_one ..)⟩

theorem effect_joRel32 (p : Prefixes) (rel : Word) (s : State) : HasEffect (.joRel32 p rel) s :=
  ⟨_, (rfl : execJoRel32 p rel s = complete _ _ s),
    jumpIf_effect _ _⟩

theorem effect_jnoRel32 (p : Prefixes) (rel : Word) (s : State) : HasEffect (.jnoRel32 p rel) s :=
  ⟨_, (rfl : execJnoRel32 p rel s = complete _ _ s),
    jumpIf_effect _ _⟩

theorem effect_jbRel32 (p : Prefixes) (rel : Word) (s : State) : HasEffect (.jbRel32 p rel) s :=
  ⟨_, (rfl : execJbRel32 p rel s = complete _ _ s),
    jumpIf_effect _ _⟩

theorem effect_jaeRel32 (p : Prefixes) (rel : Word) (s : State) : HasEffect (.jaeRel32 p rel) s :=
  ⟨_, (rfl : execJaeRel32 p rel s = complete _ _ s),
    jumpIf_effect _ _⟩

theorem effect_jeRel32 (p : Prefixes) (rel : Word) (s : State) : HasEffect (.jeRel32 p rel) s :=
  ⟨_, (rfl : execJeRel32 p rel s = complete _ _ s),
    jumpIf_effect _ _⟩

theorem effect_jneRel32 (p : Prefixes) (rel : Word) (s : State) : HasEffect (.jneRel32 p rel) s :=
  ⟨_, (rfl : execJneRel32 p rel s = complete _ _ s),
    jumpIf_effect _ _⟩

theorem effect_jbeRel32 (p : Prefixes) (rel : Word) (s : State) : HasEffect (.jbeRel32 p rel) s :=
  ⟨_, (rfl : execJbeRel32 p rel s = complete _ _ s),
    jumpIf_effect _ _⟩

theorem effect_jaRel32 (p : Prefixes) (rel : Word) (s : State) : HasEffect (.jaRel32 p rel) s :=
  ⟨_, (rfl : execJaRel32 p rel s = complete _ _ s),
    jumpIf_effect _ _⟩

theorem effect_jsRel32 (p : Prefixes) (rel : Word) (s : State) : HasEffect (.jsRel32 p rel) s :=
  ⟨_, (rfl : execJsRel32 p rel s = complete _ _ s),
    jumpIf_effect _ _⟩

theorem effect_jnsRel32 (p : Prefixes) (rel : Word) (s : State) : HasEffect (.jnsRel32 p rel) s :=
  ⟨_, (rfl : execJnsRel32 p rel s = complete _ _ s),
    jumpIf_effect _ _⟩

theorem effect_jpRel32 (p : Prefixes) (rel : Word) (s : State) : HasEffect (.jpRel32 p rel) s :=
  ⟨_, (rfl : execJpRel32 p rel s = complete _ _ s),
    jumpIf_effect _ _⟩

theorem effect_jnpRel32 (p : Prefixes) (rel : Word) (s : State) : HasEffect (.jnpRel32 p rel) s :=
  ⟨_, (rfl : execJnpRel32 p rel s = complete _ _ s),
    jumpIf_effect _ _⟩

theorem effect_jlRel32 (p : Prefixes) (rel : Word) (s : State) : HasEffect (.jlRel32 p rel) s :=
  ⟨_, (rfl : execJlRel32 p rel s = complete _ _ s),
    jumpIf_effect _ _⟩

theorem effect_jgeRel32 (p : Prefixes) (rel : Word) (s : State) : HasEffect (.jgeRel32 p rel) s :=
  ⟨_, (rfl : execJgeRel32 p rel s = complete _ _ s),
    jumpIf_effect _ _⟩

theorem effect_jleRel32 (p : Prefixes) (rel : Word) (s : State) : HasEffect (.jleRel32 p rel) s :=
  ⟨_, (rfl : execJleRel32 p rel s = complete _ _ s),
    jumpIf_effect _ _⟩

theorem effect_jgRel32 (p : Prefixes) (rel : Word) (s : State) : HasEffect (.jgRel32 p rel) s :=
  ⟨_, (rfl : execJgRel32 p rel s = complete _ _ s),
    jumpIf_effect _ _⟩

theorem effect_imulGvEv (p : Prefixes) (rm : RM) (r : Reg) (s : State) : HasEffect (.imulGvEv p rm r) s :=
  ⟨_, (rfl : execImulGvEv p rm r s = complete _ _ s),
    imulTo_effect _ _ _ (List.Subset.refl _) (slot_mem ..) (List.nil_subset _) (RM.codes_sub ..)⟩

theorem effect_movzxGvEb (p : Prefixes) (rm : RM) (r : Reg) (s : State) : HasEffect (.movzxGvEb p rm r) s :=
  ⟨_, (rfl : execMovzxGvEb p rm r s = complete _ _ s),
    moveZeroExtend_effect _ _ (slot_mem ..) (RM.codes_sub ..)⟩

theorem effect_movzxGvEw (p : Prefixes) (rm : RM) (r : Reg) (s : State) : HasEffect (.movzxGvEw p rm r) s :=
  ⟨_, (rfl : execMovzxGvEw p rm r s = complete _ _ s),
    moveZeroExtend_effect _ _ (slot_mem ..) (RM.codes_sub ..)⟩

theorem effect_movsxGvEb (p : Prefixes) (rm : RM) (r : Reg) (s : State) : HasEffect (.movsxGvEb p rm r) s :=
  ⟨_, (rfl : execMovsxGvEb p rm r s = complete _ _ s),
    moveSignExtend_effect _ _ (slot_mem ..) (RM.codes_sub ..)⟩

theorem effect_movsxGvEw (p : Prefixes) (rm : RM) (r : Reg) (s : State) : HasEffect (.movsxGvEw p rm r) s :=
  ⟨_, (rfl : execMovsxGvEw p rm r s = complete _ _ s),
    moveSignExtend_effect _ _ (slot_mem ..) (RM.codes_sub ..)⟩

/-- Every instruction but the gate and the rep moves runs one handler that keeps to its lists. -/
theorem exec_effect (i : Instr) (s : State) (h1 : ∀ p, i ≠ .int80 p) (h2 : ∀ w p, i ≠ Width.repMovs w p) :
    HasEffect i s := by
  cases i with
  | addEbGb p rm r => exact effect_addEbGb p rm r s
  | addEvGv p rm r => exact effect_addEvGv p rm r s
  | addGbEb p rm r => exact effect_addGbEb p rm r s
  | addGvEv p rm r => exact effect_addGvEv p rm r s
  | addAlIb p imm => exact effect_addAlIb p imm s
  | addEaxIz p imm => exact effect_addEaxIz p imm s
  | orEbGb p rm r => exact effect_orEbGb p rm r s
  | orEvGv p rm r => exact effect_orEvGv p rm r s
  | orGbEb p rm r => exact effect_orGbEb p rm r s
  | orGvEv p rm r => exact effect_orGvEv p rm r s
  | orAlIb p imm => exact effect_orAlIb p imm s
  | orEaxIz p imm => exact effect_orEaxIz p imm s
  | adcEbGb p rm r => exact effect_adcEbGb p rm r s
  | adcEvGv p rm r => exact effect_adcEvGv p rm r s
  | adcGbEb p rm r => exact effect_adcGbEb p rm r s
  | adcGvEv p rm r => exact effect_adcGvEv p rm r s
  | adcAlIb p imm => exact effect_adcAlIb p imm s
  | adcEaxIz p imm => exact effect_adcEaxIz p imm s
  | sbbEbGb p rm r => exact effect_sbbEbGb p rm r s
  | sbbEvGv p rm r => exact effect_sbbEvGv p rm r s
  | sbbGbEb p rm r => exact effect_sbbGbEb p rm r s
  | sbbGvEv p rm r => exact effect_sbbGvEv p rm r s
  | sbbAlIb p imm => exact effect_sbbAlIb p imm s
  | sbbEaxIz p imm => exact effect_sbbEaxIz p imm s
  | andEbGb p rm r => exact effect_andEbGb p rm r s
  | andEvGv p rm r => exact effect_andEvGv p rm r s
  | andGbEb p rm r => exact effect_andGbEb p rm r s
  | andGvEv p rm r => exact effect_andGvEv p rm r s
  | andAlIb p imm => exact effect_andAlIb p imm s
  | andEaxIz p imm => exact effect_andEaxIz p imm s
  | subEbGb p rm r => exact effect_subEbGb p rm r s
  | subEvGv p rm r => exact effect_subEvGv p rm r s
  | subGbEb p rm r => exact effect_subGbEb p rm r s
  | subGvEv p rm r => exact effect_subGvEv p rm r s
  | subAlIb p imm => exact effect_subAlIb p imm s
  | subEaxIz p imm => exact effect_subEaxIz p imm s
  | xorEbGb p rm r => exact effect_xorEbGb p rm r s
  | xorEvGv p rm r => exact effect_xorEvGv p rm r s
  | xorGbEb p rm r => exact effect_xorGbEb p rm r s
  | xorGvEv p rm r => exact effect_xorGvEv p rm r s
  | xorAlIb p imm => exact effect_xorAlIb p imm s
  | xorEaxIz p imm => exact effect_xorEaxIz p imm s
  | cmpEbGb p rm r => exact effect_cmpEbGb p rm r s
  | cmpEvGv p rm r => exact effect_cmpEvGv p rm r s
  | cmpGbEb p rm r => exact effect_cmpGbEb p rm r s
  | cmpGvEv p rm r => exact effect_cmpGvEv p rm r s
  | cmpAlIb p imm => exact effect_cmpAlIb p imm s
  | cmpEaxIz p imm => exact effect_cmpEaxIz p imm s
  | addEbIb p rm imm => exact effect_addEbIb p rm imm s
  | addEvIz p rm imm => exact effect_addEvIz p rm imm s
  | addEvIb p rm imm => exact effect_addEvIb p rm imm s
  | orEbIb p rm imm => exact effect_orEbIb p rm imm s
  | orEvIz p rm imm => exact effect_orEvIz p rm imm s
  | orEvIb p rm imm => exact effect_orEvIb p rm imm s
  | adcEbIb p rm imm => exact effect_adcEbIb p rm imm s
  | adcEvIz p rm imm => exact effect_adcEvIz p rm imm s
  | adcEvIb p rm imm => exact effect_adcEvIb p rm imm s
  | sbbEbIb p rm imm => exact effect_sbbEbIb p rm imm s
  | sbbEvIz p rm imm => exact effect_sbbEvIz p rm imm s
  | sbbEvIb p rm imm => exact effect_sbbEvIb p rm imm s
  | andEbIb p rm imm => exact effect_andEbIb p rm imm s
  | andEvIz p rm imm => exact effect_andEvIz p rm imm s
  | andEvIb p rm imm => exact effect_andEvIb p rm imm s
  | subEbIb p rm imm => exact effect_subEbIb p rm imm s
  | subEvIz p rm imm => exact effect_subEvIz p rm imm s
  | subEvIb p rm imm => exact effect_subEvIb p rm imm s
  | xorEbIb p rm imm => exact effect_xorEbIb p rm imm s
  | xorEvIz p rm imm => exact effect_xorEvIz p rm imm s
  | xorEvIb p rm imm => exact effect_xorEvIb p rm imm s
  | cmpEbIb p rm imm => exact effect_cmpEbIb p rm imm s
  | cmpEvIz p rm imm => exact effect_cmpEvIz p rm imm s
  | cmpEvIb p rm imm => exact effect_cmpEvIb p rm imm s
  | incR p r => exact effect_incR p r s
  | decR p r => exact effect_decR p r s
  | pushR p r => exact effect_pushR p r s
  | popR p r => exact effect_popR p r s
  | movsxdGvEv p rm r => exact effect_movsxdGvEv p rm r s
  | pushIz p imm => exact effect_pushIz p imm s
  | imulGvEvIz p rm r imm => exact effect_imulGvEvIz p rm r imm s
  | pushIb p imm => exact effect_pushIb p imm s
  | imulGvEvIb p rm r imm => exact effect_imulGvEvIb p rm r imm s
  | joRel8 p rel => exact effect_joRel8 p rel s
  | jnoRel8 p rel => exact effect_jnoRel8 p rel s
  | jbRel8 p rel => exact effect_jbRel8 p rel s
  | jaeRel8 p rel => exact effect_jaeRel8 p rel s
  | jeRel8 p rel => exact effect_jeRel8 p rel s
  | jneRel8 p rel => exact effect_jneRel8 p rel s
  | jbeRel8 p rel => exact effect_jbeRel8 p rel s
  | jaRel8 p rel => exact effect_jaRel8 p rel s
  | jsRel8 p rel => exact effect_jsRel8 p rel s
  | jnsRel8 p rel => exact effect_jnsRel8 p rel s
  | jpRel8 p rel => exact effect_jpRel8 p rel s
  | jnpRel8 p rel => exact effect_jnpRel8 p rel s
  | jlRel8 p rel => exact effect_jlRel8 p rel s
  | jgeRel8 p rel => exact effect_jgeRel8 p rel s
  | jleRel8 p rel => exact effect_jleRel8 p rel s
  | jgRel8 p rel => exact effect_jgRel8 p rel s
  | testEbGb p rm r => exact effect_testEbGb p rm r s
  | testEvGv p rm r => exact effect_testEvGv p rm r s
  | xchgEbGb p rm r => exact effect_xchgEbGb p rm r s
  | xchgEvGv p rm r => exact effect_xchgEvGv p rm r s
  | movEbGb p rm r => exact effect_movEbGb p rm r s
  | movEvGv p rm r => exact effect_movEvGv p rm r s
  | movGbEb p rm r => exact effect_movGbEb p rm r s
  | movGvEv p rm r => exact effect_movGvEv p rm r s
  | leaGvM p r a => exact effect_leaGvM p r a s
  | popEv p rm => exact effect_popEv p rm s
  | nop p => exact effect_nop p s
  | xchgEaxR p r => exact effect_xchgEaxR p r s
  | cwde p => exact effect_cwde p s
  | cbw p => exact effect_cbw p s
  | cdq p => exact effect_cdq p s
  | cwd p => exact effect_cwd p s
  | movAlOb p a => exact effect_movAlOb p a s
  | movEaxOv p a => exact effect_movEaxOv p a s
  | movObAl p a => exact effect_movObAl p a s
  | movOvEax p a => exact effect_movOvEax p a s
  | movsb p => exact effect_movsb p s
  | movsd p => exact effect_movsd p s
  | movsw p => exact effect_movsw p s
  | repMovsb p => exact absurd rfl (h2 .byte p)
  | repMovsd p => exact absurd rfl (h2 .dword p)
  | repMovsw p => exact absurd rfl (h2 .word p)
  | testAlIb p imm => exact effect_testAlIb p imm s
  | testEaxIz p imm => exact effect_testEaxIz p imm s
  | movRbIb p r imm => exact effect_movRbIb p r imm s
  | movRvIz p r imm => exact effect_movRvIz p r imm s
  | shlEbIb p rm imm => exact effect_shlEbIb p rm imm s
  | shlEvIb p rm imm => exact effect_shlEvIb p rm imm s
  | shlEb1 p rm => exact effect_shlEb1 p rm s
  | shlEv1 p rm => exact effect_shlEv1 p rm s
  | shlEbCl p rm => exact effect_shlEbCl p rm s
  | shlEvCl p rm => exact effect_shlEvCl p rm s
  | shrEbIb p rm imm => exact effect_shrEbIb p rm imm s
  | shrEvIb p rm imm => exact effect_shrEvIb p rm imm s
  | shrEb1 p rm => exact effect_shrEb1 p rm s
  | shrEv1 p rm => exact effect_shrEv1 p rm s
  | shrEbCl p rm => exact effect_shrEbCl p rm s
  | shrEvCl p rm => exact effect_shrEvCl p rm s
  | sarEbIb p rm imm => exact effect_sarEbIb p rm imm s
  | sarEvIb p rm imm => exact effect_sarEvIb p rm imm s
  | sarEb1 p rm => exact effect_sarEb1 p rm s
  | sarEv1 p rm => exact effect_sarEv1 p rm s
  | sarEbCl p rm => exact effect_sarEbCl p rm s
  | sarEvCl p rm => exact effect_sarEvCl p rm s
  | retIw p imm => exact effect_retIw p imm s
  | ret p => exact effect_ret p s
  | movEbIb p rm imm => exact effect_movEbIb p rm imm s
  | movEvIz p rm imm => exact effect_movEvIz p rm imm s
  | leave p => exact effect_leave p s
  | int80 p => exact absurd rfl (h1 p)
  | callRel32 p rel => exact effect_callRel32 p rel s
  | jmpRel32 p rel => exact effect_jmpRel32 p rel s
  | jmpRel8 p rel => exact effect_jmpRel8 p rel s
  | cmc p => exact effect_cmc p s
  | testEbIb p rm imm => exact effect_testEbIb p rm imm s
  | testEvIz p rm imm => exact effect_testEvIz p rm imm s
  | notEb p rm => exact effect_notEb p rm s
  | notEv p rm => exact effect_notEv p rm s
  | negEb p rm => exact effect_negEb p rm s
  | negEv p rm => exact effect_negEv p rm s
  | mulEb p rm => exact effect_mulEb p rm s
  | mulEv p rm => exact effect_mulEv p rm s
  | imulEb p rm => exact effect_imulEb p rm s
  | imulEv p rm => exact effect_imulEv p rm s
  | divEb p rm => exact effect_divEb p rm s
  | divEv p rm => exact effect_divEv p rm s
  | idivEb p rm => exact effect_idivEb p rm s
  | idivEv p rm => exact effect_idivEv p rm s
  | clc p => exact effect_clc p s
  | stc p => exact effect_stc p s
  | cli p => exact effect_cli p s
  | sti p => exact effect_sti p s
  | cld p => exact effect_cld p s
  | std p => exact effect_std p s
  | incEb p rm => exact effect_incEb p rm s
  | decEb p rm => exact effect_decEb p rm s
  | incEv p rm => exact effect_incEv p rm s
  | decEv p rm => exact effect_decEv p rm s
  | callEv p rm => exact effect_callEv p rm s
  | jmpEv p rm => exact effect_jmpEv p rm s
  | pushEv p rm => exact effect_pushEv p rm s
  | joRel32 p rel => exact effect_joRel32 p rel s
  | jnoRel32 p rel => exact effect_jnoRel32 p rel s
  | jbRel32 p rel => exact effect_jbRel32 p rel s
  | jaeRel32 p rel => exact effect_jaeRel32 p rel s
  | jeRel32 p rel => exact effect_jeRel32 p rel s
  | jneRel32 p rel => exact effect_jneRel32 p rel s
  | jbeRel32 p rel => exact effect_jbeRel32 p rel s
  | jaRel32 p rel => exact effect_jaRel32 p rel s
  | jsRel32 p rel => exact effect_jsRel32 p rel s
  | jnsRel32 p rel => exact effect_jnsRel32 p rel s
  | jpRel32 p rel => exact effect_jpRel32 p rel s
  | jnpRel32 p rel => exact effect_jnpRel32 p rel s
  | jlRel32 p rel => exact effect_jlRel32 p rel s
  | jgeRel32 p rel => exact effect_jgeRel32 p rel s
  | jleRel32 p rel => exact effect_jleRel32 p rel s
  | jgRel32 p rel => exact effect_jgRel32 p rel s
  | imulGvEv p rm r => exact effect_imulGvEv p rm r s
  | movzxGvEb p rm r => exact effect_movzxGvEb p rm r s
  | movzxGvEw p rm r => exact effect_movzxGvEw p rm r s
  | movsxGvEb p rm r => exact effect_movsxGvEb p rm r s
  | movsxGvEw p rm r => exact effect_movsxGvEw p rm r s

/-- All that `exec` can answer: a completion, a fault of the unchanged state, a fault inside a rep move after `m` moves, or
what the gate does. -/
theorem exec_cases (i : Instr) (s : State) :
    (∃ t, exec i s = .next t ∧ Kept i.slots i.flagsWritten (i.stores s) s t) ∨
    (∃ k, exec i s = .next (s.raise k) ∧ k.code ∈ i.faultCodes) ∨
    (∃ w p m u k, i = Width.repMovs w p ∧ m < s.regs.ecx.toNat ∧ moveTimes w m s = .ok u ∧ u.eip = s.eip ∧
      k.code = 1 ∧ exec i s = .next (u.raise k) ∧ Kept i.slots i.flagsWritten (i.stores s) s u) ∨
    (∃ p t, i = .int80 p ∧ exec i s = .next t ∧ GateKept (s.atNext i) t) := by
  by_cases hi : ∃ p, i = .int80 p
  · obtain ⟨p, rfl⟩ := hi
    have h := syscallGate_effect (s.atNext (.int80 p))
    cases e : syscallGate (s.atNext (.int80 p)) with
    | ok t => rw [e] at h; exact .inr (.inr (.inr ⟨p, t, rfl, complete_ok e, h⟩))
    | error k => rw [e] at h; exact .inr (.inl ⟨k, complete_error e, h⟩)
  by_cases hr : ∃ w p, i = Width.repMovs w p
  · obtain ⟨w, p, rfl⟩ := hr
    have hx : exec (Width.repMovs w p) s = repeatMove w (Width.repMovs w p) s := by cases w <;> rfl
    have hsl : (Width.repMovs w p).slots = [.esi, .edi, .ecx] := by cases w <;> rfl
    have hfl : (Width.repMovs w p).flagsWritten = [] := by cases w <;> rfl
    have hst : (Width.repMovs w p).stores s = s.repStores w := by cases w <;> rfl
    rw [hsl, hfl, hst, hx]
    have hkept : ∀ m u, m ≤ s.regs.ecx.toNat → moveTimes w m s = .ok u →
        Kept [.esi, .edi, .ecx] [] (s.repStores w) s u := by
      intro m u hm hu
      obtain ⟨_, _, _, _, _, h6⟩ := moveTimes_ok hu
      refine ⟨h6.regs, h6.flags, h6.size, h6.wf, fun hw a ha => h6.mem hw a fun e he => ha e ?_, h6.run, h6.exitCode,
          h6.outcome, h6.events, h6.readAnswers, h6.writeAnswers⟩
      obtain ⟨k, hk, rfl⟩ := List.mem_map.mp he
      exact List.mem_map.mpr ⟨k, List.mem_range.mpr (lt_of_lt_of_le (List.mem_range.mp hk) hm), rfl⟩
    rcases repeatMove_cases w (Width.repMovs w p) s with ⟨t, h1, h2⟩ | ⟨m, t, k, hm, h1, h2, h3⟩
    · refine .inl ⟨_, h2, (hkept _ _ (le_refl _) h1).trans (.withEip _)⟩
    · refine .inr (.inr (.inl ⟨w, p, m, t, k, rfl, hm, h1, (moveTimes_ok h1).2.2.2.1, ?_, h3, hkept m t hm.le h1⟩))
      rcases moveElement_cases w t with ⟨_, _, h⟩ | ⟨a, _, h⟩ <;> rw [h] at h2 <;> cases h2
      rfl
  obtain ⟨hd, h1, h2⟩ := exec_effect i s (fun p h => hi ⟨p, h⟩) (fun w p h => hr ⟨w, p, h⟩)
  rw [h1]
  rcases complete_cases i hd s with ⟨t, e, h⟩ | ⟨k, e, h⟩ <;> rw [e] at h2
  · exact .inl ⟨t, h, (Kept.withEip _).trans h2⟩
  · exact .inr (.inl ⟨k, h, h2⟩)

/-- All that a step can be. -/
theorem step_cases (s t : State) (he : step s = .next t) : s.run = .running ∧
    ((∃ i, s.fetchDecode = .ok i ∧ exec i s = .next t) ∨ (∃ k, t = s.raise k) ∨
      (s.fetchDecode = .error .endless ∧ t = s)) := by
  unfold step at he
  split at he
  · cases he
  · rename_i hr
    refine ⟨hr, ?_⟩
    split at he
    · exact .inl ⟨_, by assumption, he⟩
    · cases he; exact .inr (.inl ⟨_, rfl⟩)
    · cases he; exact .inr (.inr ⟨by assumption, rfl⟩)

end Sys2Proof.Machine
end

