-- ==== Sys2Proof/Laws/Locality.lean ====
section
/-! SUPPORT. A decoding depends on nothing but the bytes it fetches: it gives the same answer whatever follows them
(30_encoding.md R121, R122; 60_exceptions.md R522). -/

namespace Sys2Proof

/-- `f` fetches at most `m` bytes, and its answer does not depend on the bytes it has not fetched. -/
def Local {α : Type} (m : Nat) (f : Stream → Except DecodeError (α × Stream)) : Prop :=
  ∀ u e bs,
    match f ⟨u, e, bs⟩ with
    | .ok (a, st) => ∃ n, n ≤ m ∧ n ≤ bs.length ∧ st = ⟨u + n, e, bs.drop n⟩ ∧
        ∀ e' ext, e' = e ∨ fetchFits e' u n = true → f ⟨u, e', bs.take n ++ ext⟩ = .ok (a, ⟨u + n, e', ext⟩)
    | .error (.unknownOpcode why used) => ∃ n, n ≤ m ∧ n ≤ bs.length ∧ used = u + n ∧
        ∀ e' ext, e' = e ∨ fetchFits e' u n = true → f ⟨u, e', bs.take n ++ ext⟩ = .error (.unknownOpcode why used)
    | .error (.truncated used len) => ∃ n, n + len ≤ m ∧ n ≤ bs.length ∧ used = u + n ∧
        (bs.length < n + len ∨ fetchFits e used len = false) ∧
        ∀ e' ext, e' = e ∨ fetchFits e' u n = true → ext.length < len ∨ fetchFits e' used len = false →
          f ⟨u, e', bs.take n ++ ext⟩ = .error (.truncated used len)

variable {α β : Type} {m k : Nat}

theorem Local.mono {f : Stream → Except DecodeError (α × Stream)} (h : Local m f) (hmk : m ≤ k) : Local k f := by
  intro u e bs
  have := h u e bs
  split <;> rename_i hf <;> rw [hf] at this <;> simp only at this
  · obtain ⟨n, h1, h2⟩ := this; exact ⟨n, by omega, h2⟩
  · obtain ⟨n, h1, h2⟩ := this; exact ⟨n, by omega, h2⟩
  · obtain ⟨n, h1, h2⟩ := this; exact ⟨n, by omega, h2⟩

theorem Local.pure (a : α) : Local 0 (fun st => .ok (a, st)) :=
  fun u e bs => ⟨0, by omega, by omega, by simp, fun e' ext _ => by simp⟩

theorem Local.fail (why : Reject) :
    Local 0 (fun st => (.error (.unknownOpcode why st.used) : Except DecodeError (α × Stream))) :=
  fun u e bs => ⟨0, by omega, by omega, by simp, fun e' ext _ => by simp⟩

theorem Local.bind {f : Stream → Except DecodeError (α × Stream)} {g : α × Stream → Except DecodeError (β × Stream)}
    (hf : Local m f) (hg : ∀ a, Local k fun st => g (a, st)) : Local (m + k) fun st => f st >>= g := by
  intro u e bs
  have hf1 := hf u e bs
  simp only [Bind.bind, Except.bind]
  match hfe : f ⟨u, e, bs⟩ with
  | .error (.unknownOpcode why used) =>
    rw [hfe] at hf1
    obtain ⟨n, h1, h2, h3, h4⟩ := hf1
    exact ⟨n, by omega, h2, h3, fun e' ext h => by rw [h4 e' ext h]⟩
  | .error (.truncated used len) =>
    rw [hfe] at hf1
    obtain ⟨n, h1, h2, h3, h4, h5⟩ := hf1
    exact ⟨n, by omega, h2, h3, h4, fun e' ext h hl => by rw [h5 e' ext h hl]⟩
  | .ok (a, st) =>
    rw [hfe] at hf1
    obtain ⟨n, h1, h2, h3, h4⟩ := hf1
    subst h3
    simp only
    have hg1 := hg a (u + n) e (bs.drop n)
    beta_reduce at hg1
    have step (e' : Option Word) (n2 : Nat) (ext : List Byte) (hn2 : n2 ≤ (bs.drop n).length)
        (h : e' = e ∨ fetchFits e' u (n + n2) = true) :
        f ⟨u, e', bs.take (n + n2) ++ ext⟩ = .ok (a, ⟨u + n, e', (bs.drop n).take n2 ++ ext⟩) := by
      rw [List.take_add, List.append_assoc]
      exact h4 e' _ (h.imp_right fun h => (fetchFits_add h).1)
    have hd : (bs.drop n).length = bs.length - n := List.length_drop ..
    match hge : g (a, ⟨u + n, e, bs.drop n⟩) with
    | .ok (b, st2) =>
      rw [hge] at hg1
      obtain ⟨n2, i1, i2, i3, i4⟩ := hg1
      refine ⟨n + n2, by omega, by omega, ?_, fun e' ext h => ?_⟩
      · rw [i3, List.drop_drop, Nat.add_assoc]
      · rw [step e' n2 ext i2 h, ← Nat.add_assoc]
        exact i4 e' ext (h.imp_right fun h => (fetchFits_add h).2)
    | .error (.unknownOpcode why used) =>
      rw [hge] at hg1
      obtain ⟨n2, i1, i2, i3, i4⟩ := hg1
      refine ⟨n + n2, by omega, by omega, by omega, fun e' ext h => ?_⟩
      rw [step e' n2 ext i2 h]
      exact i4 e' ext (h.imp_right fun h => (fetchFits_add h).2)
    | .error (.truncated used len) =>
      rw [hge] at hg1
      obtain ⟨n2, i1, i2, i3, i4, i5⟩ := hg1
      refine ⟨n + n2, by omega, by omega, by omega, i4.imp_left fun _ => by omega, fun e' ext h hl => ?_⟩
      rw [step e' n2 ext i2 h]
      exact i5 e' ext (h.imp_right fun h => (fetchFits_add h).2) hl

theorem Local.ite {c : Prop} [Decidable c] {f g : Stream → Except DecodeError (α × Stream)} (hf : Local m f)
    (hg : Local m g) : Local m fun st => if c then f st else g st := by
  by_cases h : c
  · simpa only [h, if_true] using hf
  · simpa only [h, if_false] using hg

theorem Stream.fetch_local (n : Nat) : Local n (Stream.fetch n) := by
  intro u e bs
  by_cases h : n ≤ bs.length ∧ fetchFits e u n = true
  · have he : Stream.fetch n ⟨u, e, bs⟩ = .ok (bs.take n, ⟨u + n, e, bs.drop n⟩) := if_pos h
    rw [he]
    refine ⟨n, le_refl n, h.1, rfl, fun e' ext hc => ?_⟩
    have hc' : fetchFits e' u n = true := hc.elim (fun hc => hc ▸ h.2) id
    exact Stream.fetch_append (by simp [h.1]) hc' ext
  · have he : Stream.fetch n ⟨u, e, bs⟩ = .error (.truncated u n) := if_neg h
    rw [he]
    rw [not_and_or, Bool.not_eq_true] at h
    refine ⟨0, by omega, by omega, by omega, h.imp_left fun _ => by omega, fun e' ext _ hl => ?_⟩
    rw [List.take_zero, List.nil_append, Stream.fetch, if_neg]
    rw [not_and_or, Bool.not_eq_true]
    exact hl.imp_left fun _ => by simp only; omega

theorem Stream.fetchValue_local (n : Nat) : Local n (Stream.fetchValue n) :=
  (Stream.fetch_local n).bind (k := 0) fun bs => Local.pure (leValue bs)

theorem Stream.fetchByte_local : Local 1 Stream.fetchByte :=
  (Stream.fetchValue_local 1).bind (k := 0) fun v => Local.pure (BitVec.ofNat 8 v)

theorem Stream.fetchWord_local : Local 4 Stream.fetchWord :=
  (Stream.fetchValue_local 4).bind (k := 0) fun v => Local.pure (BitVec.ofNat 32 v)

theorem Stream.fetchZ_local (p : Prefixes) : Local 4 (Stream.fetchZ p) :=
  Local.mono ((Stream.fetchValue_local p.osz.bytes).bind (k := 0) fun v => Local.pure (BitVec.ofNat 32 v))
    (by rcases p.osz_cases with h | h <;> rw [h] <;> decide)

theorem decodeDisp_local (mod : BitVec 2) : Local 4 (decodeDisp mod) := by
  unfold decodeDisp
  split
  · exact (Stream.fetchByte_local.bind (k := 0) fun v => Local.pure (Disp.d8 v)).mono (by omega)
  · exact Stream.fetchWord_local.bind (k := 0) fun v => Local.pure (Disp.d32 v)
  · exact (Local.pure Disp.none).mono (by omega)

theorem decodeAddr_local (m : Byte) : Local 5 (decodeAddr m) := by
  unfold decodeAddr
  split
  · exact Stream.fetchByte_local.bind (k := 4) fun s =>
      Local.ite (Stream.fetchWord_local.bind (k := 0) fun d => Local.pure _)
        ((decodeDisp_local _).bind (k := 0) fun d => Local.pure _)
  · exact Local.mono (k := 5) (Local.ite (m := 4) (Stream.fetchWord_local.bind (k := 0) fun d => Local.pure _)
      ((decodeDisp_local _).bind (k := 0) fun d => Local.pure _)) (by omega)
  · exact Local.mono ((decodeDisp_local _).bind (k := 0) fun d => Local.pure _) (by omega)

theorem decodeRM_local (p : Prefixes) (m : Byte) : Local 5 (decodeRM p m) :=
  Local.ite ((Local.pure _).mono (by omega))
    (Local.ite ((Local.fail _).mono (by omega)) ((decodeAddr_local m).bind (k := 0) fun a => Local.pure _))

theorem decodeGroup_local (p : Prefixes) (m : Byte) (e : GroupEntry) : Local 9 (decodeGroup p m e) := by
  cases e with
  | none => exact (Local.fail _).mono (by omega)
  | rm mk => exact Local.mono ((decodeRM_local p m).bind (k := 0) fun rm => Local.pure _) (by omega)
  | rmNear mk =>
    exact Local.ite ((Local.fail _).mono (by omega))
      (Local.mono ((decodeRM_local p m).bind (k := 0) fun rm => Local.pure _) (by omega))
  | rm8 mk =>
    exact Local.mono ((decodeRM_local p m).bind (k := 1) fun rm =>
      Stream.fetchByte_local.bind (k := 0) fun v => Local.pure _) (by omega)
  | rmZ mk =>
    exact (decodeRM_local p m).bind (k := 4) fun rm =>
      (Stream.fetchZ_local p).bind (k := 0) fun v => Local.pure _

theorem decodeEntry_local (p : Prefixes) (e : Entry) : Local 10 (decodeEntry p e) := by
  cases e with
  | none => exact (Local.fail _).mono (by omega)
  | plain mk => exact (Local.pure _).mono (by omega)
  | strings mk => exact Local.ite ((Local.fail _).mono (by omega)) ((Local.pure _).mono (by omega))
  | near mk => exact Local.ite ((Local.fail _).mono (by omega)) ((Local.pure _).mono (by omega))
  | imm8 mk => exact Local.mono (Stream.fetchByte_local.bind (k := 0) fun v => Local.pure _) (by omega)
  | immZ mk => exact Local.mono ((Stream.fetchZ_local p).bind (k := 0) fun v => Local.pure _) (by omega)
  | near16 mk =>
    exact Local.ite ((Local.fail _).mono (by omega))
      (Local.mono ((Stream.fetchValue_local 2).bind (k := 0) fun v => Local.pure _) (by omega))
  | rel8 mk =>
    exact Local.ite ((Local.fail _).mono (by omega))
      (Local.mono (Stream.fetchByte_local.bind (k := 0) fun v => Local.pure _) (by omega))
  | rel32 mk =>
    exact Local.ite ((Local.fail _).mono (by omega))
      (Local.mono (Stream.fetchWord_local.bind (k := 0) fun v => Local.pure _) (by omega))
  | moffs mk =>
    exact Local.ite ((Local.fail _).mono (by omega))
      (Local.mono (Stream.fetchWord_local.bind (k := 0) fun v => Local.pure _) (by omega))
  | vector mk =>
    exact Local.mono (Stream.fetchByte_local.bind (k := 0) fun v => Local.ite (Local.pure _) (Local.fail _)) (by omega)
  | rmReg mk =>
    exact Local.mono (Stream.fetchByte_local.bind (k := 5) fun m =>
      (decodeRM_local p m).bind (k := 0) fun rm => Local.pure _) (by omega)
  | rmReg8 mk =>
    exact Local.mono (Stream.fetchByte_local.bind (k := 6) fun m =>
      (decodeRM_local p m).bind (k := 1) fun rm =>
        Stream.fetchByte_local.bind (k := 0) fun v => Local.pure _) (by omega)
  | rmRegZ mk =>
    exact Stream.fetchByte_local.bind (k := 9) fun m =>
      (decodeRM_local p m).bind (k := 4) fun rm => (Stream.fetchZ_local p).bind (k := 0) fun v => Local.pure _
  | lea mk =>
    exact Local.mono (Stream.fetchByte_local.bind (k := 5) fun m =>
      Local.ite ((Local.fail _).mono (by omega)) (Local.ite ((Local.fail _).mono (by omega))
        ((decodeAddr_local m).bind (k := 0) fun a => Local.pure _))) (by omega)
  | group select => exact Stream.fetchByte_local.bind (k := 9) fun m => decodeGroup_local p m _

/-- A two-byte opcode is followed by ModR/M or a displacement alone. -/
theorem secondary_local (p : Prefixes) (b : Byte) : Local 6 (decodeEntry p (secondary b)) := by
  unfold secondary
  split
  all_goals first
    | exact (Local.fail _).mono (by omega)
    | exact Local.ite ((Local.fail _).mono (by omega))
        (Local.mono (Stream.fetchWord_local.bind (k := 0) fun v => Local.pure _) (by omega))
    | exact Stream.fetchByte_local.bind (k := 5) fun m => (decodeRM_local p m).bind (k := 0) fun rm => Local.pure _

/-- An opcode and all that follows it are at most eleven bytes, and no other byte matters. -/
theorem decodeOpcode_local (p : Prefixes) : Local 11 (decodeOpcode p) :=
  Stream.fetchByte_local.bind (k := 10) fun _ =>
    Local.ite ((Stream.fetchByte_local.bind (k := 6) fun b => secondary_local p b).mono (by omega))
      (decodeEntry_local p _)

end Sys2Proof
end

