-- ==== Sys2Proof/Laws/Fetch.lean ====
section
/-! SUPPORT. The laws of fetching at EIP: what `State.fetchDecode` answers, from what `decode` answers on the bytes that
lie at EIP (30_encoding.md R180, R184; 60_exceptions.md R522). -/

namespace Sys2Proof

/-! ### `decodeAt` on bytes cut into prefix bytes and the rest -/

theorem decodeAt_split {p : Prefixes} {b : Byte} (hb : Prefix.ofByte? b = none) (e : Option Word) (bs : List Byte) :
    decodeAt e (p.bytes ++ b :: bs) =
      match decodeOpcode p ⟨p.length, e, b :: bs⟩ with
      | .ok (i, st) => .ok (i, st.rest)
      | .error err => .error err := by
  simp only [decodeAt, splitPrefixes_bytes p hb]
  try rfl

/-- Bytes that decode, whole, begin with prefix bytes and one byte that is none. -/
theorem splitPrefixes_cases (bs : List Byte) :
    (∃ p : Prefixes, bs = p.bytes ∧ splitPrefixes bs = (p, [])) ∨
    ∃ (p : Prefixes) (b : Byte) (tail : List Byte), bs = p.bytes ++ b :: tail ∧ Prefix.ofByte? b = none := by
  obtain ⟨h1, h2⟩ := splitPrefixes_eq bs
  rcases hs : splitPrefixes bs with ⟨p, rest⟩
  rw [hs] at h1 h2
  cases rest with
  | nil => exact .inl ⟨p, by simpa using h1, rfl⟩
  | cons b tail => exact .inr ⟨p, b, tail, h1, h2 b tail rfl⟩

theorem decode_all_prefixes (p : Prefixes) : decode p.bytes = .error (.truncated p.length 1) := by
  have h : splitPrefixes p.bytes = (p, []) := by
    induction p with
    | nil => rfl
    | cons x p ih =>
      simp only [Prefixes.bytes, List.map_cons, splitPrefixes, Prefix.ofByte?_byte] at ih ⊢
      rw [ih]
  simp only [decode, decodeAt, h, decodeOpcode, Stream.fetchByte_nil, bind, Except.bind]

theorem decode_ok_not_prefixes {bs rest : List Byte} {i : Instr} (h : decode bs = .ok (i, rest)) :
    ∃ (p : Prefixes) (b : Byte) (tail : List Byte), bs = p.bytes ++ b :: tail ∧ Prefix.ofByte? b = none := by
  rcases splitPrefixes_cases bs with ⟨p, rfl, -⟩ | h'
  · rw [decode_all_prefixes] at h; cases h
  · exact h'

/-- What decodes whole decodes the same before any other bytes and at any address a fetch of it does not cross. -/
theorem decodeAt_ok_extend {bs : List Byte} {i : Instr} (h : decode bs = .ok (i, [])) {e : Option Word}
    (he : fetchFits e 0 bs.length = true) (ext : List Byte) : decodeAt e (bs ++ ext) = .ok (i, ext) := by
  obtain ⟨p, b, tail, rfl, hb⟩ := decode_ok_not_prefixes h
  rw [decode, decodeAt_split hb] at h
  have hl := decodeOpcode_local p p.length none (b :: tail)
  split at h
  · rename_i i' st hst
    rw [hst] at hl
    obtain ⟨n, hn, hn2, rfl, h4⟩ := hl
    have h1 : i' = i ∧ (b :: tail).drop n = [] := by
      have := Except.ok.inj h
      exact ⟨congrArg Prod.fst this, congrArg Prod.snd this⟩
    obtain ⟨rfl, hd⟩ := h1
    have hn3 : (b :: tail).take n = b :: tail := by
      rw [List.take_of_length_le]; exact List.drop_eq_nil_iff.mp hd
    have hc : fetchFits e p.length n = true :=
      fetchFits_part he (by simp only [List.length_append, Prefixes.bytes_length]; omega)
    have h5 := h4 e ext (.inr hc)
    rw [hn3] at h5
    rw [List.append_assoc, List.cons_append, decodeAt_split hb]
    rw [List.cons_append] at h5
    rw [h5]
  · cases h

/-- What follows the prefix bytes of an instruction is at most eleven bytes. -/
theorem decode_ok_tail {p : Prefixes} {b : Byte} {tail : List Byte} (hb : Prefix.ofByte? b = none) {i : Instr}
    (h : decode (p.bytes ++ b :: tail) = .ok (i, [])) : tail.length < 11 := by
  rw [decode, decodeAt_split hb] at h
  have hl := decodeOpcode_local p p.length none (b :: tail)
  split at h
  · rename_i i' st hst
    rw [hst] at hl
    obtain ⟨n, hn, hn2, rfl, h4⟩ := hl
    have hd : (b :: tail).drop n = [] := congrArg Prod.snd (Except.ok.inj h)
    have := List.drop_eq_nil_iff.mp hd
    simp only [List.length_cons] at this
    omega
  · cases h

/-- What is rejected after its last byte is rejected before any other bytes, its tail being at most eleven bytes. -/
theorem decodeAt_unknown_extend {bs : List Byte} {why : Reject} (h : decode bs = .error (.unknownOpcode why bs.length)) :
    ∃ (p : Prefixes) (b : Byte) (tail : List Byte), bs = p.bytes ++ b :: tail ∧ Prefix.ofByte? b = none ∧
      tail.length < 11 ∧ ∀ e ext, fetchFits e 0 bs.length = true →
        decodeAt e (bs ++ ext) = .error (.unknownOpcode why bs.length) := by
  rcases splitPrefixes_cases bs with ⟨p, rfl, -⟩ | ⟨p, b, tail, rfl, hb⟩
  · rw [decode_all_prefixes] at h; cases h
  · rw [decode, decodeAt_split hb] at h
    have hl := decodeOpcode_local p p.length none (b :: tail)
    split at h
    · cases h
    · rename_i err herr
      cases h
      rw [herr] at hl
      obtain ⟨n, hn, hn2, hu, h4⟩ := hl
      simp only [List.length_append, Prefixes.bytes_length, List.length_cons] at hu hn2
      refine ⟨p, b, tail, rfl, hb, by omega, fun e ext he => ?_⟩
      have hn3 : (b :: tail).take n = b :: tail := List.take_of_length_le (by simp only [List.length_cons]; omega)
      have hc : fetchFits e p.length n = true :=
        fetchFits_part he (by simp only [List.length_append, Prefixes.bytes_length, List.length_cons]; omega)
      have h5 := h4 e ext (.inr hc)
      rw [hn3, List.cons_append] at h5
      rw [List.append_assoc, List.cons_append, decodeAt_split hb, h5]

/-- Bytes that end inside an instruction decode to the same end at any address past them. -/
theorem decodeAt_truncated {bs : List Byte} {used len : Nat} (h : decode bs = .error (.truncated used len)) {e : Option Word}
    (he : fetchFits e 0 bs.length = true) :
    decodeAt e bs = .error (.truncated used len) ∧
      ∀ (p : Prefixes) (b : Byte) (tail : List Byte), bs = p.bytes ++ b :: tail → Prefix.ofByte? b = none →
        tail.length < 11 := by
  rcases splitPrefixes_cases bs with ⟨p, rfl, hs⟩ | ⟨p, b, tail, rfl, hb⟩
  · rw [decode_all_prefixes] at h
    cases h
    refine ⟨by simp only [decodeAt, hs, decodeOpcode, Stream.fetchByte_nil, bind, Except.bind], fun q b tail hq hb => ?_⟩
    rw [hq, splitPrefixes_bytes q hb] at hs
    cases hs
  · rw [decode, decodeAt_split hb] at h
    have hl := decodeOpcode_local p p.length none (b :: tail)
    split at h
    · cases h
    · rename_i err herr
      cases h
      rw [herr] at hl
      obtain ⟨n, hn, hn2, hu, hc, h5⟩ := hl
      simp only [List.length_cons, fetchFits_none, Bool.true_eq_false, or_false] at hn2 hc
      have hclear : fetchFits e p.length n = true :=
        fetchFits_part he (by simp only [List.length_append, Prefixes.bytes_length, List.length_cons]; omega)
      have hlen : ((b :: tail).drop n).length < len := by
        simp only [List.length_drop, List.length_cons]; omega
      have h6 := h5 e ((b :: tail).drop n) (.inr hclear) (.inl hlen)
      rw [List.take_append_drop] at h6
      refine ⟨by rw [decodeAt_split hb, h6], fun q c tail' hq hb' => ?_⟩
      have h7 := splitPrefixes_bytes p hb tail
      rw [hq, splitPrefixes_bytes q hb'] at h7
      cases h7
      omega

end Sys2Proof

namespace Sys2Proof.Machine

/-! ### The window -/

theorem prefixRun_bytes {m : Memory} (hm : m.size ≤ 2 ^ 32) {b : Byte} (hb : Prefix.ofByte? b = none) (p : Prefixes)
    (rest : List Byte) (a fuel : Nat) (ha : a + p.length + rest.length < m.size)
    (h : m.readBytes a (p.length + rest.length + 1) = p.bytes ++ b :: rest) (hf : p.length < fuel) :
    prefixRun m fuel a = p.length := by
  induction p generalizing a fuel with
  | nil =>
    obtain ⟨fuel, rfl⟩ := Nat.exists_eq_succ_of_ne_zero (Nat.pos_iff_ne_zero.mp (Nat.zero_lt_of_lt hf))
    have h1 : m.read a = b := (List.cons.inj h).1
    simp [prefixRun, h1, hb]
  | cons x p ih =>
    obtain ⟨fuel, rfl⟩ := Nat.exists_eq_succ_of_ne_zero (Nat.pos_iff_ne_zero.mp (Nat.zero_lt_of_lt hf))
    rw [List.length_cons] at ha hf ⊢
    rw [show (x :: p).length + rest.length + 1 = p.length + rest.length + 1 + 1 by simp only [List.length_cons]; omega] at h
    obtain ⟨h1, h2⟩ := List.cons.inj h
    have hmod : (a + 1) % 2 ^ 32 = a + 1 := Nat.mod_eq_of_lt (by omega)
    rw [prefixRun, if_pos ⟨by omega, by rw [h1]; simp⟩, hmod, ih (a + 1) fuel (by omega) h2 (by omega)]

/-- Prefix bytes up to the end of a memory that is smaller than the address space. -/
theorem prefixRun_to_end {m : Memory} (hm : m.size < 2 ^ 32) (p : Prefixes) (a fuel : Nat)
    (ha : p.length = m.size - a) (h : m.readBytes a (m.size - a) = p.bytes) (hf : p.length < fuel) :
    prefixRun m fuel a = p.length := by
  induction p generalizing a fuel with
  | nil =>
    obtain ⟨fuel, rfl⟩ := Nat.exists_eq_succ_of_ne_zero (Nat.pos_iff_ne_zero.mp (Nat.zero_lt_of_lt hf))
    rw [List.length_nil] at ha
    rw [prefixRun, if_neg (by omega), List.length_nil]
  | cons x p ih =>
    obtain ⟨fuel, rfl⟩ := Nat.exists_eq_succ_of_ne_zero (Nat.pos_iff_ne_zero.mp (Nat.zero_lt_of_lt hf))
    rw [List.length_cons] at ha hf ⊢
    rw [show m.size - a = m.size - (a + 1) + 1 by omega] at h
    obtain ⟨h1, h2⟩ := List.cons.inj h
    have hmod : (a + 1) % 2 ^ 32 = a + 1 := Nat.mod_eq_of_lt (by omega)
    rw [prefixRun, if_pos ⟨by omega, by rw [h1]; simp⟩, hmod, ih (a + 1) fuel (by omega) h2 (by omega)]

theorem readAhead_add {m : Memory} (hm : m.size ≤ 2 ^ 32) (n k a : Nat) (ha : a + n ≤ m.size) (ha' : a < 2 ^ 32) :
    readAhead m (n + k) a = m.readBytes a n ++ readAhead m k ((a + n) % 2 ^ 32) := by
  induction n generalizing a with
  | zero => rw [Nat.add_zero, Nat.zero_add, Nat.mod_eq_of_lt ha', Memory.readBytes, List.nil_append]
  | succ n ih =>
    rw [show n + 1 + k = n + k + 1 by omega, readAhead, if_pos (by omega)]
    rcases Nat.eq_zero_or_pos n with rfl | hn
    · simp [Memory.readBytes]
    · rw [Nat.mod_eq_of_lt (show a + 1 < 2 ^ 32 by omega), ih (a + 1) (by omega) (by omega), Memory.readBytes]
      rw [List.cons_append, show a + 1 + n = a + (n + 1) by omega]

theorem readAhead_to_end {m : Memory} (hm : m.size < 2 ^ 32) (n a : Nat) (hn : m.size - a ≤ n) (ha : a < 2 ^ 32) :
    readAhead m n a = m.readBytes a (m.size - a) := by
  by_cases h : a < m.size
  · obtain ⟨k, rfl⟩ := Nat.exists_eq_add_of_le hn
    rw [readAhead_add (by omega) _ _ _ (by omega) ha, show a + (m.size - a) = m.size by omega, Nat.mod_eq_of_lt hm]
    cases k <;> simp [readAhead]
  · rw [show m.size - a = 0 by omega]
    cases n <;> simp [readAhead, Memory.readBytes, h]

/-- The window holds the bytes at EIP, whatever follows them. -/
theorem window_of_bytes {s : State} (hm : s.mem.size ≤ 2 ^ 32) {p : Prefixes} {b : Byte} {tail : List Byte}
    (hb : Prefix.ofByte? b = none) (ht : tail.length < 11)
    (hlen : s.eip.toNat + (p.bytes ++ b :: tail).length ≤ s.mem.size)
    (h : s.mem.readBytes s.eip.toNat (p.bytes ++ b :: tail).length = p.bytes ++ b :: tail) :
    prefixRun s.mem (2 ^ 32) s.eip.toNat = p.length ∧ p.length < 2 ^ 32 ∧
      ∃ ext, s.window = (p.bytes ++ b :: tail) ++ ext := by
  have hl : (p.bytes ++ b :: tail).length = p.length + tail.length + 1 := by simp; omega
  rw [hl] at hlen
  have hr := prefixRun_bytes hm hb p tail s.eip.toNat (2 ^ 32) (by omega) (by rw [← hl]; exact h) (by omega)
  refine ⟨hr, by omega, ?_⟩
  have hmt : maxTail = 11 := rfl
  obtain ⟨k, hk⟩ := Nat.exists_eq_add_of_le (show p.length + tail.length + 1 ≤ p.length + maxTail by omega)
  refine ⟨readAhead s.mem k ((s.eip.toNat + (p.length + tail.length + 1)) % 2 ^ 32), ?_⟩
  rw [State.window, hr, hk, readAhead_add hm _ _ _ (by omega) s.eip.isLt]
  conv_rhs => rw [← h]
  rw [hl]

/-! ### A memory of 2^32 bytes, whose addresses go on at 0 after the last (10_state.md R41) -/

theorem readAhead_length_full {m : Memory} (hm : m.size = 2 ^ 32) (n a : Nat) (ha : a < 2 ^ 32) :
    (readAhead m n a).length = n := by
  induction n generalizing a with
  | zero => rfl
  | succ n ih => rw [readAhead, if_pos (by omega), List.length_cons, ih _ (Nat.mod_lt _ (by decide))]

theorem readAhead_add_full {m : Memory} (hm : m.size = 2 ^ 32) (n k a : Nat) (ha : a < 2 ^ 32) :
    ∃ ext, readAhead m (n + k) a = readAhead m n a ++ ext := by
  induction n generalizing a with
  | zero => exact ⟨_, by rw [readAhead, List.nil_append]⟩
  | succ n ih =>
    obtain ⟨ext, h⟩ := ih ((a + 1) % 2 ^ 32) (Nat.mod_lt _ (by decide))
    refine ⟨ext, ?_⟩
    rw [show n + 1 + k = n + k + 1 by omega, readAhead, readAhead, if_pos (by omega), if_pos (by omega), h,
      List.cons_append]

/-- Prefix bytes up to the first byte that is none; as that byte is met, they are fewer than all of memory. -/
theorem prefixRun_full {m : Memory} (hm : m.size = 2 ^ 32) {b : Byte} (hb : Prefix.ofByte? b = none) (p : Prefixes)
    (tail : List Byte) (a fuel : Nat) (ha : a < 2 ^ 32)
    (h : readAhead m (p.length + tail.length + 1) a = p.bytes ++ b :: tail) (hf : p.length < fuel) :
    prefixRun m fuel a = p.length := by
  induction p generalizing a fuel with
  | nil =>
    obtain ⟨fuel, rfl⟩ := Nat.exists_eq_succ_of_ne_zero (Nat.pos_iff_ne_zero.mp (Nat.zero_lt_of_lt hf))
    rw [readAhead, if_pos (by omega)] at h
    have h1 : m.read a = b := (List.cons.inj h).1
    simp [prefixRun, h1, hb]
  | cons x p ih =>
    obtain ⟨fuel, rfl⟩ := Nat.exists_eq_succ_of_ne_zero (Nat.pos_iff_ne_zero.mp (Nat.zero_lt_of_lt hf))
    rw [List.length_cons] at hf ⊢
    rw [show (x :: p).length + tail.length + 1 = p.length + tail.length + 1 + 1 by simp only [List.length_cons]; omega,
      readAhead, if_pos (by omega)] at h
    obtain ⟨h1, h2⟩ := List.cons.inj h
    rw [prefixRun, if_pos ⟨by omega, by rw [h1]; simp⟩, ih _ fuel (Nat.mod_lt _ (by decide)) h2 (by omega)]

theorem readAhead_getElem? {m : Memory} (hm : m.size = 2 ^ 32) (n a k : Nat) (ha : a < 2 ^ 32) (hk : k < n) :
    (readAhead m n a)[k]? = some (m.read ((a + k) % 2 ^ 32)) := by
  induction n generalizing a k with
  | zero => omega
  | succ n ih =>
    rw [readAhead, if_pos (by omega)]
    cases k with
    | zero => rw [List.getElem?_cons_zero, Nat.add_zero, Nat.mod_eq_of_lt ha]
    | succ k =>
      rw [List.getElem?_cons_succ, ih _ _ (Nat.mod_lt _ (by decide)) (by omega), Nat.mod_add_mod,
        show a + 1 + k = a + (k + 1) by omega]

theorem bytesRound_eq {s : State} (hm : s.mem.size = 2 ^ 32) (n : Nat) :
    s.bytesRound n = readAhead s.mem n s.eip.toNat := by
  refine List.ext_getElem? fun k => ?_
  by_cases hk : k < n
  · rw [readAhead_getElem? hm n _ k s.eip.isLt hk, State.bytesRound, List.getElem?_map, List.getElem?_range hk,
      Option.map_some, BitVec.toNat_add, BitVec.toNat_ofNat, Nat.add_mod_mod]
  · rw [List.getElem?_eq_none (by simp only [State.bytesRound, List.length_map, List.length_range]; omega),
      List.getElem?_eq_none (by rw [readAhead_length_full hm _ _ s.eip.isLt]; omega)]

/-- Once round memory is as many prefix bytes as can stand before one that is none. -/
theorem prefixes_lt_full {m : Memory} (hm : m.size = 2 ^ 32) {b : Byte} (hb : Prefix.ofByte? b = none) {p : Prefixes}
    {tail : List Byte} {a : Nat} (ha : a < 2 ^ 32)
    (h : readAhead m (p.length + tail.length + 1) a = p.bytes ++ b :: tail) : p.length < 2 ^ 32 := by
  by_contra hp
  have h1 := readAhead_getElem? hm (p.length + tail.length + 1) a p.length ha (by omega)
  have h2 := readAhead_getElem? hm (p.length + tail.length + 1) a (p.length - 2 ^ 32) ha (by omega)
  rw [h, List.getElem?_append_right (by simp)] at h1
  rw [h, List.getElem?_append_left (by simp only [Prefixes.bytes_length]; omega)] at h2
  rw [Prefixes.bytes_length, Nat.sub_self, List.getElem?_cons_zero] at h1
  rw [Prefixes.bytes, List.getElem?_map, show (a + (p.length - 2 ^ 32)) % 2 ^ 32 = (a + p.length) % 2 ^ 32 by omega, ← h1,
    Option.map_eq_some_iff] at h2
  obtain ⟨x, -, hx⟩ := h2
  rw [← hx, Prefix.ofByte?_byte] at hb
  cases hb

/-- The window begins with the bytes from EIP on, round the top of the space. -/
theorem window_full {s : State} (hm : s.mem.size = 2 ^ 32) {p : Prefixes} {b : Byte} {tail : List Byte}
    (hb : Prefix.ofByte? b = none) (ht : tail.length < 11)
    (h : readAhead s.mem (p.length + tail.length + 1) s.eip.toNat = p.bytes ++ b :: tail) :
    prefixRun s.mem (2 ^ 32) s.eip.toNat = p.length ∧ p.length < 2 ^ 32 ∧
      ∃ ext, s.window = (p.bytes ++ b :: tail) ++ ext := by
  have hp := prefixes_lt_full hm hb s.eip.isLt h
  have hr := prefixRun_full hm hb p tail s.eip.toNat (2 ^ 32) s.eip.isLt h hp
  refine ⟨hr, hp, ?_⟩
  have hmt : maxTail = 11 := rfl
  obtain ⟨k, hk⟩ := Nat.exists_eq_add_of_le (show p.length + tail.length + 1 ≤ p.length + maxTail by omega)
  obtain ⟨ext, he⟩ := readAhead_add_full hm (p.length + tail.length + 1) k s.eip.toNat s.eip.isLt
  exact ⟨ext, by rw [State.window, hr, hk, he, h]⟩

/-! ### What is fetched -/

/-- Bytes at EIP that decode are the instruction fetched. -/
theorem fetchDecode_ok {s : State} (hm : s.mem.size ≤ 2 ^ 32) {bs : List Byte} {i : Instr} (hd : decode bs = .ok (i, []))
    (hlen : s.eip.toNat + bs.length ≤ s.mem.size) (h : s.mem.readBytes s.eip.toNat bs.length = bs) :
    s.fetchDecode = .ok i := by
  obtain ⟨p, b, tail, hbs, hb⟩ := decode_ok_not_prefixes hd
  subst hbs
  obtain ⟨h1, h2, ext, h3⟩ := window_of_bytes hm hb (decode_ok_tail hb hd) hlen h
  rw [State.fetchDecode, h1, if_neg (by omega), h3, decodeAt_ok_extend hd (fetchFits_start (by omega))]

/-- Bytes at EIP that are rejected after their last byte raise UnknownOpcode with those bytes (R184). -/
theorem fetchDecode_unknown {s : State} (hm : s.mem.size ≤ 2 ^ 32) {bs : List Byte} {why : Reject}
    (hd : decode bs = .error (.unknownOpcode why bs.length))
    (hlen : s.eip.toNat + bs.length ≤ s.mem.size) (h : s.mem.readBytes s.eip.toNat bs.length = bs) :
    s.fetchDecode = .error (.fault (.unknownOpcode bs)) := by
  obtain ⟨p, b, tail, hbs, hb, ht, he⟩ := decodeAt_unknown_extend hd
  subst hbs
  obtain ⟨h1, h2, ext, h3⟩ := window_of_bytes hm hb ht hlen h
  rw [State.fetchDecode, h1, if_neg (by omega), h3, he _ _ (fetchFits_start (by omega))]
  simp only [List.take_left]

/-- An instruction that runs off the end of memory raises BoundsError with the address and length of the one fetch
that does so (R522). -/
theorem fetchDecode_truncated {s : State} (hm : s.mem.size < 2 ^ 32) {used len : Nat}
    (hd : decode (s.mem.readBytes s.eip.toNat (s.mem.size - s.eip.toNat)) = .error (.truncated used len)) :
    s.fetchDecode = .error (.fault (s.outOfBounds (s.eip + BitVec.ofNat 32 used) len)) := by
  have hlt := s.eip.isLt
  obtain ⟨h1, h2⟩ := decodeAt_truncated hd (e := some s.eip)
    (fetchFits_start (by rw [Memory.readBytes_length]; omega))
  have hmt : maxTail = 11 := rfl
  have hw : prefixRun s.mem (2 ^ 32) s.eip.toNat < 2 ^ 32 ∧
      s.mem.size - s.eip.toNat ≤ prefixRun s.mem (2 ^ 32) s.eip.toNat + maxTail := by
    rcases splitPrefixes_cases (s.mem.readBytes s.eip.toNat (s.mem.size - s.eip.toNat)) with ⟨p, hp, -⟩ | ⟨p, b, tail, hp, hb⟩
    · have hl : p.length = s.mem.size - s.eip.toNat := by
        rw [← Prefixes.bytes_length, ← hp, Memory.readBytes_length]
      rw [prefixRun_to_end hm p _ _ hl hp (by omega)]
      omega
    · have ht := h2 p b tail hp hb
      have hl : p.length + tail.length + 1 = s.mem.size - s.eip.toNat := by
        have := congrArg List.length hp
        simp only [Memory.readBytes_length, List.length_append, Prefixes.bytes_length, List.length_cons] at this
        omega
      rw [prefixRun_bytes (by omega) hb p tail _ _ (by omega) (by rw [hl]; exact hp) (by omega)]
      omega
  rw [State.fetchDecode, if_neg (by omega)]
  have hwin : s.window = s.mem.readBytes s.eip.toNat (s.mem.size - s.eip.toNat) :=
    readAhead_to_end hm _ _ hw.2 hlt
  rw [hwin, h1]

/-- A fetch that would cross the top of a full memory raises BoundsError, with the address and length of that fetch
(R82, R522), however many times the fetches before it have gone round. -/
theorem fetchDecode_crossing {s : State} (hm : s.mem.size = 2 ^ 32) {used len : Nat}
    (hd : decode (readAhead s.mem used s.eip.toNat) = .error (.truncated used len))
    (hlen : 2 ^ 32 < (s.eip.toNat + used) % 2 ^ 32 + len) :
    s.fetchDecode = .error (.fault (s.outOfBounds (s.eip + BitVec.ofNat 32 used) len)) := by
  rcases splitPrefixes_cases (readAhead s.mem used s.eip.toNat) with ⟨p, hp, -⟩ | ⟨p, b, tail, hbs, hb⟩
  · rw [hp, decode_all_prefixes] at hd
    cases hd
    omega
  · have hl : used = p.length + tail.length + 1 := by
      have := congrArg List.length hbs
      rw [readAhead_length_full hm _ _ s.eip.isLt] at this
      simp only [List.length_append, Prefixes.bytes_length, List.length_cons] at this
      omega
    have hd' := hd
    rw [hbs, decode, decodeAt_split hb] at hd
    have hloc := decodeOpcode_local p p.length none (b :: tail)
    split at hd
    · cases hd
    · rename_i err herr
      cases hd
      rw [herr] at hloc
      obtain ⟨n, hn, hn2, hu, -, h5⟩ := hloc
      obtain ⟨h1, h2, ext, h3⟩ := window_full (tail := tail) hm hb (by omega) (by rw [← hl]; exact hbs)
      have hfit : fetchFits (some s.eip) p.length n = true := by rw [fetchFits_some]; omega
      have hnot : fetchFits (some s.eip) used len = false := by
        rw [← Bool.not_eq_true, fetchFits_some]; omega
      have h6 := h5 (some s.eip) ext (.inr hfit) (.inr hnot)
      rw [List.take_of_length_le (by simp only [List.length_cons]; omega), List.cons_append] at h6
      rw [State.fetchDecode, h1, if_neg (by omega), h3, List.append_assoc, List.cons_append, decodeAt_split hb, h6]

/-- Bytes that decode where they lie, round the top of a full memory between two fetches, are the instruction fetched. -/
theorem fetchDecode_round {s : State} (hm : s.mem.size = 2 ^ 32) {n : Nat} {i : Instr}
    (hd : decodeAt (some s.eip) (readAhead s.mem n s.eip.toNat) = .ok (i, [])) : s.fetchDecode = .ok i := by
  rcases splitPrefixes_cases (readAhead s.mem n s.eip.toNat) with ⟨p, hp, hs⟩ | ⟨p, b, tail, hbs, hb⟩
  · simp only [decodeAt, hs, decodeOpcode, Stream.fetchByte_nil, bind, Except.bind] at hd
    cases hd
  · have hl : n = p.length + tail.length + 1 := by
      have := congrArg List.length hbs
      rw [readAhead_length_full hm _ _ s.eip.isLt] at this
      simp only [List.length_append, Prefixes.bytes_length, List.length_cons] at this
      omega
    rw [hbs, decodeAt_split hb] at hd
    have hloc := decodeOpcode_local p p.length (some s.eip) (b :: tail)
    split at hd
    · rename_i j st hst
      rw [hst] at hloc
      obtain ⟨k, hk, hk2, rfl, h4⟩ := hloc
      obtain ⟨rfl, hdrop⟩ := Prod.mk.inj (Except.ok.inj hd)
      have hk3 := List.drop_eq_nil_iff.mp hdrop
      simp only [List.length_cons] at hk2 hk3
      obtain ⟨h1, h2, ext, h3⟩ := window_full (tail := tail) hm hb (by omega) (by rw [← hl]; exact hbs)
      have h5 := h4 (some s.eip) ext (.inl rfl)
      rw [List.take_of_length_le (by simp only [List.length_cons]; omega), List.cons_append] at h5
      rw [State.fetchDecode, h1, if_neg (by omega), h3, List.append_assoc, List.cons_append, decodeAt_split hb, h5]
    · cases hd

/-- Prefix bytes all round a full memory are fetched without end. -/
theorem fetchDecode_endless {s : State} (hm : s.mem.size = 2 ^ 32)
    (h : ∀ a, a < 2 ^ 32 → (Prefix.ofByte? (s.mem.read a)).isSome = true) : s.fetchDecode = .error .endless := by
  have hr (fuel a : Nat) (ha : a < 2 ^ 32) : prefixRun s.mem fuel a = fuel := by
    induction fuel generalizing a with
    | zero => rfl
    | succ fuel ih => rw [prefixRun, if_pos ⟨by omega, h a ha⟩, ih _ (Nat.mod_lt _ (by decide))]
  rw [State.fetchDecode, hr _ _ s.eip.isLt, if_pos rfl]

end Sys2Proof.Machine
end

