-- ==== Sys2Proof/Laws/PerInstr.lean ====
section
/-! SUPPORT. One fact about the encoding of each instruction: what follows the prefix bytes begins with a byte that is no
prefix, and is at most as long as the fetch window allows (30_encoding.md R120, R124). -/

namespace Sys2Proof.Laws.Tail

/-- The prefix bytes of an encoding end where `b` stands, and at most `maxTail` bytes follow them. -/
def Statement (i : Instr) : Prop :=
  ∃ (b : Byte) (tail : List Byte), encode i = i.prefixes.bytes ++ b :: tail ∧ Prefix.ofByte? b = none ∧
    tail.length < Machine.maxTail

theorem of_layout {i : Instr} {b : Byte} {more operand immediate : List Byte}
    (h : encode i = layout i.prefixes (b :: more) operand immediate) (hb : Prefix.ofByte? b = none)
    (hl : more.length + operand.length + immediate.length ≤ 10) : Statement i :=
  ⟨b, more ++ (operand ++ immediate), h, hb, by
    simp only [List.length_append, Machine.maxTail]; omega⟩

theorem rm_length (rm : RM) (d : BitVec 3) : (rm.bytes d).length ≤ 6 := by
  rcases rm with r | (d | ⟨b, d⟩ | ⟨_, _, b, d⟩ | _)
  all_goals simp only [RM.bytes, List.length_cons, List.length_nil, leBytes_length]
  all_goals first | omega | (have := d.bytes_length_le; omega)

theorem iz_length (p : Prefixes) (v : Word) : (izBytes p v).length ≤ 4 := by
  rw [izBytes, leBytes_length]
  rcases p.osz_cases with h | h <;> rw [h] <;> decide

theorem of_rm {i : Instr} {b : Byte} {more immediate : List Byte} {rm : RM} {d : BitVec 3}
    (h : encode i = layout i.prefixes (b :: more) (rm.bytes d) immediate) (hb : Prefix.ofByte? b = none)
    (hl : more.length + immediate.length ≤ 4) : Statement i :=
  of_layout h hb (by have := rm_length rm d; omega)

theorem of_iz {i : Instr} {b : Byte} {p : Prefixes} {v : Word}
    (h : encode i = layout i.prefixes [b] (izBytes p v) []) (hb : Prefix.ofByte? b = none) : Statement i :=
  of_layout h hb (by have := iz_length p v; simp only [List.length_nil]; omega)

theorem of_rm_iz {i : Instr} {b : Byte} {rm : RM} {d : BitVec 3} {p : Prefixes} {v : Word}
    (h : encode i = layout i.prefixes [b] (rm.bytes d) (izBytes p v)) (hb : Prefix.ofByte? b = none) : Statement i :=
  of_rm h hb (by have := iz_length p v; simp only [List.length_nil]; omega)

theorem plusR_byte (base : Byte) (r : Reg) (h : ∀ x : BitVec 3, Prefix.ofByte? (base + x.setWidth 8) = none) :
    Prefix.ofByte? (plusRByte base r) = none := h _

theorem addEbGb p rm r : Statement (.addEbGb p rm r) := of_rm rfl rfl (by simp)
theorem addEvGv p rm r : Statement (.addEvGv p rm r) := of_rm rfl rfl (by simp)
theorem addGbEb p rm r : Statement (.addGbEb p rm r) := of_rm rfl rfl (by simp)
theorem addGvEv p rm r : Statement (.addGvEv p rm r) := of_rm rfl rfl (by simp)
theorem addAlIb p imm : Statement (.addAlIb p imm) := of_layout rfl rfl (by simp)
theorem addEaxIz p imm : Statement (.addEaxIz p imm) := of_iz rfl rfl
theorem orEbGb p rm r : Statement (.orEbGb p rm r) := of_rm rfl rfl (by simp)
theorem orEvGv p rm r : Statement (.orEvGv p rm r) := of_rm rfl rfl (by simp)
theorem orGbEb p rm r : Statement (.orGbEb p rm r) := of_rm rfl rfl (by simp)
theorem orGvEv p rm r : Statement (.orGvEv p rm r) := of_rm rfl rfl (by simp)
theorem orAlIb p imm : Statement (.orAlIb p imm) := of_layout rfl rfl (by simp)
theorem orEaxIz p imm : Statement (.orEaxIz p imm) := of_iz rfl rfl
theorem adcEbGb p rm r : Statement (.adcEbGb p rm r) := of_rm rfl rfl (by simp)
theorem adcEvGv p rm r : Statement (.adcEvGv p rm r) := of_rm rfl rfl (by simp)
theorem adcGbEb p rm r : Statement (.adcGbEb p rm r) := of_rm rfl rfl (by simp)
theorem adcGvEv p rm r : Statement (.adcGvEv p rm r) := of_rm rfl rfl (by simp)
theorem adcAlIb p imm : Statement (.adcAlIb p imm) := of_layout rfl rfl (by simp)
theorem adcEaxIz p imm : Statement (.adcEaxIz p imm) := of_iz rfl rfl
theorem sbbEbGb p rm r : Statement (.sbbEbGb p rm r) := of_rm rfl rfl (by simp)
theorem sbbEvGv p rm r : Statement (.sbbEvGv p rm r) := of_rm rfl rfl (by simp)
theorem sbbGbEb p rm r : Statement (.sbbGbEb p rm r) := of_rm rfl rfl (by simp)
theorem sbbGvEv p rm r : Statement (.sbbGvEv p rm r) := of_rm rfl rfl (by simp)
theorem sbbAlIb p imm : Statement (.sbbAlIb p imm) := of_layout rfl rfl (by simp)
theorem sbbEaxIz p imm : Statement (.sbbEaxIz p imm) := of_iz rfl rfl
theorem andEbGb p rm r : Statement (.andEbGb p rm r) := of_rm rfl rfl (by simp)
theorem andEvGv p rm r : Statement (.andEvGv p rm r) := of_rm rfl rfl (by simp)
theorem andGbEb p rm r : Statement (.andGbEb p rm r) := of_rm rfl rfl (by simp)
theorem andGvEv p rm r : Statement (.andGvEv p rm r) := of_rm rfl rfl (by simp)
theorem andAlIb p imm : Statement (.andAlIb p imm) := of_layout rfl rfl (by simp)
theorem andEaxIz p imm : Statement (.andEaxIz p imm) := of_iz rfl rfl
theorem subEbGb p rm r : Statement (.subEbGb p rm r) := of_rm rfl rfl (by simp)
theorem subEvGv p rm r : Statement (.subEvGv p rm r) := of_rm rfl rfl (by simp)
theorem subGbEb p rm r : Statement (.subGbEb p rm r) := of_rm rfl rfl (by simp)
theorem subGvEv p rm r : Statement (.subGvEv p rm r) := of_rm rfl rfl (by simp)
theorem subAlIb p imm : Statement (.subAlIb p imm) := of_layout rfl rfl (by simp)
theorem subEaxIz p imm : Statement (.subEaxIz p imm) := of_iz rfl rfl
theorem xorEbGb p rm r : Statement (.xorEbGb p rm r) := of_rm rfl rfl (by simp)
theorem xorEvGv p rm r : Statement (.xorEvGv p rm r) := of_rm rfl rfl (by simp)
theorem xorGbEb p rm r : Statement (.xorGbEb p rm r) := of_rm rfl rfl (by simp)
theorem xorGvEv p rm r : Statement (.xorGvEv p rm r) := of_rm rfl rfl (by simp)
theorem xorAlIb p imm : Statement (.xorAlIb p imm) := of_layout rfl rfl (by simp)
theorem xorEaxIz p imm : Statement (.xorEaxIz p imm) := of_iz rfl rfl
theorem cmpEbGb p rm r : Statement (.cmpEbGb p rm r) := of_rm rfl rfl (by simp)
theorem cmpEvGv p rm r : Statement (.cmpEvGv p rm r) := of_rm rfl rfl (by simp)
theorem cmpGbEb p rm r : Statement (.cmpGbEb p rm r) := of_rm rfl rfl (by simp)
theorem cmpGvEv p rm r : Statement (.cmpGvEv p rm r) := of_rm rfl rfl (by simp)
theorem cmpAlIb p imm : Statement (.cmpAlIb p imm) := of_layout rfl rfl (by simp)
theorem cmpEaxIz p imm : Statement (.cmpEaxIz p imm) := of_iz rfl rfl
theorem addEbIb p rm imm : Statement (.addEbIb p rm imm) := of_rm rfl rfl (by simp)
theorem addEvIz p rm imm : Statement (.addEvIz p rm imm) := of_rm_iz rfl rfl
theorem addEvIb p rm imm : Statement (.addEvIb p rm imm) := of_rm rfl rfl (by simp)
theorem orEbIb p rm imm : Statement (.orEbIb p rm imm) := of_rm rfl rfl (by simp)
theorem orEvIz p rm imm : Statement (.orEvIz p rm imm) := of_rm_iz rfl rfl
theorem orEvIb p rm imm : Statement (.orEvIb p rm imm) := of_rm rfl rfl (by simp)
theorem adcEbIb p rm imm : Statement (.adcEbIb p rm imm) := of_rm rfl rfl (by simp)
theorem adcEvIz p rm imm : Statement (.adcEvIz p rm imm) := of_rm_iz rfl rfl
theorem adcEvIb p rm imm : Statement (.adcEvIb p rm imm) := of_rm rfl rfl (by simp)
theorem sbbEbIb p rm imm : Statement (.sbbEbIb p rm imm) := of_rm rfl rfl (by simp)
theorem sbbEvIz p rm imm : Statement (.sbbEvIz p rm imm) := of_rm_iz rfl rfl
theorem sbbEvIb p rm imm : Statement (.sbbEvIb p rm imm) := of_rm rfl rfl (by simp)
theorem andEbIb p rm imm : Statement (.andEbIb p rm imm) := of_rm rfl rfl (by simp)
theorem andEvIz p rm imm : Statement (.andEvIz p rm imm) := of_rm_iz rfl rfl
theorem andEvIb p rm imm : Statement (.andEvIb p rm imm) := of_rm rfl rfl (by simp)
theorem subEbIb p rm imm : Statement (.subEbIb p rm imm) := of_rm rfl rfl (by simp)
theorem subEvIz p rm imm : Statement (.subEvIz p rm imm) := of_rm_iz rfl rfl
theorem subEvIb p rm imm : Statement (.subEvIb p rm imm) := of_rm rfl rfl (by simp)
theorem xorEbIb p rm imm : Statement (.xorEbIb p rm imm) := of_rm rfl rfl (by simp)
theorem xorEvIz p rm imm : Statement (.xorEvIz p rm imm) := of_rm_iz rfl rfl
theorem xorEvIb p rm imm : Statement (.xorEvIb p rm imm) := of_rm rfl rfl (by simp)
theorem cmpEbIb p rm imm : Statement (.cmpEbIb p rm imm) := of_rm rfl rfl (by simp)
theorem cmpEvIz p rm imm : Statement (.cmpEvIz p rm imm) := of_rm_iz rfl rfl
theorem cmpEvIb p rm imm : Statement (.cmpEvIb p rm imm) := of_rm rfl rfl (by simp)
theorem incR p r : Statement (.incR p r) := of_layout rfl (plusR_byte _ _ (by decide)) (by simp)
theorem decR p r : Statement (.decR p r) := of_layout rfl (plusR_byte _ _ (by decide)) (by simp)
theorem pushR p r : Statement (.pushR p r) := of_layout rfl (plusR_byte _ _ (by decide)) (by simp)
theorem popR p r : Statement (.popR p r) := of_layout rfl (plusR_byte _ _ (by decide)) (by simp)
theorem movsxdGvEv p rm r : Statement (.movsxdGvEv p rm r) := of_rm rfl rfl (by simp)
theorem pushIz p imm : Statement (.pushIz p imm) := of_iz rfl rfl
theorem imulGvEvIz p rm r imm : Statement (.imulGvEvIz p rm r imm) := of_rm_iz rfl rfl
theorem pushIb p imm : Statement (.pushIb p imm) := of_layout rfl rfl (by simp)
theorem imulGvEvIb p rm r imm : Statement (.imulGvEvIb p rm r imm) := of_rm rfl rfl (by simp)
theorem joRel8 p rel : Statement (.joRel8 p rel) := of_layout rfl rfl (by simp)
theorem jnoRel8 p rel : Statement (.jnoRel8 p rel) := of_layout rfl rfl (by simp)
theorem jbRel8 p rel : Statement (.jbRel8 p rel) := of_layout rfl rfl (by simp)
theorem jaeRel8 p rel : Statement (.jaeRel8 p rel) := of_layout rfl rfl (by simp)
theorem jeRel8 p rel : Statement (.jeRel8 p rel) := of_layout rfl rfl (by simp)
theorem jneRel8 p rel : Statement (.jneRel8 p rel) := of_layout rfl rfl (by simp)
theorem jbeRel8 p rel : Statement (.jbeRel8 p rel) := of_layout rfl rfl (by simp)
theorem jaRel8 p rel : Statement (.jaRel8 p rel) := of_layout rfl rfl (by simp)
theorem jsRel8 p rel : Statement (.jsRel8 p rel) := of_layout rfl rfl (by simp)
theorem jnsRel8 p rel : Statement (.jnsRel8 p rel) := of_layout rfl rfl (by simp)
theorem jpRel8 p rel : Statement (.jpRel8 p rel) := of_layout rfl rfl (by simp)
theorem jnpRel8 p rel : Statement (.jnpRel8 p rel) := of_layout rfl rfl (by simp)
theorem jlRel8 p rel : Statement (.jlRel8 p rel) := of_layout rfl rfl (by simp)
theorem jgeRel8 p rel : Statement (.jgeRel8 p rel) := of_layout rfl rfl (by simp)
theorem jleRel8 p rel : Statement (.jleRel8 p rel) := of_layout rfl rfl (by simp)
theorem jgRel8 p rel : Statement (.jgRel8 p rel) := of_layout rfl rfl (by simp)
theorem testEbGb p rm r : Statement (.testEbGb p rm r) := of_rm rfl rfl (by simp)
theorem testEvGv p rm r : Statement (.testEvGv p rm r) := of_rm rfl rfl (by simp)
theorem xchgEbGb p rm r : Statement (.xchgEbGb p rm r) := of_rm rfl rfl (by simp)
theorem xchgEvGv p rm r : Statement (.xchgEvGv p rm r) := of_rm rfl rfl (by simp)
theorem movEbGb p rm r : Statement (.movEbGb p rm r) := of_rm rfl rfl (by simp)
theorem movEvGv p rm r : Statement (.movEvGv p rm r) := of_rm rfl rfl (by simp)
theorem movGbEb p rm r : Statement (.movGbEb p rm r) := of_rm rfl rfl (by simp)
theorem movGvEv p rm r : Statement (.movGvEv p rm r) := of_rm rfl rfl (by simp)
theorem leaGvM p r a : Statement (.leaGvM p r a) := of_rm rfl rfl (by simp)
theorem popEv p rm : Statement (.popEv p rm) := of_rm rfl rfl (by simp)
theorem nop p : Statement (.nop p) := of_layout rfl rfl (by simp)
theorem xchgEaxR p r : Statement (.xchgEaxR p r) := of_layout rfl (plusR_byte _ _ (by decide)) (by simp)
theorem cwde p : Statement (.cwde p) := of_layout rfl rfl (by simp)
theorem cbw p : Statement (.cbw p) := of_layout rfl rfl (by simp)
theorem cdq p : Statement (.cdq p) := of_layout rfl rfl (by simp)
theorem cwd p : Statement (.cwd p) := of_layout rfl rfl (by simp)
theorem movAlOb p a : Statement (.movAlOb p a) := of_layout rfl rfl (by simp)
theorem movEaxOv p a : Statement (.movEaxOv p a) := of_layout rfl rfl (by simp)
theorem movObAl p a : Statement (.movObAl p a) := of_layout rfl rfl (by simp)
theorem movOvEax p a : Statement (.movOvEax p a) := of_layout rfl rfl (by simp)
theorem movsb p : Statement (.movsb p) := of_layout rfl rfl (by simp)
theorem movsd p : Statement (.movsd p) := of_layout rfl rfl (by simp)
theorem movsw p : Statement (.movsw p) := of_layout rfl rfl (by simp)
theorem repMovsb p : Statement (.repMovsb p) := of_layout rfl rfl (by simp)
theorem repMovsd p : Statement (.repMovsd p) := of_layout rfl rfl (by simp)
theorem repMovsw p : Statement (.repMovsw p) := of_layout rfl rfl (by simp)
theorem testAlIb p imm : Statement (.testAlIb p imm) := of_layout rfl rfl (by simp)
theorem testEaxIz p imm : Statement (.testEaxIz p imm) := of_iz rfl rfl
theorem movRbIb p r imm : Statement (.movRbIb p r imm) := of_layout rfl (plusR_byte _ _ (by decide)) (by simp)
theorem movRvIz p r imm : Statement (.movRvIz p r imm) := of_iz rfl (plusR_byte _ _ (by decide))
theorem shlEbIb p rm imm : Statement (.shlEbIb p rm imm) := of_rm rfl rfl (by simp)
theorem shlEvIb p rm imm : Statement (.shlEvIb p rm imm) := of_rm rfl rfl (by simp)
theorem shlEb1 p rm : Statement (.shlEb1 p rm) := of_rm rfl rfl (by simp)
theorem shlEv1 p rm : Statement (.shlEv1 p rm) := of_rm rfl rfl (by simp)
theorem shlEbCl p rm : Statement (.shlEbCl p rm) := of_rm rfl rfl (by simp)
theorem shlEvCl p rm : Statement (.shlEvCl p rm) := of_rm rfl rfl (by simp)
theorem shrEbIb p rm imm : Statement (.shrEbIb p rm imm) := of_rm rfl rfl (by simp)
theorem shrEvIb p rm imm : Statement (.shrEvIb p rm imm) := of_rm rfl rfl (by simp)
theorem shrEb1 p rm : Statement (.shrEb1 p rm) := of_rm rfl rfl (by simp)
theorem shrEv1 p rm : Statement (.shrEv1 p rm) := of_rm rfl rfl (by simp)
theorem shrEbCl p rm : Statement (.shrEbCl p rm) := of_rm rfl rfl (by simp)
theorem shrEvCl p rm : Statement (.shrEvCl p rm) := of_rm rfl rfl (by simp)
theorem sarEbIb p rm imm : Statement (.sarEbIb p rm imm) := of_rm rfl rfl (by simp)
theorem sarEvIb p rm imm : Statement (.sarEvIb p rm imm) := of_rm rfl rfl (by simp)
theorem sarEb1 p rm : Statement (.sarEb1 p rm) := of_rm rfl rfl (by simp)
theorem sarEv1 p rm : Statement (.sarEv1 p rm) := of_rm rfl rfl (by simp)
theorem sarEbCl p rm : Statement (.sarEbCl p rm) := of_rm rfl rfl (by simp)
theorem sarEvCl p rm : Statement (.sarEvCl p rm) := of_rm rfl rfl (by simp)
theorem retIw p imm : Statement (.retIw p imm) := of_layout rfl rfl (by simp)
theorem ret p : Statement (.ret p) := of_layout rfl rfl (by simp)
theorem movEbIb p rm imm : Statement (.movEbIb p rm imm) := of_rm rfl rfl (by simp)
theorem movEvIz p rm imm : Statement (.movEvIz p rm imm) := of_rm_iz rfl rfl
theorem leave p : Statement (.leave p) := of_layout rfl rfl (by simp)
theorem int80 p : Statement (.int80 p) := of_layout rfl rfl (by simp)
theorem callRel32 p rel : Statement (.callRel32 p rel) := of_layout rfl rfl (by simp)
theorem jmpRel32 p rel : Statement (.jmpRel32 p rel) := of_layout rfl rfl (by simp)
theorem jmpRel8 p rel : Statement (.jmpRel8 p rel) := of_layout rfl rfl (by simp)
theorem cmc p : Statement (.cmc p) := of_layout rfl rfl (by simp)
theorem testEbIb p rm imm : Statement (.testEbIb p rm imm) := of_rm rfl rfl (by simp)
theorem testEvIz p rm imm : Statement (.testEvIz p rm imm) := of_rm_iz rfl rfl
theorem notEb p rm : Statement (.notEb p rm) := of_rm rfl rfl (by simp)
theorem notEv p rm : Statement (.notEv p rm) := of_rm rfl rfl (by simp)
theorem negEb p rm : Statement (.negEb p rm) := of_rm rfl rfl (by simp)
theorem negEv p rm : Statement (.negEv p rm) := of_rm rfl rfl (by simp)
theorem mulEb p rm : Statement (.mulEb p rm) := of_rm rfl rfl (by simp)
theorem mulEv p rm : Statement (.mulEv p rm) := of_rm rfl rfl (by simp)
theorem imulEb p rm : Statement (.imulEb p rm) := of_rm rfl rfl (by simp)
theorem imulEv p rm : Statement (.imulEv p rm) := of_rm rfl rfl (by simp)
theorem divEb p rm : Statement (.divEb p rm) := of_rm rfl rfl (by simp)
theorem divEv p rm : Statement (.divEv p rm) := of_rm rfl rfl (by simp)
theorem idivEb p rm : Statement (.idivEb p rm) := of_rm rfl rfl (by simp)
theorem idivEv p rm : Statement (.idivEv p rm) := of_rm rfl rfl (by simp)
theorem clc p : Statement (.clc p) := of_layout rfl rfl (by simp)
theorem stc p : Statement (.stc p) := of_layout rfl rfl (by simp)
theorem cli p : Statement (.cli p) := of_layout rfl rfl (by simp)
theorem sti p : Statement (.sti p) := of_layout rfl rfl (by simp)
theorem cld p : Statement (.cld p) := of_layout rfl rfl (by simp)
theorem std p : Statement (.std p) := of_layout rfl rfl (by simp)
theorem incEb p rm : Statement (.incEb p rm) := of_rm rfl rfl (by simp)
theorem decEb p rm : Statement (.decEb p rm) := of_rm rfl rfl (by simp)
theorem incEv p rm : Statement (.incEv p rm) := of_rm rfl rfl (by simp)
theorem decEv p rm : Statement (.decEv p rm) := of_rm rfl rfl (by simp)
theorem callEv p rm : Statement (.callEv p rm) := of_rm rfl rfl (by simp)
theorem jmpEv p rm : Statement (.jmpEv p rm) := of_rm rfl rfl (by simp)
theorem pushEv p rm : Statement (.pushEv p rm) := of_rm rfl rfl (by simp)
theorem joRel32 p rel : Statement (.joRel32 p rel) := of_layout rfl rfl (by simp)
theorem jnoRel32 p rel : Statement (.jnoRel32 p rel) := of_layout rfl rfl (by simp)
theorem jbRel32 p rel : Statement (.jbRel32 p rel) := of_layout rfl rfl (by simp)
theorem jaeRel32 p rel : Statement (.jaeRel32 p rel) := of_layout rfl rfl (by simp)
theorem jeRel32 p rel : Statement (.jeRel32 p rel) := of_layout rfl rfl (by simp)
theorem jneRel32 p rel : Statement (.jneRel32 p rel) := of_layout rfl rfl (by simp)
theorem jbeRel32 p rel : Statement (.jbeRel32 p rel) := of_layout rfl rfl (by simp)
theorem jaRel32 p rel : Statement (.jaRel32 p rel) := of_layout rfl rfl (by simp)
theorem jsRel32 p rel : Statement (.jsRel32 p rel) := of_layout rfl rfl (by simp)
theorem jnsRel32 p rel : Statement (.jnsRel32 p rel) := of_layout rfl rfl (by simp)
theorem jpRel32 p rel : Statement (.jpRel32 p rel) := of_layout rfl rfl (by simp)
theorem jnpRel32 p rel : Statement (.jnpRel32 p rel) := of_layout rfl rfl (by simp)
theorem jlRel32 p rel : Statement (.jlRel32 p rel) := of_layout rfl rfl (by simp)
theorem jgeRel32 p rel : Statement (.jgeRel32 p rel) := of_layout rfl rfl (by simp)
theorem jleRel32 p rel : Statement (.jleRel32 p rel) := of_layout rfl rfl (by simp)
theorem jgRel32 p rel : Statement (.jgRel32 p rel) := of_layout rfl rfl (by simp)
theorem imulGvEv p rm r : Statement (.imulGvEv p rm r) := of_rm rfl rfl (by simp)
theorem movzxGvEb p rm r : Statement (.movzxGvEb p rm r) := of_rm rfl rfl (by simp)
theorem movzxGvEw p rm r : Statement (.movzxGvEw p rm r) := of_rm rfl rfl (by simp)
theorem movsxGvEb p rm r : Statement (.movsxGvEb p rm r) := of_rm rfl rfl (by simp)
theorem movsxGvEw p rm r : Statement (.movsxGvEw p rm r) := of_rm rfl rfl (by simp)

end Sys2Proof.Laws.Tail
end

