-- ==== Sys2Proof/Tests/Slice0.lean ====
section
/-! SUPPORT. Tests of the model, with results worked out in spec/ (its rules' examples and 95_test_vectors.md), and for
each obligation a witness that meets its hypotheses. -/

namespace Sys2Proof.Tests
open Sys2Proof Sys2Proof.Machine

/-! ### Helpers -/

/-- The rejection of a byte sequence: the number of bytes fetched for an unknown opcode, or nothing. -/
def rejectedAfter (bs : List Byte) : Option Nat :=
  match decode bs with
  | .error (.unknownOpcode _ used) => some used
  | _ => none

def zeroRegs : Regs := { eax := 0, ecx := 0, edx := 0, ebx := 0, esp := 0x80, ebp := 0, esi := 0, edi := 0 }

def noFlags : Flags :=
  { CF := false, PF := false, AF := false, ZF := false, SF := false, TF := false, IF := false, DF := false, OF := false }

/-- A running machine with 128 bytes of memory, `code` at EIP = 0x10 and `data` at `at`. -/
def machine (code : List Byte) (x : Regs := zeroRegs) (f : Flags := noFlags) (data : List Byte := [])
    (address : Nat := 0x40) : State :=
  { regs := x, eip := 0x10, flags := f
    mem := ((⟨128, []⟩ : Memory).writeBytes 0x10 code).writeBytes address data
    run := .running, exitCode := 0, outcome := none, events := [], draws := 0, readAnswers := [], writeAnswers := [] }

/-- What `look` sees in the state after one step. -/
def look {α : Type} (s : State) (f : State → α) : Option α :=
  match step s with
  | .next t => some (f t)
  | _ => none

/-- CF, OF, SF, ZF, AF, PF as digits. -/
def status (f : Flags) : List Nat := [f.CF, f.OF, f.SF, f.ZF, f.AF, f.PF].map Bool.toNat

/-- EAX and the status flags after one step from EAX = `a`, EBX = `b`, CF = `c`. -/
def alu (code : List Byte) (a b : Word) (c : Bool := false) : Option (Word × List Nat) :=
  look (machine code { zeroRegs with eax := a, ebx := b } { noFlags with CF := c }) fun t => (t.regs.eax, status t.flags)

/-- EAX and EDX after one step from EAX = `a`, EDX = `d`, EBX = `b`. -/
def wide (code : List Byte) (a d b : Word) : Option (Word × Word) :=
  look (machine code { zeroRegs with eax := a, edx := d, ebx := b }) fun t => (t.regs.eax, t.regs.edx)

/-- The outcome after one step. -/
def ending (s : State) : Option (Option RunOutcome) := look s fun t => t.outcome

/-! ### Decoding: bytes written out from the encodings of the rules -/

/-- R215, k = 0. -/
theorem test_decode_add :
    decode [0x00, 0xE0] = .ok (.addEbGb [] (.reg .eax) .esp, []) ∧
    decode [0x01, 0xD8] = .ok (.addEvGv [] (.reg .eax) .ebx, []) ∧
    decode [0x02, 0x45, 0xFC] = .ok (.addGbEb [] (.mem (.base .ebp (.d8 0xFC))) .eax, []) ∧
    decode [0x03, 0x04, 0x8D, 0x10, 0x00, 0x00, 0x00] = .ok (.addGvEv [] (.mem (.sibNoBase 2 .ecx 0x10)) .eax, []) ∧
    decode [0x04, 0x7F] = .ok (.addAlIb [] 0x7F, []) ∧
    decode [0x05, 0x78, 0x56, 0x34, 0x12] = .ok (.addEaxIz [] 0x12345678, []) ∧
    decode [0x80, 0xC4, 0x05] = .ok (.addEbIb [] (.reg .esp) 5, []) ∧
    decode [0x66, 0x81, 0xC3, 0x34, 0x12] = .ok (.addEvIz [.opsize] (.reg .ebx) 0x1234, []) ∧
    decode [0x83, 0x05, 0x40, 0x00, 0x00, 0x00, 0xFF] = .ok (.addEvIb [] (.mem (.direct 0x40)) 0xFF, []) := by
  and_intros <;> decide

/-- R215, k = 1. -/
theorem test_decode_or :
    decode [0x08, 0xE0] = .ok (.orEbGb [] (.reg .eax) .esp, []) ∧
    decode [0x09, 0xD8] = .ok (.orEvGv [] (.reg .eax) .ebx, []) ∧
    decode [0x0A, 0x45, 0xFC] = .ok (.orGbEb [] (.mem (.base .ebp (.d8 0xFC))) .eax, []) ∧
    decode [0x0B, 0x04, 0x8D, 0x10, 0x00, 0x00, 0x00] = .ok (.orGvEv [] (.mem (.sibNoBase 2 .ecx 0x10)) .eax, []) ∧
    decode [0x0C, 0x7F] = .ok (.orAlIb [] 0x7F, []) ∧
    decode [0x0D, 0x78, 0x56, 0x34, 0x12] = .ok (.orEaxIz [] 0x12345678, []) ∧
    decode [0x80, 0xCC, 0x05] = .ok (.orEbIb [] (.reg .esp) 5, []) ∧
    decode [0x66, 0x81, 0xCB, 0x34, 0x12] = .ok (.orEvIz [.opsize] (.reg .ebx) 0x1234, []) ∧
    decode [0x83, 0x0D, 0x40, 0x00, 0x00, 0x00, 0xFF] = .ok (.orEvIb [] (.mem (.direct 0x40)) 0xFF, []) := by
  and_intros <;> decide

/-- R215, k = 2. -/
theorem test_decode_adc :
    decode [0x10, 0xE0] = .ok (.adcEbGb [] (.reg .eax) .esp, []) ∧
    decode [0x11, 0xD8] = .ok (.adcEvGv [] (.reg .eax) .ebx, []) ∧
    decode [0x12, 0x45, 0xFC] = .ok (.adcGbEb [] (.mem (.base .ebp (.d8 0xFC))) .eax, []) ∧
    decode [0x13, 0x04, 0x8D, 0x10, 0x00, 0x00, 0x00] = .ok (.adcGvEv [] (.mem (.sibNoBase 2 .ecx 0x10)) .eax, []) ∧
    decode [0x14, 0x7F] = .ok (.adcAlIb [] 0x7F, []) ∧
    decode [0x15, 0x78, 0x56, 0x34, 0x12] = .ok (.adcEaxIz [] 0x12345678, []) ∧
    decode [0x80, 0xD4, 0x05] = .ok (.adcEbIb [] (.reg .esp) 5, []) ∧
    decode [0x66, 0x81, 0xD3, 0x34, 0x12] = .ok (.adcEvIz [.opsize] (.reg .ebx) 0x1234, []) ∧
    decode [0x83, 0x15, 0x40, 0x00, 0x00, 0x00, 0xFF] = .ok (.adcEvIb [] (.mem (.direct 0x40)) 0xFF, []) := by
  and_intros <;> decide

/-- R215, k = 3. -/
theorem test_decode_sbb :
    decode [0x18, 0xE0] = .ok (.sbbEbGb [] (.reg .eax) .esp, []) ∧
    decode [0x19, 0xD8] = .ok (.sbbEvGv [] (.reg .eax) .ebx, []) ∧
    decode [0x1A, 0x45, 0xFC] = .ok (.sbbGbEb [] (.mem (.base .ebp (.d8 0xFC))) .eax, []) ∧
    decode [0x1B, 0x04, 0x8D, 0x10, 0x00, 0x00, 0x00] = .ok (.sbbGvEv [] (.mem (.sibNoBase 2 .ecx 0x10)) .eax, []) ∧
    decode [0x1C, 0x7F] = .ok (.sbbAlIb [] 0x7F, []) ∧
    decode [0x1D, 0x78, 0x56, 0x34, 0x12] = .ok (.sbbEaxIz [] 0x12345678, []) ∧
    decode [0x80, 0xDC, 0x05] = .ok (.sbbEbIb [] (.reg .esp) 5, []) ∧
    decode [0x66, 0x81, 0xDB, 0x34, 0x12] = .ok (.sbbEvIz [.opsize] (.reg .ebx) 0x1234, []) ∧
    decode [0x83, 0x1D, 0x40, 0x00, 0x00, 0x00, 0xFF] = .ok (.sbbEvIb [] (.mem (.direct 0x40)) 0xFF, []) := by
  and_intros <;> decide

/-- R215, k = 4. -/
theorem test_decode_and :
    decode [0x20, 0xE0] = .ok (.andEbGb [] (.reg .eax) .esp, []) ∧
    decode [0x21, 0xD8] = .ok (.andEvGv [] (.reg .eax) .ebx, []) ∧
    decode [0x22, 0x45, 0xFC] = .ok (.andGbEb [] (.mem (.base .ebp (.d8 0xFC))) .eax, []) ∧
    decode [0x23, 0x04, 0x8D, 0x10, 0x00, 0x00, 0x00] = .ok (.andGvEv [] (.mem (.sibNoBase 2 .ecx 0x10)) .eax, []) ∧
    decode [0x24, 0x7F] = .ok (.andAlIb [] 0x7F, []) ∧
    decode [0x25, 0x78, 0x56, 0x34, 0x12] = .ok (.andEaxIz [] 0x12345678, []) ∧
    decode [0x80, 0xE4, 0x05] = .ok (.andEbIb [] (.reg .esp) 5, []) ∧
    decode [0x66, 0x81, 0xE3, 0x34, 0x12] = .ok (.andEvIz [.opsize] (.reg .ebx) 0x1234, []) ∧
    decode [0x83, 0x25, 0x40, 0x00, 0x00, 0x00, 0xFF] = .ok (.andEvIb [] (.mem (.direct 0x40)) 0xFF, []) := by
  and_intros <;> decide

/-- R215, k = 5. -/
theorem test_decode_sub :
    decode [0x28, 0xE0] = .ok (.subEbGb [] (.reg .eax) .esp, []) ∧
    decode [0x29, 0xD8] = .ok (.subEvGv [] (.reg .eax) .ebx, []) ∧
    decode [0x2A, 0x45, 0xFC] = .ok (.subGbEb [] (.mem (.base .ebp (.d8 0xFC))) .eax, []) ∧
    decode [0x2B, 0x04, 0x8D, 0x10, 0x00, 0x00, 0x00] = .ok (.subGvEv [] (.mem (.sibNoBase 2 .ecx 0x10)) .eax, []) ∧
    decode [0x2C, 0x7F] = .ok (.subAlIb [] 0x7F, []) ∧
    decode [0x2D, 0x78, 0x56, 0x34, 0x12] = .ok (.subEaxIz [] 0x12345678, []) ∧
    decode [0x80, 0xEC, 0x05] = .ok (.subEbIb [] (.reg .esp) 5, []) ∧
    decode [0x66, 0x81, 0xEB, 0x34, 0x12] = .ok (.subEvIz [.opsize] (.reg .ebx) 0x1234, []) ∧
    decode [0x83, 0x2D, 0x40, 0x00, 0x00, 0x00, 0xFF] = .ok (.subEvIb [] (.mem (.direct 0x40)) 0xFF, []) := by
  and_intros <;> decide

/-- R215, k = 6. -/
theorem test_decode_xor :
    decode [0x30, 0xE0] = .ok (.xorEbGb [] (.reg .eax) .esp, []) ∧
    decode [0x31, 0xD8] = .ok (.xorEvGv [] (.reg .eax) .ebx, []) ∧
    decode [0x32, 0x45, 0xFC] = .ok (.xorGbEb [] (.mem (.base .ebp (.d8 0xFC))) .eax, []) ∧
    decode [0x33, 0x04, 0x8D, 0x10, 0x00, 0x00, 0x00] = .ok (.xorGvEv [] (.mem (.sibNoBase 2 .ecx 0x10)) .eax, []) ∧
    decode [0x34, 0x7F] = .ok (.xorAlIb [] 0x7F, []) ∧
    decode [0x35, 0x78, 0x56, 0x34, 0x12] = .ok (.xorEaxIz [] 0x12345678, []) ∧
    decode [0x80, 0xF4, 0x05] = .ok (.xorEbIb [] (.reg .esp) 5, []) ∧
    decode [0x66, 0x81, 0xF3, 0x34, 0x12] = .ok (.xorEvIz [.opsize] (.reg .ebx) 0x1234, []) ∧
    decode [0x83, 0x35, 0x40, 0x00, 0x00, 0x00, 0xFF] = .ok (.xorEvIb [] (.mem (.direct 0x40)) 0xFF, []) := by
  and_intros <;> decide

/-- R215, k = 7. -/
theorem test_decode_cmp :
    decode [0x38, 0xE0] = .ok (.cmpEbGb [] (.reg .eax) .esp, []) ∧
    decode [0x39, 0xD8] = .ok (.cmpEvGv [] (.reg .eax) .ebx, []) ∧
    decode [0x3A, 0x45, 0xFC] = .ok (.cmpGbEb [] (.mem (.base .ebp (.d8 0xFC))) .eax, []) ∧
    decode [0x3B, 0x04, 0x8D, 0x10, 0x00, 0x00, 0x00] = .ok (.cmpGvEv [] (.mem (.sibNoBase 2 .ecx 0x10)) .eax, []) ∧
    decode [0x3C, 0x7F] = .ok (.cmpAlIb [] 0x7F, []) ∧
    decode [0x3D, 0x78, 0x56, 0x34, 0x12] = .ok (.cmpEaxIz [] 0x12345678, []) ∧
    decode [0x80, 0xFC, 0x05] = .ok (.cmpEbIb [] (.reg .esp) 5, []) ∧
    decode [0x66, 0x81, 0xFB, 0x34, 0x12] = .ok (.cmpEvIz [.opsize] (.reg .ebx) 0x1234, []) ∧
    decode [0x83, 0x3D, 0x40, 0x00, 0x00, 0x00, 0xFF] = .ok (.cmpEvIb [] (.mem (.direct 0x40)) 0xFF, []) := by
  and_intros <;> decide

/-- R405, R400. -/
theorem test_decode_short_branches :
    decode [0x70, 0x10] = .ok (.joRel8 [] 0x10, []) ∧
    decode [0x71, 0x11] = .ok (.jnoRel8 [] 0x11, []) ∧
    decode [0x72, 0x12] = .ok (.jbRel8 [] 0x12, []) ∧
    decode [0x73, 0x13] = .ok (.jaeRel8 [] 0x13, []) ∧
    decode [0x74, 0x14] = .ok (.jeRel8 [] 0x14, []) ∧
    decode [0x75, 0x15] = .ok (.jneRel8 [] 0x15, []) ∧
    decode [0x76, 0x16] = .ok (.jbeRel8 [] 0x16, []) ∧
    decode [0x77, 0x17] = .ok (.jaRel8 [] 0x17, []) ∧
    decode [0x78, 0x18] = .ok (.jsRel8 [] 0x18, []) ∧
    decode [0x79, 0x19] = .ok (.jnsRel8 [] 0x19, []) ∧
    decode [0x7A, 0x1A] = .ok (.jpRel8 [] 0x1A, []) ∧
    decode [0x7B, 0x1B] = .ok (.jnpRel8 [] 0x1B, []) ∧
    decode [0x7C, 0x1C] = .ok (.jlRel8 [] 0x1C, []) ∧
    decode [0x7D, 0x1D] = .ok (.jgeRel8 [] 0x1D, []) ∧
    decode [0x7E, 0x1E] = .ok (.jleRel8 [] 0x1E, []) ∧
    decode [0x7F, 0x1F] = .ok (.jgRel8 [] 0x1F, []) ∧
    decode [0xEB, 0xFE] = .ok (.jmpRel8 [] 0xFE, []) := by
  and_intros <;> decide

/-- R406, R401, R402. -/
theorem test_decode_near_branches :
    decode [0x0F, 0x80, 0x00, 0x00, 0x00, 0xFF] = .ok (.joRel32 [] 0xFF000000, []) ∧
    decode [0x0F, 0x81, 0x01, 0x00, 0x00, 0xFF] = .ok (.jnoRel32 [] 0xFF000001, []) ∧
    decode [0x0F, 0x82, 0x02, 0x00, 0x00, 0xFF] = .ok (.jbRel32 [] 0xFF000002, []) ∧
    decode [0x0F, 0x83, 0x03, 0x00, 0x00, 0xFF] = .ok (.jaeRel32 [] 0xFF000003, []) ∧
    decode [0x0F, 0x84, 0x04, 0x00, 0x00, 0xFF] = .ok (.jeRel32 [] 0xFF000004, []) ∧
    decode [0x0F, 0x85, 0x05, 0x00, 0x00, 0xFF] = .ok (.jneRel32 [] 0xFF000005, []) ∧
    decode [0x0F, 0x86, 0x06, 0x00, 0x00, 0xFF] = .ok (.jbeRel32 [] 0xFF000006, []) ∧
    decode [0x0F, 0x87, 0x07, 0x00, 0x00, 0xFF] = .ok (.jaRel32 [] 0xFF000007, []) ∧
    decode [0x0F, 0x88, 0x08, 0x00, 0x00, 0xFF] = .ok (.jsRel32 [] 0xFF000008, []) ∧
    decode [0x0F, 0x89, 0x09, 0x00, 0x00, 0xFF] = .ok (.jnsRel32 [] 0xFF000009, []) ∧
    decode [0x0F, 0x8A, 0x0A, 0x00, 0x00, 0xFF] = .ok (.jpRel32 [] 0xFF00000A, []) ∧
    decode [0x0F, 0x8B, 0x0B, 0x00, 0x00, 0xFF] = .ok (.jnpRel32 [] 0xFF00000B, []) ∧
    decode [0x0F, 0x8C, 0x0C, 0x00, 0x00, 0xFF] = .ok (.jlRel32 [] 0xFF00000C, []) ∧
    decode [0x0F, 0x8D, 0x0D, 0x00, 0x00, 0xFF] = .ok (.jgeRel32 [] 0xFF00000D, []) ∧
    decode [0x0F, 0x8E, 0x0E, 0x00, 0x00, 0xFF] = .ok (.jleRel32 [] 0xFF00000E, []) ∧
    decode [0x0F, 0x8F, 0x0F, 0x00, 0x00, 0xFF] = .ok (.jgRel32 [] 0xFF00000F, []) ∧
    decode [0xE9, 0x02, 0x00, 0x00, 0x00] = .ok (.jmpRel32 [] 2, []) ∧
    decode [0xFF, 0x25, 0x40, 0x00, 0x00, 0x00] = .ok (.jmpEv [] (.mem (.direct 0x40)), []) := by
  and_intros <;> decide

/-- R251 to R256, R262 to R264. -/
theorem test_decode_moves :
    decode [0x88, 0xEC] = .ok (.movEbGb [] (.reg .esp) .ebp, []) ∧
    decode [0x89, 0xC8] = .ok (.movEvGv [] (.reg .eax) .ecx, []) ∧
    decode [0x8A, 0x44, 0x24, 0x08] = .ok (.movGbEb [] (.mem (.sib 0 .esp .esp (.d8 8))) .eax, []) ∧
    decode [0x8B, 0x45, 0x08] = .ok (.movGvEv [] (.mem (.base .ebp (.d8 8))) .eax, []) ∧
    decode [0xA0, 0x10, 0x00, 0x00, 0x00] = .ok (.movAlOb [] 0x10, []) ∧
    decode [0x66, 0xA1, 0x10, 0x00, 0x00, 0x00] = .ok (.movEaxOv [.opsize] 0x10, []) ∧
    decode [0xA2, 0x00, 0x00, 0x00, 0x80] = .ok (.movObAl [] 0x80000000, []) ∧
    decode [0xA3, 0x40, 0x00, 0x00, 0x00] = .ok (.movOvEax [] 0x40, []) ∧
    decode [0xB4, 0x07] = .ok (.movRbIb [] .esp 7, []) ∧
    decode [0x66, 0xBB, 0xCD, 0xAB] = .ok (.movRvIz [.opsize] .ebx 0xABCD, []) ∧
    decode [0xC6, 0x00, 0x09] = .ok (.movEbIb [] (.mem (.base .eax .none)) 9, []) ∧
    decode [0xC7, 0x44, 0x24, 0x08, 0x78, 0x56, 0x34, 0x12] = .ok (.movEvIz [] (.mem (.sib 0 .esp .esp (.d8 8))) 0x12345678, []) ∧
    decode [0x0F, 0xB6, 0xC4] = .ok (.movzxGvEb [] (.reg .esp) .eax, []) ∧
    decode [0x0F, 0xB7, 0xC3] = .ok (.movzxGvEw [] (.reg .ebx) .eax, []) ∧
    decode [0x0F, 0xBE, 0xC1] = .ok (.movsxGvEb [] (.reg .ecx) .eax, []) ∧
    decode [0x66, 0x0F, 0xBF, 0xC3] = .ok (.movsxGvEw [.opsize] (.reg .ebx) .eax, []) ∧
    decode [0x63, 0xC1] = .ok (.movsxdGvEv [] (.reg .ecx) .eax, []) := by
  and_intros <;> decide

/-- R270, R271, R275. -/
theorem test_decode_exchange_and_lea :
    decode [0x86, 0xE0] = .ok (.xchgEbGb [] (.reg .eax) .esp, []) ∧
    decode [0x87, 0xD8] = .ok (.xchgEvGv [] (.reg .eax) .ebx, []) ∧
    decode [0x93] = .ok (.xchgEaxR [] .ebx, []) ∧
    decode [0x97] = .ok (.xchgEaxR [] .edi, []) ∧
    decode [0x8D, 0x44, 0x24, 0x08] = .ok (.leaGvM [] .eax (.sib 0 .esp .esp (.d8 8)), []) ∧
    decode [0x8D, 0x04, 0x40] = .ok (.leaGvM [] .eax (.sib 1 .eax .eax .none), []) := by
  and_intros <;> decide

/-- R310 to R337. -/
theorem test_decode_arithmetic :
    decode [0x40] = .ok (.incR [] .eax, []) ∧
    decode [0x49] = .ok (.decR [] .ecx, []) ∧
    decode [0xFE, 0xC0] = .ok (.incEb [] (.reg .eax), []) ∧
    decode [0xFE, 0xCC] = .ok (.decEb [] (.reg .esp), []) ∧
    decode [0xFF, 0xC0] = .ok (.incEv [] (.reg .eax), []) ∧
    decode [0xFF, 0x08] = .ok (.decEv [] (.mem (.base .eax .none)), []) ∧
    decode [0xF6, 0xDB] = .ok (.negEb [] (.reg .ebx), []) ∧
    decode [0xF7, 0xD8] = .ok (.negEv [] (.reg .eax), []) ∧
    decode [0xF6, 0xE3] = .ok (.mulEb [] (.reg .ebx), []) ∧
    decode [0xF7, 0xE3] = .ok (.mulEv [] (.reg .ebx), []) ∧
    decode [0xF6, 0xEB] = .ok (.imulEb [] (.reg .ebx), []) ∧
    decode [0xF7, 0xEB] = .ok (.imulEv [] (.reg .ebx), []) ∧
    decode [0x0F, 0xAF, 0xC3] = .ok (.imulGvEv [] (.reg .ebx) .eax, []) ∧
    decode [0x6B, 0xC3, 0x0A] = .ok (.imulGvEvIb [] (.reg .ebx) .eax 10, []) ∧
    decode [0x69, 0xC3, 0x00, 0x00, 0x01, 0x00] = .ok (.imulGvEvIz [] (.reg .ebx) .eax 0x10000, []) ∧
    decode [0xF6, 0xF3] = .ok (.divEb [] (.reg .ebx), []) ∧
    decode [0xF7, 0x35, 0xFC, 0xFF, 0xFF, 0xFF] = .ok (.divEv [] (.mem (.direct 0xFFFFFFFC)), []) ∧
    decode [0xF6, 0xFB] = .ok (.idivEb [] (.reg .ebx), []) ∧
    decode [0x66, 0xF7, 0xFB] = .ok (.idivEv [.opsize] (.reg .ebx), []) ∧
    decode [0x98] = .ok (.cwde [], []) ∧
    decode [0x66, 0x98] = .ok (.cbw [.opsize], []) ∧
    decode [0x99] = .ok (.cdq [], []) ∧
    decode [0x66, 0x99] = .ok (.cwd [.opsize], []) := by
  and_intros <;> decide

/-- R356, R358. -/
theorem test_decode_test_and_not :
    decode [0x84, 0xC0] = .ok (.testEbGb [] (.reg .eax) .eax, []) ∧
    decode [0x85, 0xD8] = .ok (.testEvGv [] (.reg .eax) .ebx, []) ∧
    decode [0xA8, 0x01] = .ok (.testAlIb [] 1, []) ∧
    decode [0x66, 0xA9, 0x01, 0x02] = .ok (.testEaxIz [.opsize] 0x201, []) ∧
    decode [0xF6, 0xC3, 0x01] = .ok (.testEbIb [] (.reg .ebx) 1, []) ∧
    decode [0xF7, 0xC0, 0x01, 0x00, 0x00, 0x00] = .ok (.testEvIz [] (.reg .eax) 1, []) ∧
    decode [0xF6, 0xD4] = .ok (.notEb [] (.reg .esp), []) ∧
    decode [0xF7, 0xD0] = .ok (.notEv [] (.reg .eax), []) := by
  and_intros <;> decide

/-- R380, R384, R386, R388. -/
theorem test_decode_shifts :
    decode [0xC0, 0xE0, 0x03] = .ok (.shlEbIb [] (.reg .eax) 3, []) ∧
    decode [0xC1, 0xE1, 0x1F] = .ok (.shlEvIb [] (.reg .ecx) 0x1F, []) ∧
    decode [0xD0, 0xE4] = .ok (.shlEb1 [] (.reg .esp), []) ∧
    decode [0xD1, 0xE0] = .ok (.shlEv1 [] (.reg .eax), []) ∧
    decode [0xD2, 0xE0] = .ok (.shlEbCl [] (.reg .eax), []) ∧
    decode [0xD3, 0xE3] = .ok (.shlEvCl [] (.reg .ebx), []) ∧
    decode [0xC0, 0xE8, 0x03] = .ok (.shrEbIb [] (.reg .eax) 3, []) ∧
    decode [0xC1, 0xE9, 0x1F] = .ok (.shrEvIb [] (.reg .ecx) 0x1F, []) ∧
    decode [0xD0, 0xEC] = .ok (.shrEb1 [] (.reg .esp), []) ∧
    decode [0xD1, 0xE8] = .ok (.shrEv1 [] (.reg .eax), []) ∧
    decode [0xD2, 0xE8] = .ok (.shrEbCl [] (.reg .eax), []) ∧
    decode [0xD3, 0xEB] = .ok (.shrEvCl [] (.reg .ebx), []) ∧
    decode [0xC0, 0xF8, 0x03] = .ok (.sarEbIb [] (.reg .eax) 3, []) ∧
    decode [0xC1, 0xF9, 0x1F] = .ok (.sarEvIb [] (.reg .ecx) 0x1F, []) ∧
    decode [0xD0, 0xFC] = .ok (.sarEb1 [] (.reg .esp), []) ∧
    decode [0xD1, 0xF8] = .ok (.sarEv1 [] (.reg .eax), []) ∧
    decode [0xD2, 0xF8] = .ok (.sarEbCl [] (.reg .eax), []) ∧
    decode [0xD3, 0xFB] = .ok (.sarEvCl [] (.reg .ebx), []) := by
  and_intros <;> decide

/-- R410 to R416, R430 to R438. -/
theorem test_decode_stack_and_calls :
    decode [0xE8, 0x05, 0x00, 0x00, 0x00] = .ok (.callRel32 [] 5, []) ∧
    decode [0xFF, 0xD0] = .ok (.callEv [] (.reg .eax), []) ∧
    decode [0xC3] = .ok (.ret [], []) ∧
    decode [0xC2, 0x08, 0x00] = .ok (.retIw [] 8, []) ∧
    decode [0x50] = .ok (.pushR [] .eax, []) ∧
    decode [0x54] = .ok (.pushR [] .esp, []) ∧
    decode [0x6A, 0xFF] = .ok (.pushIb [] 0xFF, []) ∧
    decode [0x68, 0x78, 0x56, 0x34, 0x12] = .ok (.pushIz [] 0x12345678, []) ∧
    decode [0xFF, 0x34, 0x24] = .ok (.pushEv [] (.mem (.sib 0 .esp .esp .none)), []) ∧
    decode [0x5C] = .ok (.popR [] .esp, []) ∧
    decode [0x8F, 0xC0] = .ok (.popEv [] (.reg .eax), []) ∧
    decode [0xC9] = .ok (.leave [], []) := by
  and_intros <;> decide

/-- R452 to R454, R470 to R479, R490. -/
theorem test_decode_strings_flags_and_int :
    decode [0xA4] = .ok (.movsb [], []) ∧
    decode [0xA5] = .ok (.movsd [], []) ∧
    decode [0x66, 0xA5] = .ok (.movsw [.opsize], []) ∧
    decode [0xF3, 0xA4] = .ok (.repMovsb [.rep], []) ∧
    decode [0xF2, 0xA5] = .ok (.repMovsd [.repne], []) ∧
    decode [0xF3, 0x66, 0xA5] = .ok (.repMovsw [.rep, .opsize], []) ∧
    decode [0xF8] = .ok (.clc [], []) ∧
    decode [0xF9] = .ok (.stc [], []) ∧
    decode [0xF5] = .ok (.cmc [], []) ∧
    decode [0xFC] = .ok (.cld [], []) ∧
    decode [0xFD] = .ok (.std [], []) ∧
    decode [0xFB] = .ok (.sti [], []) ∧
    decode [0xFA] = .ok (.cli [], []) ∧
    decode [0x66, 0x90] = .ok (.nop [.opsize], []) ∧
    decode [0xCD, 0x80] = .ok (.int80 [], []) := by
  and_intros <;> decide

/-- R124, R127, R129, R130, R167. -/
theorem test_decode_prefixes :
    decode [0x67, 0x8B, 0xC3] = .ok (.movGvEv [.addrsize] (.reg .ebx) .eax, []) ∧
    decode [0x3E, 0x8B, 0x00] = .ok (.movGvEv [.seg .ds] (.mem (.base .eax .none)) .eax, []) ∧
    decode [0x66, 0x66, 0xB8, 0x34, 0x12] = .ok (.movRvIz [.opsize, .opsize] .eax 0x1234, []) ∧
    decode [0xF3, 0x01, 0xD8] = .ok (.addEvGv [.rep] (.reg .eax) .ebx, []) ∧
    decode [0x26, 0x2E, 0x36, 0x64, 0x65, 0x90] = .ok (.nop [.seg .es, .seg .cs, .seg .ss, .seg .fs, .seg .gs], []) := by
  and_intros <;> decide

/-- R138, R139. -/
theorem test_decode_addresses :
    decode [0x8B, 0x05, 0x40, 0x00, 0x00, 0x00] = .ok (.movGvEv [] (.mem (.direct 0x40)) .eax, []) ∧
    decode [0x8B, 0x4D, 0x00] = .ok (.movGvEv [] (.mem (.base .ebp (.d8 0))) .ecx, []) ∧
    decode [0x8B, 0x96, 0x10, 0x00, 0x00, 0x80] = .ok (.movGvEv [] (.mem (.base .esi (.d32 0x80000010))) .edx, []) ∧
    decode [0x8B, 0x04, 0xE0] = .ok (.movGvEv [] (.mem (.sib 3 .esp .eax .none)) .eax, []) ∧
    decode [0x8B, 0x44, 0x8D, 0x10] = .ok (.movGvEv [] (.mem (.sib 2 .ecx .ebp (.d8 0x10))) .eax, []) ∧
    decode [0x8B, 0x84, 0x58, 0x01, 0x00, 0x00, 0x00] = .ok (.movGvEv [] (.mem (.sib 1 .ebx .eax (.d32 1))) .eax, []) ∧
    decode [0x8B, 0x04, 0x25, 0x40, 0x00, 0x00, 0x00] = .ok (.movGvEv [] (.mem (.sibNoBase 0 .esp 0x40)) .eax, []) := by
  and_intros <;> decide

/-! ### Rejections (95_test_vectors.md section 2.13) -/

theorem test_rejected_opcodes :
    [[0xD6], [0xF0, 0x01, 0xD8], [0x0F, 0x05], [0x0F, 0x0F], [0x82, 0xC0, 0x01], [0xCC], [0x9C], [0xF4]].map rejectedAfter
      = [some 1, some 1, some 2, some 2, some 1, some 1, some 1, some 1] := by decide

theorem test_rejected_digits :
    [[0xC0, 0xC0, 0x01], [0xFE, 0xD0], [0xF7, 0xC8, 0x01], [0xD1, 0xF0], [0x8F, 0xC8], [0xC7, 0xC8, 0x00], [0xFF, 0x18]].map
      rejectedAfter = [some 2, some 2, some 2, some 2, some 2, some 2, some 2] := by decide

theorem test_rejected_prefixes_and_operands :
    [[0x67, 0x8B, 0x00], [0x67, 0xA1, 0x40], [0x67, 0xA4], [0x66, 0x74, 0x01], [0x66, 0xE8, 0x00], [0x66, 0xFF, 0xE0],
      [0x8D, 0xC0], [0xCD, 0x03]].map rejectedAfter
      = [some 3, some 2, some 2, some 2, some 2, some 3, some 2, some 2] := by decide

/-! ### Well-formedness: an ill-formed term for each check is refused, and the term mended is not -/

theorem test_wf_address_size_on_memory :
    (Instr.addEvGv [.addrsize] (.mem (.base .eax .none)) .ebx).wf = false ∧
    (Instr.addEvGv [.addrsize] (.reg .eax) .ebx).wf = true := by decide

theorem test_wf_esp_is_no_plain_base :
    (Instr.movGvEv [] (.mem (.base .esp .none)) .eax).wf = false ∧
    (Instr.movGvEv [] (.mem (.sib 0 .esp .esp .none)) .eax).wf = true := by decide

theorem test_wf_ebp_needs_a_displacement :
    (Instr.movGvEv [] (.mem (.base .ebp .none)) .eax).wf = false ∧
    (Instr.movGvEv [] (.mem (.base .ebp (.d8 0))) .eax).wf = true ∧
    (Instr.movGvEv [] (.mem (.sib 0 .eax .ebp .none)) .eax).wf = false ∧
    (Instr.movGvEv [] (.mem (.sib 0 .eax .ebp (.d8 0))) .eax).wf = true := by decide

theorem test_wf_immediate_fits :
    (Instr.addEvIz [.opsize] (.reg .eax) 0x10000).wf = false ∧ (Instr.addEvIz [.opsize] (.reg .eax) 0xFFFF).wf = true ∧
    (Instr.addEaxIz [.opsize] 0x10000).wf = false ∧ (Instr.addEaxIz [] 0x10000).wf = true ∧
    (Instr.movRvIz [.opsize] .eax 0x10000).wf = false ∧ (Instr.imulGvEvIz [.opsize] (.reg .eax) .eax 0x10000).wf = false := by
  decide

theorem test_wf_no_operand_size_on_near_branches :
    (Instr.jeRel8 [.opsize] 1).wf = false ∧ (Instr.jeRel32 [.opsize] 1).wf = false ∧ (Instr.ret [.opsize]).wf = false ∧
    (Instr.retIw [.opsize] 8).wf = false ∧ (Instr.callEv [.opsize] (.reg .eax)).wf = false ∧
    (Instr.callEv [.addrsize] (.mem (.direct 0))).wf = false ∧ (Instr.callEv [] (.reg .eax)).wf = true := by decide

theorem test_wf_no_address_size_on_addresses :
    (Instr.leaGvM [.addrsize] .eax (.direct 0)).wf = false ∧ (Instr.leaGvM [] .eax (.base .esp .none)).wf = false ∧
    (Instr.leaGvM [] .eax (.direct 0)).wf = true ∧ (Instr.movAlOb [.addrsize] 0).wf = false ∧
    (Instr.movAlOb [] 0).wf = true := by decide

theorem test_wf_operand_size_picks_the_extension :
    (Instr.cwde [.opsize]).wf = false ∧ (Instr.cbw []).wf = false ∧ (Instr.cdq [.opsize]).wf = false ∧
    (Instr.cwd []).wf = false ∧ (Instr.cwde []).wf = true ∧ (Instr.cwd [.opsize]).wf = true := by decide

theorem test_wf_prefixes_pick_the_string_move :
    (Instr.movsb [.rep]).wf = false ∧ (Instr.movsb [.addrsize]).wf = false ∧ (Instr.movsd [.opsize]).wf = false ∧
    (Instr.movsd [.repne]).wf = false ∧ (Instr.movsw []).wf = false ∧ (Instr.movsw [.opsize, .rep]).wf = false ∧
    (Instr.movsw [.opsize]).wf = true := by decide

theorem test_wf_prefixes_pick_the_repeated_move :
    (Instr.repMovsb []).wf = false ∧ (Instr.repMovsb [.rep, .addrsize]).wf = false ∧ (Instr.repMovsd [.opsize, .rep]).wf = false ∧
    (Instr.repMovsw [.rep]).wf = false ∧ (Instr.repMovsw [.opsize, .repne]).wf = true := by decide

theorem test_wf_xchg_eax_eax_is_nop :
    (Instr.xchgEaxR [] .eax).wf = false ∧ (Instr.xchgEaxR [] .ebx).wf = true := by decide

/-! ### One step each: registers and moves (95_test_vectors.md sections 2.1 to 2.3) -/

theorem test_mov_al_keeps_the_rest : (alu [0xB0, 0x7F] 0x11223344 0).map (·.1) = some 0x1122337F := by decide

theorem test_mov_ah_writes_bits_15_to_8 : (alu [0xB4, 0x7F] 0x11223344 0).map (·.1) = some 0x11227F44 := by decide

theorem test_mov_ax_keeps_the_high_half : (alu [0x66, 0xB8, 0xCD, 0xAB] 0x11223344 0).map (·.1) = some 0x1122ABCD := by decide

theorem test_mov_eb_gb_reads_ah : (alu [0x88, 0xE0] 0x11223344 0).map (·.1) = some 0x11223333 := by decide

theorem test_mov_gb_eb_reads_bh : (alu [0x8A, 0xC7] 0x11223344 0xABCD).map (·.1) = some 0x112233AB := by decide

theorem test_mov_ev_gv_copies : (alu [0x89, 0xD8] 0 7).map (·.1) = some 7 := by decide

theorem test_mov_gv_ev_loads_little_endian :
    look (machine [0x8B, 0x45, 0x08] { zeroRegs with ebp := 0x38 } noFlags [1, 2, 3, 4]) (·.regs.eax) = some 0x04030201 := by
  decide

theorem test_mov_ev_gv_out_of_bounds :
    look (machine [0x89, 0x05, 0x7D, 0x00, 0x00, 0x00] { zeroRegs with eax := 1 }) (fun t => (t.outcome, t.eip, t.mem.read 0x7D))
      = some (some (.fault (.boundsError 0x7D 4 128) (some 0x10)), 0x10, 0) := by decide

theorem test_mov_eb_gb_last_byte :
    look (machine [0x88, 0x05, 0x7F, 0x00, 0x00, 0x00] { zeroRegs with eax := 0xAB }) (fun t => t.mem.read 0x7F) = some 0xAB := by
  decide

theorem test_mov_eax_moffs :
    look (machine [0x66, 0xA1, 0x40, 0, 0, 0] { zeroRegs with eax := 0xFFFFFFFF } noFlags [0xCD, 0xAB, 1]) (·.regs.eax)
      = some 0xFFFFABCD := by decide

theorem test_mov_moffs_al :
    look (machine [0xA2, 0x40, 0, 0, 0] { zeroRegs with eax := 0x1199 }) (fun t => t.mem.readBytes 0x40 2) = some [0x99, 0] := by
  decide

theorem test_mov_moffs_eax :
    look (machine [0xA3, 0x40, 0, 0, 0] { zeroRegs with eax := 0x11223344 }) (fun t => t.mem.readBytes 0x40 5)
      = some [0x44, 0x33, 0x22, 0x11, 0] := by decide

theorem test_mov_ev_iz_stores :
    look (machine [0xC7, 0x05, 0x40, 0, 0, 0, 0x78, 0x56, 0x34, 0x12]) (fun t => (t.mem.readBytes 0x40 4, t.eip))
      = some ([0x78, 0x56, 0x34, 0x12], 0x1A) := by decide

theorem test_movzx_ah : (alu [0x0F, 0xB6, 0xC4] 0x1234AB56 0).map (·.1) = some 0xAB := by decide

theorem test_movzx_ax_keeps_the_high_half : (alu [0x66, 0x0F, 0xB6, 0xC3] 0xAAAAAAAA 0x80).map (·.1) = some 0xAAAA0080 := by decide

theorem test_movzx_word : (alu [0x0F, 0xB7, 0xC3] 0 0x12348000).map (·.1) = some 0x8000 := by decide

theorem test_movsx_byte : (alu [0x66, 0x0F, 0xBE, 0xC3] 0xAAAAAAAA 0x80).map (·.1) = some 0xAAAAFF80 := by decide

theorem test_movsx_word : (alu [0x0F, 0xBF, 0xC3] 0 0x12348000).map (·.1) = some 0xFFFF8000 := by decide

theorem test_movsxd_copies : (alu [0x63, 0xC3] 0 0x80000000).map (·.1) = some 0x80000000 := by decide

theorem test_xchg_al_ah : (alu [0x86, 0xC4] 0x1234 0).map (·.1) = some 0x3412 := by decide

theorem test_xchg_memory :
    look (machine [0x87, 0x05, 0x40, 0, 0, 0] { zeroRegs with eax := 5 } noFlags [9])
      (fun t => (t.regs.eax, t.mem.readBytes 0x40 4)) = some (9, [5, 0, 0, 0]) := by decide

theorem test_xchg_accumulator :
    look (machine [0x93] { zeroRegs with eax := 1, ebx := 2 }) (fun t => (t.regs.eax, t.regs.ebx)) = some (2, 1) := by decide

theorem test_lea_scaled_index :
    look (machine [0x8D, 0x44, 0x8D, 0x10] { zeroRegs with ecx := 3, ebp := 0x20 }) (·.regs.eax) = some 0x3C := by decide

theorem test_lea_wraps_and_does_not_fault :
    look (machine [0x8D, 0x40, 0xFF]) (fun t => (t.regs.eax, t.run)) = some (0xFFFFFFFF, .running) := by decide

/-! ### Arithmetic and logic (sections 2.4 and 2.5): result, then CF, OF, SF, ZF, AF, PF -/

theorem test_add_signed_overflow : alu [0x01, 0xD8] 0x7FFFFFFF 1 = some (0x80000000, [0, 1, 1, 0, 1, 1]) := by decide

theorem test_add_unsigned_overflow : alu [0x01, 0xD8] 0x80000000 0x80000000 = some (0, [1, 1, 0, 1, 0, 1]) := by decide

theorem test_add_al_wraps_at_eight_bits : alu [0x04, 0x01] 0x112233FF 0 = some (0x11223300, [1, 0, 0, 1, 1, 1]) := by decide

theorem test_adc_with_carry : alu [0x11, 0xD8] 5 0xFFFFFFFF true = some (5, [1, 0, 0, 0, 1, 1]) := by decide

theorem test_sub_sign_extended_byte : alu [0x83, 0xE8, 0xFF] 0 0 = some (1, [1, 0, 0, 0, 1, 0]) := by decide

theorem test_sub_signed_overflow : alu [0x2D, 0x01, 0, 0, 0] 0x80000000 0 = some (0x7FFFFFFF, [0, 1, 0, 0, 1, 1]) := by decide

theorem test_sbb_of_the_mask : alu [0x19, 0xD8] 5 0xFFFFFFFF true = some (5, [1, 0, 0, 0, 1, 1]) := by decide

theorem test_cmp_unsigned : alu [0x3D, 0x02, 0, 0, 0] 1 0 = some (1, [1, 0, 1, 0, 1, 1]) := by decide

theorem test_cmp_signed : alu [0x39, 0xD8] 0x7FFFFFFF 0xFFFFFFFF = some (0x7FFFFFFF, [1, 1, 1, 0, 0, 1]) := by decide

theorem test_and_clears_carry : alu [0x21, 0xD8] 0xF0F0F0F0 0x0FF00FF0 true = some (0x00F000F0, [0, 0, 0, 0, 0, 1]) := by decide

theorem test_or_al : alu [0x0C, 0x01] 0x80 0 true = some (0x81, [0, 0, 1, 0, 0, 1]) := by decide

theorem test_xor_itself : alu [0x31, 0xC0] 0x80 0 true = some (0, [0, 0, 0, 1, 0, 1]) := by decide

theorem test_test_writes_flags_only : alu [0x85, 0xC0] 0x80000000 0 true = some (0x80000000, [0, 0, 1, 0, 0, 1]) := by decide

theorem test_and_keeps_adjust :
    look (machine [0x21, 0xD8] zeroRegs { noFlags with AF := true }) (·.flags.AF) = some true := by decide

theorem test_inc_keeps_carry : alu [0x40] 0xFFFFFFFF 0 true = some (0, [1, 0, 0, 1, 1, 1]) := by decide

theorem test_inc_byte_overflow : alu [0xFE, 0xC0] 0x7F 0 = some (0x80, [0, 1, 1, 0, 1, 0]) := by decide

theorem test_dec_signed_overflow : alu [0x48] 0x80000000 0 true = some (0x7FFFFFFF, [1, 1, 0, 0, 1, 1]) := by decide

theorem test_dec_memory_out_of_bounds :
    ending (machine [0xFF, 0x08] { zeroRegs with eax := 0x7E })
      = some (some (.fault (.boundsError 0x7E 4 128) (some 0x10))) := by decide

theorem test_neg_of_the_least : alu [0xF7, 0xD8] 0x80000000 0 = some (0x80000000, [1, 1, 1, 0, 0, 1]) := by decide

theorem test_neg_zero : alu [0xF7, 0xD8] 0 0 true = some (0, [0, 0, 0, 1, 0, 1]) := by decide

theorem test_not_ah : alu [0xF6, 0xD4] 0xFF00 0 true = some (0, [1, 0, 0, 0, 0, 0]) := by decide

theorem test_mul_word_keeps_high_halves : wide [0x66, 0xF7, 0xE3] 0x1111FFFF 0x22220009 0xFFFF = some (0x11110001, 0x2222FFFE) := by
  decide

theorem test_mul_byte_flags :
    look (machine [0xF6, 0xE3] { zeroRegs with eax := 0x80, ebx := 2 }) (fun t => (t.regs.eax, t.flags.CF, t.flags.OF))
      = some (0x100, true, true) := by decide

theorem test_imul_pair : wide [0xF7, 0xEB] 0xFFFFFFFF 9 2 = some (0xFFFFFFFE, 0xFFFFFFFF) := by decide

theorem test_imul_byte_flags :
    look (machine [0xF6, 0xEB] { zeroRegs with eax := 0x80, ebx := 0xFF }) (fun t => (t.regs.eax, t.flags.CF, t.flags.OF))
      = some (0x80, true, true) := by decide

theorem test_imul_two_operands :
    look (machine [0x0F, 0xAF, 0xC3] { zeroRegs with eax := 6, ebx := 0xFFFFFFF9 }) (fun t => (t.regs.eax, t.flags.CF))
      = some (0xFFFFFFD6, false) := by decide

theorem test_imul_three_operands_truncates :
    look (machine [0x69, 0xC3, 0, 0, 1, 0] { zeroRegs with ebx := 0x10000 }) (fun t => (t.regs.eax, t.flags.CF, t.flags.OF))
      = some (0, true, true) := by decide

theorem test_imul_by_sign_extended_byte : (alu [0x6B, 0xC0, 0xFF] 5 0).map (·.1) = some 0xFFFFFFFB := by decide

theorem test_div_remainder_in_ah : wide [0xF6, 0xF3] 7 9 2 = some (0x103, 9) := by decide

theorem test_div_quotient_overflow :
    look (machine [0xF6, 0xF3] { zeroRegs with eax := 0x100, ebx := 1 }) (fun t => (t.outcome, t.regs.eax))
      = some (some (.fault .divideError (some 0x10)), 0x100) := by decide

theorem test_idiv_truncates_toward_zero : wide [0xF7, 0xFB] 0xFFFFFFF9 0xFFFFFFFF 2 = some (0xFFFFFFFD, 0xFFFFFFFF) := by decide

theorem test_idiv_overflow :
    ending (machine [0xF7, 0xFB] { zeroRegs with eax := 0x80000000, edx := 0xFFFFFFFF, ebx := 0xFFFFFFFF })
      = some (some (.fault .divideError (some 0x10))) := by decide

theorem test_cwde : (alu [0x98] 0x1234FF80 0).map (·.1) = some 0xFFFFFF80 := by decide

theorem test_cbw : (alu [0x66, 0x98] 0x12345680 0).map (·.1) = some 0x1234FF80 := by decide

theorem test_cdq : wide [0x99] 0xFFFFFFF9 5 0 = some (0xFFFFFFF9, 0xFFFFFFFF) := by decide

theorem test_cwd : wide [0x66, 0x99] 0x8000 0x12345678 0 = some (0x8000, 0x1234FFFF) := by decide

/-! ### Shifts (section 2.6): the defined flags only -/

theorem test_shl_by_one :
    look (machine [0xD1, 0xE0] { zeroRegs with eax := 0x80000001 })
      (fun t => (t.regs.eax, [t.flags.CF, t.flags.OF, t.flags.SF, t.flags.ZF, t.flags.PF]))
      = some (2, [true, true, false, false, false]) := by decide

theorem test_shl_masks_the_count : alu [0xC1, 0xE0, 0x20] 0x12345678 0 true = some (0x12345678, [1, 0, 0, 0, 0, 0]) := by decide

theorem test_shr_by_one :
    look (machine [0xD1, 0xE8] { zeroRegs with eax := 0x80000000 })
      (fun t => (t.regs.eax, [t.flags.CF, t.flags.OF, t.flags.SF, t.flags.ZF, t.flags.PF]))
      = some (0x40000000, [false, true, false, false, true]) := by decide

theorem test_shr_by_four :
    look (machine [0xC1, 0xE8, 0x04] { zeroRegs with eax := 0xF8 }) (fun t => (t.regs.eax, t.flags.CF))
      = some (0x0F, true) := by decide

theorem test_sar_rounds_down :
    look (machine [0xD1, 0xF8] { zeroRegs with eax := 0xFFFFFFFD })
      (fun t => (t.regs.eax, [t.flags.CF, t.flags.OF, t.flags.SF, t.flags.ZF, t.flags.PF]))
      = some (0xFFFFFFFE, [true, false, true, false, false]) := by decide

theorem test_sar_byte_by_its_width :
    look (machine [0xC0, 0xF8, 0x08] { zeroRegs with eax := 0x80 }) (fun t => (t.regs.eax, t.flags.CF))
      = some (0xFF, true) := by decide

/-! ### Control and stack (sections 2.7 to 2.9) -/

theorem test_je_taken : look (machine [0x74, 0x01] zeroRegs { noFlags with ZF := true }) (·.eip) = some 0x13 := by decide

theorem test_jne_near_backward : look (machine [0x0F, 0x85, 0xFA, 0xFF, 0xFF, 0xFF]) (·.eip) = some 0x10 := by decide

theorem test_jmp_short_wraps : look (machine [0xEB, 0x80]) (·.eip) = some 0xFFFFFF92 := by decide

theorem test_jmp_near : look (machine [0xE9, 0x00, 0x10, 0x00, 0x00]) (·.eip) = some 0x1015 := by decide

theorem test_jmp_through_memory :
    look (machine [0xFF, 0x25, 0x40, 0, 0, 0] zeroRegs noFlags [0x20]) (·.eip) = some 0x20 := by decide

theorem test_call_pushes_the_next_address :
    look (machine [0xE8, 0x05, 0, 0, 0]) (fun t => (t.eip, t.regs.esp, t.mem.readBytes 0x7C 4))
      = some (0x1A, 0x7C, [0x15, 0, 0, 0]) := by decide

theorem test_call_reads_its_target_first :
    look (machine [0xFF, 0x14, 0x24] { zeroRegs with esp := 0x7C } noFlags [0x30] 0x7C)
      (fun t => (t.eip, t.regs.esp, t.mem.readBytes 0x78 4)) = some (0x30, 0x78, [0x13, 0, 0, 0]) := by decide

theorem test_call_push_out_of_bounds :
    look (machine [0xE8, 0, 0, 0, 0] { zeroRegs with esp := 2 }) (fun t => (t.outcome, t.regs.esp, t.eip))
      = some (some (.fault (.boundsError 0xFFFFFFFE 4 128) (some 0x10)), 2, 0x10) := by decide

theorem test_ret : look (machine [0xC3] { zeroRegs with esp := 0x7C } noFlags [0x0A] 0x7C) (fun t => (t.eip, t.regs.esp))
    = some (0x0A, 0x80) := by decide

theorem test_ret_adjusts : look (machine [0xC2, 0xFF, 0xFF] { zeroRegs with esp := 0x70 } noFlags [0x0A] 0x70)
    (fun t => (t.eip, t.regs.esp)) = some (0x0A, 0x10073) := by decide

theorem test_ret_underflow :
    ending (machine [0xC3]) = some (some (.fault (.stackUnderflow 0x80 4 128) (some 0x10))) := by decide

theorem test_push_esp_pushes_the_old_value :
    look (machine [0x54]) (fun t => (t.regs.esp, t.mem.readBytes 0x7C 4)) = some (0x7C, [0x80, 0, 0, 0]) := by decide

theorem test_push_word :
    look (machine [0x66, 0x6A, 0xFF]) (fun t => (t.regs.esp, t.mem.readBytes 0x7C 4)) = some (0x7E, [0, 0, 0xFF, 0xFF]) := by decide

theorem test_push_iz :
    look (machine [0x68, 0x78, 0x56, 0x34, 0x12]) (fun t => t.mem.readBytes 0x7C 4) = some [0x78, 0x56, 0x34, 0x12] := by decide

theorem test_push_memory_through_esp :
    look (machine [0xFF, 0x34, 0x24] { zeroRegs with esp := 0x7C } noFlags [7] 0x7C)
      (fun t => (t.regs.esp, t.mem.readBytes 0x78 4)) = some (0x78, [7, 0, 0, 0]) := by decide

theorem test_pop_esp : look (machine [0x5C] { zeroRegs with esp := 0x7C } noFlags [0x40] 0x7C) (·.regs.esp) = some 0x40 := by decide

theorem test_pop_partly_above_memory :
    ending (machine [0x58] { zeroRegs with esp := 0x7E }) = some (some (.fault (.stackUnderflow 0x7E 4 128) (some 0x10))) := by
  decide

theorem test_pop_memory_uses_the_new_esp :
    look (machine [0x8F, 0x04, 0x24] { zeroRegs with esp := 0x78 } noFlags [0xAA, 0, 0, 0, 0xBB] 0x78)
      (fun t => (t.regs.esp, t.mem.readBytes 0x7C 4)) = some (0x7C, [0xAA, 0, 0, 0]) := by decide

theorem test_pop_memory_fault_restores_esp :
    look (machine [0x8F, 0x05, 0x7E, 0, 0, 0] { zeroRegs with esp := 0x78 }) (fun t => (t.outcome, t.regs.esp))
      = some (some (.fault (.boundsError 0x7E 4 128) (some 0x10)), 0x78) := by decide

theorem test_leave : look (machine [0xC9] { zeroRegs with ebp := 0x70 } noFlags [0x80] 0x70) (fun t => (t.regs.ebp, t.regs.esp))
    = some (0x80, 0x74) := by decide

theorem test_leave_underflow :
    look (machine [0xC9] { zeroRegs with ebp := 0x80, esp := 0x44 }) (fun t => (t.outcome, t.regs.esp))
      = some (some (.fault (.stackUnderflow 0x80 4 128) (some 0x10)), 0x44) := by decide

/-! ### Strings and flags (sections 2.10 and 2.11, program E) -/

theorem test_movsb_downward :
    look (machine [0xA4] { zeroRegs with esi := 0x40, edi := 0x50 } { noFlags with DF := true } [0x41])
      (fun t => (t.regs.esi, t.regs.edi, t.mem.read 0x50)) = some (0x3F, 0x4F, 0x41) := by decide

theorem test_movsw :
    look (machine [0x66, 0xA5] { zeroRegs with esi := 0x40, edi := 0x60 } noFlags [0x41, 0x42, 0x43])
      (fun t => (t.regs.esi, t.regs.edi, t.mem.readBytes 0x60 3)) = some (0x42, 0x62, [0x41, 0x42, 0]) := by decide

theorem test_movsd_out_of_bounds :
    ending (machine [0xA5] { zeroRegs with esi := 0x40, edi := 0x7D })
      = some (some (.fault (.boundsError 0x7D 4 128) (some 0x10))) := by decide

theorem test_rep_movsb_overlap :
    look (machine [0xF2, 0xA4] { zeroRegs with esi := 0x40, edi := 0x41, ecx := 3 } noFlags [0x41, 0x42, 0x43, 0x44])
      (fun t => (t.regs.ecx, t.regs.esi, t.mem.readBytes 0x40 4, t.eip))
      = some (0, 0x43, [0x41, 0x41, 0x41, 0x41], 0x12) := by decide

theorem test_rep_movsb_of_nothing :
    look (machine [0xF3, 0xA4] { zeroRegs with esi := 0x40, edi := 0x50 }) (fun t => (t.regs.esi, t.regs.edi, t.regs.ecx, t.eip))
      = some (0x40, 0x50, 0, 0x12) := by decide

theorem test_rep_movsb_fault_keeps_the_moves_done :
    look (machine [0xF3, 0xA4] { zeroRegs with esi := 0x40, edi := 0x7E, ecx := 4 } noFlags [0xFC, 0x31, 5])
      (fun t => (t.outcome, t.regs, t.mem.readBytes 0x7E 2, t.eip))
      = some (some (.fault (.boundsError 0x80 1 128) (some 0x10)),
          { zeroRegs with esi := 0x42, edi := 0x80, ecx := 2 }, [0xFC, 0x31], 0x10) := by decide

theorem test_rep_movsw :
    look (machine [0xF3, 0x66, 0xA5] { zeroRegs with esi := 0x40, edi := 0x60, ecx := 2 } noFlags [1, 2, 3, 4, 5])
      (fun t => (t.regs.ecx, t.regs.edi, t.mem.readBytes 0x60 5)) = some (0, 0x64, [1, 2, 3, 4, 0]) := by decide

theorem test_rep_movsd :
    look (machine [0xF3, 0xA5] { zeroRegs with esi := 0x40, edi := 0x60, ecx := 1 } noFlags [1, 2, 3, 4, 5])
      (fun t => (t.regs.ecx, t.regs.edi, t.mem.readBytes 0x60 5)) = some (0, 0x64, [1, 2, 3, 4, 0]) := by decide

theorem test_carry_instructions :
    [[0xF8], [0xF9], [0xF5]].map (fun code => look (machine code) (·.flags.CF)) = [some false, some true, some true] ∧
    [[0xF8], [0xF9], [0xF5]].map (fun code => look (machine code zeroRegs { noFlags with CF := true }) (·.flags.CF))
      = [some false, some true, some false] := by decide

theorem test_direction_and_interrupt_instructions :
    look (machine [0xFC] zeroRegs { noFlags with DF := true }) (·.flags.DF) = some false ∧
    look (machine [0xFD]) (·.flags.DF) = some true ∧ look (machine [0xFB]) (·.flags.IF) = some true ∧
    look (machine [0xFA] zeroRegs { noFlags with IF := true }) (·.flags.IF) = some false := by decide

theorem test_nop_changes_eip_only :
    look (machine [0x66, 0x90]) (fun t => decide (t = (machine [0x66, 0x90]).withEip 0x12)) = some true := by decide

/-! ### The syscall gate (section 2.12) -/

theorem test_exit_code_is_the_low_byte :
    look (machine [0xCD, 0x80] { zeroRegs with eax := 1, ebx := 0x1FF }) (fun t => (t.outcome, t.exitCode, t.eip))
      = some (some (.exited 0xFF), 0xFF, 0x12) := by decide

theorem test_write :
    look { machine [0xCD, 0x80] { zeroRegs with eax := 4, ebx := 1, ecx := 0x40, edx := 3 } noFlags [0x61, 0x62, 0x63] with
        writeAnswers := [.ok] } (fun t => (t.events, t.regs.eax))
      = some ([.write .stdout [0x61, 0x62, 0x63] .ok], 3) := by decide

theorem test_write_out_of_bounds_has_no_transaction :
    look (machine [0xCD, 0x80] { zeroRegs with eax := 4, ebx := 1, ecx := 0x7F, edx := 2 }) (fun t => (t.outcome, t.events))
      = some (some (.fault (.boundsError 0x7F 2 128) (some 0x10)), []) := by decide

theorem test_write_to_no_stream :
    look (machine [0xCD, 0x80] { zeroRegs with eax := 4, ebx := 5, ecx := 0x1000, edx := 0x1000 }) (fun t => (t.regs.eax, t.events))
      = some (0xFFFFFFFF, []) := by decide

theorem test_read_keeps_the_rest_of_the_buffer :
    look { machine [0xCD, 0x80] { zeroRegs with eax := 3, ebx := 0, ecx := 0x40, edx := 4 } noFlags [0x11, 0x22, 0x33, 0x44] with
        readAnswers := [.data [0x61, 0x62]] } (fun t => (t.mem.readBytes 0x40 4, t.regs.eax))
      = some ([0x61, 0x62, 0x33, 0x44], 2) := by decide

theorem test_read_io_error :
    look { machine [0xCD, 0x80] { zeroRegs with eax := 3, ebx := 0, ecx := 0x40, edx := 4 } noFlags [0x11] with
        readAnswers := [.ioError] } (fun t => (t.mem.read 0x40, t.regs.eax, t.run)) = some (0x11, 0xFFFFFFFF, .running) := by decide

theorem test_unsupported_syscall :
    ending (machine [0xCD, 0x80] { zeroRegs with eax := 0x101 })
      = some (some (.fault (.unsupportedSyscall 0x101) (some 0x10))) := by decide

/-! ### Fetch and load (section 2.13, scenarios 5 and 6) -/

theorem test_unknown_opcode_bytes :
    ending (machine [0x66, 0xD6]) = some (some (.fault (.unknownOpcode [0x66, 0xD6]) (some 0x10))) := by decide

theorem test_fetch_of_an_immediate_past_the_end :
    ending (Loader.boot 4 [0xB8, 0x01, 0x00] 0 zeroRegs noFlags [] [])
      = some (some (.fault (.boundsError 1 4 4) (some 0))) := by decide

theorem test_fetch_after_a_prefix_past_the_end :
    ending (Loader.boot 2 [0x66] 1 zeroRegs noFlags [] []) = some (some (.fault (.boundsError 2 1 2) (some 1))) := by decide

/-- R41: from the last address to 0 between two fetches, never inside one (R522). -/
theorem test_fetch_at_the_top_of_a_full_memory :
    look (Loader.boot (2 ^ 32) [0xB8] 0xFFFFFFFF zeroRegs noFlags [] []) (·.eip) = some 4 ∧
    ending (Loader.boot (2 ^ 32) [0xB8, 0x01] 0xFFFFFFFE zeroRegs noFlags [] [])
      = some (some (.fault (.boundsError 0xFFFFFFFF 4 0x100000000) (some 0xFFFFFFFE))) := by decide

/-- The same check each time round: EIP = FFFFFFFF, after 0, 1, 2^32 and 2^32 + 1 bytes fetched. -/
theorem test_fetch_checks_every_round :
    [0, 1, 0x100000000, 0x100000001].map (fun u => (Stream.fetchWord ⟨u, some 0xFFFFFFFF, [1, 2, 3, 4]⟩).isOk)
      = [false, true, false, true] := by decide

theorem test_empty_image_runs_add :
    look (Loader.boot 128 [] 0 { zeroRegs with eax := 5 } noFlags [] []) (fun t => (t.mem.read 5, t.eip)) = some (5, 2) := by decide

theorem test_image_too_large :
    (Loader.boot 16 (List.replicate 20 0x90) 0 zeroRegs noFlags [] []).outcome
      = some (.fault (.boundsError 0 20 16) none) ∧
    (Loader.boot 20 (List.replicate 20 0x90) 0 zeroRegs noFlags [] []).outcome = none := by decide

theorem test_table_word_runs_first :
    look (State.reset.withFetchWord 8 0x40) (fun t => (t.regs.eax, t.eip, t.run)) = some (1, 1, .running) := by decide

/-- The primary opcodes the decoder rejects at once are those the obligations name. -/
theorem test_unlisted_primary_is_complete :
    ((List.range 256).filter fun n => rejectedAfter (BitVec.ofNat 8 n :: List.replicate 10 0) == some 1)
      = unlistedPrimary.map BitVec.toNat := by decide

/-! ### Witnesses: for each obligation, a state and operands that meet its hypotheses -/

/-- A memory operand that ends exactly at the end of 128 bytes of memory. -/
def fit (w : Width) : RM := .mem (.direct (BitVec.ofNat 32 (128 - w.bytes)))

/-- A memory operand one byte further up. -/
def miss (w : Width) : RM := .mem (.direct (BitVec.ofNat 32 (129 - w.bytes)))

theorem fit_accessible (w : Width) (s : State) (h : s.mem.size = 128) : ((fit w).operand w s).accessible s := by
  cases w <;> simp [fit, RM.operand, Addr.effective, Operand.accessible, State.inBounds, h] <;> decide

theorem miss_blocked (w : Width) (s : State) (h : s.mem.size = 128) : ∃ k, ((miss w).operand w s).blocked s k := by
  cases w <;> simp [miss, RM.operand, Addr.effective, Operand.blocked, State.inBounds, h] <;> decide

theorem witness_EncodedInstructionDecodes :
    (Instr.addEvIz [.opsize] (.mem (.base .eax .none)) 0xFFFF).wf = true := by decide

theorem witness_DecodedBytesAreTheEncoding : decode [0x90, 0x91] = .ok (.nop [], [0x91]) := by decide

theorem witness_PrefixKindsDecideDecoding :
    let p : Prefixes := [.opsize, .rep, .addrsize]
    (∀ b bs, ([0x90] : List Byte) = b :: bs → Prefix.ofByte? b = none) ∧ decode (p.bytes ++ [0x90]) = .ok (.nop p, []) ∧
    (let q : Prefixes := [.seg .ds, .addrsize, .repne, .opsize, .opsize]
     q.hasOpsize = p.hasOpsize ∧ q.hasRep = p.hasRep ∧ q.hasAddrsize = p.hasAddrsize) ∧
    (let q : Prefixes := [.repne, .opsize]
     q.hasOpsize = p.hasOpsize ∧ q.hasRep = p.hasRep ∧ q.hasAddrsize = false) := by
  refine ⟨fun b bs h => ?_, by decide, by decide, by decide⟩
  cases h; decide

theorem witness_PrefixSpellingIsInvisible :
    Prefixes.hasOpsize [.rep, .opsize] = Prefixes.hasOpsize [.opsize, .opsize, .seg .fs] := by decide

/-- First and last opcodes of each clause, the last ones at the very end of memory. -/
theorem witness_UnlistedEncodingsFault :
    (machine [0x66, 0x06]).run = .running ∧
    (0x06 ∈ unlistedPrimary ∧ (machine [0x66, 0x06]).atEip (Prefixes.bytes [.opsize] ++ [0x06])) ∧
    (0xF4 ∈ unlistedPrimary ∧ ((machine [] zeroRegs noFlags [0xF4] 0x7F).withEip 0x7F).atEip (Prefixes.bytes [] ++ [0xF4])) ∧
    (0x7F ∉ listedSecondary ∧ 0x90 ∉ listedSecondary ∧ 0xC0 ∉ listedSecondary) ∧
    (machine [0x66, 0x0F, 0x90]).atEip (Prefixes.bytes [.opsize] ++ [0x0F, 0x90]) ∧
    (((0xC0, [0, 1, 2, 3, 6]) : Byte × List (BitVec 3)) ∈ unlistedDigits ∧ regOf 0xF0 ∈ ([0, 1, 2, 3, 6] : List (BitVec 3)) ∧
      (machine [0x66, 0xC0, 0xF0]).atEip (Prefixes.bytes [.opsize] ++ [0xC0, 0xF0])) ∧
    (((0xFF, [3, 5, 7]) : Byte × List (BitVec 3)) ∈ unlistedDigits ∧ regOf 0xFF ∈ ([3, 5, 7] : List (BitVec 3)) ∧
      ((machine [] zeroRegs noFlags [0xFF, 0xFF] 0x7E).withEip 0x7E).atEip (Prefixes.bytes [] ++ [0xFF, 0xFF])) := by
  unfold State.atEip; and_intros <;> decide

theorem witness_NearBranchWithOpsizeFaults :
    (machine [0x66, 0x70]).run = .running ∧ Prefixes.hasOpsize [.opsize] = true ∧
    (0x70 ∈ nearPrimary ∧ (machine [0x66, 0x70]).atEip (Prefixes.bytes [.opsize] ++ [0x70])) ∧
    (0xC3 ∈ nearPrimary ∧ (machine [0x66, 0xC3]).atEip (Prefixes.bytes [.opsize] ++ [0xC3])) ∧
    (machine [0x66, 0x0F, 0x80]).atEip (Prefixes.bytes [.opsize] ++ [0x0F, 0x80 + Cond.o.code]) ∧
    (machine [0x66, 0x0F, 0x8F]).atEip (Prefixes.bytes [.opsize] ++ [0x0F, 0x80 + Cond.g.code]) ∧
    (regOf 0xD0 = 2 ∧ (machine [0x66, 0xFF, 0xD0]).atEip (Prefixes.bytes [.opsize] ++ [0xFF, 0xD0])) ∧
    (regOf 0xE0 = 4 ∧ (machine [0x66, 0xFF, 0xE0]).atEip (Prefixes.bytes [.opsize] ++ [0xFF, 0xE0])) := by
  unfold State.atEip; and_intros <;> decide

theorem witness_AddressSizeFaults :
    (machine [0x67, 0x8B, 0x00]).run = .running ∧ Prefixes.hasAddrsize [.addrsize] = true ∧
    (0x8B ∈ primaryWithModRM ∧ modOf 0x00 ≠ 3 ∧ (machine [0x67, 0x8B, 0x00]).atEip (Prefixes.bytes [.addrsize] ++ [0x8B, 0x00])) ∧
    (0xFF ∈ primaryWithModRM ∧ modOf 0xBF ≠ 3 ∧ (machine [0x67, 0xFF, 0xBF]).atEip (Prefixes.bytes [.addrsize] ++ [0xFF, 0xBF])) ∧
    (0xBF ∈ secondaryWithModRM ∧ (machine [0x67, 0x0F, 0xBF, 0x00]).atEip (Prefixes.bytes [.addrsize] ++ [0x0F, 0xBF, 0x00])) ∧
    (machine [0x67, 0xA0]).atEip (Prefixes.bytes [.addrsize] ++ [0xA0]) ∧
    (machine [0x67, 0xA5]).atEip (Prefixes.bytes [.addrsize] ++ [0xA5]) := by
  unfold State.atEip; and_intros <;> decide

theorem witness_LeaRegisterAndIntVectorFault :
    (machine [0x8D, 0xC0]).run = .running ∧ modOf 0xC0 = 3 ∧ modOf 0xFF = 3 ∧
    (machine [0x8D, 0xC0]).atEip (Prefixes.bytes [] ++ [0x8D, 0xC0]) ∧ (0x7F : Byte) ≠ 0x80 ∧ (0x81 : Byte) ≠ 0x80 ∧
    (machine [0xCD, 0x7F]).atEip (Prefixes.bytes [] ++ [0xCD, 0x7F]) := by
  unfold State.atEip; and_intros <;> decide

/-- Both cases of the statement: an address, and bytes that run out. -/
theorem witness_EffectiveAddressFollowsModRM :
    modOf 0x84 ≠ 3 ∧ addressOf { zeroRegs with eax := 0x10, ebx := 8 } (modOf 0x84) (rmOf 0x84) [0x58, 1, 0, 0, 0, 9] = some (0x21, [9]) ∧
    addressOf zeroRegs (modOf 0x84) (rmOf 0x84) [0x58, 1, 0, 0] = none := by decide

theorem witness_StepRunsTheDecodedInstruction :
    (machine [0x01, 0xD8]).run = .running ∧ (Instr.addEvGv [] (.reg .eax) .ebx).wf = true ∧
    (machine [0x01, 0xD8]).atEip (encode (.addEvGv [] (.reg .eax) .ebx)) ∧
    ((machine [] zeroRegs noFlags [0x01, 0xD8] 0x7E).withEip 0x7E).atEip (encode (.addEvGv [] (.reg .eax) .ebx)) := by
  unfold State.atEip; and_intros <;> decide

/-- The opcode in the last byte of a full memory, the immediate in its first four. -/
theorem witness_StepRunsTheDecodedInstruction_round :
    let s := Loader.boot (2 ^ 32) [0xB8] 0xFFFFFFFF zeroRegs noFlags [] []
    s.run = .running ∧ (Instr.movRvIz [] .eax 0).wf = true ∧ s.mem.size = 2 ^ 32 ∧
    s.bytesRound (encode (.movRvIz [] .eax 0)).length = encode (.movRvIz [] .eax 0) ∧
    decodeAt (some s.eip) (encode (.movRvIz [] .eax 0)) = .ok (.movRvIz [] .eax 0, []) := by decide

/-- An immediate cut short, EIP at the end of memory, and EIP beyond it. -/
theorem witness_FetchPastTheEndFaults :
    let s := Loader.boot 4 [0xB8, 0x01, 0x00] 0 zeroRegs noFlags [] []
    s.run = .running ∧ s.mem.size < 2 ^ 32 ∧
    decode (s.mem.readBytes s.eip.toNat (s.mem.size - s.eip.toNat)) = .error (.truncated 1 4) ∧
    (let u := s.withEip 4
     u.run = .running ∧ decode (u.mem.readBytes u.eip.toNat (u.mem.size - u.eip.toNat)) = .error (.truncated 0 1)) ∧
    (let u := s.withEip 0xFFFFFFFF
     u.run = .running ∧ decode (u.mem.readBytes u.eip.toNat (u.mem.size - u.eip.toNat)) = .error (.truncated 0 1)) := by decide

/-- An immediate across the top of a full memory. -/
theorem witness_FetchPastTheEndFaults_top :
    let s := Loader.boot (2 ^ 32) [0xB8, 0x01] 0xFFFFFFFE zeroRegs noFlags [] []
    s.run = .running ∧ s.mem.size = 2 ^ 32 ∧ decode (s.bytesRound 1) = .error (.truncated 1 4) ∧
    2 ^ 32 < (s.eip + BitVec.ofNat 32 1).toNat + 4 := by decide

/-- A running machine with `n` bytes of memory, the byte at `a` being `v a`. -/
def filled (n : Nat) (v : Nat → Byte) (eip : Word) : State :=
  { machine [] with eip := eip, mem := ⟨n, (List.range n).map fun a => (a, v a)⟩ }

theorem lookupCell_map (v : Nat → Byte) (l : List Nat) {a : Nat} (h : a ∈ l) :
    lookupCell (l.map fun a => (a, v a)) a = v a := by
  induction l with
  | nil => cases h
  | cons b l ih =>
    rw [List.map_cons, lookupCell]
    by_cases hb : b = a
    · rw [if_pos hb, hb]
    · rw [if_neg hb, ih ((List.mem_cons.mp h).resolve_left (Ne.symm hb))]

theorem filled_read {n : Nat} (v : Nat → Byte) (eip : Word) {a : Nat} (h : a < n) :
    (filled n v eip).mem.read a = v a :=
  lookupCell_map v _ (List.mem_range.mpr h)

theorem osz_of_segments (n : Nat) : Prefixes.osz (List.replicate n (.seg .es)) = .dword := by
  have h : Prefixes.hasOpsize (List.replicate n (.seg .es)) = false := by
    simp [Prefixes.hasOpsize]
  simp [Prefixes.osz, h]

/-- `B8` and no immediate after it. -/
theorem decode_mov_cut {p : Prefixes} (h : p.osz = .dword) :
    decode (p.bytes ++ [0xB8]) = .error (.truncated (p.length + 1) 4) := by
  obtain ⟨mk, hm⟩ : ∃ mk, primary 0xB8 = .immZ mk := ⟨_, rfl⟩
  rw [decode, decodeAt_split rfl, decodeOpcode_one (by decide), hm]
  simp [decodeEntry, Stream.fetchZ, Stream.fetchValue, Stream.fetch, h, Width.bytes, bind, Except.bind]

/-- An immediate across the top after prefix bytes all round a full memory (R82, R130, R522). -/
theorem witness_FetchPastTheEndFaults_round :
    let s := filled (2 ^ 32) (fun a => if a = 0xFFFFFFFE then 0xB8 else 0x26) 0xFFFFFFFF
    s.run = .running ∧ s.mem.size = 2 ^ 32 ∧ decode (s.bytesRound (2 ^ 32)) = .error (.truncated (2 ^ 32) 4) ∧
    2 ^ 32 < (s.eip + BitVec.ofNat 32 (2 ^ 32)).toNat + 4 := by
  refine ⟨rfl, rfl, ?_, by decide⟩
  have hb : (filled (2 ^ 32) (fun a => if a = 0xFFFFFFFE then 0xB8 else 0x26) 0xFFFFFFFF).bytesRound (2 ^ 32) =
      Prefixes.bytes (List.replicate 0xFFFFFFFF (.seg .es)) ++ [0xB8] := by
    refine List.ext_getElem? fun k => ?_
    rw [State.bytesRound, List.getElem?_map, Prefixes.bytes, List.map_replicate, List.getElem?_append,
      List.length_replicate, List.getElem?_replicate]
    rcases Nat.lt_trichotomy k 0xFFFFFFFF with hk | rfl | hk
    · rw [List.getElem?_range (by omega), Option.map_some, filled_read _ _ (BitVec.isLt _), if_pos hk, if_pos hk, if_neg]
      · rfl
      · show ¬ ((0xFFFFFFFF : Word) + BitVec.ofNat 32 k).toNat = _
        rw [BitVec.toNat_add, BitVec.toNat_ofNat]
        show ¬ (0xFFFFFFFF + k % 2 ^ 32) % 2 ^ 32 = _
        omega
    · rw [List.getElem?_range (by decide), Option.map_some, filled_read _ _ (BitVec.isLt _)]
      rfl
    · rw [List.getElem?_eq_none (by rw [List.length_range]; omega), if_neg (by omega),
        List.getElem?_eq_none (by simp only [List.length_singleton]; omega)]
      rfl
  rw [hb, decode_mov_cut (osz_of_segments _), List.length_replicate, show 0xFFFFFFFF + 1 = 2 ^ 32 by decide]

theorem witness_HaltedExecutesNothing : (State.reset.raise .divideError).run = .halted := by decide

/-- The reset state, and a full memory of prefix bytes. -/
theorem witness_RunningMachineAlwaysSteps :
    State.reset.run = .running ∧
    (let s := filled (2 ^ 32) (fun _ => 0x26) 0
     s.run = .running ∧ s.mem.size = 2 ^ 32 ∧ ∀ a, a < 2 ^ 32 → (Prefix.ofByte? (s.mem.read a)).isSome = true) :=
  ⟨rfl, rfl, rfl, fun a h => by rw [filled_read _ _ h]; rfl⟩

/-- A state with running machine, canonical memory and no outcome meets the invariant. -/
theorem machine_inv (s : State) (hm : s.mem.wf) (hs : s.mem.size = 128) (hr : s.run = .running) (ho : s.outcome = none)
    (he : s.exitCode = 0) : s.Inv :=
  ⟨hm, by omega, by simp [hr, ho], by simp [ho], fun _ => he⟩

/-- A step from such a state in each of the three ways a step ends. -/
theorem witness_StepEndsInSuccessExitOrFault :
    ((machine [0x40]).Inv ∧ (look (machine [0x40]) (·.run)) = some .running) ∧
    ((machine [0xCD, 0x80] { zeroRegs with eax := 1, ebx := 7 }).Inv ∧
      look (machine [0xCD, 0x80] { zeroRegs with eax := 1, ebx := 7 }) (·.outcome) = some (some (.exited 7))) ∧
    ((machine [0xC3]).Inv ∧ look (machine [0xC3]) (·.run) = some .halted) := by
  refine ⟨⟨machine_inv _ ?_ ?_ ?_ ?_ ?_, ?_⟩, ⟨machine_inv _ ?_ ?_ ?_ ?_ ?_, ?_⟩, ⟨machine_inv _ ?_ ?_ ?_ ?_ ?_, ?_⟩⟩ <;> decide

theorem witness_InvariantKeptByEveryStep : (machine [0x40]).Inv ∧ ∃ t, step (machine [0x40]) = .next t :=
  ⟨machine_inv _ (by decide) (by decide) (by decide) (by decide) (by decide), _, rfl⟩

theorem witness_InvariantHoldsAtTheStart :
    (1 ≤ 1 ∧ 1 ≤ 2 ^ 32) ∧ (1 ≤ 2 ^ 32 ∧ 2 ^ 32 ≤ 2 ^ 32) := by decide

/-- An image that ends at the end of memory, and one a byte longer. -/
theorem witness_LoadPlacesTheImage :
    (0x7E : Word).toNat + ([1, 2] : List Byte).length ≤ 128 ∧ 128 < (0x7E : Word).toNat + ([1, 2, 3] : List Byte).length := by
  decide

theorem witness_RegisterViewsRead :
    Reg.ebx.bits.toNat < 4 ∧ Reg.esp.bits.toNat = Reg.eax.bits.toNat + 4 ∧ Reg.edi.bits.toNat = Reg.ebx.bits.toNat + 4 := by
  decide

theorem witness_RegisterViewsWrite : 0 < 32 ∧ 31 < 32 := by decide

/-- Accesses that end at the end of memory, and that cross it by one byte or by the whole address space. -/
theorem witness_MemoryAccessIsBoundsChecked :
    (machine []).mem.wf ∧ (0x7C : Word).toNat + 4 ≤ (machine []).mem.size ∧ (machine []).mem.size < (0x7D : Word).toNat + 4 ∧
    (0x7E : Word).toNat + ([1, 2] : List Byte).length ≤ (machine []).mem.size ∧
    (machine []).mem.size < (0xFFFFFFFF : Word).toNat + ([1, 2] : List Byte).length := by decide

theorem witness_MemoryIsLittleEndian :
    (machine []).mem.wf ∧ (0x7C : Word).toNat + Width.dword.bytes ≤ (machine []).mem.size ∧
    (0x7F : Word).toNat + Width.byte.bytes ≤ (machine []).mem.size ∧ (machine []).mem.size ≤ 2 ^ 32 ∧
    (0x7C : Word).toNat + 4 ≤ (machine []).mem.size ∧
    (machine []).mem.size < (0x7F : Word).toNat + Width.word.bytes := by decide

/-- The four push forms with ESP at both ends of its range. -/
theorem witness_PushThenPopReturnsTheValue :
    let s := machine [] { zeroRegs with esp := 4 }
    s.mem.wf ∧ 4 ≤ s.regs.esp.toNat ∧ s.regs.esp.toNat ≤ s.mem.size ∧ Prefixes.hasOpsize [] = false ∧
    4 ≤ (machine []).regs.esp.toNat ∧ (machine []).regs.esp.toNat ≤ (machine []).mem.size ∧
    (∃ p x, Instr.pushR [] .ecx = .pushR p x ∧ p.hasOpsize = false ∧ s.regs.get .ecx = s.regs.get x) ∧
    (∃ p, Instr.pushIz [] 5 = .pushIz p 5 ∧ p.hasOpsize = false) ∧
    (∃ p imm, Instr.pushIb [] 0xFF = .pushIb p imm ∧ p.hasOpsize = false ∧ (0xFFFFFFFF : Word) = imm.signExtend 32) ∧
    (∃ p rm, Instr.pushEv [] (fit .dword) = .pushEv p rm ∧ p.hasOpsize = false ∧ (rm.operand .dword s).accessible s ∧
      ((fit .dword).operand .dword s).value s = (rm.operand .dword s).value s) :=
  ⟨by decide, by decide, by decide, by decide, by decide, by decide, ⟨[], .ecx, rfl, rfl, rfl⟩, ⟨[], rfl, rfl⟩,
    ⟨[], 0xFF, rfl, rfl, by decide⟩, ⟨[], fit .dword, rfl, rfl, fit_accessible _ _ rfl, rfl⟩⟩

/-- Both call forms; the state of entry itself meets the hypotheses on the later state. -/
theorem witness_CallThenRetReturns :
    let s := machine [] { zeroRegs with esp := 4 }
    s.mem.wf ∧ 4 ≤ s.regs.esp.toNat ∧ s.regs.esp.toNat ≤ s.mem.size ∧
    (∃ p rel, Instr.callRel32 [] 5 = .callRel32 p rel) ∧
    (∃ p rm, Instr.callEv [] (fit .dword) = .callEv p rm ∧ (rm.operand .dword s).accessible s) :=
  ⟨by decide, by decide, by decide, ⟨[], 5, rfl⟩, ⟨[], fit .dword, rfl, fit_accessible _ _ rfl⟩⟩

theorem witness_AdditionFlagsMeanOverflow :
    (AluOp.add = .add ∧ false = false) ∧ (AluOp.adc = .adc ∧ true = { noFlags with CF := true }.CF) := by decide

theorem witness_SubtractionFlagsMeanBorrow :
    ((AluOp.cmp = .sub ∨ AluOp.cmp = .cmp) ∧ false = false) ∧ (AluOp.sbb = .sbb ∧ true = { noFlags with CF := true }.CF) := by
  decide

theorem witness_LogicFlagsKeepAdjust : AluOp.xor = .and ∨ AluOp.xor = .or ∨ AluOp.xor = .xor := by decide

theorem witness_CompareDecidesTheOrder : ∃ t, exec (AluOp.cmp.instr (.alIb [] 1)) (machine []) = .next t := ⟨_, rfl⟩

theorem witness_ConditionCodesFollowTheTable :
    let f := noFlags
    let g := { noFlags with TF := true, AF := true, DF := true }
    g.CF = f.CF ∧ g.ZF = f.ZF ∧ g.SF = f.SF ∧ g.OF = f.OF ∧ g.PF = f.PF := by decide

/-- A memory destination that just fits, a memory source, and one that misses by a byte. -/
theorem witness_BinaryAluCompletes :
    (let form := AluForm.evIz [] (fit .dword) 1
     let t := (machine []).atNext (AluOp.add.instr form)
     (form.dst t).accessible t ∧ (form.src t).accessible t) ∧
    (let form := AluForm.gbEb [] (fit .byte) .eax
     let t := (machine []).atNext (AluOp.cmp.instr form)
     (form.dst t).accessible t ∧ (form.src t).accessible t) ∧
    (let form := AluForm.evGv [.opsize] (miss .word) .eax
     let t := (machine []).atNext (AluOp.sub.instr form)
     ∃ k, (form.dst t).blocked t k ∨ (form.src t).blocked t k) :=
  ⟨⟨fit_accessible .dword _ rfl, trivial⟩, ⟨trivial, fit_accessible .byte _ rfl⟩,
    (miss_blocked .word _ rfl).imp fun _ => .inl⟩

theorem witness_TestCompletes :
    let form := TestForm.evIz [] (fit .dword) 1
    let t := (machine []).atNext form.instr
    (form.op1 t).accessible t ∧ form.op2.accessible t := ⟨fit_accessible .dword _ rfl, trivial⟩

theorem witness_MoveCompletes :
    (let form := MoveForm.evGv [] (fit .dword) .eax
     let t := (machine []).atNext form.instr
     (form.dst t).accessible t ∧ (form.src t).accessible t) ∧
    (let form := MoveForm.gbEb [] (miss .byte) .eax
     let t := (machine []).atNext form.instr
     ∃ k, (form.dst t).blocked t k ∨ (form.src t).blocked t k) :=
  ⟨⟨fit_accessible .dword _ rfl, trivial⟩, (miss_blocked .byte _ rfl).imp fun _ => .inr⟩

theorem witness_WideningMovesComplete :
    (let t := (machine []).atNext (.movzxGvEb [] (fit .byte) .eax); ((fit .byte).operand .byte t).accessible t) ∧
    (let t := (machine []).atNext (.movzxGvEw [] (fit .word) .eax); ((fit .word).operand .word t).accessible t) ∧
    (let t := (machine []).atNext (.movsxGvEb [] (fit .byte) .eax); ((fit .byte).operand .byte t).accessible t) ∧
    (let t := (machine []).atNext (.movsxGvEw [] (fit .word) .eax); ((fit .word).operand .word t).accessible t) :=
  ⟨fit_accessible _ _ rfl, fit_accessible _ _ rfl, fit_accessible _ _ rfl, fit_accessible _ _ rfl⟩

theorem witness_ExchangeCompletes :
    (let t := (machine []).atNext (.xchgEbGb [] (fit .byte) .eax); ((fit .byte).operand .byte t).accessible t) ∧
    (let t := (machine []).atNext (.xchgEvGv [] (fit .dword) .eax); ((fit .dword).operand (Prefixes.osz []) t).accessible t) :=
  ⟨fit_accessible _ _ rfl, fit_accessible .dword _ rfl⟩

theorem witness_IncrementAndDecrementComplete :
    (let t := (machine []).atNext (UnaryOp.inc.instr (.ev [] (fit .dword)))
     ((UnaryForm.ev [] (fit .dword)).operand t).accessible t) ∧
    (let t := (machine []).atNext (UnaryOp.dec.instr (.eb [] (.reg .esp)))
     ((UnaryForm.eb [] (.reg .esp)).operand t).accessible t) := ⟨fit_accessible .dword _ rfl, trivial⟩

theorem witness_NegateAndComplementComplete :
    (let t := (machine []).atNext (UnaryOp.neg.instr (.ev [.opsize] (fit .word)))
     ((UnaryForm.ev [.opsize] (fit .word)).operand t).accessible t) ∧
    (let t := (machine []).atNext (UnaryOp.not.instr (.eb [] (fit .byte)))
     ((UnaryForm.eb [] (fit .byte)).operand t).accessible t) := ⟨fit_accessible .word _ rfl, fit_accessible .byte _ rfl⟩

theorem witness_MultiplyCompletes :
    (let t := (machine []).atNext (UnaryOp.mul.instr (.eb [] (fit .byte)))
     ((UnaryForm.eb [] (fit .byte)).operand t).accessible t) ∧
    (let t := (machine []).atNext (UnaryOp.imul.instr (.ev [] (fit .dword)))
     ((UnaryForm.ev [] (fit .dword)).operand t).accessible t) := ⟨fit_accessible .byte _ rfl, fit_accessible .dword _ rfl⟩

theorem witness_TruncatingMultiplyCompletes :
    (let t := (machine []).atNext (.imulGvEv [] (fit .dword) .eax); ((fit .dword).operand (Prefixes.osz []) t).accessible t) ∧
    (let t := (machine []).atNext (.imulGvEvIz [] (fit .dword) .eax 3); ((fit .dword).operand (Prefixes.osz []) t).accessible t) ∧
    (let t := (machine []).atNext (.imulGvEvIb [] (fit .dword) .eax 3); ((fit .dword).operand (Prefixes.osz []) t).accessible t) :=
  ⟨fit_accessible .dword _ rfl, fit_accessible .dword _ rfl, fit_accessible .dword _ rfl⟩

/-- At width 1 with AX and BL: the largest quotient 255 and the smallest that is too large, 256; and a zero divisor. For
`idiv` the quotients -128 and 127 and the ones beyond them. -/
theorem witness_DivideCompletesOrFaults :
    (let form := UnaryForm.eb [] (.reg .ebx)
     ∀ s : State, (form.operand s).accessible s) ∧
    (let s := machine [] { zeroRegs with eax := 0x00FF, ebx := 1 }
     let n := (s.regRead (highIndex .byte) .byte).toNat * 2 ^ 8 + (s.regRead .eax .byte).toNat
     let d := (s.regRead .ebx .byte).toNat
     d ≠ 0 ∧ n / d ≤ 2 ^ 8 - 1) ∧
    (let s := machine [] { zeroRegs with eax := 0x0100, ebx := 1 }
     let n := (s.regRead (highIndex .byte) .byte).toNat * 2 ^ 8 + (s.regRead .eax .byte).toNat
     let d := (s.regRead .ebx .byte).toNat
     d = 0 ∨ 2 ^ 8 - 1 < n / d) ∧
    (let s := machine []
     (s.regRead .ebx .byte).toNat = 0) ∧
    ([(0xFF80, -128), (0x007F, 127)].all fun (x : Word × Int) =>
      let s := machine [] { zeroRegs with eax := x.1, ebx := 1 }
      let n := (s.regRead (highIndex .byte) .byte).toInt * 2 ^ 8 + (s.regRead .eax .byte).toNat
      let q := n.tdiv (s.regRead .ebx .byte).toInt
      decide (q = x.2 ∧ (s.regRead .ebx .byte).toInt ≠ 0 ∧ -2 ^ 7 ≤ q ∧ q ≤ 2 ^ 7 - 1)) = true ∧
    ([(0xFF7F, -129), (0x0080, 128)].all fun (x : Word × Int) =>
      let s := machine [] { zeroRegs with eax := x.1, ebx := 1 }
      let n := (s.regRead (highIndex .byte) .byte).toInt * 2 ^ 8 + (s.regRead .eax .byte).toNat
      let q := n.tdiv (s.regRead .ebx .byte).toInt
      decide (q = x.2 ∧ (q < -2 ^ 7 ∨ 2 ^ 7 - 1 < q))) = true :=
  ⟨fun _ => trivial, by decide, by decide, by decide, by decide, by decide⟩

/-- Counts 0, 1, N - 1, N and 31 under the mask, for a register and a memory operand, and a blocked one. -/
theorem witness_ShiftCompletes :
    (let t := (machine []).atNext (ShiftOp.shl.instr (.ebIb [] (fit .byte) 0x20))
     ((ShiftForm.ebIb [] (fit .byte) 0x20).dst t).accessible t ∧ ((ShiftForm.ebIb [] (fit .byte) 0x20).count t).toNat % 32 = 0) ∧
    (let t := (machine []).atNext (ShiftOp.shr.instr (.eb1 [] (.reg .esp)))
     ((ShiftForm.eb1 [] (.reg .esp)).dst t).accessible t ∧ ((ShiftForm.eb1 [] (.reg .esp)).count t).toNat % 32 = 1) ∧
    ([7, 8, 0x1F, 0x3F].all fun (c : Byte) => decide (((ShiftForm.ebIb [] (.reg .eax) c).count (machine [])).toNat % 32 ≠ 0)) = true ∧
    (let t := (machine []).atNext (ShiftOp.sar.instr (.evCl [] (miss .dword)))
     ∃ k, ((ShiftForm.evCl [] (miss .dword)).dst t).blocked t k) :=
  ⟨⟨fit_accessible .byte _ rfl, by decide⟩, ⟨trivial, by decide⟩, by decide, miss_blocked .dword _ rfl⟩

theorem witness_BranchesComplete :
    (let t := (machine []).atNext (.jmpEv [] (fit .dword)); ((fit .dword).operand .dword t).accessible t) ∧
    (let t := (machine []).atNext (.jmpEv [] (miss .dword)); ∃ k, ((miss .dword).operand .dword t).blocked t k) :=
  ⟨fit_accessible _ _ rfl, miss_blocked _ _ rfl⟩

/-- ESP = 4 and 128 just fit a push, 3 and 129 do not; 124 just fits a pop, 125 does not. -/
theorem witness_CallAndRetComplete :
    ([4, 128].all fun (e : Word) => decide ((machine [] { zeroRegs with esp := e }).inBounds (e - 4) 4)) = true ∧
    ([3, 129].all fun (e : Word) => decide (¬ (machine [] { zeroRegs with esp := e }).inBounds (e - 4) 4)) = true ∧
    (machine []).inBounds 124 4 ∧ ¬ (machine []).inBounds 125 4 ∧
    (let t := (machine []).atNext (.callEv [] (fit .dword)); ((fit .dword).operand .dword t).accessible t) ∧
    (let t := (machine []).atNext (.callEv [] (miss .dword)); ∃ k, ((miss .dword).operand .dword t).blocked t k) :=
  ⟨by decide, by decide, by decide, by decide, fit_accessible _ _ rfl, miss_blocked _ _ rfl⟩

theorem witness_PushCompletes :
    (let s := machine [] { zeroRegs with esp := 2 }
     s.inBounds (s.regs.esp - BitVec.ofNat 32 (Prefixes.osz [.opsize]).bytes) (Prefixes.osz [.opsize]).bytes) ∧
    (let s := machine [] { zeroRegs with esp := 1 }
     ¬ s.inBounds (s.regs.esp - BitVec.ofNat 32 (Prefixes.osz [.opsize]).bytes) (Prefixes.osz [.opsize]).bytes) ∧
    ((fit .word).operand (Prefixes.osz [.opsize]) (machine [])).accessible (machine []) ∧
    (∃ k, ((miss .word).operand (Prefixes.osz [.opsize]) (machine [])).blocked (machine []) k) :=
  ⟨by decide, by decide, fit_accessible .word _ rfl, miss_blocked .word _ rfl⟩

theorem witness_PopAndLeaveComplete :
    (let s := machine [] { zeroRegs with esp := 124, ebp := 124 }
     s.inBounds s.regs.esp (Prefixes.osz []).bytes ∧ s.inBounds s.regs.ebp (Prefixes.osz []).bytes) ∧
    (let s := machine [] { zeroRegs with esp := 125, ebp := 125 }
     ¬ s.inBounds s.regs.esp (Prefixes.osz []).bytes ∧ ¬ s.inBounds s.regs.ebp (Prefixes.osz []).bytes) ∧
    ((fit .dword).operand (Prefixes.osz []) (machine [])).accessible (machine []) ∧
    (∃ k, ((miss .dword).operand (Prefixes.osz []) (machine [])).blocked (machine []) k) :=
  ⟨by decide, by decide, fit_accessible .dword _ rfl, miss_blocked .dword _ rfl⟩

/-- A move that just fits, one whose source and one whose destination misses; a rep of two moves, and one whose third
move is out of bounds. -/
theorem witness_StringMovesComplete :
    (let s := machine [] { zeroRegs with esi := 124, edi := 124 }
     s.inBounds s.regs.esi Width.dword.bytes ∧ s.inBounds s.regs.edi Width.dword.bytes) ∧
    (let s := machine [] { zeroRegs with esi := 125, edi := 0x40 }
     ¬ s.inBounds s.regs.esi Width.dword.bytes) ∧
    (let s := machine [] { zeroRegs with esi := 0x40, edi := 125 }
     s.inBounds s.regs.esi Width.dword.bytes ∧ ¬ s.inBounds s.regs.edi Width.dword.bytes) ∧
    (let s := machine [] { zeroRegs with esi := 0x40, edi := 0x7E, ecx := 2 }
     ∃ u, moveTimes .byte s.regs.ecx.toNat s = .ok u) ∧
    (let s := machine [] { zeroRegs with esi := 0x40, edi := 0x7E, ecx := 4 }
     2 < s.regs.ecx.toNat ∧ ∃ u, moveTimes .byte 2 s = .ok u ∧ u.inBounds u.regs.esi Width.byte.bytes ∧
       ¬ u.inBounds u.regs.edi Width.byte.bytes) :=
  ⟨by decide, by decide, by decide, ⟨_, rfl⟩, by decide, _, rfl, by decide, by decide⟩

/-- Two blocks of two bytes that touch but do not overlap, the upper one ending at the end of memory. -/
theorem witness_RepMoveCopiesTheBlock :
    let s := machine [] { zeroRegs with esi := 0x7C, edi := 0x7E, ecx := 2 }
    let n := s.regs.ecx.toNat
    let src (k : Nat) := elementAddr .byte s.flags s.regs.esi k
    let dst (k : Nat) := elementAddr .byte s.flags s.regs.edi k
    s.mem.wf ∧ (∀ k, k < n → s.inBounds (src k) Width.byte.bytes ∧ s.inBounds (dst k) Width.byte.bytes) ∧
    (∀ i j, i < n → j < n → src i ≠ dst j) := by
  refine ⟨by decide, ?_, ?_⟩
  · exact fun k hk => (by decide : ∀ k, k < 2 →
      (machine []).inBounds (elementAddr .byte noFlags 0x7C k) Width.byte.bytes ∧
      (machine []).inBounds (elementAddr .byte noFlags 0x7E k) Width.byte.bytes) k hk
  · exact fun i j hi hj => (by decide : ∀ i, i < 2 → ∀ j, j < 2 →
      elementAddr .byte noFlags 0x7C i ≠ elementAddr .byte noFlags 0x7E j) i hi j hj

theorem witness_SyscallExitAndRefusals :
    (machine [] { zeroRegs with eax := 1 }).regs.eax = 1 ∧
    (let s := machine [] { zeroRegs with eax := 2 }
     s.regs.eax ≠ 1 ∧ s.regs.eax ≠ 3 ∧ s.regs.eax ≠ 4) ∧
    (let s := machine [] { zeroRegs with eax := 4, ebx := 3 }
     (s.regs.eax = 3 ∨ s.regs.eax = 4) ∧ 2 < s.regs.ebx.toNat) := by decide

/-- A buffer that ends at the end of memory, and one a byte longer; with an answer listed. -/
theorem witness_SyscallReadCompletes :
    let s := machine [] { zeroRegs with eax := 3, ebx := 0, ecx := 0x7E, edx := 2 }
    s.regs.eax = 3 ∧ s.regs.ebx.toNat = Fd.stdin.toNat ∧ s.inBounds s.regs.ecx s.regs.edx.toNat ∧
    ¬ s.inBounds s.regs.ecx 3 ∧
    { s with readAnswers := [ReadAnswer.data [1]] }.readAnswers.head? = some (ReadAnswer.data [1]) := by decide

theorem witness_SyscallWriteCompletes :
    let s := machine [] { zeroRegs with eax := 4, ebx := 2, ecx := 0x7E, edx := 2 }
    s.regs.eax = 4 ∧ s.regs.ebx.toNat = Fd.stderr.toNat ∧ s.inBounds s.regs.ecx s.regs.edx.toNat ∧
    ¬ s.inBounds s.regs.ecx 3 ∧
    { s with writeAnswers := [WriteAnswer.ioError] }.writeAnswers.head? = some WriteAnswer.ioError := by decide

theorem witness_FlagsOutsideTheTableAreKept :
    (∃ t, exec (.incR [] .eax) (machine []) = .next t) ∧ FlagBit.CF ∉ (Instr.incR [] .eax).flagsWritten := ⟨⟨_, rfl⟩, by decide⟩

theorem witness_RegistersOutsideTheDestinationAreKept :
    (∃ t, exec (.movRbIb [] .esp 7) (machine []) = .next t) ∧ Reg.esp ∉ (Instr.movRbIb [] .esp 7).slots := ⟨⟨_, rfl⟩, by decide⟩

theorem witness_MemoryOutsideTheStoreIsKept :
    (machine []).mem.wf ∧ (∃ t, exec (.pushR [] .eax) (machine []) = .next t) ∧
    (∀ e ∈ (Instr.pushR [] .eax).stores (machine []), 0x7B < e.1.toNat ∨ e.1.toNat + e.2 ≤ 0x7B) := ⟨by decide, ⟨_, rfl⟩, by decide⟩

theorem witness_OnlyTheGateReachesTheHost :
    (∀ p, Instr.nop [] ≠ .int80 p) ∧ ∃ t, exec (.nop []) (machine []) = .next t := ⟨fun _ h => (nomatch h), _, rfl⟩

/-- A fault of an instruction, a fault of a rep movs after two moves, and a fault of a fetch. -/
theorem witness_FaultsArePrecise :
    ((machine []).outcome = none ∧ ∃ t, exec (.ret []) (machine []) = .next t ∧
      t.outcome = some (.fault (.stackUnderflow 0x80 4 128) (some 0x10))) ∧
    (∃ t, exec (.repMovsb [.rep]) (machine [] { zeroRegs with esi := 0x40, edi := 0x7E, ecx := 4 }) = .next t ∧
      t.outcome = some (.fault (.boundsError 0x80 1 128) (some 0x10))) ∧
    (∃ t, step (machine [0xD6]) = .next t ∧ t.outcome = some (.fault (.unknownOpcode [0xD6]) (some 0x10))) :=
  ⟨⟨rfl, _, rfl, rfl⟩, ⟨_, rfl, rfl⟩, _, rfl, rfl⟩

theorem witness_OperandOutsideMemoryFaults :
    (Instr.negEv [] (miss .dword)).firstOperand = some (.mem (.direct 125), .dword) ∧
    (machine []).mem.size < ((Addr.direct 125).effective (machine [])).toNat + Width.dword.bytes := by decide

theorem witness_FaultsComeFromTheirInstructions :
    (machine []).outcome = none ∧ ∃ t, exec (.divEv [] (.reg .eax)) (machine []) = .next t ∧
      t.outcome = some (.fault .divideError (some 0x10)) := ⟨rfl, _, rfl, rfl⟩

theorem witness_DrawsDecideOnlyUndefinedFlags : ∃ t, step (machine [0xD1, 0xE0]) = .next t := ⟨_, rfl⟩

end Sys2Proof.Tests
end

section
/-! PROOF. Who reaches the host (00_scope.md R6, 10_state.md R61). -/

namespace Sys2Proof.Machine

/-- What the host sees of a run: the transactions, the answers to come and the exit code are the same in both states. -/
def HostKept (s t : State) : Prop :=
  t.events = s.events ∧ t.readAnswers = s.readAnswers ∧ t.writeAnswers = s.writeAnswers ∧ t.exitCode = s.exitCode

theorem Kept.hostKept {slots : List Reg} {fl : List FlagBit} {stores : List (Word × Nat)} {s t : State}
    (h : Kept slots fl stores s t) : HostKept s t :=
  ⟨h.events, h.readAnswers, h.writeAnswers, h.exitCode⟩

theorem HostKept.raise {s t : State} (h : HostKept s t) (k : FaultKind) : HostKept s (t.raise k) := h

/-- Each end of an instruction that `exec_cases` lists, but that of the gate, keeps what the host sees. -/
theorem exec_hostKept {i : Instr} {s t : State} (hi : ∀ p, i ≠ .int80 p) (he : exec i s = .next t) : HostKept s t := by
  rcases exec_cases i s with
    ⟨u, hu, hk⟩ | ⟨k, hu, _⟩ | ⟨_, _, _, u, k, _, _, _, _, _, hu, hk⟩ | ⟨p, _, hp, _, _⟩
  · cases hu.symm.trans he
    exact hk.hostKept
  · cases hu.symm.trans he
    exact HostKept.raise ⟨rfl, rfl, rfl, rfl⟩ k
  · cases hu.symm.trans he
    exact hk.hostKept.raise k
  · exact absurd hp (hi p)

/-- Settles O55: of the ends of an instruction only the gate's touches the host port or the exit code. -/
theorem onlyTheGateReachesTheHost : Obligations.OnlyTheGateReachesTheHost :=
  fun _ _ _ hi he => exec_hostKept hi he

end Sys2Proof.Machine
end

section
/-! PROOF. The invariant (10_state.md R60 to R62, 70_reset_and_hazards.md R571), and what an instruction leaves of the
flags and the registers (R36, R45): each end of an instruction that `exec_cases` lists keeps them. -/

namespace Sys2Proof.Machine

/-! ### The invariant -/

/-- The invariant speaks of the memory, the run state, the outcome and the exit code alone. -/
theorem State.Inv.congr {s t : State} (h : s.Inv) (hw : t.mem.wf) (hs : t.mem.size = s.mem.size) (hr : t.run = s.run)
    (ho : t.outcome = s.outcome) (hc : t.exitCode = s.exitCode) : t.Inv :=
  ⟨hw, hs ▸ h.size, hr ▸ ho ▸ h.running, ho ▸ hc ▸ h.exited, ho ▸ hc ▸ h.notExited⟩

theorem Kept.inv {slots : List Reg} {fl : List FlagBit} {stores : List (Word × Nat)} {s t : State}
    (hk : Kept slots fl stores s t) (h : s.Inv) : t.Inv :=
  h.congr (hk.wf h.memory) hk.size hk.run hk.outcome hk.exitCode

/-- A running machine has exit code 0, and a fault leaves it so. -/
theorem State.Inv.raise {s : State} (h : s.Inv) (hr : s.run = .running) (k : FaultKind) : (s.raise k).Inv where
  memory := h.memory
  size := h.size
  running := by simp
  exited := by simp
  notExited := fun _ => h.notExited (by simp [h.running.mp hr])

theorem State.Inv.exit {s : State} (h : s.Inv) (c : Byte) : (s.exit c).Inv where
  memory := h.memory
  size := h.size
  running := by simp
  exited := by simp
  notExited := fun hn => absurd rfl (hn c)

theorem GateKept.inv {s t : State} (hk : GateKept s t) (h : s.Inv) : t.Inv := by
  rcases hk.run with ⟨hr, ho, hc⟩ | ⟨_, rfl⟩
  · exact h.congr (hk.wf h.memory) hk.size hr ho hc
  · exact h.exit _

theorem exec_inv {i : Instr} {s t : State} (h : s.Inv) (hr : s.run = .running) (he : exec i s = .next t) : t.Inv := by
  rcases exec_cases i s with
    ⟨u, hu, hk⟩ | ⟨k, hu, _⟩ | ⟨_, _, _, u, k, _, _, _, _, _, hu, hk⟩ | ⟨p, u, _, hu, hk⟩ <;> cases hu.symm.trans he
  · exact hk.inv h
  · exact h.raise hr k
  · exact (hk.inv h).raise (hk.run.trans hr) k
  · exact hk.inv (h.congr (t := s.atNext i) h.memory rfl rfl rfl rfl)

/-- Settles O16: a step is an instruction, a fault of the unchanged state or an endless fetch, and each keeps the
invariant. -/
theorem invariantKeptByEveryStep : Obligations.InvariantKeptByEveryStep := by
  intro s t h he
  obtain ⟨hr, ⟨i, _, hi⟩ | ⟨k, rfl⟩ | ⟨_, rfl⟩⟩ := step_cases s t he
  · exact exec_inv h hr hi
  · exact h.raise hr k
  · exact h

/-- Settles O13: `step` asks for the run state first. -/
theorem haltedExecutesNothing : Obligations.HaltedExecutesNothing := by
  intro s h
  rw [step, h]

/-! ### The frame of an instruction in the registers and the flags -/

theorem exec_frame {i : Instr} {s t : State} (he : exec i s = .next t) :
    (∀ r, r ∉ i.slots → t.regs.get r = s.regs.get r) ∧ ∀ f, f ∉ i.flagsWritten → t.flags.get f = s.flags.get f := by
  rcases exec_cases i s with
    ⟨u, hu, hk⟩ | ⟨k, hu, _⟩ | ⟨_, _, _, u, k, _, _, _, _, _, hu, hk⟩ | ⟨p, u, rfl, hu, hk⟩ <;> cases hu.symm.trans he
  · exact ⟨hk.regs, hk.flags⟩
  · exact ⟨fun _ _ => rfl, fun _ _ => rfl⟩
  · exact ⟨hk.regs, hk.flags⟩
  · exact ⟨fun r hr => hk.regs r (List.ne_of_not_mem_cons hr), fun f _ => congrArg (·.get f) hk.flags⟩

/-- Settles O52: the flags' half of the frame. -/
theorem flagsOutsideTheTableAreKept : Obligations.FlagsOutsideTheTableAreKept :=
  fun _ _ _ f he => (exec_frame he).2 f

/-- Settles O53: the registers' half of the frame. -/
theorem registersOutsideTheDestinationAreKept : Obligations.RegistersOutsideTheDestinationAreKept :=
  fun _ _ _ r he => (exec_frame he).1 r

end Sys2Proof.Machine
end

section
/-! PROOF. The state at the first instruction (70_reset_and_hazards.md R570 to R575). -/

namespace Sys2Proof.Machine

section load
variable (image : List Byte) (offset : Word) (s : State)

theorem Loader.load_fits (h : offset.toNat + image.length ≤ s.mem.size) :
    Loader.load image offset s =
      { s with mem := s.mem.writeBytes offset.toNat image, eip := offset,
               regs := { s.regs with esp := BitVec.ofNat 32 s.mem.size } } := by
  rw [Loader.load, Memory.set_eq h]

theorem Loader.load_too_long (h : s.mem.size < offset.toNat + image.length) :
    Loader.load image offset s =
      { s with run := .halted, outcome := some (.fault (s.outOfBounds offset image.length) none) } := by
  rw [Loader.load, Memory.set_eq_none h]

end load

theorem Memory.wf_empty (size : Nat) : (⟨size, []⟩ : Memory).wf := by simp [Memory.wf]

/-- Settles O18: the image fits or it does not, and the load has one equation for each. -/
theorem loadPlacesTheImage : Obligations.LoadPlacesTheImage := by
  intro size image offset gpr flags reads writes s
  rcases Nat.lt_or_ge size (offset.toNat + image.length) with hn | hf
  · have hs : s = _ := Loader.load_too_long image offset (Loader.construct size gpr flags reads writes) hn
    rw [hs]
    exact ⟨rfl, rfl, rfl, rfl, fun hf => absurd hn (Nat.not_lt.mpr hf), fun _ => ⟨rfl, rfl, fun _ => rfl⟩⟩
  · have hs : s = _ := Loader.load_fits image offset (Loader.construct size gpr flags reads writes) hf
    rw [hs]
    exact ⟨rfl, rfl, rfl, Memory.writeBytes_size .., fun _ => ⟨rfl, rfl, rfl, rfl,
      Memory.read_writeBytes (Memory.wf_empty size) hf⟩, fun hn => absurd hn (Nat.not_lt.mpr hf)⟩

end Sys2Proof.Machine
end

section
/-! PROOF. The register views (10_state.md R31 to R35). -/

namespace Sys2Proof

/-- An index above 3 names bits 15 to 8 of the slot four below (R31). -/
theorem Reg.isHigh_iff (i : Reg) : i.isHigh = true ↔ 4 ≤ i.bits.toNat := by cases i <;> decide

theorem Reg.slot8_bits (i : Reg) : i.slot8.bits.toNat = i.bits.toNat % 4 := by cases i <;> rfl

theorem Reg.bits_toNat_inj {i j : Reg} : i.bits.toNat = j.bits.toNat ↔ i = j :=
  ⟨fun h => by rw [← Reg.ofBits_bits i, BitVec.eq_of_toNat_eq h, Reg.ofBits_bits], fun h => h ▸ rfl⟩

theorem Reg.slot_bits (i : Reg) (w : Width) :
    (i.slot w).bits.toNat = if w = .byte then i.bits.toNat % 4 else i.bits.toNat := by
  cases w
  · exact i.slot8_bits
  · rfl
  · rfl

end Sys2Proof

namespace Sys2Proof.Machine

theorem viewOffset_eq (i : Reg) (w : Width) : viewOffset i w = if w = .byte ∧ 4 ≤ i.bits.toNat then 8 else 0 := by
  cases w <;> simp [viewOffset, Reg.isHigh_iff]

/-- A byte view is the byte at its offset in its slot. -/
theorem Regs.read_byte_toNat (x : Regs) (i : Reg) :
    (x.read i .byte).toNat = (x.get i.slot8).toNat / 2 ^ viewOffset i .byte % 2 ^ 8 := by
  rw [Regs.read, BitVec.extractLsb'_toNat, Nat.shiftRight_eq_div_pow]
  rfl

/-- Settles O19: a byte view is read at its offset, and the index alone decides slot and offset. -/
theorem registerViewsRead : Obligations.RegisterViewsRead := by
  intro x i
  refine ⟨rfl, ?_, fun hi => ?_, fun j hj => ?_⟩
  · rw [Regs.read, BitVec.extractLsb'_toNat, Nat.shiftRight_zero]
  · have hs : i.slot8 = i := Reg.bits_toNat_inj.mp (by rw [Reg.slot8_bits]; omega)
    rw [Regs.read_byte_toNat, viewOffset_eq, if_neg (by omega), hs, Nat.pow_zero, Nat.div_one]
  · have hs : i.slot8 = j := Reg.bits_toNat_inj.mp (by rw [Reg.slot8_bits]; omega)
    rw [Regs.read_byte_toNat, viewOffset_eq, if_pos ⟨rfl, by omega⟩, hs]

/-- Settles O20: `Regs.getLsbD_write`, with the slot and the offset of the view as numbers. -/
theorem registerViewsWrite : Obligations.RegisterViewsWrite := by
  intro x i r w v k _
  simp only [Regs.getLsbD_write, ← viewOffset_eq, ← Reg.slot_bits, Reg.bits_toNat_inj]

end Sys2Proof.Machine
end

section
/-! PROOF. TF and IF have no effect on execution (10_state.md R47): every part of a step carries other values of the two
flags through unchanged, from the reads that do not see them up to the step. -/

namespace Sys2Proof.Machine

/-- The flags with other values of TF and IF. -/
def Flags.withTfIf (g : Flags) (tf iflag : Bool) : Flags := { g with TF := tf, IF := iflag }

/-- The state with other values of TF and IF. -/
def State.withTfIf (s : State) (tf iflag : Bool) : State := s.withFlags (s.flags.withTfIf tf iflag)

/-- `x'` is the answer `x` with other values of TF and IF in the state it holds. -/
def Carried (tf iflag : Bool) (x x' : Except FaultKind State) : Prop := x' = x.map (·.withTfIf tf iflag)

/-! ### Reading, and the order of actions -/

section combinators
variable {tf iflag : Bool} {α : Type}

theorem Carried.ok {t u : State} (h : u = t.withTfIf tf iflag) : Carried tf iflag (.ok t) (.ok u) := h ▸ rfl

theorem Carried.error (k : FaultKind) : Carried tf iflag (.error k) (.error k) := rfl

/-- After a read that does not see TF and IF. -/
theorem Carried.bind (x : Except FaultKind α) {h h' : α → Except FaultKind State}
    (hh : ∀ a, Carried tf iflag (h a) (h' a)) : Carried tf iflag (x >>= h) (x >>= h') := by
  cases x with
  | error k => rfl
  | ok a => exact hh a

/-- After an action that carries TF and IF through. -/
theorem Carried.then {x x' : Except FaultKind State} (hx : Carried tf iflag x x')
    {h h' : State → Except FaultKind State} (hh : ∀ t, Carried tf iflag (h t) (h' (t.withTfIf tf iflag))) :
    Carried tf iflag (x >>= h) (x' >>= h') := by
  subst hx
  cases x with
  | error k => rfl
  | ok t => exact hh t

theorem Carried.ite {c : Prop} [Decidable c] {x x' y y' : Except FaultKind State} (hx : Carried tf iflag x x')
    (hy : Carried tf iflag y y') : Carried tf iflag (if c then x else y) (if c then x' else y') := by
  split
  · exact hx
  · exact hy

end combinators

section operations
variable (s : State) (tf iflag : Bool) {w : Width}

@[simp] theorem State.withTfIf_regs : (s.withTfIf tf iflag).regs = s.regs := rfl
@[simp] theorem State.withTfIf_flags : (s.withTfIf tf iflag).flags = s.flags.withTfIf tf iflag := rfl

theorem readOp_withTfIf (op : Operand w) : readOp op (s.withTfIf tf iflag) = readOp op s := by cases op <;> rfl

theorem memWrite_carried (a : Word) (v : BitVec w.bits) :
    Carried tf iflag (s.memWrite a w v) ((s.withTfIf tf iflag).memWrite a w v) := by
  by_cases h : s.inBounds a w.bytes
  · rw [State.memWrite_ok v h, State.memWrite_ok v (s := s.withTfIf tf iflag) h]; rfl
  · rw [State.memWrite_error v h, State.memWrite_error v (s := s.withTfIf tf iflag) h]; rfl

theorem writeOp_carried (op : Operand w) (v : BitVec w.bits) :
    Carried tf iflag (writeOp op v s) (writeOp op v (s.withTfIf tf iflag)) := by
  cases op with
  | reg i => rfl
  | imm _ => rfl
  | mem a => exact memWrite_carried s tf iflag a v

theorem push_carried (v : BitVec w.bits) : Carried tf iflag (push v s) (push v (s.withTfIf tf iflag)) :=
  (memWrite_carried s tf iflag _ v).then fun _ => rfl

/-- A handler that pops first. -/
theorem pop_carried {h h' : BitVec w.bits × State → Except FaultKind State}
    (hh : ∀ v t, Carried tf iflag (h (v, t)) (h' (v, t.withTfIf tf iflag))) :
    Carried tf iflag (pop w s >>= h) (pop w (s.withTfIf tf iflag) >>= h') := by
  by_cases hb : s.inBounds s.regs.esp w.bytes
  · rw [pop_ok hb, pop_ok (s := s.withTfIf tf iflag) hb]; exact hh _ _
  · rw [pop_error hb, pop_error (s := s.withTfIf tf iflag) hb]; rfl

/-! ### The flag engine -/

/-- A computation of a result and flags that carries TF and IF through. -/
def FlagsCarried {n : Nat} (f : Flags → BitVec n → BitVec n × Flags) : Prop :=
  ∀ g a tf iflag, f (g.withTfIf tf iflag) a = ((f g a).1, (f g a).2.withTfIf tf iflag)

theorem AluOp.apply_carried {n : Nat} (op : AluOp) (b : BitVec n) : FlagsCarried fun g a => op.apply g a b := by
  intro g a tf iflag
  cases op <;> rfl

/-! ### The shared handlers -/

theorem alu_carried (op : AluOp) (dst src : Operand w) :
    Carried tf iflag (alu op dst src s) (alu op dst src (s.withTfIf tf iflag)) := by
  simp only [alu, readOp_withTfIf, State.withTfIf_flags]
  refine .bind _ fun a => .bind _ fun b => ?_
  simp only [AluOp.apply_carried op b s.flags a]
  exact .ite rfl (writeOp_carried (s.withFlags _) tf iflag dst _)

theorem modify_carried (dst : Operand w) {f : Flags → BitVec w.bits → BitVec w.bits × Flags} (hf : FlagsCarried f) :
    Carried tf iflag (modify dst f s) (modify dst f (s.withTfIf tf iflag)) := by
  simp only [modify, readOp_withTfIf, State.withTfIf_flags]
  refine .bind _ fun a => ?_
  simp only [hf s.flags a]
  exact writeOp_carried (s.withFlags _) tf iflag dst _

theorem increment_carried (dst : Operand w) :
    Carried tf iflag (increment dst s) (increment dst (s.withTfIf tf iflag)) :=
  modify_carried s tf iflag dst fun _ _ _ _ => rfl

theorem decrement_carried (dst : Operand w) :
    Carried tf iflag (decrement dst s) (decrement dst (s.withTfIf tf iflag)) :=
  modify_carried s tf iflag dst fun _ _ _ _ => rfl

theorem negate_carried (dst : Operand w) : Carried tf iflag (negate dst s) (negate dst (s.withTfIf tf iflag)) :=
  modify_carried s tf iflag dst fun _ _ _ _ => rfl

theorem complement_carried (dst : Operand w) :
    Carried tf iflag (complement dst s) (complement dst (s.withTfIf tf iflag)) := by
  simp only [complement, readOp_withTfIf]
  exact .bind _ fun a => writeOp_carried s tf iflag dst _

theorem test_carried (op1 op2 : Operand w) :
    Carried tf iflag (test op1 op2 s) (test op1 op2 (s.withTfIf tf iflag)) := by
  simp only [test, readOp_withTfIf]
  exact .bind _ fun a => .bind _ fun b => rfl

theorem move_carried (dst src : Operand w) :
    Carried tf iflag (move dst src s) (move dst src (s.withTfIf tf iflag)) := by
  simp only [move, readOp_withTfIf]
  exact .bind _ fun v => writeOp_carried s tf iflag dst v

theorem moveZeroExtend_carried {ws : Width} (r : Reg) (src : Operand ws) :
    Carried tf iflag (moveZeroExtend w r src s) (moveZeroExtend w r src (s.withTfIf tf iflag)) := by
  simp only [moveZeroExtend, readOp_withTfIf]
  exact .bind _ fun v => rfl

theorem moveSignExtend_carried {ws : Width} (r : Reg) (src : Operand ws) :
    Carried tf iflag (moveSignExtend w r src s) (moveSignExtend w r src (s.withTfIf tf iflag)) := by
  simp only [moveSignExtend, readOp_withTfIf]
  exact .bind _ fun v => rfl

theorem exchange_carried (op1 op2 : Operand w) :
    Carried tf iflag (exchange op1 op2 s) (exchange op1 op2 (s.withTfIf tf iflag)) := by
  simp only [exchange, readOp_withTfIf]
  exact .bind _ fun a => .bind _ fun b => (writeOp_carried s tf iflag op1 b).then fun t =>
    writeOp_carried t tf iflag op2 a

theorem mulAcc_carried (src : Operand w) : Carried tf iflag (mulAcc src s) (mulAcc src (s.withTfIf tf iflag)) := by
  simp only [mulAcc, readOp_withTfIf]
  exact .bind _ fun b => rfl

theorem imulAcc_carried (src : Operand w) : Carried tf iflag (imulAcc src s) (imulAcc src (s.withTfIf tf iflag)) := by
  simp only [imulAcc, readOp_withTfIf]
  exact .bind _ fun b => rfl

theorem imulTo_carried (r : Reg) (src1 src2 : Operand w) :
    Carried tf iflag (imulTo r src1 src2 s) (imulTo r src1 src2 (s.withTfIf tf iflag)) := by
  simp only [imulTo, readOp_withTfIf]
  exact .bind _ fun a => .bind _ fun b => rfl

theorem readPair_withTfIf : readPair w (s.withTfIf tf iflag) = readPair w s := rfl

theorem divide_carried (src : Operand w) : Carried tf iflag (divide src s) (divide src (s.withTfIf tf iflag)) := by
  simp only [divide, readOp_withTfIf, readPair_withTfIf]
  exact .bind _ fun b => .ite (.error _) (.ite (.error _) rfl)

theorem idivide_carried (src : Operand w) : Carried tf iflag (idivide src s) (idivide src (s.withTfIf tf iflag)) := by
  simp only [idivide, readOp_withTfIf, readPair_withTfIf]
  exact .bind _ fun b => .ite (.error _) (.ite rfl (.error _))

theorem shift_carried (op : ShiftOp) (dst : Operand w) (count : Byte) :
    Carried tf iflag (shift op dst count s) (shift op dst count (s.withTfIf tf iflag)) := by
  simp only [shift, readOp_withTfIf]
  exact .bind _ fun a => .ite rfl ((writeOp_carried (s.withFlags _) tf iflag dst _).then fun _ => rfl)

theorem jumpIf_carried (c : Cond) (rel : Word) :
    Carried tf iflag (jumpIf c rel s) (jumpIf c rel (s.withTfIf tf iflag)) := by
  have hc : c.holds (s.withTfIf tf iflag).flags = c.holds s.flags := by cases c <;> rfl
  refine .ok ?_
  rw [hc]
  split <;> rfl

theorem jumpVia_carried (op : Operand .dword) :
    Carried tf iflag (jumpVia op s) (jumpVia op (s.withTfIf tf iflag)) := by
  simp only [jumpVia, readOp_withTfIf]
  exact .bind _ fun t => rfl

theorem callTo_carried (target : Word) : Carried tf iflag (callTo target s) (callTo target (s.withTfIf tf iflag)) :=
  (push_carried s tf iflag (w := .dword) s.eip).then fun _ => rfl

theorem callVia_carried (op : Operand .dword) :
    Carried tf iflag (callVia op s) (callVia op (s.withTfIf tf iflag)) := by
  simp only [callVia, readOp_withTfIf]
  exact .bind _ fun t => callTo_carried s tf iflag t

theorem returnNear_carried : Carried tf iflag (returnNear s) (returnNear (s.withTfIf tf iflag)) :=
  pop_carried s tf iflag fun _ _ => rfl

theorem returnAdjust_carried (imm : BitVec 16) :
    Carried tf iflag (returnAdjust imm s) (returnAdjust imm (s.withTfIf tf iflag)) :=
  pop_carried s tf iflag fun _ _ => rfl

theorem pushFrom_carried (op : Operand w) : Carried tf iflag (pushFrom op s) (pushFrom op (s.withTfIf tf iflag)) := by
  simp only [pushFrom, readOp_withTfIf]
  exact .bind _ fun v => push_carried s tf iflag v

theorem popTo_carried {dst : State → Operand w} (hd : ∀ t, dst (t.withTfIf tf iflag) = dst t) :
    Carried tf iflag (popTo w dst s) (popTo w dst (s.withTfIf tf iflag)) := by
  refine pop_carried s tf iflag fun v t => ?_
  simp only [hd]
  exact writeOp_carried t tf iflag _ v

theorem leaveFrame_carried : Carried tf iflag (leaveFrame w s) (leaveFrame w (s.withTfIf tf iflag)) :=
  pop_carried (s.regWrite .esp .dword s.regs.ebp) tf iflag fun _ _ => rfl

theorem moveElement_carried : Carried tf iflag (moveElement w s) (moveElement w (s.withTfIf tf iflag)) :=
  .bind _ fun v => (memWrite_carried s tf iflag _ v).then fun _ => rfl

theorem sysRead_carried : Carried tf iflag (sysRead s) (sysRead (s.withTfIf tf iflag)) := by
  cases hf : Fd.ofWord? s.regs.ebx with
  | none => rw [sysRead_badFd hf, sysRead_badFd (s := s.withTfIf tf iflag) hf]; rfl
  | some fd =>
    by_cases hb : s.inBounds s.regs.ecx s.regs.edx.toNat
    · cases ha : (s.hostRead fd s.regs.edx.toNat).1 with
      | ioError => rw [sysRead_ioError hf hb ha, sysRead_ioError (s := s.withTfIf tf iflag) hf hb ha]; rfl
      | data bs => rw [sysRead_data hf hb ha, sysRead_data (s := s.withTfIf tf iflag) hf hb ha]; rfl
    · rw [sysRead_bounds hf hb, sysRead_bounds (s := s.withTfIf tf iflag) hf hb]; rfl

theorem sysWrite_carried : Carried tf iflag (sysWrite s) (sysWrite (s.withTfIf tf iflag)) := by
  cases hf : Fd.ofWord? s.regs.ebx with
  | none => rw [sysWrite_badFd hf, sysWrite_badFd (s := s.withTfIf tf iflag) hf]; rfl
  | some fd =>
    by_cases hb : s.inBounds s.regs.ecx s.regs.edx.toNat
    · cases ha : (s.hostWrite fd (s.mem.readBytes s.regs.ecx.toNat s.regs.edx.toNat)).1 with
      | ok => rw [sysWrite_ok hf hb ha, sysWrite_ok (s := s.withTfIf tf iflag) hf hb ha]; rfl
      | ioError => rw [sysWrite_ioError hf hb ha, sysWrite_ioError (s := s.withTfIf tf iflag) hf hb ha]; rfl
    · rw [sysWrite_bounds hf hb, sysWrite_bounds (s := s.withTfIf tf iflag) hf hb]; rfl

theorem syscallGate_carried : Carried tf iflag (syscallGate s) (syscallGate (s.withTfIf tf iflag)) := by
  simp only [syscallGate, State.withTfIf_regs]
  split
  · rfl
  · exact sysRead_carried s tf iflag
  · exact sysWrite_carried s tf iflag
  · rfl

/-- The loop of a rep string move ends after the same elements with the same fault. -/
theorem moveElements_withTfIf (w : Width) (n : Nat) :
    moveElements w n (s.withTfIf tf iflag) =
      ((moveElements w n s).1.withTfIf tf iflag, (moveElements w n s).2) := by
  induction n generalizing s with
  | zero => rfl
  | succ n ih =>
    have hm : moveElement w (s.withTfIf tf iflag) = (moveElement w s).map (·.withTfIf tf iflag) :=
      moveElement_carried s tf iflag
    simp only [moveElements, hm]
    cases moveElement w s with
    | error k => rfl
    | ok t => exact ih (t.regWrite .ecx .dword (s.regs.ecx - 1))

end operations

/-! ### Instructions -/

/-- Other values of TF and IF go through the instruction as they are, and decide nothing else of its next state. -/
def Ignores (i : Instr) (s : State) : Prop :=
  ∀ tf iflag, ∃ t, exec i s = .next t ∧ exec i (s.withTfIf tf iflag) = .next (t.withTfIf tf iflag)

theorem ignores_of_handler {i : Instr} {s : State} {handler : State → Except FaultKind State}
    (he : ∀ u, exec i u = complete i handler u)
    (hh : ∀ u tf iflag, Carried tf iflag (handler u) (handler (u.withTfIf tf iflag))) : Ignores i s := by
  intro tf iflag
  have hn := hh (s.atNext i) tf iflag
  rw [he, he]
  cases h : handler (s.atNext i) with
  | ok t => rw [h] at hn; exact ⟨t, complete_ok h, complete_ok hn⟩
  | error k => rw [h] at hn; exact ⟨s.raise k, complete_error h, complete_error hn⟩

theorem ignores_repMovs (w : Width) (p : Prefixes) (s : State) : Ignores (Width.repMovs w p) s := by
  intro tf iflag
  have hx (u : State) : exec (Width.repMovs w p) u = repeatMove w (Width.repMovs w p) u := by cases w <;> rfl
  rw [hx, hx, repeatMove, repeatMove, State.withTfIf_regs, moveElements_withTfIf]
  rcases moveElements w s.regs.ecx.toNat s with ⟨t, _ | k⟩
  · exact ⟨_, rfl, rfl⟩
  · exact ⟨_, rfl, rfl⟩

/-- Every instruction but CLI and STI ignores TF and IF. The operands in the handler are the same for both values: they
are evaluated from the registers alone. -/
theorem exec_ignores (i : Instr) (s : State) (hc : ∀ p, i ≠ .cli p) (hs : ∀ p, i ≠ .sti p) : Ignores i s := by
  cases i
  case cli p => exact absurd rfl (hc p)
  case sti p => exact absurd rfl (hs p)
  case repMovsb p => exact ignores_repMovs .byte p s
  case repMovsw p => exact ignores_repMovs .word p s
  case repMovsd p => exact ignores_repMovs .dword p s
  all_goals refine ignores_of_handler (fun _ => by rw [exec]; rfl) fun _ _ _ => ?_
  case addEbGb | addEvGv | addGbEb | addGvEv | addAlIb | addEaxIz | addEbIb | addEvIz | addEvIb
      | orEbGb | orEvGv | orGbEb | orGvEv | orAlIb | orEaxIz | orEbIb | orEvIz | orEvIb
      | adcEbGb | adcEvGv | adcGbEb | adcGvEv | adcAlIb | adcEaxIz | adcEbIb | adcEvIz | adcEvIb
      | sbbEbGb | sbbEvGv | sbbGbEb | sbbGvEv | sbbAlIb | sbbEaxIz | sbbEbIb | sbbEvIz | sbbEvIb
      | andEbGb | andEvGv | andGbEb | andGvEv | andAlIb | andEaxIz | andEbIb | andEvIz | andEvIb
      | subEbGb | subEvGv | subGbEb | subGvEv | subAlIb | subEaxIz | subEbIb | subEvIz | subEvIb
      | xorEbGb | xorEvGv | xorGbEb | xorGvEv | xorAlIb | xorEaxIz | xorEbIb | xorEvIz | xorEvIb
      | cmpEbGb | cmpEvGv | cmpGbEb | cmpGvEv | cmpAlIb | cmpEaxIz | cmpEbIb | cmpEvIz | cmpEvIb =>
    exact alu_carried ..
  case incR | incEb | incEv =>
    exact increment_carried ..
  case decR | decEb | decEv =>
    exact decrement_carried ..
  case negEb | negEv => exact negate_carried ..
  case notEb | notEv => exact complement_carried ..
  case testEbGb | testEvGv | testAlIb | testEaxIz | testEbIb | testEvIz =>
    exact test_carried ..
  case movEbGb | movEvGv | movGbEb | movGvEv | movAlOb | movEaxOv | movObAl | movOvEax | movRbIb | movRvIz | movEbIb
      | movEvIz | movsxdGvEv =>
    exact move_carried ..
  case movzxGvEb | movzxGvEw =>
    exact moveZeroExtend_carried ..
  case movsxGvEb | movsxGvEw =>
    exact moveSignExtend_carried ..
  case xchgEbGb | xchgEvGv | xchgEaxR =>
    exact exchange_carried ..
  case mulEb | mulEv => exact mulAcc_carried ..
  case imulEb | imulEv => exact imulAcc_carried ..
  case imulGvEv | imulGvEvIz | imulGvEvIb =>
    exact imulTo_carried ..
  case divEb | divEv => exact divide_carried ..
  case idivEb | idivEv => exact idivide_carried ..
  case shlEbIb | shlEvIb | shlEb1 | shlEv1 | shlEbCl | shlEvCl | shrEbIb | shrEvIb | shrEb1 | shrEv1 | shrEbCl
      | shrEvCl | sarEbIb | sarEvIb | sarEb1 | sarEv1 | sarEbCl | sarEvCl =>
    exact shift_carried ..
  case joRel8 | jnoRel8 | jbRel8 | jaeRel8 | jeRel8 | jneRel8 | jbeRel8 | jaRel8 | jsRel8 | jnsRel8 | jpRel8 | jnpRel8
      | jlRel8 | jgeRel8 | jleRel8 | jgRel8 | joRel32 | jnoRel32 | jbRel32 | jaeRel32 | jeRel32 | jneRel32 | jbeRel32
      | jaRel32 | jsRel32 | jnsRel32 | jpRel32 | jnpRel32 | jlRel32 | jgeRel32 | jleRel32 | jgRel32 =>
    exact jumpIf_carried ..
  case jmpEv => exact jumpVia_carried ..
  case callRel32 => exact callTo_carried ..
  case callEv => exact callVia_carried ..
  case ret => exact returnNear_carried ..
  case retIw => exact returnAdjust_carried ..
  case pushR | pushIz | pushIb =>
    exact push_carried ..
  case pushEv => exact pushFrom_carried ..
  case popR | popEv =>
    exact popTo_carried _ _ _ fun _ => rfl
  case leave => exact leaveFrame_carried ..
  case movsb | movsw | movsd =>
    exact moveElement_carried ..
  case int80 => exact syscallGate_carried ..
  case nop | cmc | clc | stc | cld | std | jmpRel8 | jmpRel32 | leaGvM | cwde | cbw | cdq | cwd =>
    exact .ok rfl

/-- An instruction that ignores IF keeps it: its own values of TF and IF go through as well. -/
theorem Ignores.keeps_if {i : Instr} {s t : State} (h : Ignores i s) (he : exec i s = .next t) :
    t.flags.IF = s.flags.IF := by
  obtain ⟨u, hu, hu'⟩ := h s.flags.TF s.flags.IF
  cases hu.symm.trans he
  have ht := he.symm.trans hu'
  injection ht with ht
  exact congrArg (·.flags.IF) ht

/-- What TF and IF decide of an instruction's next state: TF itself, and IF where the instruction does not write it. -/
theorem exec_withTfIf (i : Instr) (s : State) (tf iflag : Bool) :
    ∃ t g, exec i s = .next t ∧ exec i (s.withTfIf tf iflag) = .next (t.withTfIf tf g) ∧
      (g = t.flags.IF ∨ (g = iflag ∧ t.flags.IF = s.flags.IF)) := by
  by_cases hc : ∃ p, i = .cli p
  · obtain ⟨p, rfl⟩ := hc
    exact ⟨_, false, rfl, rfl, .inl rfl⟩
  by_cases hs : ∃ p, i = .sti p
  · obtain ⟨p, rfl⟩ := hs
    exact ⟨_, true, rfl, rfl, .inl rfl⟩
  have h := exec_ignores i s (fun p e => hc ⟨p, e⟩) (fun p e => hs ⟨p, e⟩)
  obtain ⟨t, ht, hu⟩ := h tf iflag
  exact ⟨t, iflag, ht, hu, .inr ⟨rfl, h.keeps_if ht⟩⟩

/-! ### The step -/

/-- The fetch reads EIP and the memory alone. -/
theorem fetchDecode_withTfIf (s : State) (tf iflag : Bool) : (s.withTfIf tf iflag).fetchDecode = s.fetchDecode :=
  rfl

/-- What TF and IF decide of a step. -/
theorem step_withTfIf (s : State) (tf iflag : Bool) :
    (∃ t g, step s = .next t ∧ step (s.withTfIf tf iflag) = .next (t.withTfIf tf g) ∧
      (g = t.flags.IF ∨ (g = iflag ∧ t.flags.IF = s.flags.IF))) ∨
    (∃ a, step s = .fault a ∧ step (s.withTfIf tf iflag) = .fault a) := by
  have hrun : (s.withTfIf tf iflag).run = s.run := rfl
  rw [step, step, hrun, fetchDecode_withTfIf]
  cases s.run with
  | halted => exact .inr ⟨_, rfl, rfl⟩
  | running =>
    rcases s.fetchDecode with (k | _) | i
    · exact .inl ⟨s.raise k, iflag, rfl, rfl, .inr ⟨rfl, rfl⟩⟩
    · exact .inl ⟨s, iflag, rfl, rfl, .inr ⟨rfl, rfl⟩⟩
    · exact .inl (exec_withTfIf i s tf iflag)

/-- Settles O59: no read, no flag computation and no fetch sees TF or IF, so both go through a step as they are, but where
CLI or STI writes IF. -/
theorem trapAndInterruptFlagsHaveNoEffect : Obligations.TrapAndInterruptFlagsHaveNoEffect := by
  intro s tf iflag
  have h := step_withTfIf s tf iflag
  rw [State.withTfIf, Flags.withTfIf] at h
  obtain ⟨t, g, h1, h2, hg⟩ | ⟨a, h1, h2⟩ := h
  · rw [h1, h2]
    exact ⟨rfl, rfl, hg⟩
  · rw [h1, h2]

end Sys2Proof.Machine
end

section
/-! PROOF. Every well-formed instruction decodes from its encoding (30_encoding.md R120, R121), so a step runs the
instruction whose encoding stands at EIP (R180). -/

namespace Sys2Proof

section shapes
variable {p : Prefixes} {u : Nat} {e : Option Word} (rest : List Byte)

theorem decodeEntry_plain {mk : Prefixes → Instr} {i : Instr} (hi : mk p = i) :
    decodeEntry p (.plain mk) ⟨u, e, [] ++ ([] ++ rest)⟩ = .ok (i, ⟨u, e, rest⟩) := hi ▸ rfl

theorem decodeEntry_near (mk : Prefixes → Instr) (hp : p.hasOpsize = false) :
    decodeEntry p (.near mk) ⟨u, e, [] ++ ([] ++ rest)⟩ = .ok (mk p, ⟨u, e, rest⟩) := by
  rw [decodeEntry, hp]
  rfl

theorem decodeEntry_strings {mk : Prefixes → Instr} {i : Instr} (hp : p.hasAddrsize = false) (hi : mk p = i) :
    decodeEntry p (.strings mk) ⟨u, e, [] ++ ([] ++ rest)⟩ = .ok (i, ⟨u, e, rest⟩) := by
  rw [decodeEntry, hp, ← hi]
  rfl

theorem decodeEntry_vector (mk : Prefixes → Instr) :
    decodeEntry p (.vector mk) ⟨u, e, [0x80] ++ ([] ++ rest)⟩ = .ok (mk p, ⟨u + 1, e, rest⟩) := by
  simp only [decodeEntry, List.singleton_append, List.nil_append, Stream.fetchByte_cons, bind, Except.bind, if_true]

end shapes

theorem nearOk_iff {p : Prefixes} : nearOk p = true ↔ p.hasOpsize = false := by simp [nearOk]

theorem addrOk_iff {p : Prefixes} : addrOk p = true ↔ p.hasAddrsize = false := by simp [addrOk]

/-- An instruction with a one-byte opcode, laid out as the encoder does, decodes if its entry does. -/
theorem decode_of_primary {i : Instr} {p : Prefixes} {b : Byte} {n : Nat} {operand immediate rest : List Byte}
    (he : encode i = layout p [b] operand immediate) (hb : b ≠ 0x0F) (hp : Prefix.ofByte? b = none)
    (h : decodeEntry p (primary b) ⟨p.length + 1, none, operand ++ (immediate ++ rest)⟩ = .ok (i, ⟨n, none, rest⟩)) :
    decode (encode i ++ rest) = .ok (i, rest) := by
  rw [he]
  exact decodeAt_one hb hp h

/-- The same for a two-byte opcode. -/
theorem decode_of_secondary {i : Instr} {p : Prefixes} {b : Byte} {n : Nat} {operand immediate rest : List Byte}
    (he : encode i = layout p [0x0F, b] operand immediate)
    (h : decodeEntry p (secondary b) ⟨p.length + 2, none, operand ++ (immediate ++ rest)⟩ = .ok (i, ⟨n, none, rest⟩)) :
    decode (encode i ++ rest) = .ok (i, rest) := by
  rw [he]
  exact decodeAt_two h

/-- Every well-formed instruction decodes from its encoding: one case per shape of entry of the opcode maps. -/
theorem decode_encode (i : Instr) (rest : List Byte) (h : i.wf = true) : decode (encode i ++ rest) = .ok (i, rest) := by
  cases i
  case addEbGb | addEvGv | addGbEb | addGvEv | orEbGb | orEvGv | orGbEb | orGvEv | adcEbGb | adcEvGv | adcGbEb | adcGvEv
      | sbbEbGb | sbbEvGv | sbbGbEb | sbbGvEv | andEbGb | andEvGv | andGbEb | andGvEv | subEbGb | subEvGv | subGbEb
      | subGvEv | xorEbGb | xorEvGv | xorGbEb | xorGvEv | cmpEbGb | cmpEvGv | cmpGbEb | cmpGvEv | movsxdGvEv | testEbGb
      | testEvGv | xchgEbGb | xchgEvGv | movEbGb | movEvGv | movGbEb | movGvEv =>
    exact decode_of_primary rfl (by decide) rfl (decodeEntry_rmReg rest _ _ h rfl)
  case imulGvEv | movzxGvEb | movzxGvEw | movsxGvEb | movsxGvEw =>
    exact decode_of_secondary rfl (decodeEntry_rmReg rest _ _ h rfl)
  case imulGvEvIb => exact decode_of_primary rfl (by decide) rfl (decodeEntry_rmReg8 rest _ _ _ h rfl)
  case imulGvEvIz =>
    obtain ⟨hrm, himm⟩ := Bool.and_eq_true_iff.mp h
    exact decode_of_primary rfl (by decide) rfl (decodeEntry_rmRegZ rest _ _ hrm himm rfl)
  case leaGvM =>
    obtain ⟨ha, hp⟩ := Bool.and_eq_true_iff.mp h
    exact decode_of_primary rfl (by decide) rfl (decodeEntry_lea rest _ _ ha (addrOk_iff.mp hp) rfl)
  case popEv | shlEb1 | shlEv1 | shlEbCl | shlEvCl | shrEb1 | shrEv1 | shrEbCl | shrEvCl | sarEb1 | sarEv1 | sarEbCl
      | sarEvCl | notEb | notEv | negEb | negEv | mulEb | mulEv | imulEb | imulEv | divEb | divEv | idivEb | idivEv
      | incEb | decEb | incEv | decEv | pushEv =>
    exact decode_of_primary rfl (by decide) rfl (decodeEntry_groupRM rest rfl h rfl)
  case callEv | jmpEv =>
    obtain ⟨hrm, hp⟩ := Bool.and_eq_true_iff.mp h
    exact decode_of_primary rfl (by decide) rfl (decodeEntry_groupNear rest rfl hrm (nearOk_iff.mp hp) rfl)
  case addEbIb | addEvIb | orEbIb | orEvIb | adcEbIb | adcEvIb | sbbEbIb | sbbEvIb | andEbIb | andEvIb | subEbIb | subEvIb
      | xorEbIb | xorEvIb | cmpEbIb | cmpEvIb | shlEbIb | shlEvIb | shrEbIb | shrEvIb | sarEbIb | sarEvIb | movEbIb
      | testEbIb =>
    exact decode_of_primary rfl (by decide) rfl (decodeEntry_group8 rest rfl _ h rfl)
  case addEvIz | orEvIz | adcEvIz | sbbEvIz | andEvIz | subEvIz | xorEvIz | cmpEvIz | movEvIz | testEvIz =>
    obtain ⟨hrm, himm⟩ := Bool.and_eq_true_iff.mp h
    exact decode_of_primary rfl (by decide) rfl (decodeEntry_groupZ rest rfl hrm himm rfl)
  case addAlIb | orAlIb | adcAlIb | sbbAlIb | andAlIb | subAlIb | xorAlIb | cmpAlIb | pushIb | testAlIb =>
    exact decode_of_primary rfl (by decide) rfl (decodeEntry_imm8 rest _ _)
  case addEaxIz | orEaxIz | adcEaxIz | sbbEaxIz | andEaxIz | subEaxIz | xorEaxIz | cmpEaxIz | pushIz | testEaxIz =>
    exact decode_of_primary rfl (by decide) rfl (decodeEntry_immZ rest _ h rfl)
  case joRel8 | jnoRel8 | jbRel8 | jaeRel8 | jeRel8 | jneRel8 | jbeRel8 | jaRel8 | jsRel8 | jnsRel8 | jpRel8 | jnpRel8
      | jlRel8 | jgeRel8 | jleRel8 | jgRel8 | jmpRel8 =>
    exact decode_of_primary rfl (by decide) rfl (decodeEntry_rel8 rest _ _ (nearOk_iff.mp h))
  case callRel32 | jmpRel32 =>
    exact decode_of_primary rfl (by decide) rfl (decodeEntry_rel32 rest _ _ (nearOk_iff.mp h) rfl)
  case joRel32 | jnoRel32 | jbRel32 | jaeRel32 | jeRel32 | jneRel32 | jbeRel32 | jaRel32 | jsRel32 | jnsRel32 | jpRel32
      | jnpRel32 | jlRel32 | jgeRel32 | jleRel32 | jgRel32 =>
    exact decode_of_secondary rfl (decodeEntry_rel32 rest _ _ (nearOk_iff.mp h) rfl)
  case retIw => exact decode_of_primary rfl (by decide) rfl (decodeEntry_near16 rest _ _ (nearOk_iff.mp h) rfl)
  case ret => exact decode_of_primary rfl (by decide) rfl (decodeEntry_near rest _ (nearOk_iff.mp h))
  case movAlOb | movEaxOv | movObAl | movOvEax =>
    exact decode_of_primary rfl (by decide) rfl (decodeEntry_moffs rest _ _ (addrOk_iff.mp h) rfl)
  case int80 => exact decode_of_primary rfl (by decide) rfl (decodeEntry_vector rest _)
  case nop | leave | cmc | clc | stc | cli | sti | cld | std =>
    exact decode_of_primary rfl (by decide) rfl (decodeEntry_plain rest rfl)
  case cwde | cdq =>
    exact decode_of_primary rfl (by decide) rfl (decodeEntry_plain rest (if_neg (by simpa using nearOk_iff.mp h)))
  case cbw | cwd => exact decode_of_primary rfl (by decide) rfl (decodeEntry_plain rest (if_pos h))
  case movsb p =>
    obtain ⟨ha, hr⟩ := Bool.and_eq_true_iff.mp h
    exact decode_of_primary rfl (by decide) rfl
      (decodeEntry_strings rest (addrOk_iff.mp ha) (if_neg (by simpa using hr)))
  case repMovsb p =>
    obtain ⟨ha, hr⟩ := Bool.and_eq_true_iff.mp h
    exact decode_of_primary rfl (by decide) rfl (decodeEntry_strings rest (addrOk_iff.mp ha) (if_pos hr))
  case movsd p | movsw p | repMovsd p | repMovsw p =>
    obtain ⟨har, ho⟩ := Bool.and_eq_true_iff.mp h
    obtain ⟨ha, hr⟩ := Bool.and_eq_true_iff.mp har
    exact decode_of_primary rfl (by decide) rfl
      (decodeEntry_strings (mk := stringMove) rest (addrOk_iff.mp ha) (by simp_all [stringMove]))
  case incR p r | decR p r | pushR p r | popR p r =>
    cases r <;> exact decode_of_primary rfl (by decide) rfl (decodeEntry_plain rest rfl)
  case xchgEaxR p r =>
    cases r
    case eax => exact absurd h Bool.false_ne_true
    all_goals exact decode_of_primary rfl (by decide) rfl (decodeEntry_plain rest rfl)
  case movRbIb p r v => cases r <;> exact decode_of_primary rfl (by decide) rfl (decodeEntry_imm8 rest _ _)
  case movRvIz p r v => cases r <;> exact decode_of_primary rfl (by decide) rfl (decodeEntry_immZ rest _ h rfl)

end Sys2Proof

namespace Sys2Proof.Machine

/-- A running machine executes what it fetches. -/
theorem step_of_fetchDecode {s : State} {i : Instr} (hr : s.run = .running) (hf : s.fetchDecode = .ok i) :
    step s = exec i s := by
  simp only [step, hr, hf]

/-- Settles O11: the bytes at EIP decode to the instruction (`decode_encode`), in a full memory where they lie, and the
fetch answers what they decode to. -/
theorem stepRunsTheDecodedInstruction : Obligations.StepRunsTheDecodedInstruction := by
  intro s i hr hw
  refine ⟨fun ⟨hm, hlen, hbytes⟩ => ?_, fun hm hround hd => ?_⟩
  · have hd : decode (encode i) = .ok (i, []) := by simpa using decode_encode i [] hw
    exact step_of_fetchDecode hr (fetchDecode_ok hm hd hlen hbytes)
  · rw [← hround, bytesRound_eq hm] at hd
    exact step_of_fetchDecode hr (fetchDecode_round hm hd)

end Sys2Proof.Machine
end

section
/-! PROOF. Memory: what is read is what was stored, byte by byte, inside the bounds and nowhere else (20_memory.md R82 to
R87, 60_exceptions.md R522). -/

namespace Sys2Proof

/-- Byte `k` of a number is the number shifted by `k` bytes (20_memory.md R85). -/
theorem leBytes_eq_map (n v : Nat) : leBytes n v = (List.range n).map fun k => BitVec.ofNat 8 (v / 256 ^ k) := by
  induction n generalizing v with
  | zero => rfl
  | succ n ih =>
    simp only [leBytes, ih, List.range_succ_eq_map, List.map_cons, List.map_map, Nat.pow_zero, Nat.div_one,
      Function.comp_def, Nat.succ_eq_add_one, Nat.pow_succ', Nat.div_div_eq_div_mul]

/-- The bits from byte `j` up, as a number (R87). -/
theorem ofNat_div_pow {m : Nat} (v : BitVec m) (j n : Nat) :
    BitVec.ofNat n (v.toNat / 256 ^ j) = v.extractLsb' (8 * j) n := by
  apply BitVec.eq_of_toNat_eq
  rw [BitVec.toNat_ofNat, BitVec.extractLsb'_toNat, Nat.shiftRight_eq_div_pow, Nat.pow_mul]

theorem Width.pow_bytes (w : Width) : 256 ^ w.bytes = 2 ^ w.bits := by cases w <;> rfl

end Sys2Proof

namespace Sys2Proof.Machine

/-! ### Bytes in bounds and out -/

theorem Memory.readBytes_eq_map (m : Memory) (a n : Nat) :
    m.readBytes a n = (List.range n).map fun k => m.read (a + k) := by
  induction n generalizing a with
  | zero => rfl
  | succ n ih =>
    simp only [Memory.readBytes, ih, List.range_succ_eq_map, List.map_cons, List.map_map, Nat.add_zero,
      Function.comp_def, Nat.succ_eq_add_one, Nat.add_comm 1, Nat.add_assoc]

/-- Settles O21: an access in bounds and one out of bounds have one equation each. -/
theorem memoryAccessIsBoundsChecked : Obligations.MemoryAccessIsBoundsChecked := by
  intro s a hw
  refine ⟨fun n => ⟨fun h => ?_, fun h => State.getBytes_error (Nat.not_le.mpr h)⟩,
    fun bs => ⟨fun h => ?_, fun h => State.setBytes_error (Nat.not_le.mpr h)⟩⟩
  · rw [State.getBytes_ok h, Memory.readBytes_eq_map]
  · exact ⟨_, State.setBytes_ok h, Memory.wf_writeBytes hw h, Memory.writeBytes_size ..,
      Memory.read_writeBytes hw h⟩

/-! ### Little-endian values -/

/-- R84, as a sum. -/
theorem Memory.leValue_readBytes (m : Memory) (a n : Nat) :
    leValue (m.readBytes a n) = ((List.range n).map fun k => (m.read (a + k)).toNat * 2 ^ (8 * k)).sum := by
  induction n generalizing a with
  | zero => rfl
  | succ n ih =>
    rw [Memory.readBytes, leValue, ih, List.range_succ_eq_map, List.map_cons, List.sum_cons, List.map_map,
      ← List.sum_map_mul_left]
    congr 3
    · simp
    · funext k
      simp only [Function.comp_apply, Nat.succ_eq_add_one, Nat.add_comm 1, Nat.add_assoc, Nat.mul_add, Nat.pow_add]
      ring

theorem State.peek_toNat (s : State) (a : Word) (w : Width) :
    (s.peek a w).toNat = leValue (s.mem.readBytes a.toNat w.bytes) := by
  have h := leValue_lt (s.mem.readBytes a.toNat w.bytes)
  rw [Memory.readBytes_length, Width.pow_bytes] at h
  rw [State.peek, BitVec.toNat_ofNat, Nat.mod_eq_of_lt h]

/-- Byte `k` of a stored value (R85). -/
theorem State.poke_read {s : State} (hw : s.mem.wf) {a : Word} {w : Width} (v : BitVec w.bits)
    (h : s.inBounds a w.bytes) {k : Nat} (hk : k < w.bytes) :
    (s.poke a w v).mem.read (a.toNat + k) = BitVec.ofNat 8 (v.toNat / 256 ^ k) := by
  rw [State.poke_mem, Memory.read_writeBytes hw (by rwa [leBytes_length]), leBytes_length, if_pos (by omega),
    Nat.add_sub_cancel_left, leBytes_getD _ _ _ hk]

/-- A narrower read inside a stored value sees the bits that lie there (R87). -/
theorem State.peek_poke_inside {s : State} (hw : s.mem.wf) {a b : Word} {w u : Width} (v : BitVec w.bits)
    (h : s.inBounds a w.bytes) {j : Nat} (hb : b.toNat = a.toNat + j) (hj : j + u.bytes ≤ w.bytes) :
    (s.poke a w v).peek b u = v.extractLsb' (8 * j) u.bits := by
  have hr : (s.poke a w v).mem.readBytes b.toNat u.bytes = leBytes u.bytes (v.toNat / 256 ^ j) := by
    rw [Memory.readBytes_eq_map, leBytes_eq_map]
    refine List.map_congr_left fun k hk => ?_
    have hk := List.mem_range.mp hk
    rw [hb, Nat.add_assoc, State.poke_read hw v h (by omega), Nat.div_div_eq_div_mul, ← Nat.pow_add]
  rw [← ofNat_div_pow]
  apply BitVec.eq_of_toNat_eq
  rw [State.peek_toNat, hr, leValue_leBytes, Width.pow_bytes, BitVec.toNat_ofNat]

/-- Settles O22: a value and its bytes determine each other, at every width and offset. -/
theorem memoryIsLittleEndian : Obligations.MemoryIsLittleEndian := by
  intro s a hw
  refine ⟨fun w h => ?_, fun w v h => ?_, fun v hs h => ?_, fun w h => ?_⟩
  · exact ⟨_, State.memRead_ok h, by rw [State.peek_toNat, Memory.leValue_readBytes]⟩
  · refine ⟨_, State.memWrite_ok v h, ?_, fun k hk => ?_, fun b => State.poke_read_outside hw v h⟩
    · rw [State.memRead_ok (by rwa [State.inBounds, State.poke_mem_size]), State.peek_poke hw v h]
    · rw [State.poke_read hw v h hk, ofNat_div_pow]
  · have read (b : Word) (u : Width) (j : Nat) (hb : b.toNat = a.toNat + j) (hj : j + u.bytes ≤ 4) :
        (s.poke a .dword v).memRead b u = .ok (v.extractLsb' (8 * j) u.bits) := by
      rw [State.memRead_ok (by rw [State.inBounds, State.poke_mem_size]; omega),
        State.peek_poke_inside (w := .dword) hw v h hb hj]
    refine ⟨_, State.memWrite_ok (w := .dword) v h, read a .byte 0 rfl (by decide), ?_, read a .word 0 rfl (by decide)⟩
    exact read (a + 1) .word 1 (by bv_omega) (by decide)
  · have hn : ¬ s.inBounds a w.bytes := Nat.not_le.mpr h
    exact ⟨State.memRead_error hn, fun v => State.memWrite_error v hn⟩

/-! ### The end of memory at a fetch -/

/-- A fault of the fetch is taken in the state before (R525). -/
theorem step_of_fetchFault {s : State} {k : FaultKind} (hr : s.run = .running)
    (hf : s.fetchDecode = .error (.fault k)) : step s = .next (s.raise k) := by
  simp only [step, hr, hf]

/-- Settles O12: the fetch that leaves memory is the one that faults, at the end of a smaller memory and at the top of a
full one. -/
theorem fetchPastTheEndFaults : Obligations.FetchPastTheEndFaults := by
  intro s used len hr
  refine ⟨fun hm hd => step_of_fetchFault hr (fetchDecode_truncated hm hd), fun hm hd hlen => ?_⟩
  rw [bytesRound_eq hm] at hd
  rw [BitVec.toNat_add, BitVec.toNat_ofNat, Nat.add_mod_mod] at hlen
  rw [← hm]
  exact step_of_fetchFault hr (fetchDecode_crossing hm hd hlen)

/-! ### What is not stored to -/

/-- Settles O54: each end of an instruction that `exec_cases` lists keeps the bytes outside its stores. -/
theorem memoryOutsideTheStoreIsKept : Obligations.MemoryOutsideTheStoreIsKept := by
  intro i s t hw he
  rcases exec_cases i s with
    ⟨u, hu, hk⟩ | ⟨k, hu, _⟩ | ⟨_, _, _, u, k, _, _, _, _, _, hu, hk⟩ | ⟨p, u, rfl, hu, hk⟩ <;> cases hu.symm.trans he
  · exact ⟨hk.size, hk.mem hw⟩
  · exact ⟨rfl, fun _ _ => rfl⟩
  · exact ⟨hk.size, hk.mem hw⟩
  · refine ⟨hk.size, fun a ha => hk.mem hw a fun h3 => ha (s.regs.ecx, s.regs.edx.toNat) ?_⟩
    rw [Instr.stores, if_pos (show s.regs.eax = 3 from h3)]
    exact one_mem

end Sys2Proof.Machine
end

section
/-! PROOF. The stack (20_memory.md R90 to R93): push, pop, call, ret and leave, each with one end where its accesses lie in
memory and one fault where they do not. -/

namespace Sys2Proof.Machine

/-! ### Handlers at the boundary -/

theorem exec_of_ok {i : Instr} {s t : State} {handler : State → Except FaultKind State}
    (he : exec i s = complete i handler s) (h : handler (s.atNext i) = .ok t) : exec i s = .next t :=
  he.trans (complete_ok h)

theorem exec_of_error {i : Instr} {s : State} {k : FaultKind} {handler : State → Except FaultKind State}
    (he : exec i s = complete i handler s) (h : handler (s.atNext i) = .error k) : exec i s = .next (s.raise k) :=
  he.trans (complete_error h)

/-- An operand blocked before an instruction is blocked where its handler runs. -/
theorem RM.blocked_atNext {rm : RM} {w : Width} {s : State} {k : FaultKind} (i : Instr)
    (h : (rm.operand w s).blocked s k) : (rm.operand w (s.atNext i)).blocked (s.atNext i) k := by
  cases rm <;> exact h

theorem RM.accessible_atNext {rm : RM} {w : Width} {s : State} (i : Instr)
    (h : (rm.operand w s).accessible s) : (rm.operand w (s.atNext i)).accessible (s.atNext i) := by
  cases rm <;> exact h

theorem RM.value_atNext (rm : RM) (w : Width) (s : State) (i : Instr) :
    (rm.operand w (s.atNext i)).value (s.atNext i) = (rm.operand w s).value s := by
  cases rm <;> rfl

/-! ### Push -/

section push
variable {p : Prefixes} {s : State} {w : Width}

/-- Each push form pushes one value, at the operand size `w`. -/
theorem exec_pushR (hp : p.osz = w) (r : Reg) :
    exec (.pushR p r) s = complete (.pushR p r) (push (s.regRead r w)) s := by subst hp; rfl

theorem exec_pushIz (hp : p.osz = w) (imm : Word) :
    exec (.pushIz p imm) s = complete (.pushIz p imm) (push (BitVec.ofNat w.bits imm.toNat)) s := by
  subst hp; rw [BitVec.ofNat_toNat]; rfl

theorem exec_pushIb (hp : p.osz = w) (imm : Byte) :
    exec (.pushIb p imm) s = complete (.pushIb p imm) (push (BitVec.ofInt w.bits imm.toInt)) s := by subst hp; rfl

theorem exec_pushEv (hp : p.osz = w) {rm : RM} (h : (rm.operand w s).accessible s) :
    exec (.pushEv p rm) s = complete (.pushEv p rm) (push ((rm.operand w s).value s)) s := by
  subst hp
  have hx := pushFrom_ok (RM.accessible_atNext (.pushEv p rm) h)
  rw [RM.value_atNext] at hx
  show complete _ _ s = _
  simp only [complete, hx]

end push

/-- Settles O44: the four forms push one value each, and a push has one equation for each end. -/
theorem pushCompletes : Obligations.PushCompletes := by
  intro p s new pushed
  refine ⟨fun h => ⟨fun r => ?_, fun imm => ?_, fun imm => ?_, fun rm hrm => ?_⟩,
    fun h => ⟨fun r => ?_, fun imm => ?_, fun imm => ?_, fun rm hrm => ?_⟩, fun rm k hk => ?_⟩
  · exact exec_of_ok (exec_pushR rfl r) (push_ok _ h)
  · exact exec_of_ok (exec_pushIz rfl imm) (push_ok _ h)
  · exact exec_of_ok (exec_pushIb rfl imm) (push_ok _ h)
  · exact exec_of_ok (exec_pushEv rfl hrm) (push_ok _ h)
  · exact exec_of_error (exec_pushR rfl r) (push_error _ h)
  · exact exec_of_error (exec_pushIz rfl imm) (push_error _ h)
  · exact exec_of_error (exec_pushIb rfl imm) (push_error _ h)
  · exact exec_of_error (exec_pushEv rfl hrm) (push_error _ h)
  · exact exec_of_error (handler := fun t => pushFrom (rm.operand p.osz t) t) rfl
      (pushFrom_error (RM.blocked_atNext _ hk))

/-! ### Pop -/

theorem exec_popR {p : Prefixes} {s : State} {w : Width} (hp : p.osz = w) (r : Reg) :
    exec (.popR p r) s = complete (.popR p r) (popTo w fun _ => .reg r) s := by subst hp; rfl

/-- Settles O45: a pop and a leave have one equation for each end. -/
theorem popAndLeaveComplete : Obligations.PopAndLeaveComplete := by
  intro p s size popped
  refine ⟨fun h => ⟨fun r => ?_, fun rm => ⟨fun hd => ?_, fun k hd => ?_⟩⟩, fun h => ⟨fun r => ?_, fun rm => ?_⟩, fun h => ?_,
    fun h => ?_⟩
  · exact exec_of_ok (exec_popR rfl r) (popTo_ok h trivial)
  · exact complete_ok (popTo_ok (s := s.atNext (.popEv p rm)) (dst := rm.operand p.osz) h hd)
  · exact complete_error (popTo_error (s := s.atNext (.popEv p rm)) (dst := rm.operand p.osz) h hd)
  · exact exec_of_error (exec_popR rfl r) (popTo_underflow h)
  · exact complete_error (popTo_underflow (s := s.atNext (.popEv p rm)) h)
  · exact complete_ok (leaveFrame_ok (s := s.atNext (.leave p)) h)
  · exact complete_error (leaveFrame_error (s := s.atNext (.leave p)) h)

/-! ### Push, then pop -/

theorem Prefixes.osz_eq_dword {p : Prefixes} (h : p.hasOpsize = false) : p.osz = .dword := by
  simp [Prefixes.osz, h]

theorem exec_popR_dword {s : State} {q : Prefixes} (hq : q.hasOpsize = false) (r : Reg) (h : s.inBounds s.regs.esp 4) :
    exec (.popR q r) s =
      .next (((s.atNext (.popR q r)).withEsp (s.regs.esp + 4)).regWrite r .dword (s.peek s.regs.esp .dword)) :=
  exec_of_ok (exec_popR (Prefixes.osz_eq_dword hq) r) (popTo_ok (w := .dword) (dst := fun _ => .reg r) h trivial)

/-- Settles O23: the pop reads the bytes the push stored, at the ESP the push set (R93). -/
theorem pushThenPopReturnsTheValue : Obligations.PushThenPopReturnsTheValue := by
  intro s i v q r hw h4 hsz hq hi
  have hin : s.inBounds (s.regs.esp - 4) 4 := by rw [State.inBounds]; bv_omega
  have hpush : exec i s = complete i (push (w := .dword) v) s := by
    rcases hi with ⟨p, x, rfl, hp, rfl⟩ | ⟨p, rfl, hp⟩ | ⟨p, imm, rfl, hp, rfl⟩ | ⟨p, rm, rfl, hp, hrm, rfl⟩
    · exact exec_pushR (Prefixes.osz_eq_dword hp) x
    · have h := exec_pushIz (s := s) (Prefixes.osz_eq_dword hp) v
      rwa [BitVec.ofNat_toNat, BitVec.setWidth_eq] at h
    · exact exec_pushIb (Prefixes.osz_eq_dword hp) imm
    · exact exec_pushEv (Prefixes.osz_eq_dword hp) hrm
  refine ⟨_, _, exec_of_ok hpush (push_ok (w := .dword) v hin), exec_popR_dword hq r ?_, ?_, fun hr => ?_⟩
  · exact le_of_le_of_eq hin (State.poke_mem_size (s.atNext i) _ .dword v).symm
  · exact (Regs.get_set_same ..).trans (State.peek_poke (s := s.atNext i) hw (w := .dword) v hin)
  · calc _ = s.regs.esp - 4 + 4 := Regs.get_set_ne _ _ (Ne.symm hr)
      _ = s.regs.esp := BitVec.sub_add_cancel ..

/-! ### Call and return -/

/-- Settles O43: a call is a push of EIP_next and a jump, a return a pop and a jump (R410 to R416). -/
theorem callAndRetComplete : Obligations.CallAndRetComplete := by
  intro p s called
  refine ⟨fun rel => ⟨fun h => ?_, fun h => ?_⟩, fun rm => ⟨fun hd h => ?_, fun hd h => ?_, fun k hd => ?_⟩,
    fun h => ⟨?_, fun imm => ?_⟩, fun h => ⟨?_, fun imm => ?_⟩⟩
  · exact complete_ok (callTo_ok (s := s.atNext (.callRel32 p rel)) _ h)
  · exact complete_error (callTo_error (s := s.atNext (.callRel32 p rel)) _ h)
  · exact complete_ok ((callVia_ok hd).trans (callTo_ok (s := s.atNext (.callEv p rm)) _ h))
  · exact complete_error ((callVia_ok hd).trans (callTo_error (s := s.atNext (.callEv p rm)) _ h))
  · exact complete_error (callVia_error hd)
  · exact complete_ok (returnNear_ok (s := s.atNext (.ret p)) h)
  · rw [BitVec.ofNat_toNat]
    exact complete_ok (returnAdjust_ok (s := s.atNext (.retIw p imm)) imm h)
  · exact complete_error (returnNear_error (s := s.atNext (.ret p)) h)
  · exact complete_error (returnAdjust_error (s := s.atNext (.retIw p imm)) imm h)

end Sys2Proof.Machine
end

section
/-! PROOF. An operand outside memory (20_memory.md R82, 60_exceptions.md R531): the first access of an instruction raises its
fault. -/

namespace Sys2Proof.Machine

/-- The first access of each instruction: its handler ends where that operand is blocked. -/
theorem exec_firstOperand_blocked {i : Instr} {s : State} {a : Addr} {w : Width} {k : FaultKind}
    (hi : i.firstOperand = some (.mem a, w)) (hb : (Operand.mem (w := w) (a.effective s)).blocked (s.atNext i) k) :
    exec i s = .next (s.raise k) := by
  cases i
  all_goals cases hi
  all_goals refine exec_of_error (by rw [exec]; rfl) ?_
  case addEbGb | addEvGv | addEbIb | addEvIz | addEvIb | orEbGb | orEvGv | orEbIb | orEvIz | orEvIb
      | adcEbGb | adcEvGv | adcEbIb | adcEvIz | adcEvIb | sbbEbGb | sbbEvGv | sbbEbIb | sbbEvIz | sbbEvIb
      | andEbGb | andEvGv | andEbIb | andEvIz | andEvIb | subEbGb | subEvGv | subEbIb | subEvIz | subEvIb
      | xorEbGb | xorEvGv | xorEbIb | xorEvIz | xorEvIb | cmpEbGb | cmpEvGv | cmpEbIb | cmpEvIz | cmpEvIb =>
    exact alu_error_dst _ hb
  case addGbEb | addGvEv | orGbEb | orGvEv | adcGbEb | adcGvEv | sbbGbEb | sbbGvEv | andGbEb | andGvEv | subGbEb | subGvEv
      | xorGbEb | xorGvEv | cmpGbEb | cmpGvEv =>
    exact alu_error _ trivial hb
  case incEb | incEv | decEb | decEv | negEb | negEv => exact modify_error _ hb
  case notEb | notEv => exact complement_error hb
  case testEbGb | testEvGv | testEbIb | testEvIz => exact test_error hb
  case movGbEb | movGvEv | movsxdGvEv | movAlOb | movEaxOv => exact move_error_src hb
  case movEbGb | movEvGv | movEbIb | movEvIz | movObAl | movOvEax => exact move_error_dst trivial hb
  case movzxGvEb | movzxGvEw => exact moveZeroExtend_error _ hb
  case movsxGvEb | movsxGvEw => exact moveSignExtend_error _ hb
  case xchgEbGb | xchgEvGv => exact exchange_error hb
  case mulEb | mulEv => exact mulAcc_error hb
  case imulEb | imulEv => exact imulAcc_error hb
  case imulGvEv => exact imulTo_error_snd _ trivial hb
  case imulGvEvIz | imulGvEvIb => exact imulTo_error_fst _ hb
  case divEb | divEv => exact divide_error hb
  case idivEb | idivEv => exact idivide_error hb
  case shlEbIb | shlEvIb | shlEb1 | shlEv1 | shlEbCl | shlEvCl | shrEbIb | shrEvIb | shrEb1 | shrEv1 | shrEbCl | shrEvCl
      | sarEbIb | sarEvIb | sarEb1 | sarEv1 | sarEbCl | sarEvCl =>
    exact shift_error _ _ hb
  case jmpEv => exact jumpVia_error hb
  case callEv => exact callVia_error hb
  case pushEv => exact pushFrom_error hb

/-- Settles O57: the operand that crosses the end of memory blocks the access that comes first. -/
theorem operandOutsideMemoryFaults : Obligations.OperandOutsideMemoryFaults :=
  fun _ _ _ _ hi h => exec_firstOperand_blocked hi ⟨Nat.not_le.mpr h, rfl⟩

end Sys2Proof.Machine
end

section
/-! PROOF. The encoding both ways (30_encoding.md R120, R121, R169), and how a step ends (R182). -/

namespace Sys2Proof

/-- What decodes was cut into prefixes and an opcode with what follows, and each part has read its own bytes. -/
theorem decode_eq {bs rest : List Byte} {i : Instr} (h : decode bs = .ok (i, rest)) :
    i.wf = true ∧ bs = encode i ++ rest := by
  obtain ⟨hbs, -⟩ := splitPrefixes_eq bs
  simp only [decode, decodeAt] at h
  split at h
  · rename_i j st hst
    cases h
    obtain ⟨hw, hr⟩ := decodeOpcode_eq hst
    exact ⟨hw, hbs.trans hr⟩
  · cases h

/-- Settles O1: `decode_encode`. -/
theorem encodedInstructionDecodes : Obligations.EncodedInstructionDecodes := decode_encode

/-- Settles O2: `decode_eq`. -/
theorem decodedBytesAreTheEncoding : Obligations.DecodedBytesAreTheEncoding := fun _ _ _ => decode_eq

/-- An instruction decodes from its encoding alone, whatever way its bytes are written. -/
theorem decode_of_encode {i : Instr} {bs : List Byte} (hw : i.wf = true) (hb : encode i = bs) :
    decode bs = .ok (i, []) := by
  rw [← hb, ← List.append_nil (encode i), decode_encode i [] hw]

/-- Without 66 every word is an `iz` immediate. -/
theorem immFits_nil (v : Word) : immFits [] v = true := decide_eq_true v.isLt

/-- Settles O3: a form with an immediate decodes from its encoding for every word; the others are evaluated. -/
theorem sourceEncodingsDecode : Obligations.SourceEncodingsDecode := by
  have layout_opcode (b : Byte) (v : Word) : layout [] [b] (leBytes 4 v.toNat) [] = b :: leBytes 4 v.toNat := by
    simp [layout, Prefixes.bytes]
  have mov (r : Reg) (v : Word) : decode (plusRByte 0xB8 r :: leBytes 4 v.toNat) = .ok (.movRvIz [] r v, []) :=
    decode_of_encode (immFits_nil v) (layout_opcode _ v)
  refine ⟨fun v => ⟨mov .eax v, mov .ebx v, mov .ecx v, mov .edx v, decode_of_encode rfl (layout_opcode _ v)⟩, ?_⟩
  and_intros <;> rfl

end Sys2Proof

namespace Sys2Proof.Machine

/-- Every instruction has a next state. -/
theorem exec_next (i : Instr) (s : State) : ∃ t, exec i s = .next t := by
  rcases exec_cases i s with ⟨t, h, -⟩ | ⟨k, h, -⟩ | ⟨-, -, -, u, k, -, -, -, -, -, h, -⟩ | ⟨-, t, -, h, -⟩
  · exact ⟨t, h⟩
  · exact ⟨_, h⟩
  · exact ⟨_, h⟩
  · exact ⟨t, h⟩

/-- A round of a fetch without end is a step that changes nothing. -/
theorem step_of_endless {s : State} (hr : s.run = .running) (hf : s.fetchDecode = .error .endless) :
    step s = .next s := by
  simp only [step, hr, hf]

/-- Settles O14: an instruction, a fault of the fetch and a round of an endless fetch each have a next state. -/
theorem runningMachineAlwaysSteps : Obligations.RunningMachineAlwaysSteps := by
  refine fun s hr => ⟨?_, fun hm h => step_of_endless hr (fetchDecode_endless hm h)⟩
  rcases hf : s.fetchDecode with (k | _) | i
  · exact ⟨_, step_of_fetchFault hr hf⟩
  · exact ⟨_, step_of_endless hr hf⟩
  · rw [step_of_fetchDecode hr hf]
    exact exec_next i s

/-- The end of a step of `s` with the machine running on (R182). -/
def Succeeds (s t : State) : Prop := t.run = .running ∧ t.outcome = none ∧ t.exitCode = s.exitCode

/-- The end of a step of `s` in a fault of the instruction that starts at its EIP (R182, R525). -/
def Faults (s t : State) : Prop :=
  t.run = .halted ∧ t.exitCode = s.exitCode ∧ ∃ k, t.outcome = some (.fault k (some s.eip))

theorem Succeeds.of_kept {slots : List Reg} {fl : List FlagBit} {stores : List (Word × Nat)} {s t : State}
    (hr : s.run = .running) (ho : s.outcome = none) (hk : Kept slots fl stores s t) : Succeeds s t :=
  ⟨hk.run.trans hr, hk.outcome.trans ho, hk.exitCode⟩

theorem Faults.raise {s u : State} (he : u.eip = s.eip) (hc : u.exitCode = s.exitCode) (k : FaultKind) :
    Faults s (u.raise k) := ⟨rfl, hc, k, by rw [State.raise_outcome, he]⟩

/-- How an instruction ends: only the gate exits. -/
theorem exec_ends {i : Instr} {s t : State} (hr : s.run = .running) (ho : s.outcome = none) (he : exec i s = .next t) :
    Succeeds s t ∨
    (t.run = .halted ∧ t.outcome = some (.exited t.exitCode) ∧ s.regs.eax = 1 ∧ ∃ p, i = .int80 p) ∨ Faults s t := by
  rcases exec_cases i s with
    ⟨u, hu, hk⟩ | ⟨k, hu, _⟩ | ⟨_, _, _, u, k, _, _, _, hue, _, hu, hk⟩ | ⟨p, u, hp, hu, hk⟩ <;> cases hu.symm.trans he
  · exact .inl (.of_kept hr ho hk)
  · exact .inr (.inr (.raise rfl rfl k))
  · exact .inr (.inr (.raise hue hk.exitCode k))
  · rcases hk.run with ⟨hrun, hout, hcode⟩ | ⟨heax, rfl⟩
    · exact .inl ⟨hrun.trans hr, hout.trans ho, hcode⟩
    · exact .inr (.inl ⟨rfl, rfl, heax, p, hp⟩)

/-- Settles O15: a step is an instruction, a fault of the unchanged state or an endless fetch. -/
theorem stepEndsInSuccessExitOrFault : Obligations.StepEndsInSuccessExitOrFault := by
  intro s t h he
  obtain ⟨hr, ⟨i, hf, hi⟩ | ⟨k, rfl⟩ | ⟨_, rfl⟩⟩ := step_cases s t he
  · refine ⟨hr, (exec_ends hr (h.running.mp hr) hi).imp_right (Or.imp_left ?_)⟩
    rintro ⟨hrun, hout, heax, p, rfl⟩
    exact ⟨hrun, hout, heax, p, hf⟩
  · exact ⟨hr, .inr (.inr (Faults.raise rfl rfl k))⟩
  · exact ⟨hr, .inl ⟨hr, h.running.mp hr, rfl⟩⟩

end Sys2Proof.Machine
end

section
/-! PROOF. Where the branches go (30_encoding.md R152, 45_control.md R400 to R406). -/

namespace Sys2Proof.Machine

/-- A relative target over the integers, modulo 2^32 (R152). -/
theorem ofInt_target {n : Nat} (a : Word) (rel : BitVec n) :
    BitVec.ofInt 32 (a.toNat + rel.toInt) = a + rel.signExtend 32 := by
  rw [BitVec.ofInt_add, BitVec.ofInt_natCast, BitVec.ofNat_toNat, BitVec.setWidth_eq, BitVec.signExtend]

/-- A conditional branch of either length is its condition over the target. -/
theorem jumpIf_eq (c : Cond) (rel : Word) (s : State) :
    jumpIf c rel s = .ok (s.withEip (if c.holds s.flags then s.eip + rel else s.eip)) := by
  rw [jumpIf]
  split <;> rfl

theorem exec_jcc8 (c : Cond) (p : Prefixes) (rel : Byte) (s : State) :
    exec (c.jcc8 p rel) s = complete (c.jcc8 p rel) (jumpIf c (rel.signExtend 32)) s := by cases c <;> rfl

theorem exec_jcc32 (c : Cond) (p : Prefixes) (rel : Word) (s : State) :
    exec (c.jcc32 p rel) s = complete (c.jcc32 p rel) (jumpIf c rel) s := by cases c <;> rfl

/-- Settles O42: each branch is a jump to EIP_next plus its offset, to its operand, or past itself. -/
theorem branchesComplete : Obligations.BranchesComplete := by
  intro p s target
  have target_word (i : Instr) (rel : Word) : target i rel.toInt = s.nextEip i + rel := by
    rw [show target i rel.toInt = _ from ofInt_target .., BitVec.signExtend_eq]
  have target_byte (i : Instr) (rel : Byte) : target i rel.toInt = s.nextEip i + rel.signExtend 32 := ofInt_target ..
  refine ⟨fun rel => ?_, fun rel => ?_, fun rm => ⟨fun h => ?_, fun k h => ?_⟩, fun c rel => ?_, fun c rel => ?_⟩
  · rw [target_byte]; rfl
  · rw [target_word]; rfl
  · exact complete_ok (jumpVia_ok h)
  · exact complete_error (jumpVia_error h)
  · rw [target_byte]; exact exec_of_ok (exec_jcc8 c p rel s) (jumpIf_eq ..)
  · rw [target_word]; exact exec_of_ok (exec_jcc32 c p rel s) (jumpIf_eq ..)

end Sys2Proof.Machine
end

section
/-! PROOF. Illegal encodings (30_encoding.md R160 to R168, R184): which entries of the maps reject, and that the step then
ends in UnknownOpcode with the bytes fetched. -/

namespace Sys2Proof

/-! ### Kinds of entry -/

/-- A byte that begins an opcode of one byte: none of the prefixes, and not 0F. -/
abbrev IsOpcode (b : Byte) : Prop := Prefix.ofByte? b = none ∧ b ≠ 0x0F

/-- A group member that is not there (R162). -/
def GroupEntry.isNone : GroupEntry → Bool
  | .none => true
  | _ => false

/-- An entry that is not there (R160, R161). -/
def Entry.isNone : Entry → Bool
  | .none => true
  | _ => false

/-- A group without the member `d` (R162). -/
def Entry.lacks (d : BitVec 3) : Entry → Bool
  | .group select => (select d).isNone
  | _ => false

/-- A near branch that is one by its opcode (R166). -/
def Entry.isNear : Entry → Bool
  | .near _ | .near16 _ | .rel8 _ | .rel32 _ => true
  | _ => false

/-- An entry whose next byte is ModR/M (R132). -/
def Entry.hasModRM : Entry → Bool
  | .rmReg _ | .rmReg8 _ | .rmRegZ _ | .lea _ | .group _ => true
  | _ => false

/-- A form without ModR/M whose meaning depends on the address size (R167). -/
def Entry.addressesMemory : Entry → Bool
  | .moffs _ | .strings _ => true
  | _ => false

/-! ### When an entry rejects -/

section rejections
variable {p : Prefixes} {e : Entry} {u : Nat} {start : Option Word} {rest : List Byte}

theorem decodeEntry_isNone (h : e.isNone = true) :
    decodeEntry p e ⟨u, start, rest⟩ = .error (.unknownOpcode .opcode u) := by
  cases e with
  | none => rfl
  | _ => cases h

theorem decodeEntry_lacks {m : Byte} (h : e.lacks (regOf m) = true) :
    decodeEntry p e ⟨u, start, m :: rest⟩ = .error (.unknownOpcode .digit (u + 1)) := by
  cases e with
  | group select =>
    simp only [decodeEntry, Stream.fetchByte_cons, bind, Except.bind]
    rw [Entry.lacks] at h
    cases hs : select (regOf m) with
    | none => rfl
    | _ => rw [hs] at h; cases h
  | _ => cases h

theorem decodeEntry_isNear (h : e.isNear = true) (hp : p.hasOpsize = true) :
    decodeEntry p e ⟨u, start, rest⟩ = .error (.unknownOpcode .opsizeBranch u) := by
  cases e with
  | near | near16 | rel8 | rel32 => rw [decodeEntry, if_pos hp]
  | _ => cases h

theorem decodeEntry_addressesMemory (h : e.addressesMemory = true) (hp : p.hasAddrsize = true) :
    decodeEntry p e ⟨u, start, rest⟩ = .error (.unknownOpcode .addrsize u) := by
  cases e with
  | moffs | strings => rw [decodeEntry, if_pos hp]
  | _ => cases h

theorem decodeRM_addrsize {m : Byte} (hm : modOf m ≠ 3) (hp : p.hasAddrsize = true) (st : Stream) :
    decodeRM p m st = .error (.unknownOpcode .addrsize st.used) := by
  rw [decodeRM, if_neg hm, if_pos hp]

/-- With 67 a group rejects a memory operand, if it has not rejected the digit or 66 already. -/
theorem decodeGroup_addrsize {m : Byte} (hm : modOf m ≠ 3) (hp : p.hasAddrsize = true) (g : GroupEntry) (st : Stream) :
    ∃ why, decodeGroup p m g st = .error (.unknownOpcode why st.used) := by
  cases g with
  | none => exact ⟨_, rfl⟩
  | rmNear mk =>
    by_cases ho : p.hasOpsize = true
    · exact ⟨_, by rw [decodeGroup, if_pos ho]⟩
    · exact ⟨_, by rw [decodeGroup, if_neg ho, decodeRM_addrsize hm hp]; rfl⟩
  | rm | rm8 | rmZ => exact ⟨_, by rw [decodeGroup, decodeRM_addrsize hm hp]; rfl⟩

theorem decodeEntry_hasModRM {m : Byte} (h : e.hasModRM = true) (hm : modOf m ≠ 3) (hp : p.hasAddrsize = true) :
    ∃ why, decodeEntry p e ⟨u, start, m :: rest⟩ = .error (.unknownOpcode why (u + 1)) := by
  cases e with
  | rmReg | rmReg8 | rmRegZ =>
    exact ⟨.addrsize, by simp only [decodeEntry, Stream.fetchByte_cons, bind, Except.bind, decodeRM_addrsize hm hp]⟩
  | lea mk =>
    exact ⟨.addrsize, by simp only [decodeEntry, Stream.fetchByte_cons, bind, Except.bind, if_neg hm, if_pos hp]⟩
  | group select =>
    simp only [decodeEntry, Stream.fetchByte_cons, bind, Except.bind]
    exact decodeGroup_addrsize hm hp _ _
  | _ => cases h

theorem decodeEntry_lea_register (mk : Prefixes → Reg → Addr → Instr) {m : Byte} (hm : modOf m = 3) :
    decodeEntry p (.lea mk) ⟨u, start, m :: rest⟩ = .error (.unknownOpcode .leaRegister (u + 1)) := by
  simp only [decodeEntry, Stream.fetchByte_cons, bind, Except.bind, if_pos hm]

theorem decodeEntry_vector_ne (mk : Prefixes → Instr) {v : Byte} (hv : v ≠ 0x80) :
    decodeEntry p (.vector mk) ⟨u, start, v :: rest⟩ = .error (.unknownOpcode .intVector (u + 1)) := by
  simp only [decodeEntry, Stream.fetchByte_cons, bind, Except.bind, if_neg hv]

/-- The branches of the group FF (R166). -/
theorem decodeEntry_groupFF_near {m : Byte} (hm : regOf m = 2 ∨ regOf m = 4) (hp : p.hasOpsize = true) :
    decodeEntry p (.group groupFF) ⟨u, start, m :: rest⟩ = .error (.unknownOpcode .opsizeBranch (u + 1)) := by
  simp only [decodeEntry, Stream.fetchByte_cons, bind, Except.bind]
  rcases hm with h | h <;> rw [h] <;> exact if_pos hp

end rejections

end Sys2Proof

namespace Sys2Proof.Machine

/-! ### Which entries are of which kind -/

theorem unlistedPrimary_isNone : ∀ b ∈ unlistedPrimary, IsOpcode b ∧ (primary b).isNone = true := by decide

theorem secondary_isNone : ∀ b, b ∉ listedSecondary → (secondary b).isNone = true := by decide

theorem unlistedDigits_lack :
    ∀ row ∈ unlistedDigits, IsOpcode row.1 ∧ ∀ d ∈ row.2, (primary row.1).lacks d = true := by decide

theorem nearPrimary_isNear : ∀ b ∈ nearPrimary, IsOpcode b ∧ (primary b).isNear = true := by decide

theorem secondary_jcc_isNear (c : Cond) : (secondary (0x80 + c.code)).isNear = true := by cases c <;> rfl

theorem primaryWithModRM_hasModRM : ∀ b ∈ primaryWithModRM, IsOpcode b ∧ (primary b).hasModRM = true := by decide

theorem secondaryWithModRM_hasModRM : ∀ b ∈ secondaryWithModRM, (secondary b).hasModRM = true := by decide

theorem moffs_strings_addressMemory :
    ∀ b ∈ ([0xA0, 0xA1, 0xA2, 0xA3, 0xA4, 0xA5] : List Byte), IsOpcode b ∧ (primary b).addressesMemory = true := by
  decide

/-! ### The step of a rejection -/

section steps
variable {s : State} {p : Prefixes} {b : Byte} {tail : List Byte} {why : Reject}

/-- Bytes at EIP that are rejected after the last of them (R184). -/
theorem step_of_rejected {bs : List Byte} (hr : s.run = .running) (ha : s.atEip bs)
    (hd : decode bs = .error (.unknownOpcode why bs.length)) : step s = .next (s.raise (.unknownOpcode bs)) := by
  obtain ⟨hm, hlen, hbytes⟩ := ha
  exact step_of_fetchFault hr (fetchDecode_unknown hm hd hlen hbytes)

/-- Bytes at EIP that the entry of a one-byte opcode rejects after the last of them. -/
theorem step_of_primary (hr : s.run = .running) (hb : IsOpcode b) (ha : s.atEip (p.bytes ++ b :: tail))
    (hd : decodeEntry p (primary b) ⟨p.length + 1, none, tail⟩ = .error (.unknownOpcode why (p.length + 1 + tail.length))) :
    step s = .next (s.raise (.unknownOpcode (p.bytes ++ b :: tail))) := by
  refine step_of_rejected (why := why) hr ha ?_
  have hl : (p.bytes ++ b :: tail).length = p.length + 1 + tail.length := by simp; omega
  rw [decode, decodeAt_split hb.1, decodeOpcode_one hb.2, hd, hl]

/-- The same for a two-byte opcode. -/
theorem step_of_secondary (hr : s.run = .running) (ha : s.atEip (p.bytes ++ 0x0F :: b :: tail))
    (hd : decodeEntry p (secondary b) ⟨p.length + 2, none, tail⟩ =
      .error (.unknownOpcode why (p.length + 2 + tail.length))) :
    step s = .next (s.raise (.unknownOpcode (p.bytes ++ 0x0F :: b :: tail))) := by
  refine step_of_rejected (why := why) hr ha ?_
  have hl : (p.bytes ++ 0x0F :: b :: tail).length = p.length + 2 + tail.length := by simp; omega
  rw [decode, decodeAt_split (show Prefix.ofByte? 0x0F = none from rfl), decodeOpcode_two, hd, hl]

end steps

/-- Settles O6: the entries that are not there. -/
theorem unlistedEncodingsFault : Obligations.UnlistedEncodingsFault := by
  refine fun s p hr => ⟨fun b hb ha => ?_, fun b hb ha => ?_, fun row hrow m hm ha => ?_⟩
  · obtain ⟨ho, hn⟩ := unlistedPrimary_isNone b hb
    exact step_of_primary hr ho ha (decodeEntry_isNone hn)
  · exact step_of_secondary hr ha (decodeEntry_isNone (secondary_isNone b hb))
  · obtain ⟨ho, hl⟩ := unlistedDigits_lack row hrow
    exact step_of_primary hr ho ha (decodeEntry_lacks (hl _ hm))

/-- Settles O7: the entries that refuse 66. -/
theorem nearBranchWithOpsizeFaults : Obligations.NearBranchWithOpsizeFaults := by
  refine fun s p hr hp => ⟨fun b hb ha => ?_, fun c ha => ?_, fun m hm ha => ?_⟩
  · obtain ⟨ho, hn⟩ := nearPrimary_isNear b hb
    exact step_of_primary hr ho ha (decodeEntry_isNear hn hp)
  · exact step_of_secondary hr ha (decodeEntry_isNear (secondary_jcc_isNear c) hp)
  · exact step_of_primary hr (by decide) ha (decodeEntry_groupFF_near hm hp)

/-- Settles O8: the entries that refuse 67, at once or with a memory operand. -/
theorem addressSizeFaults : Obligations.AddressSizeFaults := by
  refine fun s p hr hp => ⟨fun b hb m hm ha => ?_, fun b hb m hm ha => ?_, fun b hb ha => ?_⟩
  · obtain ⟨ho, he⟩ := primaryWithModRM_hasModRM b hb
    obtain ⟨why, hd⟩ := decodeEntry_hasModRM he hm hp
    exact step_of_primary hr ho ha hd
  · obtain ⟨why, hd⟩ := decodeEntry_hasModRM (secondaryWithModRM_hasModRM b hb) hm hp
    exact step_of_secondary hr ha hd
  · obtain ⟨ho, he⟩ := moffs_strings_addressMemory b hb
    exact step_of_primary hr ho ha (decodeEntry_addressesMemory he hp)

/-- Settles O9: the two entries that refuse a value of the byte after the opcode. -/
theorem leaRegisterAndIntVectorFault : Obligations.LeaRegisterAndIntVectorFault := by
  refine fun s p hr => ⟨fun m hm ha => ?_, fun v hv ha => ?_⟩
  · exact step_of_primary hr (by decide) ha (decodeEntry_lea_register _ hm)
  · exact step_of_primary hr (by decide) ha (decodeEntry_vector_ne _ hv)

end Sys2Proof.Machine
end

section
/-! PROOF. The memory operand (30_encoding.md R138 to R140): every fetch of the decoder keeps step with the pseudocode of
R140 over the natural numbers. -/

namespace Sys2Proof

open Machine

/-! ### A decoding in step with the pseudocode -/

/-- `x` is in step with the pseudocode's `o`: both end with the same bytes left and results related by `R`, or both run
out of bytes. -/
def InStep {α β : Type} (R : α → β → Prop) (x : Except DecodeError (α × Stream)) (o : Option (β × List Byte)) : Prop :=
  match o with
  | some (b, rest) => ∃ a used, x = .ok (a, ⟨used, none, rest⟩) ∧ R a b
  | none => ∃ used len, x = .error (.truncated used len)

section combinators
variable {α β γ δ : Type} {R : α → β → Prop} {S : γ → δ → Prop}

theorem InStep.ok {a : α} {b : β} (h : R a b) (u : Nat) (rest : List Byte) :
    InStep R (.ok (a, ⟨u, none, rest⟩)) (some (b, rest)) := ⟨a, u, rfl, h⟩

theorem InStep.bind {x : Except DecodeError (α × Stream)} {o : Option (β × List Byte)} (hx : InStep R x o)
    {f : α × Stream → Except DecodeError (γ × Stream)} {g : β × List Byte → Option (δ × List Byte)}
    (hf : ∀ a b, R a b → ∀ u rest, InStep S (f (a, ⟨u, none, rest⟩)) (g (b, rest))) :
    InStep S (x >>= f) (o.bind g) := by
  cases o with
  | none =>
    obtain ⟨used, len, rfl⟩ := hx
    exact ⟨used, len, rfl⟩
  | some br =>
    obtain ⟨a, u, rfl, hR⟩ := hx
    exact hf a br.1 hR u br.2

theorem InStep.map {x : Except DecodeError (α × Stream)} {o : Option (β × List Byte)} (hx : InStep R x o)
    {f : α → γ} {g : β → δ} (hf : ∀ a b, R a b → S (f a) (g b)) :
    InStep S (x >>= fun y => .ok (f y.1, y.2)) (o.map fun y => (g y.1, y.2)) := by
  rw [Option.map_eq_bind]
  exact hx.bind fun a b h u rest => .ok (hf a b h) u rest

end combinators

/-! ### Fetches -/

theorem fetchValue_inStep (n u : Nat) (bs : List Byte) :
    InStep (· = ·) (Stream.fetchValue n ⟨u, none, bs⟩) (takeValue n bs) := by
  rw [takeValue]
  by_cases h : n ≤ bs.length
  · have hf := Stream.fetchValue_append (List.length_take_of_le h) (fetchFits_none u n) (bs.drop n)
    rw [List.take_append_drop] at hf
    rw [if_pos h, hf]
    exact .ok rfl _ _
  · rw [if_neg h]
    exact ⟨u, n, by simp only [Stream.fetchValue, Stream.fetch, h, false_and, if_false]; rfl⟩

theorem fetchByte_inStep (u : Nat) (bs : List Byte) :
    InStep (fun (b : Byte) v => b.toNat = v) (Stream.fetchByte ⟨u, none, bs⟩) (takeValue 1 bs) := by
  cases bs with
  | nil => exact ⟨u, 1, rfl⟩
  | cons b bs => exact ⟨b, u + 1, Stream.fetchByte_cons none u b bs, by simp [leValue]⟩

theorem fetchWord_inStep (u : Nat) (bs : List Byte) :
    InStep (fun (d : Word) v => BitVec.ofNat 32 v = d) (Stream.fetchWord ⟨u, none, bs⟩) (takeValue 4 bs) := by
  have h := (fetchValue_inStep 4 u bs).map (f := BitVec.ofNat 32) (g := id)
    (S := fun (d : Word) v => BitVec.ofNat 32 v = d) fun _ _ h => congrArg _ h.symm
  rwa [show (takeValue 4 bs).map (fun y => (id y.1, y.2)) = takeValue 4 bs from Option.map_id_apply] at h

/-! ### Displacement -/

/-- A sign-extended byte is the byte, or the byte less 256 modulo 2^32 (R138). -/
theorem signExtend_byte (b : Byte) :
    BitVec.ofNat 32 (if b.toNat < 128 then b.toNat else b.toNat + 2 ^ 32 - 256) = b.signExtend 32 := by
  revert b; decide

/-- The displacement decoded is what the pseudocode adds to the address `a`. -/
theorem decodeDisp_inStep {mod : BitVec 2} (h3 : mod ≠ 3) (a u : Nat) (bs : List Byte) :
    InStep (fun (d : Disp) v => BitVec.ofNat 32 v = BitVec.ofNat 32 a + d.value) (decodeDisp mod ⟨u, none, bs⟩)
      (addDisplacement mod a bs) := by
  have hm : mod = 0 ∨ mod = 1 ∨ mod = 2 := by revert mod; decide
  rcases hm with rfl | rfl | rfl
  · exact .ok (by simp [Disp.value]) u bs
  · refine (fetchByte_inStep u bs).map (f := Disp.d8) (g := fun v => a + if v < 128 then v else v + 2 ^ 32 - 256)
      fun b v hb => ?_
    rw [BitVec.ofNat_add, ← hb, signExtend_byte, Disp.value]
  · refine (fetchWord_inStep u bs).map (f := Disp.d32) (g := fun v => a + v) fun d v hd => ?_
    rw [BitVec.ofNat_add, hd, Disp.value]

/-! ### Base and index -/

/-- The fields of a SIB byte as the pseudocode cuts them out (R139). -/
theorem sib_fields (b : Byte) :
    (modOf b).toNat = b.toNat / 64 ∧ regOf b = BitVec.ofNat 3 (b.toNat / 8 % 8) ∧ rmOf b = BitVec.ofNat 3 (b.toNat % 8) ∧
      (Reg.ofBits (regOf b) = .esp ↔ b.toNat / 8 % 8 = 4) ∧ (rmOf b = 5 ↔ b.toNat % 8 = 5) := by
  revert b; decide

theorem ofNat_toNat_word (v : Word) : BitVec.ofNat 32 v.toNat = v := by rw [BitVec.ofNat_toNat, BitVec.setWidth_eq]

/-- The scaled index, over the natural numbers (R139). -/
def indexValue (x : Regs) (b : Byte) : Nat :=
  if b.toNat / 8 % 8 = 4 then 0
  else (x.get (Reg.ofBits (BitVec.ofNat 3 (b.toNat / 8 % 8)))).toNat * 2 ^ (b.toNat / 64)

theorem ofNat_indexValue (s : State) (b : Byte) :
    BitVec.ofNat 32 (indexValue s.regs b) = indexPart (modOf b) (Reg.ofBits (regOf b)) s := by
  obtain ⟨hscale, hindex, -, hesp, -⟩ := sib_fields b
  rw [indexValue, indexPart]
  by_cases h : b.toNat / 8 % 8 = 4
  · rw [if_pos h, if_pos (hesp.mpr h)]; rfl
  · rw [if_neg h, if_neg (mt hesp.mp h), hscale, hindex]
    apply BitVec.eq_of_toNat_eq
    rw [BitVec.toNat_ofNat, BitVec.toNat_shiftLeft, Nat.shiftLeft_eq]

/-- The pseudocode after a SIB byte (R139, R140). -/
def addressSib (x : Regs) (mod : BitVec 2) (b : Byte) (bs : List Byte) : Option (Nat × List Byte) :=
  if rmOf b = 5 ∧ mod = 0 then (takeValue 4 bs).map fun y => (y.1 + indexValue x b, y.2)
  else some ((x.get (Reg.ofBits (rmOf b))).toNat + indexValue x b, bs)

theorem addressBase_sib (x : Regs) (mod : BitVec 2) (b : Byte) (bs : List Byte) :
    addressBase x mod 4 (b :: bs) = addressSib x mod b bs := by
  obtain ⟨-, -, hbase, -, h5⟩ := sib_fields b
  have hb : takeValue 1 (b :: bs) = some (b.toNat, bs) := by simp [takeValue, leValue]
  simp only [addressBase, if_true, hb, addressSib, h5]
  rw [hbase]
  rfl

/-! ### The address -/

section address
variable {s : State} {mod : BitVec 2} {u : Nat} {bs : List Byte}

/-- An address form and the address the pseudocode finds. -/
def Names (s : State) (a : Addr) (ea : Word) : Prop := a.effective s = ea

/-- The pseudocode's last lines: the displacement is added, modulo 2^32. -/
def addressEnd (mod : BitVec 2) (y : Nat × List Byte) : Option (Word × List Byte) :=
  (addDisplacement mod y.1 y.2).map fun z => (BitVec.ofNat 32 z.1, z.2)

/-- A form with a base register. -/
theorem base_inStep (h3 : mod ≠ 3) {mk : Disp → Addr} {a : Nat}
    (hmk : ∀ d, (mk d).effective s = BitVec.ofNat 32 a + d.value) :
    InStep (Names s) (decodeDisp mod ⟨u, none, bs⟩ >>= fun y => .ok (mk y.1, y.2)) (addressEnd mod (a, bs)) :=
  (decodeDisp_inStep h3 a u bs).map fun d _ h => (hmk d).trans h.symm

/-- A form with `d32` for its base. -/
theorem noBase_inStep {mk : Word → Addr} {i : Nat} (hmk : ∀ d, (mk d).effective s = d + BitVec.ofNat 32 i) :
    InStep (Names s) (Stream.fetchWord ⟨u, none, bs⟩ >>= fun y => .ok (mk y.1, y.2))
      (((takeValue 4 bs).map fun y => (y.1 + i, y.2)).bind (addressEnd 0)) := by
  rw [Option.bind_map]
  refine (fetchWord_inStep u bs).bind fun d v hd u' rest => .ok ?_ u' rest
  rw [Names, hmk, BitVec.ofNat_add, hd]

end address

/-- The decoder after a SIB byte. -/
theorem decodeAddr_sib {m : Byte} (h4 : rmOf m = 4) (u : Nat) (b : Byte) (bs : List Byte) :
    decodeAddr m ⟨u, none, b :: bs⟩ =
      if rmOf b = 5 ∧ modOf m = 0 then
        Stream.fetchWord ⟨u + 1, none, bs⟩ >>= fun y => .ok (.sibNoBase (modOf b) (Reg.ofBits (regOf b)) y.1, y.2)
      else
        decodeDisp (modOf m) ⟨u + 1, none, bs⟩ >>= fun y =>
          .ok (.sib (modOf b) (Reg.ofBits (regOf b)) (Reg.ofBits (rmOf b)) y.1, y.2) := by
  rw [decodeAddr, h4]
  show (Stream.fetchByte _ >>= _) = _
  rw [Stream.fetchByte_cons]
  rfl

theorem decodeAddr_direct {m : Byte} (h5 : rmOf m = 5) (h0 : modOf m = 0) (st : Stream) :
    decodeAddr m st = st.fetchWord >>= fun y => .ok (.direct y.1, y.2) := by
  rw [decodeAddr, h5]
  exact if_pos h0

theorem decodeAddr_base {m : Byte} (h4 : rmOf m ≠ 4) (h : ¬ (rmOf m = 5 ∧ modOf m = 0)) (st : Stream) :
    decodeAddr m st = decodeDisp (modOf m) st >>= fun y => .ok (.base (Reg.ofBits (rmOf m)) y.1, y.2) := by
  rw [decodeAddr]
  split
  · rename_i hr
    exact absurd (BitVec.eq_of_toNat_eq hr) h4
  · rename_i hr
    have h5 : rmOf m = 5 := BitVec.eq_of_toNat_eq hr
    rw [if_neg fun h0 => h ⟨h5, h0⟩, h5]
    rfl
  · rfl

theorem decodeAddr_inStep (s : State) {m : Byte} (h3 : modOf m ≠ 3) (u : Nat) (bs : List Byte) :
    InStep (Names s) (decodeAddr m ⟨u, none, bs⟩) (addressOf s.regs (modOf m) (rmOf m) bs) := by
  show InStep _ _ ((addressBase s.regs (modOf m) (rmOf m) bs).bind (addressEnd (modOf m)))
  by_cases h4 : rmOf m = 4
  · cases bs with
    | nil =>
      rw [h4, decodeAddr, h4]
      exact ⟨u, 1, rfl⟩
    | cons b bs =>
      rw [h4, addressBase_sib, addressSib, decodeAddr_sib h4]
      by_cases h : rmOf b = 5 ∧ modOf m = 0
      · rw [if_pos h, if_pos h, h.2]
        exact noBase_inStep fun d => by rw [ofNat_indexValue]; rfl
      · rw [if_neg h, if_neg h]
        exact base_inStep h3 fun d => by rw [BitVec.ofNat_add, ofNat_toNat_word, ofNat_indexValue]; rfl
  · by_cases h : rmOf m = 5 ∧ modOf m = 0
    · have hi : (takeValue 4 bs).map (fun y => (y.1 + 0, y.2)) = takeValue 4 bs := Option.map_id_apply
      rw [decodeAddr_direct h.1 h.2, addressBase, if_neg h4, if_pos h, h.2, ← hi]
      exact noBase_inStep fun d => (BitVec.add_zero d).symm
    · rw [decodeAddr_base h4 h, addressBase, if_neg h4, if_neg h]
      exact base_inStep h3 fun d => by rw [ofNat_toNat_word]; rfl

/-- `mov r32, r/m32` decodes to its memory form and the bytes after it, or runs out of bytes with it. -/
theorem decode_movGvEv_mem {m : Byte} (h3 : modOf m ≠ 3) (bs : List Byte) :
    decode (0x8B :: m :: bs) =
      (decodeAddr m ⟨2, none, bs⟩).map fun y => (.movGvEv [] (.mem y.1) (Reg.ofBits (regOf m)), y.2.rest) := by
  have ho : decodeOpcode [] ⟨0, none, 0x8B :: m :: bs⟩ = decodeEntry [] (.rmReg .movGvEv) ⟨1, none, m :: bs⟩ :=
    decodeOpcode_one (by decide) _
  refine (decodeAt_split (p := []) (b := 0x8B) rfl none (m :: bs)).trans ?_
  rw [List.length_nil, ho]
  simp only [decodeEntry, Stream.fetchByte_cons, bind, Except.bind, decodeRM, if_neg h3]
  cases decodeAddr m ⟨2, none, bs⟩ <;> rfl

/-- Settles O10: the address decoder keeps step with the pseudocode, and 8B answers its address form. -/
theorem effectiveAddressFollowsModRM : Obligations.EffectiveAddressFollowsModRM := by
  intro s m bs h3
  have h := decodeAddr_inStep s h3 2 bs
  rw [decode_movGvEv_mem h3]
  cases ho : addressOf s.regs (modOf m) (rmOf m) bs with
  | some r =>
    rw [ho] at h
    obtain ⟨a, used, ha, hn⟩ := h
    exact ⟨a, by rw [ha]; rfl, hn⟩
  | none =>
    rw [ho] at h
    obtain ⟨used, len, ha⟩ := h
    exact ⟨used, len, by rw [ha]; rfl⟩

end Sys2Proof
end

section
/-! PROOF. The prefixes: their kinds decide the decoding (30_encoding.md R127, R129, R130, R167), and the operand size
alone decides the execution (R125). -/

namespace Sys2Proof

/-! ### The bytes of an instruction under other prefixes -/

@[simp] theorem Instr.withPrefixes_prefixes (i : Instr) : i.withPrefixes i.prefixes = i := by cases i <;> rfl

theorem osz_congr {p q : Prefixes} (h : q.hasOpsize = p.hasOpsize) : q.osz = p.osz := by rw [Prefixes.osz, h, Prefixes.osz]

theorem izBytes_congr {p q : Prefixes} (h : q.osz = p.osz) (v : Word) : izBytes q v = izBytes p v := by
  rw [izBytes, h, izBytes]

/-- The bytes after the prefixes begin with an opcode, and depend on the prefixes through the operand size alone. -/
def Instr.HasBody (i : Instr) : Prop :=
  ∃ (b : Byte) (body : List Byte), Prefix.ofByte? b = none ∧
    ∀ q : Prefixes, q.osz = i.prefixes.osz → encode (i.withPrefixes q) = q.bytes ++ b :: body

theorem Instr.HasBody.of_layout {i : Instr} {b : Byte} {more : List Byte} {operand immediate : Prefixes → List Byte}
    (h : ∀ q, encode (i.withPrefixes q) = layout q (b :: more) (operand q) (immediate q)) (hb : Prefix.ofByte? b = none)
    (hc : ∀ q, q.osz = i.prefixes.osz → operand q ++ immediate q = operand i.prefixes ++ immediate i.prefixes) :
    i.HasBody :=
  ⟨b, more ++ (operand i.prefixes ++ immediate i.prefixes), hb, fun q hq => by rw [h, layout, hc q hq]; rfl⟩

theorem Instr.hasBody (i : Instr) : i.HasBody := by
  cases i
  case addEaxIz | orEaxIz | adcEaxIz | sbbEaxIz | andEaxIz | subEaxIz | xorEaxIz | cmpEaxIz | pushIz | testEaxIz
      | addEvIz | orEvIz | adcEvIz | sbbEvIz | andEvIz | subEvIz | xorEvIz | cmpEvIz | movEvIz | testEvIz | imulGvEvIz =>
    exact .of_layout (fun _ => rfl) rfl fun q hq => by rw [izBytes_congr hq]
  case movRvIz =>
    exact .of_layout (fun _ => rfl) (Laws.Tail.plusR_byte _ _ (by decide)) fun q hq => by rw [izBytes_congr hq]
  case incR | decR | pushR | popR | xchgEaxR | movRbIb =>
    exact .of_layout (fun _ => rfl) (Laws.Tail.plusR_byte _ _ (by decide)) fun _ _ => rfl
  all_goals exact .of_layout (fun _ => rfl) rfl fun _ _ => rfl

/-! ### Well-formedness under other prefixes -/

/-- `q` holds 66, and F2 or F3, if and only if `p` does, and 67 only if `p` does (R167). -/
structure Prefixes.Replaces (q p : Prefixes) : Prop where
  opsize : q.hasOpsize = p.hasOpsize
  rep : q.hasRep = p.hasRep
  addrsize : p.hasAddrsize = false → q.hasAddrsize = false

section replaces
variable {p q : Prefixes} (h : q.Replaces p)
include h

theorem Prefixes.Replaces.addrOk (hp : addrOk p = true) : addrOk q = true :=
  addrOk_iff.mpr (h.addrsize (addrOk_iff.mp hp))

theorem Prefixes.Replaces.nearOk_eq : nearOk q = nearOk p := by rw [nearOk, h.opsize, nearOk]

theorem Prefixes.Replaces.immFits_eq (v : Word) : immFits q v = immFits p v := by
  rw [immFits, osz_congr h.opsize, immFits]

theorem Prefixes.Replaces.rm_wf {rm : RM} (hp : rm.wf p = true) : rm.wf q = true := by
  cases rm with
  | reg r => rfl
  | mem a =>
    obtain ⟨ha, ho⟩ := Bool.and_eq_true_iff.mp hp
    exact Bool.and_eq_true_iff.mpr ⟨ha, h.addrOk ho⟩

end replaces

theorem Instr.wf_withPrefixes {i : Instr} {q : Prefixes} (h : q.Replaces i.prefixes) (hw : i.wf = true) :
    (i.withPrefixes q).wf = true := by
  cases i
  case addEvIz | orEvIz | adcEvIz | sbbEvIz | andEvIz | subEvIz | xorEvIz | cmpEvIz | movEvIz | testEvIz | imulGvEvIz =>
    obtain ⟨hrm, himm⟩ := Bool.and_eq_true_iff.mp hw
    exact Bool.and_eq_true_iff.mpr ⟨h.rm_wf hrm, (h.immFits_eq _).trans himm⟩
  case addEaxIz | orEaxIz | adcEaxIz | sbbEaxIz | andEaxIz | subEaxIz | xorEaxIz | cmpEaxIz | pushIz | testEaxIz
      | movRvIz =>
    exact (h.immFits_eq _).trans hw
  case callEv | jmpEv =>
    obtain ⟨hrm, ho⟩ := Bool.and_eq_true_iff.mp hw
    exact Bool.and_eq_true_iff.mpr ⟨h.rm_wf hrm, h.nearOk_eq.trans ho⟩
  case joRel8 | jnoRel8 | jbRel8 | jaeRel8 | jeRel8 | jneRel8 | jbeRel8 | jaRel8 | jsRel8 | jnsRel8 | jpRel8 | jnpRel8
      | jlRel8 | jgeRel8 | jleRel8 | jgRel8 | jmpRel8 | callRel32 | jmpRel32 | joRel32 | jnoRel32 | jbRel32 | jaeRel32
      | jeRel32 | jneRel32 | jbeRel32 | jaRel32 | jsRel32 | jnsRel32 | jpRel32 | jnpRel32 | jlRel32 | jgeRel32 | jleRel32
      | jgRel32 | retIw | ret | cwde | cdq =>
    exact h.nearOk_eq.trans hw
  case cbw | cwd => exact h.opsize.trans hw
  case leaGvM =>
    obtain ⟨ha, ho⟩ := Bool.and_eq_true_iff.mp hw
    exact Bool.and_eq_true_iff.mpr ⟨ha, h.addrOk ho⟩
  case movAlOb | movEaxOv | movObAl | movOvEax => exact h.addrOk hw
  case movsb p | repMovsb p =>
    obtain ⟨ha, hr⟩ := Bool.and_eq_true_iff.mp hw
    have hrep : q.hasRep = p.hasRep := h.rep
    rw [← hrep] at hr
    exact Bool.and_eq_true_iff.mpr ⟨h.addrOk ha, hr⟩
  case movsd p | movsw p | repMovsd p | repMovsw p =>
    obtain ⟨har, ho⟩ := Bool.and_eq_true_iff.mp hw
    obtain ⟨ha, hr⟩ := Bool.and_eq_true_iff.mp har
    have hrep : q.hasRep = p.hasRep := h.rep
    have hops : q.hasOpsize = p.hasOpsize := h.opsize
    rw [← hrep] at hr
    rw [← hops] at ho
    exact Bool.and_eq_true_iff.mpr ⟨Bool.and_eq_true_iff.mpr ⟨h.addrOk ha, hr⟩, ho⟩
  case xchgEaxR => exact hw
  case addAlIb | orAlIb | adcAlIb | sbbAlIb | andAlIb | subAlIb | xorAlIb | cmpAlIb | incR | decR | pushR | popR | pushIb
      | nop | testAlIb | movRbIb | leave | int80 | cmc | clc | stc | cli | sti | cld | std =>
    rfl
  all_goals exact h.rm_wf hw

/-- Settles O4: what decodes under `p` is well formed and has its bytes, so under `q` it is well formed with the same bytes
after the prefixes, and decodes from them. -/
theorem prefixKindsDecideDecoding : Obligations.PrefixKindsDecideDecoding := by
  intro p q tail i rest htail ho hr ha hd
  obtain ⟨hw, hbytes⟩ := decode_eq hd
  obtain ⟨b, body, hb, hbody⟩ := i.hasBody
  have hself : encode i = i.prefixes.bytes ++ b :: body := by simpa using hbody i.prefixes rfl
  obtain ⟨hp, ht⟩ : p = i.prefixes ∧ tail = b :: (body ++ rest) := by
    cases tail with
    | nil => rw [List.append_nil, decode_all_prefixes] at hd; cases hd
    | cons c cs =>
      have h := splitPrefixes_bytes p (htail c cs rfl) cs
      rw [hbytes, hself, List.append_assoc, List.cons_append, splitPrefixes_bytes i.prefixes hb] at h
      exact ⟨(Prod.mk.inj h).1.symm, (Prod.mk.inj h).2.symm⟩
  subst hp
  have hq : q.Replaces i.prefixes := ⟨ho, hr, fun h => ha.elim (·.trans h) id⟩
  have h := decode_encode (i.withPrefixes q) rest (Instr.wf_withPrefixes hq hw)
  rwa [hbody q (osz_congr ho), List.append_assoc, List.cons_append, ← ht] at h

end Sys2Proof

namespace Sys2Proof.Machine

/-! ### The execution under other prefixes -/

/-- The prefixes reach the handler of an instruction through the operand size alone. -/
def SharesHandler (i : Instr) : Prop :=
  ∃ handler : Prefixes → State → Except FaultKind State,
    (∀ p s, exec (i.withPrefixes p) s = complete (i.withPrefixes p) (handler p) s) ∧
    ∀ p q : Prefixes, q.osz = p.osz → ∀ s, handler q s = handler p s

theorem sharesHandler (i : Instr) (hr : ∀ w p, i ≠ Width.repMovs w p) : SharesHandler i := by
  cases i
  case repMovsb p => exact absurd rfl (hr .byte p)
  case repMovsw p => exact absurd rfl (hr .word p)
  case repMovsd p => exact absurd rfl (hr .dword p)
  all_goals refine ⟨_, fun _ _ => by rw [exec.eq_def]; rfl, fun p q h s => ?_⟩
  case addEvGv | addGvEv | orEvGv | orGvEv | adcEvGv | adcGvEv | sbbEvGv | sbbGvEv | andEvGv | andGvEv | subEvGv | subGvEv
      | xorEvGv | xorGvEv | cmpEvGv | cmpGvEv | incR | decR | pushR | popR | movsxdGvEv | testEvGv | xchgEvGv | movEvGv
      | movGvEv | leaGvM | popEv | xchgEaxR | movEaxOv | movOvEax | shlEvIb | shlEv1 | shlEvCl | shrEvIb | shrEv1 | shrEvCl
      | sarEvIb | sarEv1 | sarEvCl | leave | notEv | negEv | mulEv | imulEv | divEv | idivEv | incEv | decEv | pushEv
      | imulGvEv | movzxGvEb | movzxGvEw | movsxGvEb | movsxGvEw =>
    rw [h]
  case addEaxIz | orEaxIz | adcEaxIz | sbbEaxIz | andEaxIz | subEaxIz | xorEaxIz | cmpEaxIz | addEvIz | orEvIz | adcEvIz
      | sbbEvIz | andEvIz | subEvIz | xorEvIz | cmpEvIz | pushIz | imulGvEvIz | testEaxIz | movRvIz | movEvIz | testEvIz =>
    simp only [immZ]
    rw [h]
  case addEvIb | orEvIb | adcEvIb | sbbEvIb | andEvIb | subEvIb | xorEvIb | cmpEvIb | pushIb | imulGvEvIb =>
    simp only [immS]
    rw [h]
  all_goals rfl

/-! ### The rep string moves do not read EIP -/

theorem moveElement_withEip (w : Width) (s : State) (v : Word) :
    moveElement w (s.withEip v) = (moveElement w s).map (·.withEip v) := by
  by_cases hs : s.inBounds s.regs.esi w.bytes
  · by_cases hd : s.inBounds s.regs.edi w.bytes
    · rw [moveElement_ok hs hd, moveElement_ok (s := s.withEip v) hs hd]; rfl
    · rw [moveElement_error_dst hs hd, moveElement_error_dst (s := s.withEip v) hs hd]; rfl
  · rw [moveElement_error_src hs, moveElement_error_src (s := s.withEip v) hs]; rfl

theorem moveElements_withEip (w : Width) (n : Nat) (s : State) (v : Word) :
    moveElements w n (s.withEip v) = ((moveElements w n s).1.withEip v, (moveElements w n s).2) := by
  induction n generalizing s with
  | zero => rfl
  | succ n ih =>
    simp only [moveElements, moveElement_withEip]
    cases moveElement w s with
    | error k => rfl
    | ok t => exact ih (t.regWrite .ecx .dword (s.regs.ecx - 1))

/-! ### Spellings -/

/-- The start of `i`, if EIP is to be the end of it. -/
def State.before (s : State) (i : Instr) : State := s.withEip (s.eip - BitVec.ofNat 32 i.length)

theorem State.before_nextEip (s : State) (i : Instr) : (s.before i).nextEip i = s.eip := BitVec.sub_add_cancel ..

/-- An instruction that starts where it has to for EIP to be its end runs its handler from there. -/
theorem State.before_atNext (s : State) (i : Instr) : (s.before i).atNext i = s := by
  rw [State.atNext, State.before_nextEip]
  rfl

/-- Two answers from the starts of two spellings: the same state, or the same fault with the EIP of each start. -/
def SameEnd (a b : State) (x y : Result) : Prop :=
  ∃ u v, x = .next u ∧ y = .next v ∧
    (u = v ∨ ∃ (t : State) (k : FaultKind), u = (t.withEip a.eip).raise k ∧ v = (t.withEip b.eip).raise k)

theorem complete_sameEnd {i j : Instr} {f g : State → Except FaultKind State} {s : State} (h : g s = f s) :
    SameEnd (s.before i) (s.before j) (complete i f (s.before i)) (complete j g (s.before j)) := by
  cases hf : f s with
  | ok t =>
    exact ⟨t, t, complete_ok (by rw [State.before_atNext, hf]), complete_ok (by rw [State.before_atNext, h, hf]), .inl rfl⟩
  | error k =>
    exact ⟨_, _, complete_error (by rw [State.before_atNext, hf]), complete_error (by rw [State.before_atNext, h, hf]),
      .inr ⟨s, k, rfl, rfl⟩⟩

theorem repeatMove_sameEnd (w : Width) (i j : Instr) (s : State) :
    SameEnd (s.before i) (s.before j) (repeatMove w i (s.before i)) (repeatMove w j (s.before j)) := by
  simp only [repeatMove, State.before, State.withEip_regs, moveElements_withEip]
  rcases moveElements w s.regs.ecx.toNat s with ⟨t, _ | k⟩
  · refine ⟨_, _, rfl, rfl, .inl ?_⟩
    show t.withEip ((s.before i).nextEip i) = t.withEip ((s.before j).nextEip j)
    rw [State.before_nextEip, State.before_nextEip]
  · exact ⟨_, _, rfl, rfl, .inr ⟨t, k, rfl, rfl⟩⟩

/-- Settles O5: both spellings run the same handler from the same state; a rep string move does not read EIP until it
ends. -/
theorem prefixSpellingIsInvisible : Obligations.PrefixSpellingIsInvisible := by
  intro i p q s hp
  show SameEnd (s.before (i.withPrefixes p)) (s.before (i.withPrefixes q)) _ _
  by_cases hr : ∃ w r, i = Width.repMovs w r
  · obtain ⟨w, r, rfl⟩ := hr
    have hx (p : Prefixes) (u : State) :
        exec ((Width.repMovs w r).withPrefixes p) u = repeatMove w ((Width.repMovs w r).withPrefixes p) u := by
      cases w <;> rfl
    rw [hx, hx]
    exact repeatMove_sameEnd ..
  · obtain ⟨handler, he, hh⟩ := sharesHandler i fun w r h => hr ⟨w, r, h⟩
    rw [he, he]
    exact complete_sameEnd (hh p q (osz_congr hp) s)

end Sys2Proof.Machine
end

section
/-! PROOF. What an instruction leaves undefined (40_alu_flags.md R208, R212): a handler that draws nothing carries another
draw counter through, and one that draws uses its draws for the flags R208 names and nothing else. -/

namespace Sys2Proof.Machine

/-- A handler that draws nothing: another draw counter goes through it unchanged and unseen. -/
def DrawsNothing (h : State → Except FaultKind State) : Prop :=
  ∀ s d, h (s.withDraws d) = (·.withDraws d) <$> h s

section operations
variable (s : State) (d : Nat) {w : Width}

/-! ### The elementary operations -/

@[simp] theorem State.regWrite_withDraws (i : Reg) (v : BitVec w.bits) :
    (s.withDraws d).regWrite i w v = (s.regWrite i w v).withDraws d := rfl

@[simp] theorem State.withFlags_withDraws (g : Flags) : (s.withDraws d).withFlags g = (s.withFlags g).withDraws d := rfl

@[simp] theorem State.jump_withDraws (v : Word) : (s.withDraws d).jump v = (s.jump v).withDraws d := rfl

@[simp] theorem State.withEax_withDraws (v : Word) : (s.withDraws d).withEax v = (s.withEax v).withDraws d := rfl

@[simp] theorem State.memRead_withDraws (a : Word) : (s.withDraws d).memRead a w = s.memRead a w := rfl

@[simp] theorem readOp_withDraws (op : Operand w) : readOp op (s.withDraws d) = readOp op s := by cases op <;> rfl

@[simp] theorem State.setBytes_withDraws (a : Word) (bs : List Byte) :
    (s.withDraws d).setBytes a bs = (·.withDraws d) <$> s.setBytes a bs := by
  by_cases h : s.inBounds a bs.length
  · rw [State.setBytes_ok h, State.setBytes_ok (s := s.withDraws d) h]; rfl
  · rw [State.setBytes_error h, State.setBytes_error (s := s.withDraws d) h]; rfl

@[simp] theorem State.memWrite_withDraws (a : Word) (v : BitVec w.bits) :
    (s.withDraws d).memWrite a w v = (·.withDraws d) <$> s.memWrite a w v := State.setBytes_withDraws ..

@[simp] theorem writeOp_withDraws (op : Operand w) (v : BitVec w.bits) :
    writeOp op v (s.withDraws d) = (·.withDraws d) <$> writeOp op v s := by
  cases op with
  | reg i => rfl
  | imm _ => rfl
  | mem a => exact State.memWrite_withDraws s d a v

@[simp] theorem push_withDraws (v : BitVec w.bits) :
    push v (s.withDraws d) = (·.withDraws d) <$> push v s := by simp [push]

@[simp] theorem pop_withDraws :
    pop w (s.withDraws d) = (fun x => (x.1, x.2.withDraws d)) <$> pop w s := by
  by_cases h : s.inBounds s.regs.esp w.bytes
  · rw [pop_ok h, pop_ok (s := s.withDraws d) h]; rfl
  · rw [pop_error h, pop_error (s := s.withDraws d) h]; rfl

end operations

/-! ### Operands -/

section operands
variable {w : Width} (op : Operand w) {s : State} {d : Nat}

theorem Operand.accessible_withDraws (h : op.accessible s) : op.accessible (s.withDraws d) :=
  (op.accessible_congr rfl).mp h

theorem Operand.blocked_withDraws {k : FaultKind} (h : op.blocked s k) : op.blocked (s.withDraws d) k :=
  (op.blocked_congr rfl k).mp h

theorem Operand.value_withDraws : op.value (s.withDraws d) = op.value s := by cases op <;> rfl

theorem Operand.put_withDraws (v : BitVec w.bits) : op.put v (s.withDraws d) = (op.put v s).withDraws d := by
  cases op <;> rfl

theorem Operand.put_withFlags (v : BitVec w.bits) (g : Flags) :
    op.put v (s.withFlags g) = (op.put v s).withFlags g := by
  cases op <;> rfl

theorem readPair_withDraws (w : Width) (s : State) (d : Nat) : readPair w (s.withDraws d) = readPair w s := rfl

end operands

/-! ### The shared handlers that draw nothing: each is made of operations that carry the counter through -/

section handlers
variable {w : Width}

theorem alu_drawsNothing (op : AluOp) (dst src : Operand w) : DrawsNothing (alu op dst src) := by
  intro s d
  by_cases h : op = .cmp <;> simp [alu, h]

theorem modify_drawsNothing (dst : Operand w) (f : Flags → BitVec w.bits → BitVec w.bits × Flags) :
    DrawsNothing (modify dst f) := by
  intro s d
  simp [modify]

theorem complement_drawsNothing (dst : Operand w) : DrawsNothing (complement dst) := by
  intro s d
  simp [complement]

theorem test_drawsNothing (op1 op2 : Operand w) : DrawsNothing (test op1 op2) := by
  intro s d
  simp [test]

theorem move_drawsNothing (dst src : Operand w) : DrawsNothing (move dst src) := by
  intro s d
  simp [move]

theorem moveZeroExtend_drawsNothing {ws : Width} (r : Reg) (src : Operand ws) :
    DrawsNothing (moveZeroExtend w r src) := by
  intro s d
  simp [moveZeroExtend]

theorem moveSignExtend_drawsNothing {ws : Width} (r : Reg) (src : Operand ws) :
    DrawsNothing (moveSignExtend w r src) := by
  intro s d
  simp [moveSignExtend]

theorem exchange_drawsNothing (op1 op2 : Operand w) : DrawsNothing (exchange op1 op2) := by
  intro s d
  simp [exchange]

theorem jumpIf_drawsNothing (c : Cond) (rel : Word) : DrawsNothing (jumpIf c rel) := by
  intro s d
  rw [jumpIf_eq, jumpIf_eq]
  rfl

theorem jumpVia_drawsNothing (op : Operand .dword) : DrawsNothing (jumpVia op) := by
  intro s d
  simp [jumpVia]

theorem callTo_drawsNothing (target : Word) : DrawsNothing (callTo target) := by
  intro s d
  simp [callTo]

theorem callVia_drawsNothing (op : Operand .dword) : DrawsNothing (callVia op) := by
  intro s d
  simp [callVia, callTo_drawsNothing _ s d]

theorem returnNear_drawsNothing : DrawsNothing returnNear := by
  intro s d
  simp [returnNear]

theorem returnAdjust_drawsNothing (imm : BitVec 16) : DrawsNothing (returnAdjust imm) := by
  intro s d
  simp [returnAdjust]

theorem push_drawsNothing (v : BitVec w.bits) : DrawsNothing (push v) := fun s d => push_withDraws s d v

theorem pushFrom_drawsNothing (op : Operand w) : DrawsNothing (pushFrom op) := by
  intro s d
  simp [pushFrom]

theorem popTo_drawsNothing {dst : State → Operand w} (hd : ∀ s d, dst (s.withDraws d) = dst s) :
    DrawsNothing (popTo w dst) := by
  intro s d
  simp [popTo, hd]

theorem leaveFrame_drawsNothing : DrawsNothing (leaveFrame w) := by
  intro s d
  simp [leaveFrame]

theorem moveElement_drawsNothing (w : Width) : DrawsNothing (moveElement w) := by
  intro s d
  simp [moveElement]

theorem sysRead_drawsNothing : DrawsNothing sysRead := by
  intro s d
  cases hf : Fd.ofWord? s.regs.ebx with
  | none => rw [sysRead_badFd hf, sysRead_badFd (s := s.withDraws d) hf]; rfl
  | some fd =>
    by_cases hb : s.inBounds s.regs.ecx s.regs.edx.toNat
    · cases ha : (s.hostRead fd s.regs.edx.toNat).1 with
      | ioError => rw [sysRead_ioError hf hb ha, sysRead_ioError (s := s.withDraws d) hf hb ha]; rfl
      | data bs => rw [sysRead_data hf hb ha, sysRead_data (s := s.withDraws d) hf hb ha]; rfl
    · rw [sysRead_bounds hf hb, sysRead_bounds (s := s.withDraws d) hf hb]; rfl

theorem sysWrite_drawsNothing : DrawsNothing sysWrite := by
  intro s d
  cases hf : Fd.ofWord? s.regs.ebx with
  | none => rw [sysWrite_badFd hf, sysWrite_badFd (s := s.withDraws d) hf]; rfl
  | some fd =>
    by_cases hb : s.inBounds s.regs.ecx s.regs.edx.toNat
    · cases ha : (s.hostWrite fd (s.mem.readBytes s.regs.ecx.toNat s.regs.edx.toNat)).1 with
      | ok => rw [sysWrite_ok hf hb ha, sysWrite_ok (s := s.withDraws d) hf hb ha]; rfl
      | ioError => rw [sysWrite_ioError hf hb ha, sysWrite_ioError (s := s.withDraws d) hf hb ha]; rfl
    · rw [sysWrite_bounds hf hb, sysWrite_bounds (s := s.withDraws d) hf hb]; rfl

theorem syscallGate_drawsNothing : DrawsNothing syscallGate := by
  intro s d
  simp only [syscallGate, State.withDraws_regs]
  split
  · rfl
  · exact sysRead_drawsNothing s d
  · exact sysWrite_drawsNothing s d
  · rfl

/-- The loop of a rep string move ends after the same elements with the same fault. -/
theorem moveElements_withDraws (w : Width) (n : Nat) (s : State) (d : Nat) :
    moveElements w n (s.withDraws d) = ((moveElements w n s).1.withDraws d, (moveElements w n s).2) := by
  induction n generalizing s with
  | zero => rfl
  | succ n ih =>
    simp only [moveElements, moveElement_drawsNothing w s d]
    cases moveElement w s with
    | error k => rfl
    | ok t => exact ih (t.regWrite .ecx .dword (s.regs.ecx - 1))

end handlers

/-! ### The states that differ in drawn flags alone -/

/-- `u` is `t` with another draw counter and other values of the flags in `fl`. -/
def Redrawn (fl : List FlagBit) (t u : State) : Prop :=
  ∃ g d, u = (t.withFlags g).withDraws d ∧ ∀ f, f ∉ fl → g.get f = t.flags.get f

/-- Two runs of a handler that raise the same fault or end in states that differ in the flags `fl` and the draw counter
alone. -/
def DrawsAtMost (fl : List FlagBit) (x y : Except FaultKind State) : Prop :=
  (∃ k, x = .error k ∧ y = .error k) ∨ ∃ t u, x = .ok t ∧ y = .ok u ∧ Redrawn fl t u

section drawing
variable {fl : List FlagBit} {w : Width} (s : State) (d : Nat)

theorem Redrawn.withDraws (t : State) : Redrawn fl t (t.withDraws d) := ⟨t.flags, d, rfl, fun _ _ => rfl⟩

theorem DrawsAtMost.ok {t u : State} (h : Redrawn fl t u) : DrawsAtMost fl (.ok t) (.ok u) := .inr ⟨t, u, rfl, rfl, h⟩

theorem DrawsAtMost.error (k : FaultKind) : DrawsAtMost fl (.error k) (.error k) := .inl ⟨k, rfl, rfl⟩

theorem DrawsNothing.drawsAtMost {h : State → Except FaultKind State} (hn : DrawsNothing h) :
    DrawsAtMost fl (h s) (h (s.withDraws d)) := by
  rw [hn s d]
  cases h s with
  | ok t => exact .ok (.withDraws d t)
  | error k => exact .error k

/-- A handler that reads an operand first. -/
theorem DrawsAtMost.of_operand {op : Operand w} {x y : Except FaultKind State}
    (hb : ∀ k, op.blocked s k → x = .error k ∧ y = .error k) (ha : op.accessible s → DrawsAtMost fl x y) :
    DrawsAtMost fl x y := by
  rcases op.accessible_or_blocked s with h | ⟨k, h⟩
  · exact ha h
  · exact .inl ⟨k, hb k h⟩

/-- The end of a handler that draws: the draws show in the flags it writes and nowhere else. -/
theorem Redrawn.endDraws (t : State) {g g' : Flags} (hg : ∀ f, f ∉ fl → g'.get f = g.get f) :
    Redrawn fl (t.withFlags g).endDraws ((t.withDraws d).withFlags g').endDraws := ⟨g', d + 6, rfl, hg⟩

end drawing

/-! ### The flags R208 names are the only ones drawn -/

section undefined
variable {n : Nat} (f u v : Flags) (b : FlagBit)

theorem mulFlags_defined (o : Bool) (hb : b ∉ [FlagBit.SF, .ZF, .AF, .PF]) :
    (mulFlags f u o).get b = (mulFlags f v o).get b := by
  cases b with
  | SF | ZF | AF | PF => exact absurd (by decide) hb
  | _ => rfl

theorem undefinedFlags_defined (s : State) (d : Nat) (hb : b ∉ [FlagBit.CF, .OF, .SF, .ZF, .AF, .PF]) :
    (s.withDraws d).undefinedFlags.get b = s.undefinedFlags.get b := by
  cases b with
  | TF | IF | DF => rfl
  | _ => exact absurd (by decide) hb

/-- A shift draws CF only where it is undefined. -/
theorem ShiftOp.carry_getD (op : ShiftOp) (a : BitVec n) (c : Nat) (x y : Bool) (h : ¬ (op ≠ .sar ∧ n ≤ c)) :
    (op.carry a c).getD x = (op.carry a c).getD y := by
  cases op with
  | sar => rfl
  | shl | shr =>
    have hc : c < n := by simpa using h
    simp [ShiftOp.carry, hc]

theorem shiftFlags_defined {w : Width} (op : ShiftOp) (a : BitVec w.bits) {count : Byte}
    (hc : (count &&& 0x1F).toNat ≠ 0) (hb : b ∉ shiftUndefined op w count) :
    (op.flags f u a (count &&& 0x1F).toNat).get b = (op.flags f v a (count &&& 0x1F).toNat).get b := by
  rw [shiftUndefined] at hb
  generalize (count &&& 0x1F).toNat = c at hc hb ⊢
  rw [if_neg hc, List.mem_cons, List.mem_append, not_or, not_or] at hb
  obtain ⟨hAF, hOF, hCF⟩ := hb
  cases b with
  | AF => exact absurd rfl hAF
  | CF => exact op.carry_getD a c _ _ fun h => hCF (by rw [if_pos h]; exact List.mem_singleton.mpr rfl)
  | OF =>
    have h1 : c = 1 := by simpa using hOF
    simp [ShiftOp.flags, Flags.get, h1]
  | _ => rfl

end undefined

/-! ### The shared handlers that draw -/

section drawers
variable {w : Width} (s : State) (d : Nat)

theorem mulAcc_draws (src : Operand w) :
    DrawsAtMost [.SF, .ZF, .AF, .PF] (mulAcc src s) (mulAcc src (s.withDraws d)) := by
  refine .of_operand s (fun k h => ⟨mulAcc_error h, mulAcc_error (src.blocked_withDraws h)⟩) fun h => ?_
  rw [mulAcc_ok h, mulAcc_ok (src.accessible_withDraws h), src.value_withDraws]
  exact .ok (.endDraws d _ fun b hb => mulFlags_defined _ _ _ b _ hb)

theorem imulAcc_draws (src : Operand w) :
    DrawsAtMost [.SF, .ZF, .AF, .PF] (imulAcc src s) (imulAcc src (s.withDraws d)) := by
  refine .of_operand s (fun k h => ⟨imulAcc_error h, imulAcc_error (src.blocked_withDraws h)⟩) fun h => ?_
  rw [imulAcc_ok h, imulAcc_ok (src.accessible_withDraws h), src.value_withDraws]
  exact .ok (.endDraws d _ fun b hb => mulFlags_defined _ _ _ b _ hb)

theorem imulTo_draws (r : Reg) (src1 src2 : Operand w) :
    DrawsAtMost [.SF, .ZF, .AF, .PF] (imulTo r src1 src2 s) (imulTo r src1 src2 (s.withDraws d)) := by
  refine .of_operand s (fun k h => ⟨imulTo_error_fst r h, imulTo_error_fst r (src1.blocked_withDraws h)⟩) fun h1 => ?_
  have h1' := src1.accessible_withDraws (d := d) h1
  refine .of_operand s (fun k h => ⟨imulTo_error_snd r h1 h, imulTo_error_snd r h1' (src2.blocked_withDraws h)⟩)
    fun h2 => ?_
  rw [imulTo_ok r h1 h2, imulTo_ok r h1' (src2.accessible_withDraws h2), src1.value_withDraws, src2.value_withDraws]
  exact .ok (.endDraws d _ fun b hb => mulFlags_defined _ _ _ b _ hb)

theorem divide_draws (src : Operand w) :
    DrawsAtMost [.CF, .OF, .SF, .ZF, .AF, .PF] (divide src s) (divide src (s.withDraws d)) := by
  refine .of_operand s (fun k h => ⟨divide_error h, divide_error (src.blocked_withDraws h)⟩) fun h => ?_
  rw [divide_ok h, divide_ok (src.accessible_withDraws h), src.value_withDraws, readPair_withDraws]
  split
  · exact .error _
  · exact .ok (.endDraws d _ fun b => undefinedFlags_defined b s d)

theorem idivide_draws (src : Operand w) :
    DrawsAtMost [.CF, .OF, .SF, .ZF, .AF, .PF] (idivide src s) (idivide src (s.withDraws d)) := by
  refine .of_operand s (fun k h => ⟨idivide_error h, idivide_error (src.blocked_withDraws h)⟩) fun h => ?_
  rw [idivide_ok h, idivide_ok (src.accessible_withDraws h), src.value_withDraws, readPair_withDraws]
  split
  · exact .error _
  · exact .ok (.endDraws d _ fun b => undefinedFlags_defined b s d)

theorem shift_draws (op : ShiftOp) (dst : Operand w) (count : Byte) :
    DrawsAtMost (shiftUndefined op w count) (shift op dst count s) (shift op dst count (s.withDraws d)) := by
  refine .of_operand s (fun k h => ⟨shift_error op count h, shift_error op count (dst.blocked_withDraws h)⟩) fun h => ?_
  have h' := dst.accessible_withDraws (d := d) h
  by_cases hc : (count &&& 0x1F).toNat = 0
  · rw [shift_zero op h hc, shift_zero op h' hc]
    exact .ok (.withDraws d s)
  · rw [shift_ok op h hc, shift_ok op h' hc, dst.value_withDraws, dst.put_withFlags, dst.put_withFlags, dst.put_withDraws]
    exact .ok (.endDraws d _ fun b hb => shiftFlags_defined _ _ _ b op _ hc hb)

end drawers

/-! ### Instructions and the step -/

/-- Another draw counter decides nothing of the instruction's next state but the flags R208 names for it. -/
def DrawsOnlyUndefined (i : Instr) (s : State) : Prop :=
  ∀ d, ∃ t u, exec i s = .next t ∧ exec i (s.withDraws d) = .next u ∧ Redrawn (i.flagsUndefined s) t u

theorem drawsOnlyUndefined_of_handler {i : Instr} {s : State} {handler : State → Except FaultKind State}
    (he : ∀ u, exec i u = complete i handler u)
    (hd : ∀ u d, u.regs = s.regs → DrawsAtMost (i.flagsUndefined s) (handler u) (handler (u.withDraws d))) :
    DrawsOnlyUndefined i s := by
  intro d
  rw [he, he]
  rcases hd (s.atNext i) d rfl with ⟨k, h, h'⟩ | ⟨t, u, h, h', hr⟩
  · exact ⟨_, _, complete_error h, complete_error h', .withDraws d (s.raise k)⟩
  · exact ⟨_, _, complete_ok h, complete_ok h', hr⟩

theorem drawsOnlyUndefined_repMovs (w : Width) (p : Prefixes) (s : State) : DrawsOnlyUndefined (Width.repMovs w p) s := by
  intro d
  have hx (u : State) : exec (Width.repMovs w p) u = repeatMove w (Width.repMovs w p) u := by cases w <;> rfl
  rw [hx, hx, repeatMove, repeatMove, State.withDraws_regs, moveElements_withDraws]
  rcases moveElements w s.regs.ecx.toNat s with ⟨t, _ | k⟩
  · exact ⟨_, _, rfl, rfl, .withDraws d (t.atNext _)⟩
  · exact ⟨_, _, rfl, rfl, .withDraws d (t.raise k)⟩

theorem exec_drawsOnlyUndefined (i : Instr) (s : State) : DrawsOnlyUndefined i s := by
  cases i
  case repMovsb p => exact drawsOnlyUndefined_repMovs .byte p s
  case repMovsw p => exact drawsOnlyUndefined_repMovs .word p s
  case repMovsd p => exact drawsOnlyUndefined_repMovs .dword p s
  all_goals refine drawsOnlyUndefined_of_handler (fun _ => by rw [exec]; rfl) fun u d hu => ?_
  case mulEb | mulEv => exact mulAcc_draws ..
  case imulEb | imulEv => exact imulAcc_draws ..
  case imulGvEv | imulGvEvIz | imulGvEvIb => exact imulTo_draws ..
  case divEb | divEv => exact divide_draws ..
  case idivEb | idivEv => exact idivide_draws ..
  case shlEbIb | shlEvIb | shlEb1 | shlEv1 | shrEbIb | shrEvIb | shrEb1 | shrEv1 | sarEbIb | sarEvIb | sarEb1 | sarEv1 =>
    exact shift_draws ..
  case shlEbCl | shlEvCl | shrEbCl | shrEvCl | sarEbCl | sarEvCl =>
    rw [Instr.flagsUndefined, ← hu]
    exact shift_draws ..
  case addEbGb | addEvGv | addGbEb | addGvEv | addAlIb | addEaxIz | addEbIb | addEvIz | addEvIb
      | orEbGb | orEvGv | orGbEb | orGvEv | orAlIb | orEaxIz | orEbIb | orEvIz | orEvIb
      | adcEbGb | adcEvGv | adcGbEb | adcGvEv | adcAlIb | adcEaxIz | adcEbIb | adcEvIz | adcEvIb
      | sbbEbGb | sbbEvGv | sbbGbEb | sbbGvEv | sbbAlIb | sbbEaxIz | sbbEbIb | sbbEvIz | sbbEvIb
      | andEbGb | andEvGv | andGbEb | andGvEv | andAlIb | andEaxIz | andEbIb | andEvIz | andEvIb
      | subEbGb | subEvGv | subGbEb | subGvEv | subAlIb | subEaxIz | subEbIb | subEvIz | subEvIb
      | xorEbGb | xorEvGv | xorGbEb | xorGvEv | xorAlIb | xorEaxIz | xorEbIb | xorEvIz | xorEvIb
      | cmpEbGb | cmpEvGv | cmpGbEb | cmpGvEv | cmpAlIb | cmpEaxIz | cmpEbIb | cmpEvIz | cmpEvIb =>
    exact (alu_drawsNothing _ _ _).drawsAtMost u d
  case incR | incEb | incEv | decR | decEb | decEv | negEb | negEv =>
    exact (modify_drawsNothing _ _).drawsAtMost u d
  case notEb | notEv => exact (complement_drawsNothing _).drawsAtMost u d
  case testEbGb | testEvGv | testAlIb | testEaxIz | testEbIb | testEvIz =>
    exact (test_drawsNothing _ _).drawsAtMost u d
  case movEbGb | movEvGv | movGbEb | movGvEv | movAlOb | movEaxOv | movObAl | movOvEax | movRbIb | movRvIz | movEbIb
      | movEvIz | movsxdGvEv =>
    exact (move_drawsNothing _ _).drawsAtMost u d
  case movzxGvEb | movzxGvEw => exact (moveZeroExtend_drawsNothing _ _).drawsAtMost u d
  case movsxGvEb | movsxGvEw => exact (moveSignExtend_drawsNothing _ _).drawsAtMost u d
  case xchgEbGb | xchgEvGv | xchgEaxR => exact (exchange_drawsNothing _ _).drawsAtMost u d
  case joRel8 | jnoRel8 | jbRel8 | jaeRel8 | jeRel8 | jneRel8 | jbeRel8 | jaRel8 | jsRel8 | jnsRel8 | jpRel8 | jnpRel8
      | jlRel8 | jgeRel8 | jleRel8 | jgRel8 | joRel32 | jnoRel32 | jbRel32 | jaeRel32 | jeRel32 | jneRel32 | jbeRel32
      | jaRel32 | jsRel32 | jnsRel32 | jpRel32 | jnpRel32 | jlRel32 | jgeRel32 | jleRel32 | jgRel32 =>
    exact (jumpIf_drawsNothing _ _).drawsAtMost u d
  case jmpEv => exact (jumpVia_drawsNothing _).drawsAtMost u d
  case callRel32 => exact (callTo_drawsNothing _).drawsAtMost u d
  case callEv => exact (callVia_drawsNothing _).drawsAtMost u d
  case ret => exact returnNear_drawsNothing.drawsAtMost u d
  case retIw => exact (returnAdjust_drawsNothing _).drawsAtMost u d
  case pushR | pushIz | pushIb => exact (push_drawsNothing _).drawsAtMost u d
  case pushEv => exact (pushFrom_drawsNothing _).drawsAtMost u d
  case popR | popEv => exact (popTo_drawsNothing fun _ _ => rfl).drawsAtMost u d
  case leave => exact leaveFrame_drawsNothing.drawsAtMost u d
  case movsb | movsw | movsd => exact (moveElement_drawsNothing _).drawsAtMost u d
  case int80 => exact syscallGate_drawsNothing.drawsAtMost u d
  case nop | cmc | clc | stc | cli | sti | cld | std | jmpRel8 | jmpRel32 | leaGvM | cwde | cbw | cdq | cwd =>
    exact .ok (.withDraws d _)

/-- What another draw counter decides of a step. -/
theorem step_withDraws {s t : State} (d : Nat) (he : step s = .next t) :
    ∃ u fl, step (s.withDraws d) = .next u ∧ Redrawn fl t u ∧
      ∀ f ∈ fl, ∃ i, s.fetchDecode = .ok i ∧ f ∈ i.flagsUndefined s := by
  have hr := (step_cases s t he).1
  have hr' : (s.withDraws d).run = .running := hr
  rcases hf : s.fetchDecode with (k | _) | i
  · cases (step_of_fetchFault hr hf).symm.trans he
    exact ⟨_, [], step_of_fetchFault (s := s.withDraws d) hr' hf, .withDraws d (s.raise k), by simp⟩
  · cases (step_of_endless hr hf).symm.trans he
    exact ⟨_, [], step_of_endless (s := s.withDraws d) hr' hf, .withDraws d s, by simp⟩
  · obtain ⟨t', u, ht, hu, hut⟩ := exec_drawsOnlyUndefined i s d
    rw [step_of_fetchDecode hr hf] at he
    cases ht.symm.trans he
    exact ⟨u, _, (step_of_fetchDecode (s := s.withDraws d) hr' hf).trans hu, hut, fun f h => ⟨i, rfl, h⟩⟩

/-- Settles O60: the next states differ in the draw counter and in the flags the handler drew, which R208 names. -/
theorem drawsDecideOnlyUndefinedFlags : Obligations.DrawsDecideOnlyUndefinedFlags := by
  intro s t d he
  obtain ⟨_, fl, hu, ⟨g, d', rfl, hg⟩, hfl⟩ := step_withDraws d he
  refine ⟨_, hu, rfl, rfl, rfl, rfl, rfl, rfl, rfl, rfl, rfl, fun f => ?_⟩
  by_cases hf : f ∈ fl
  · exact .inr (hfl f hf)
  · exact .inl (hg f hf)

end Sys2Proof.Machine
end

section
/-! PROOF. The sixteen conditions (40_alu_flags.md R230, R231). -/

namespace Sys2Proof.Machine

/-- The row of R230 for each condition. -/
theorem Cond.holds_iff (c : Cond) (f : Flags) :
    c.holds f = true ↔
      match c with
      | .o => f.OF = true | .no => f.OF = false | .b => f.CF = true | .ae => f.CF = false
      | .e => f.ZF = true | .ne => f.ZF = false | .be => f.CF = true ∨ f.ZF = true
      | .a => f.CF = false ∧ f.ZF = false | .s => f.SF = true | .ns => f.SF = false
      | .p => f.PF = true | .np => f.PF = false | .l => f.SF ≠ f.OF | .ge => f.SF = f.OF
      | .le => f.ZF = true ∨ f.SF ≠ f.OF | .g => f.ZF = false ∧ f.SF = f.OF := by
  cases c <;> simp [Cond.holds]

/-- What the conditions read. -/
theorem Cond.holds_congr (c : Cond) {f g : Flags} (hCF : g.CF = f.CF) (hZF : g.ZF = f.ZF) (hSF : g.SF = f.SF)
    (hOF : g.OF = f.OF) (hPF : g.PF = f.PF) : c.holds g = c.holds f := by
  cases c <;> simp only [Cond.holds, hCF, hZF, hSF, hOF, hPF]

theorem Cond.opposite_code (c : Cond) : c.opposite.code = c.code ^^^ 1 := by cases c <;> rfl

theorem Cond.opposite_holds (c : Cond) (f : Flags) : c.opposite.holds f = !c.holds f := by
  cases c <;> simp [Cond.opposite, Cond.holds, bne]

theorem Cond.encode_jcc8 (c : Cond) (rel : Byte) : encode (c.jcc8 [] rel) = [0x70 + c.code, rel] := by cases c <;> rfl

theorem Cond.encode_jcc32 (c : Cond) (rel : Word) :
    encode (c.jcc32 [] rel) = 0x0F :: (0x80 + c.code) :: leBytes 4 rel.toNat := by cases c <;> rfl

theorem Cond.wf_jcc8 (c : Cond) (rel : Byte) : (c.jcc8 [] rel).wf = true := by cases c <;> rfl

theorem Cond.wf_jcc32 (c : Cond) (rel : Word) : (c.jcc32 [] rel).wf = true := by cases c <;> rfl

/-- Settles O29: the table row by row, and both branches on a condition decode because their bytes are their encoding. -/
theorem conditionCodesFollowTheTable : Obligations.ConditionCodesFollowTheTable := fun c f =>
  ⟨c.holds_iff f, fun _ => c.holds_congr, c.opposite_code, c.opposite_holds f,
    fun rel => decode_of_encode (c.wf_jcc8 rel) (c.encode_jcc8 rel),
    fun rel => decode_of_encode (c.wf_jcc32 rel) (c.encode_jcc32 rel)⟩

end Sys2Proof.Machine
end

section
/-! PROOF. The binary ALU operations, INC and DEC (40_alu_flags.md R206, R215, R216): each is its handler on the operands of
its form. -/

namespace Sys2Proof.Machine

/-! ### Results -/

theorem addFlags_fst {n : Nat} (f : Flags) (a b : BitVec n) (c : Bool) :
    (addFlags f a b c).1 = a + b + BitVec.ofNat n c.toNat := by
  simp [addFlags, BitVec.ofNat_add]

theorem subFlags_fst {n : Nat} (f : Flags) (a b : BitVec n) (c : Bool) :
    (subFlags f a b c).1 = a - b - BitVec.ofNat n c.toNat := by
  simp [subFlags, Int.sub_eq_add_neg, BitVec.ofInt_add, BitVec.ofInt_neg, BitVec.sub_eq_add_neg]

/-- The result of each operation (42_arithmetic.md R300 to R308, 43_logical.md R350 to R354). -/
theorem AluOp.apply_fst {n : Nat} (op : AluOp) (f : Flags) (a b : BitVec n) :
    (op.apply f a b).1 = op.result f.CF a b := by
  cases op with
  | add => exact (addFlags_fst ..).trans (BitVec.add_zero _)
  | sub | cmp => exact (subFlags_fst ..).trans (BitVec.sub_zero _)
  | adc => exact addFlags_fst ..
  | sbb => exact subFlags_fst ..
  | and | or | xor => rfl

/-! ### The forms -/

/-- The table of R215: each form of each operation is the template on its two operands. -/
theorem exec_aluInstr (op : AluOp) (form : AluForm) (s : State) :
    exec (op.instr form) s = complete (op.instr form) (fun t => alu op (form.dst t) (form.src t) t) s := by
  cases op <;> cases form <;> rfl

/-- At most one operand of a form is memory. -/
theorem AluForm.dst_accessible {form : AluForm} {s t : State} {k : FaultKind} (h : (form.src s).blocked t k) :
    (form.dst s).accessible t := by
  cases form with
  | gbEb p rm r | gvEv p rm r => trivial
  | _ => exact h.elim

theorem exec_alu_ok (op : AluOp) (form : AluForm) {s t : State} (ht : s.atNext (op.instr form) = t)
    (hd : (form.dst t).accessible t) (hs : (form.src t).accessible t) :
    exec (op.instr form) s =
      .next (if op = .cmp then t.withFlags (op.apply t.flags ((form.dst t).value t) ((form.src t).value t)).2
        else (form.dst t).put (op.result t.flags.CF ((form.dst t).value t) ((form.src t).value t))
          (t.withFlags (op.apply t.flags ((form.dst t).value t) ((form.src t).value t)).2)) := by
  subst ht
  rw [← AluOp.apply_fst]
  exact exec_of_ok (exec_aluInstr op form s) (alu_ok op hd hs)

theorem exec_alu_blocked (op : AluOp) (form : AluForm) {s t : State} {k : FaultKind} (ht : s.atNext (op.instr form) = t)
    (h : (form.dst t).blocked t k ∨ (form.src t).blocked t k) : exec (op.instr form) s = .next (s.raise k) := by
  subst ht
  refine exec_of_error (exec_aluInstr op form s) ?_
  rcases h with h | h
  · exact alu_error_dst op h
  · exact alu_error op (AluForm.dst_accessible h) h

/-- Settles O30: `exec_alu_ok` and `exec_alu_blocked`. -/
theorem binaryAluCompletes : Obligations.BinaryAluCompletes := fun op form _ =>
  ⟨exec_alu_ok op form rfl, fun _ => exec_alu_blocked op form rfl⟩

/-! ### INC and DEC -/

theorem exec_inc (form : UnaryForm) (s : State) :
    exec (UnaryOp.inc.instr form) s = complete (UnaryOp.inc.instr form) (fun t => increment (form.operand t) t) s := by
  cases form <;> rfl

theorem exec_dec (form : UnaryForm) (s : State) :
    exec (UnaryOp.dec.instr form) s = complete (UnaryOp.dec.instr form) (fun t => decrement (form.operand t) t) s := by
  cases form <;> rfl

theorem increment_ok {w : Width} {dst : Operand w} {s : State} (h : dst.accessible s) :
    increment dst s =
      .ok (dst.put (dst.value s + 1)
        (s.withFlags { (AluOp.add.apply s.flags (dst.value s) 1).2 with CF := s.flags.CF })) := by
  rw [increment, modify_ok incFlags h]
  exact congrArg (fun r => Except.ok (dst.put r _)) (AluOp.add.apply_fst s.flags (dst.value s) 1)

theorem decrement_ok {w : Width} {dst : Operand w} {s : State} (h : dst.accessible s) :
    decrement dst s =
      .ok (dst.put (dst.value s - 1)
        (s.withFlags { (AluOp.sub.apply s.flags (dst.value s) 1).2 with CF := s.flags.CF })) := by
  rw [decrement, modify_ok decFlags h]
  exact congrArg (fun r => Except.ok (dst.put r _)) (AluOp.sub.apply_fst s.flags (dst.value s) 1)

/-- Settles O36: the addition and the subtraction of 1 by the shared engine, with CF put back. -/
theorem incrementAndDecrementComplete : Obligations.IncrementAndDecrementComplete :=
  ⟨fun form s => ⟨fun h => exec_of_ok (exec_inc form s) (increment_ok h),
      fun h => exec_of_ok (exec_dec form s) (decrement_ok h)⟩,
    fun _ r _ => ⟨complete_ok (increment_ok (dst := .reg r) trivial),
      complete_ok (decrement_ok (dst := .reg r) trivial)⟩⟩

end Sys2Proof.Machine
end

section
/-! PROOF. What the flags of the binary ALU operations mean (40_alu_flags.md R200 to R205, R232): each flag of the engine,
computed bit by bit, as a statement over the integers. -/

namespace Sys2Proof.Machine

/-! ### SF, ZF and PF -/

theorem popcount_setWidth {n : Nat} (r : BitVec n) :
    popcount (r.setWidth 8) = (List.range 8).countP fun k => r.getLsbD k := by
  simp [popcount, List.range_succ, List.countP_cons, Bool.toNat, Bool.cond_eq_ite]
  ring

/-- `SZP` over the integers (R201). -/
theorem Flags.szp_eq {n : Nat} (f : Flags) (r : BitVec n) :
    f.szp r = { f with SF := decide (r.toInt < 0), ZF := decide (r.toNat = 0), PF := evenParity r } := by
  have hZF : (r == 0) = decide (r.toNat = 0) := by
    rw [Bool.eq_iff_iff, beq_iff_eq, decide_eq_true_iff, BitVec.toNat_eq, BitVec.ofNat_eq_ofNat, BitVec.toNat_ofNat,
      Nat.zero_mod]
  rw [Flags.szp, BitVec.msb_eq_toInt, hZF, popcount_setWidth, evenParity]

/-- Settles O27: LogicFlags on the result of each of the three operations. -/
theorem logicFlagsKeepAdjust : Obligations.LogicFlagsKeepAdjust := by
  rintro w f a b op (rfl | rfl | rfl)
  all_goals
    show (logicFlags f _).2 = _
    rw [logicFlags, Flags.szp_eq]
    rfl

/-! ### Bit 4 and the sign bit over the integers -/

theorem getLsbD_four {n : Nat} (x : BitVec n) : x.getLsbD 4 = decide (x.toNat / 16 % 2 = 1) := by
  rw [BitVec.getLsbD, Nat.testBit_eq_decide_div_mod_eq]

theorem xor_decide (p q : Prop) [Decidable p] [Decidable q] : (decide p ^^ decide q) = decide (¬ (p ↔ q)) := by
  by_cases hp : p <;> by_cases hq : q <;> simp [hp, hq]

section operands
variable {w : Width} (a b : BitVec w.bits) (c : Bool)

/-- The carry out of bit 3 is what bit 4 of the sum has beyond those of the operands (R202). -/
theorem add_adjust : (a ^^^ b ^^^ BitVec.ofNat w.bits (a.toNat + b.toNat + c.toNat)).getLsbD 4 =
    decide (16 ≤ a.toNat % 16 + b.toNat % 16 + c.toNat) := by
  have hc := c.toNat_le
  rw [BitVec.getLsbD_xor, BitVec.getLsbD_xor, getLsbD_four, getLsbD_four, getLsbD_four, xor_decide, xor_decide,
    BitVec.toNat_ofNat, decide_eq_decide]
  cases w <;> simp only [Width.bits] <;> omega

/-- Signed overflow of a sum: both operands have the sign the result has not (R203). -/
theorem add_overflow : ((a ^^^ BitVec.ofNat w.bits (a.toNat + b.toNat + c.toNat)) &&&
      (b ^^^ BitVec.ofNat w.bits (a.toNat + b.toNat + c.toNat))).msb =
    decide (a.toInt + b.toInt + c.toNat < -2 ^ (w.bits - 1) ∨ 2 ^ (w.bits - 1) ≤ a.toInt + b.toInt + c.toNat) := by
  have hc := c.toNat_le
  have ha := a.isLt
  have hb := b.isLt
  rw [BitVec.msb_and, BitVec.msb_xor, BitVec.msb_xor, BitVec.msb_eq_decide, BitVec.msb_eq_decide, BitVec.msb_eq_decide,
    xor_decide, xor_decide, ← Bool.decide_and, decide_eq_decide, BitVec.toInt_eq_toNat_cond, BitVec.toInt_eq_toNat_cond,
    BitVec.toNat_ofNat]
  cases w <;> simp only [Width.bits] at * <;> omega

/-- The borrow into bit 3 (R202). -/
theorem sub_adjust : (a ^^^ b ^^^ BitVec.ofInt w.bits (a.toNat - b.toNat - c.toNat)).getLsbD 4 =
    decide (a.toNat % 16 < b.toNat % 16 + c.toNat) := by
  have hc := c.toNat_le
  rw [BitVec.getLsbD_xor, BitVec.getLsbD_xor, getLsbD_four, getLsbD_four, getLsbD_four, xor_decide, xor_decide,
    BitVec.toNat_ofInt, decide_eq_decide]
  cases w <;> simp only [Width.bits] <;> omega

/-- Signed overflow of a difference: the operands have different signs, and the result that of the second (R204). -/
theorem sub_overflow : ((a ^^^ b) &&& (a ^^^ BitVec.ofInt w.bits (a.toNat - b.toNat - c.toNat))).msb =
    decide (a.toInt - b.toInt - c.toNat < -2 ^ (w.bits - 1) ∨ 2 ^ (w.bits - 1) ≤ a.toInt - b.toInt - c.toNat) := by
  have hc := c.toNat_le
  have ha := a.isLt
  have hb := b.isLt
  rw [BitVec.msb_and, BitVec.msb_xor, BitVec.msb_xor, BitVec.msb_eq_decide, BitVec.msb_eq_decide, BitVec.msb_eq_decide,
    xor_decide, xor_decide, ← Bool.decide_and, decide_eq_decide, BitVec.toInt_eq_toNat_cond, BitVec.toInt_eq_toNat_cond,
    BitVec.toNat_ofInt]
  cases w <;> simp only [Width.bits] at * <;> omega

end operands

/-! ### What the engine computes -/

/-- `AddFlags` over the integers (R201 to R203). -/
theorem addFlags_eq {w : Width} (f : Flags) (a b : BitVec w.bits) (c : Bool) :
    (addFlags f a b c).1.toNat = (a.toNat + b.toNat + c.toNat) % 2 ^ w.bits ∧
    (addFlags f a b c).2 =
      { f with
        CF := decide (2 ^ w.bits ≤ a.toNat + b.toNat + c.toNat)
        OF := decide (a.toInt + b.toInt + c.toNat < -2 ^ (w.bits - 1) ∨
          2 ^ (w.bits - 1) ≤ a.toInt + b.toInt + c.toNat)
        AF := decide (16 ≤ a.toNat % 16 + b.toNat % 16 + c.toNat)
        SF := decide ((addFlags f a b c).1.toInt < 0), ZF := decide ((addFlags f a b c).1.toNat = 0)
        PF := evenParity (addFlags f a b c).1 } := by
  refine ⟨BitVec.toNat_ofNat .., ?_⟩
  have hCF : decide (a.toNat + b.toNat + c.toNat > 2 ^ w.bits - 1) =
      decide (2 ^ w.bits ≤ a.toNat + b.toNat + c.toNat) := by
    have := Nat.two_pow_pos w.bits
    rw [decide_eq_decide]
    omega
  simp only [addFlags, Flags.szp_eq, add_adjust, add_overflow, hCF]

/-- `SubFlags` over the integers (R201, R202, R204). -/
theorem subFlags_eq {w : Width} (f : Flags) (a b : BitVec w.bits) (c : Bool) :
    ((subFlags f a b c).1.toNat : Int) = ((a.toNat : Int) - b.toNat - c.toNat) % 2 ^ w.bits ∧
    (subFlags f a b c).2 =
      { f with
        CF := decide (a.toNat < b.toNat + c.toNat)
        OF := decide (a.toInt - b.toInt - c.toNat < -2 ^ (w.bits - 1) ∨
          2 ^ (w.bits - 1) ≤ a.toInt - b.toInt - c.toNat)
        AF := decide (a.toNat % 16 < b.toNat % 16 + c.toNat)
        SF := decide ((subFlags f a b c).1.toInt < 0), ZF := decide ((subFlags f a b c).1.toNat = 0)
        PF := evenParity (subFlags f a b c).1 } := by
  refine ⟨?_, ?_⟩
  · have := Nat.two_pow_pos w.bits
    rw [subFlags, BitVec.toNat_ofInt, Int.toNat_of_nonneg (Int.emod_nonneg _ (by omega)), Nat.cast_pow, Nat.cast_ofNat]
  · simp only [subFlags, Flags.szp_eq, sub_adjust, sub_overflow]

/-- Settles O25: both operations are AddFlags, each with its carry in. -/
theorem additionFlagsMeanOverflow : Obligations.AdditionFlagsMeanOverflow := by
  rintro w f a b op c (⟨rfl, rfl⟩ | ⟨rfl, rfl⟩)
  · exact addFlags_eq f a b false
  · exact addFlags_eq f a b f.CF

/-- Settles O26: the three operations are SubFlags, each with its borrow in. -/
theorem subtractionFlagsMeanBorrow : Obligations.SubtractionFlagsMeanBorrow := by
  rintro w f a b op c (⟨rfl | rfl, rfl⟩ | ⟨rfl, rfl⟩)
  · exact subFlags_eq f a b false
  · exact subFlags_eq f a b false
  · exact subFlags_eq f a b f.CF

/-! ### CMP (R232) -/

section compare
variable {w : Width} (f : Flags) (a b : BitVec w.bits)

theorem cmp_ZF : (AluOp.cmp.apply f a b).2.ZF = decide (a = b) := by
  obtain ⟨hr, hf⟩ := subFlags_eq f a b false
  have ha := a.isLt
  have hb := b.isLt
  rw [AluOp.apply, hf, decide_eq_decide, ← BitVec.toNat_inj]
  generalize (subFlags f a b false).1.toNat = r at hr
  cases w <;> simp only [Width.bits, Bool.toNat_false] at * <;> omega

theorem cmp_CF : (AluOp.cmp.apply f a b).2.CF = decide (a.toNat < b.toNat) := by
  rw [AluOp.apply, (subFlags_eq f a b false).2]
  rfl

/-- SF and OF differ exactly when the difference, taken over the integers, is negative. -/
theorem cmp_less : Cond.l.holds (AluOp.cmp.apply f a b).2 = decide (a.toInt < b.toInt) := by
  obtain ⟨hr, hf⟩ := subFlags_eq f a b false
  have ha := a.isLt
  have hb := b.isLt
  rw [Cond.holds, AluOp.apply, hf, Bool.bne_eq_xor, xor_decide, decide_eq_decide, BitVec.toInt_eq_toNat_cond,
    BitVec.toInt_eq_toNat_cond, BitVec.toInt_eq_toNat_cond]
  generalize (subFlags f a b false).1.toNat = r at hr
  cases w <;> simp only [Width.bits, Bool.toNat_false] at * <;> omega

/-- A comparison writes the flags or faults; neither touches a register or memory. -/
theorem exec_cmp_kept {form : AluForm} {s t : State} (he : exec (AluOp.cmp.instr form) s = .next t) :
    t.regs = s.regs ∧ t.mem = s.mem := by
  rcases (form.dst (s.atNext _)).accessible_or_blocked (s.atNext _) with hd | ⟨k, hd⟩
  · rcases (form.src (s.atNext _)).accessible_or_blocked (s.atNext _) with hs | ⟨k, hs⟩
    · have h := exec_alu_ok .cmp form rfl hd hs
      rw [if_pos rfl] at h
      cases h.symm.trans he
      exact ⟨rfl, rfl⟩
    · cases (exec_alu_blocked .cmp form rfl (.inr hs)).symm.trans he
      exact ⟨rfl, rfl⟩
  · cases (exec_alu_blocked .cmp form rfl (.inl hd)).symm.trans he
    exact ⟨rfl, rfl⟩

end compare

/-- Settles O28: the flags of the difference decide each order, and no end of a comparison writes. -/
theorem compareDecidesTheOrder : Obligations.CompareDecidesTheOrder :=
  ⟨fun _ f a b => ⟨cmp_ZF f a b, cmp_CF f a b, rfl, cmp_CF f a b, cmp_less f a b, cmp_ZF f a b⟩,
    fun _ _ _ => exec_cmp_kept⟩

end Sys2Proof.Machine
end

section
/-! PROOF. Data movement (41_data_movement.md R251 to R275) and the sign extensions of the accumulator (42_arithmetic.md
R335, R337): each form is its handler on the operands of its rule. -/

namespace Sys2Proof.Machine

/-! ### MOV and MOVSXD -/

/-- The table of R251 to R256 and R264: each form is the copy between its two operands. -/
theorem exec_moveInstr (form : MoveForm) (s : State) :
    exec form.instr s = complete form.instr (fun t => move (form.dst t) (form.src t) t) s := by
  cases form <;> rfl

/-- At most one operand of a form is memory, so a fault at the destination comes after a source that was read. -/
theorem MoveForm.src_accessible {form : MoveForm} {s t : State} {k : FaultKind} (h : (form.dst s).blocked t k) :
    (form.src s).accessible t := by
  cases form with
  | gbEb | gvEv | alOb | eaxOv | sxd => exact h.elim
  | ebGb | evGv | obAl | ovEax | rbIb | rvIz | ebIb | evIz => trivial

/-- Settles O32: the shared copy, from the one operand that may be memory or to it. -/
theorem moveCompletes : Obligations.MoveCompletes := by
  intro form s t
  refine ⟨fun hd hs => exec_of_ok (exec_moveInstr form s) (move_ok hd hs), fun k h => ?_⟩
  refine exec_of_error (exec_moveInstr form s) ?_
  rcases h with hd | hs
  · exact move_error_dst (MoveForm.src_accessible hd) hd
  · exact move_error_src hs

/-! ### MOVZX and MOVSX -/

section widening
variable {w ws : Width} {src : Operand ws} {s : State} (r : Reg)

/-- Zero extension keeps the unsigned value (R262). -/
theorem moveZeroExtend_toNat (h : src.accessible s) :
    moveZeroExtend w r src s = .ok (s.regWrite r w (BitVec.ofNat w.bits (src.value s).toNat)) := by
  rw [moveZeroExtend_ok r h, BitVec.ofNat_toNat]

/-- Sign extension keeps the signed value (R263). -/
theorem moveSignExtend_toInt (h : src.accessible s) :
    moveSignExtend w r src s = .ok (s.regWrite r w (BitVec.ofInt w.bits (src.value s).toInt)) := by
  rw [moveSignExtend_ok r h, BitVec.signExtend]

end widening

/-- Settles O33: the widening handlers, at both source widths. -/
theorem wideningMovesComplete : Obligations.WideningMovesComplete := fun _ _ r _ =>
  ⟨fun h => complete_ok (moveZeroExtend_toNat r h), fun h => complete_ok (moveZeroExtend_toNat r h),
    fun h => complete_ok (moveSignExtend_toInt r h), fun h => complete_ok (moveSignExtend_toInt r h)⟩

/-! ### XCHG -/

/-- Settles O34: the exchange of an accessible operand with a register, which is always accessible. -/
theorem exchangeCompletes : Obligations.ExchangeCompletes := fun _ _ r _ =>
  ⟨fun h => complete_ok (exchange_ok (op2 := .reg r) h trivial),
    fun h => complete_ok (exchange_ok (op2 := .reg r) h trivial),
    complete_ok (exchange_ok (op1 := .reg .eax) (op2 := .reg r) trivial trivial)⟩

/-! ### LEA and the sign extensions of the accumulator -/

theorem loadAddress_toNat (w : Width) (r : Reg) (ea : Word) (s : State) :
    loadAddress w r ea s = .ok (s.regWrite r w (BitVec.ofNat w.bits ea.toNat)) := by
  rw [loadAddress, BitVec.ofNat_toNat]

theorem signExtendAcc_toInt (ws w : Width) (s : State) :
    signExtendAcc ws w s = s.regWrite .eax w (BitVec.ofInt w.bits (s.regRead .eax ws).toInt) := by
  rw [signExtendAcc, BitVec.signExtend]

/-- The sign bit is set exactly where the signed value is negative (R337). -/
theorem signFill_toInt (w : Width) (s : State) :
    signFill w s = s.regWrite .edx w (if (s.regRead .eax w).toInt < 0 then BitVec.allOnes w.bits else 0) := by
  simp only [signFill, BitVec.msb_eq_toInt, decide_eq_true_eq]

/-- Settles O35: no case accesses memory, so none can fault. -/
theorem leaAndSignExtensionComplete : Obligations.LeaAndSignExtensionComplete := fun p s =>
  ⟨fun r _ => complete_ok (loadAddress_toNat p.osz r _ _),
    congrArg Host.Outcome.next (signExtendAcc_toInt .word .dword (s.atNext (.cwde p))),
    congrArg Host.Outcome.next (signExtendAcc_toInt .byte .word (s.atNext (.cbw p))),
    congrArg Host.Outcome.next (signFill_toInt .dword (s.atNext (.cdq p))),
    congrArg Host.Outcome.next (signFill_toInt .word (s.atNext (.cwd p)))⟩

end Sys2Proof.Machine
end

section
/-! PROOF. NEG, NOT, multiplication and division (42_arithmetic.md R314 to R329, 43_logical.md R356): each form is its
handler on its operand, and the halves of the accumulator pair are one number. -/

namespace Sys2Proof.Machine

/-! ### The forms -/

/-- The handler of each operation with one r/m operand. -/
def UnaryOp.handler {w : Width} : UnaryOp → Operand w → State → Except FaultKind State
  | .inc => increment
  | .dec => decrement
  | .not => complement
  | .neg => negate
  | .mul => mulAcc
  | .imul => imulAcc
  | .div => divide
  | .idiv => idivide

theorem exec_unaryInstr (op : UnaryOp) (form : UnaryForm) (s : State) :
    exec (op.instr form) s = complete (op.instr form) (fun t => op.handler (form.operand t) t) s := by
  cases op <;> cases form <;> rfl

/-! ### NEG and NOT -/

section negate
variable {w : Width} {dst : Operand w} {s : State}

theorem negate_ok (h : dst.accessible s) :
    negate dst s = .ok (dst.put (-(dst.value s)) (s.withFlags (AluOp.sub.apply s.flags 0 (dst.value s)).2)) := by
  have hr : (AluOp.sub.apply s.flags 0 (dst.value s)).1 = -(dst.value s) :=
    (AluOp.sub.apply_fst ..).trans (BitVec.zero_sub _)
  rw [negate, modify_ok _ h, ← hr]
  rfl

/-- Every number but 0 borrows when it is taken from 0 (R314). -/
theorem zero_sub_CF (f : Flags) (a : BitVec w.bits) : (AluOp.sub.apply f 0 a).2.CF = decide (a ≠ 0) :=
  (cmp_CF f 0 a).trans (decide_eq_decide.mpr (BitVec.pos_iff_ne_zero a))

/-- The complement is the distance to the largest number of the width (R356). -/
theorem complement_toNat (h : dst.accessible s) :
    complement dst s = .ok (dst.put (BitVec.ofNat w.bits (2 ^ w.bits - 1 - (dst.value s).toNat)) s) := by
  rw [complement_ok h, ← BitVec.toNat_not, BitVec.ofNat_toNat, BitVec.setWidth_eq]

end negate

/-- Settles O37: NEG is the shared subtraction from 0, and NOT writes no flag. -/
theorem negateAndComplementComplete : Obligations.NegateAndComplementComplete := fun form s =>
  ⟨fun h => ⟨exec_of_ok (exec_unaryInstr .neg form s) (negate_ok h), zero_sub_CF _ _⟩,
    fun h => exec_of_ok (exec_unaryInstr .not form s) (complement_toNat h)⟩

/-! ### The accumulator pair -/

/-- The halves of the pair do not overlap: at width 1 they are AH and AL, else two registers (10_state.md R36). -/
theorem regRead_eax_writeHigh (w : Width) (v : BitVec w.bits) (s : State) :
    (s.regWrite (highIndex w) w v).regRead .eax w = s.regRead .eax w := by
  cases w with
  | byte =>
    refine BitVec.eq_of_getLsbD_eq fun k hk => ?_
    have hlow : ¬ viewOffset (highIndex .byte) .byte ≤ viewOffset .eax .byte + k := by
      change ¬ 8 ≤ 0 + k
      have hk : k < 8 := hk
      omega
    simp only [State.regRead, State.regWrite_regs]
    rw [Regs.getLsbD_read, Regs.getLsbD_read, Regs.getLsbD_write, if_neg fun ⟨_, h, _⟩ => hlow h]
  | word => exact Regs.read_write_ne s.regs .edx .eax .word .word v (by decide)
  | dword => exact Regs.read_write_ne s.regs .edx .eax .dword .dword v (by decide)

section pair
variable {w : Width} (high low : BitVec w.bits) (s : State)

theorem regRead_high_writePair : (writePair w high low s).regRead (highIndex w) w = high := Regs.read_write ..

theorem regRead_eax_writePair : (writePair w high low s).regRead .eax w = low :=
  (regRead_eax_writeHigh ..).trans (Regs.read_write ..)

end pair

/-- The dividend of IDIV as a number (R329). -/
theorem readPair_toInt (w : Width) (s : State) :
    (readPair w s).toInt = (s.regRead (highIndex w) w).toInt * 2 ^ w.bits + (s.regRead .eax w).toNat := by
  rw [readPair, BitVec.toInt_append, if_neg (by cases w <;> decide), Int.mul_comm]

/-! ### MUL and IMUL -/

section multiply
variable {w : Width} (a b : BitVec w.bits) (s : State)

/-- The pair holds the unsigned product that is written to it in two halves (R320). -/
theorem readPair_writeProduct_toNat :
    (readPair w (writePair w (BitVec.ofNat w.bits (a.toNat * b.toNat / 2 ^ w.bits))
      (BitVec.ofNat w.bits (a.toNat * b.toNat)) s)).toNat = a.toNat * b.toNat := by
  have hhigh : a.toNat * b.toNat / 2 ^ w.bits < 2 ^ w.bits :=
    Nat.div_lt_of_lt_mul (Nat.mul_lt_mul'' a.isLt b.isLt)
  rw [readPair_toNat, regRead_high_writePair, regRead_eax_writePair, BitVec.toNat_ofNat, BitVec.toNat_ofNat,
    Nat.mod_eq_of_lt hhigh, Nat.div_add_mod']

/-- The pair holds the signed product that is written to it in two halves (R322). -/
theorem readPair_writeProduct_toInt :
    (readPair w (writePair w (BitVec.ofInt w.bits (a.toInt * b.toInt / 2 ^ w.bits))
      (BitVec.ofInt w.bits (a.toInt * b.toInt)) s)).toInt = a.toInt * b.toInt := by
  have hle : a.toInt * b.toInt ≤ 2 ^ (w.bits * 2 - 2) := BitVec.toInt_mul_toInt_le
  have hge : -(2 ^ (w.bits * 2 - 2)) ≤ a.toInt * b.toInt := BitVec.le_toInt_mul_toInt
  rw [readPair_toInt, regRead_high_writePair, regRead_eax_writePair, BitVec.toNat_ofInt]
  generalize a.toInt * b.toInt = p at *
  have hhigh : (BitVec.ofInt w.bits (p / 2 ^ w.bits)).toInt = p / 2 ^ w.bits := by
    apply BitVec.toInt_ofInt_eq_self <;> cases w <;> simp only [Width.bits] at * <;> omega
  rw [hhigh]
  cases w <;> simp only [Width.bits] <;> omega

end multiply

theorem mulFlags_undefined (s : State) (o : Bool) :
    mulFlags s.flags s.undefinedFlags o = { s.undefinedFlags with CF := o, OF := o } := rfl

/-- The high half of a product is 0 exactly when the product fits the low half (R320). -/
theorem high_ne_zero (n p : Nat) : (p / 2 ^ n != 0) = decide (2 ^ n ≤ p) := by
  rw [Bool.eq_iff_iff, bne_iff_ne, decide_eq_true_iff, Ne, Nat.div_eq_zero_iff_lt (Nat.two_pow_pos n), Nat.not_lt]

theorem not_fitsSigned (n : Nat) (p : Int) :
    (!fitsSigned n p) = decide (p < -2 ^ (n - 1) ∨ 2 ^ (n - 1) - 1 < p) := by
  rw [fitsSigned, ← decide_not, decide_eq_decide, not_and_or, Int.not_le, Int.not_le]

/-- Settles O38: the handlers write the two halves of the product, and the pair reads as the product. -/
theorem multiplyCompletes : Obligations.MultiplyCompletes := by
  refine fun form s => ⟨fun h => ⟨_, exec_of_ok (exec_unaryInstr .mul form s) (mulAcc_ok h), ?_, ?_⟩,
    fun h => ⟨_, exec_of_ok (exec_unaryInstr .imul form s) (imulAcc_ok h), ?_, ?_⟩⟩
  · exact readPair_writeProduct_toNat _ _ _
  · rw [mulFlags_undefined, high_ne_zero]
  · exact readPair_writeProduct_toInt _ _ _
  · rw [mulFlags_undefined, not_fitsSigned]

/-! ### IMUL with two and three operands -/

theorem imulTo_toInt {w : Width} (r : Reg) {src1 src2 : Operand w} {s : State} {a b : BitVec w.bits}
    (h1 : src1.accessible s) (h2 : src2.accessible s) (ha : src1.value s = a) (hb : src2.value s = b) :
    imulTo r src1 src2 s =
      .ok ((s.regWrite r w (BitVec.ofInt w.bits (a.toInt * b.toInt))).withFlags
        { s.undefinedFlags with
          CF := decide (a.toInt * b.toInt < -2 ^ (w.bits - 1) ∨ 2 ^ (w.bits - 1) - 1 < a.toInt * b.toInt)
          OF := decide (a.toInt * b.toInt < -2 ^ (w.bits - 1) ∨
            2 ^ (w.bits - 1) - 1 < a.toInt * b.toInt) }).endDraws := by
  rw [imulTo_ok r h1 h2, ha, hb, mulFlags_undefined, not_fitsSigned]

/-- Settles O39: each form is the truncating multiply of its two operands, of which only r/m may be memory. -/
theorem truncatingMultiplyCompletes : Obligations.TruncatingMultiplyCompletes := fun _ _ r _ =>
  ⟨fun h => complete_ok (imulTo_toInt r (src1 := .reg r) trivial h rfl rfl),
    fun _ h => complete_ok (imulTo_toInt r (src2 := .imm _) h trivial rfl (BitVec.ofNat_toNat ..).symm),
    fun _ h => complete_ok (imulTo_toInt r (src2 := .imm _) h trivial rfl rfl)⟩

/-! ### DIV and IDIV -/

section divide
variable {w : Width} {src : Operand w} {s : State}

theorem divide_quotient {n d : Nat} (h : src.accessible s) (hn : (readPair w s).toNat = n)
    (hd : (src.value s).toNat = d) (h0 : d ≠ 0) (hq : n / d ≤ 2 ^ w.bits - 1) :
    divide src s = .ok (endDivide w (BitVec.ofNat w.bits (n / d)) (BitVec.ofNat w.bits (n % d)) s) := by
  rw [divide_ok h, hn, hd, if_neg (not_or.mpr ⟨h0, Nat.not_lt.mpr hq⟩)]

theorem divide_divideError {n d : Nat} (h : src.accessible s) (hn : (readPair w s).toNat = n)
    (hd : (src.value s).toNat = d) (hq : d = 0 ∨ 2 ^ w.bits - 1 < n / d) :
    divide src s = .error .divideError := by
  rw [divide_ok h, hn, hd, if_pos hq]

theorem idivide_quotient {n d : Int} (h : src.accessible s) (hn : (readPair w s).toInt = n)
    (hd : (src.value s).toInt = d) (h0 : d ≠ 0) (hl : -2 ^ (w.bits - 1) ≤ n.tdiv d)
    (hu : n.tdiv d ≤ 2 ^ (w.bits - 1) - 1) :
    idivide src s = .ok (endDivide w (BitVec.ofInt w.bits (n.tdiv d)) (BitVec.ofInt w.bits (n.tmod d)) s) := by
  have hfit : fitsSigned w.bits (n.tdiv d) = true := decide_eq_true ⟨hl, hu⟩
  rw [idivide_ok h, hn, hd, if_neg (not_or.mpr ⟨h0, by rw [hfit]; decide⟩), Int.tmod_def, Int.mul_comm d]

theorem idivide_divideError {n d : Int} (h : src.accessible s) (hn : (readPair w s).toInt = n)
    (hd : (src.value s).toInt = d)
    (hq : d = 0 ∨ n.tdiv d < -2 ^ (w.bits - 1) ∨ 2 ^ (w.bits - 1) - 1 < n.tdiv d) :
    idivide src s = .error .divideError := by
  have hfit : n.tdiv d < -2 ^ (w.bits - 1) ∨ 2 ^ (w.bits - 1) - 1 < n.tdiv d →
      fitsSigned w.bits (n.tdiv d) = false := fun ho => by
    rw [← Bool.not_eq_true', not_fitsSigned, decide_eq_true ho]
  rw [idivide_ok h, hn, hd, if_pos (hq.imp_right hfit)]

end divide

/-- Settles O40: the dividend is the pair as one number, and the two ends of a division have one equation each. -/
theorem divideCompletesOrFaults : Obligations.DivideCompletesOrFaults := fun form s =>
  ⟨fun h => ⟨
      fun h0 hq => exec_of_ok (exec_unaryInstr .div form s) (divide_quotient h (readPair_toNat ..) rfl h0 hq),
      fun hq => exec_of_error (exec_unaryInstr .div form s) (divide_divideError h (readPair_toNat ..) rfl hq)⟩,
    fun h => ⟨
      fun h0 hl hu =>
        exec_of_ok (exec_unaryInstr .idiv form s) (idivide_quotient h (readPair_toInt ..) rfl h0 hl hu),
      fun hq => exec_of_error (exec_unaryInstr .idiv form s) (idivide_divideError h (readPair_toInt ..) rfl hq)⟩⟩

end Sys2Proof.Machine
end

section
/-! PROOF. TEST (43_logical.md R358): each form is its handler on its two operands, and the flags are those of their AND. -/

namespace Sys2Proof.Machine

/-- The table of R358: each form is the test of its two operands. -/
theorem exec_testInstr (form : TestForm) (s : State) :
    exec form.instr s = complete form.instr (fun t => test (form.op1 t) form.op2 t) s := by
  cases form <;> rfl

/-- LogicFlags with each flag written out (40_alu_flags.md R201, R205). -/
theorem logicFlags_eq {n : Nat} (f : Flags) (r : BitVec n) :
    (logicFlags f r).2 =
      { f with CF := false, OF := false, SF := r.msb, ZF := decide (r.toNat = 0), PF := evenParity r } := by
  rw [logicFlags, Flags.szp_eq, BitVec.msb_eq_toInt]

/-- Settles O31: the shared test of the two operands, which writes LogicFlags of their AND. -/
theorem testCompletes : Obligations.TestCompletes := by
  intro form s t h1 h2 r
  rw [← logicFlags_eq]
  exact exec_of_ok (exec_testInstr form s) (test_ok h1 h2)

end Sys2Proof.Machine
end

section
/-! PROOF. The shifts (44_shifts.md R380 to R388): the result over the integers, the flags of R382 each written out, and
the 18 instructions as one handler on the table of R380. -/

namespace Sys2Proof.Machine

/-- The five-bit mask is a remainder (R381). -/
theorem toNat_maskedCount (count : Byte) : (count &&& 0x1F).toNat = count.toNat % 32 := by
  rw [BitVec.toNat_and]
  exact Nat.and_two_pow_sub_one_eq_mod count.toNat 5

/-- The table of R380: each form is the shift of its destination by its count. -/
theorem exec_shiftInstr (op : ShiftOp) (form : ShiftForm) (s : State) :
    exec (op.instr form) s = complete (op.instr form) (fun t => shift op (form.dst t) (form.count t) t) s := by
  cases op <;> cases form <;> rfl

section
variable {n : Nat}

/-- A shift to the left multiplies by a power of 2; one to the right divides by it, rounding toward minus infinity
(R384, R386, R388). -/
theorem ShiftOp.result_eq_value (op : ShiftOp) (a : BitVec n) (c : Nat) : op.result a c = op.value a c := by
  cases op with
  | shl =>
    apply BitVec.eq_of_toNat_eq
    rw [ShiftOp.result, ShiftOp.value, BitVec.toNat_shiftLeft, Nat.shiftLeft_eq, BitVec.toNat_ofNat]
  | shr =>
    have hlt : a.toNat / 2 ^ c < 2 ^ n := (Nat.div_le_self _ _).trans_lt a.isLt
    apply BitVec.eq_of_toNat_eq
    rw [ShiftOp.result, ShiftOp.value, BitVec.toNat_ushiftRight, Nat.shiftRight_eq_div_pow, BitVec.toNat_ofNat,
      Nat.mod_eq_of_lt hlt]
  | sar =>
    have hfloor : (a.sshiftRight c).toInt = a.toInt / 2 ^ c := by
      rw [BitVec.toInt_sshiftRight, Int.shiftRight_eq_div_pow, Nat.cast_pow, Nat.cast_ofNat]
    rw [ShiftOp.result, ShiftOp.value, ← hfloor, BitVec.ofInt_toInt]

/-- The flags of R382, from the bit that is CF and the bit that is OF after a shift by one place. -/
theorem ShiftOp.flags_eq {op : ShiftOp} {f u : Flags} {a : BitVec n} {c : Nat} {carry overflow : Bool}
    (hCF : (op.carry a c).getD u.CF = carry) (hOF : c = 1 → op.overflow1 a = overflow) :
    op.flags f u a c =
      { f with
        CF := carry, OF := if c = 1 then overflow else u.OF, AF := u.AF
        SF := (op.value a c).msb, ZF := decide ((op.value a c).toNat = 0), PF := evenParity (op.value a c) } := by
  have hOF' : (if c = 1 then op.overflow1 a else u.OF) = if c = 1 then overflow else u.OF :=
    ite_congr rfl hOF fun _ => rfl
  rw [ShiftOp.flags, op.result_eq_value, Flags.szp_eq, BitVec.msb_eq_toInt, hCF, hOF']

/-- The bit that a shift to the left by one place moves out is the sign bit (R382, R384). -/
theorem ShiftOp.overflow1_shl (a : BitVec n) (hn : 1 < n) (x : Bool) {c : Nat} (hc : c = 1) :
    ShiftOp.shl.overflow1 a = xor (ShiftOp.shl.value a c).msb (if c < n then a.getLsbD (n - c) else x) := by
  subst hc
  rw [if_pos hn, ← BitVec.msb_eq_getLsbD_last, ← ShiftOp.result_eq_value]
  rfl

end

/-- A shift by a count that is not 0 under the mask, as one write of the result and of the flags (R381, R382). -/
theorem shift_value {w : Width} {op : ShiftOp} {dst : Operand w} {count : Byte} {s : State} {carry overflow : Bool}
    (h : dst.accessible s) (hc : count.toNat % 32 ≠ 0)
    (hCF : (op.carry (dst.value s) (count.toNat % 32)).getD s.undefinedFlags.CF = carry)
    (hOF : count.toNat % 32 = 1 → op.overflow1 (dst.value s) = overflow) :
    shift op dst count s =
      .ok (dst.put (op.value (dst.value s) (count.toNat % 32)) (s.withFlags { s.flags with
        CF := carry, OF := if count.toNat % 32 = 1 then overflow else s.undefinedFlags.OF, AF := s.undefinedFlags.AF
        SF := (op.value (dst.value s) (count.toNat % 32)).msb
        ZF := decide ((op.value (dst.value s) (count.toNat % 32)).toNat = 0)
        PF := evenParity (op.value (dst.value s) (count.toNat % 32)) })).endDraws := by
  rw [← toNat_maskedCount] at hc hCF hOF ⊢
  rw [shift_ok op h hc, op.result_eq_value, ShiftOp.flags_eq hCF hOF]

/-- Settles O41: the shared shift on the table of R380; the operations differ only in the bits CF and OF take. -/
theorem shiftCompletes : Obligations.ShiftCompletes := by
  intro op form s t dst c a r n carry overflow
  have hCF : (op.carry a c).getD t.undefinedFlags.CF = carry := by
    cases op with
    | shl | shr => exact apply_ite (Option.getD · _) ..
    | sar => rfl
  have hOF : c = 1 → op.overflow1 a = overflow := fun h1 => by
    cases op with
    | shl =>
      have hn : 1 < n := by
        change 1 < form.width.bits
        cases form.width <;> decide
      exact ShiftOp.overflow1_shl a hn _ h1
    | shr | sar => rfl
  have he := exec_shiftInstr op form s
  exact ⟨fun h h0 => exec_of_ok he (shift_zero op h ((toNat_maskedCount _).trans h0)),
    fun h hc => exec_of_ok he (shift_value h hc hCF hOF),
    fun _ h => exec_of_error he (shift_error op _ h)⟩

end Sys2Proof.Machine
end

section
/-! PROOF. The call/return law (45_control.md R420): the `ret` of a callee pops the return address that the call
pushed. -/

namespace Sys2Proof.Machine

/-- The value of memory depends on its bytes alone (20_memory.md R84). -/
theorem State.peek_congr {s t : State} {a : Word} {w : Width}
    (h : ∀ k, k < w.bytes → t.mem.read (a.toNat + k) = s.mem.read (a.toNat + k)) : t.peek a w = s.peek a w := by
  have hr : t.mem.readBytes a.toNat w.bytes = s.mem.readBytes a.toNat w.bytes := by
    rw [Memory.readBytes_eq_map, Memory.readBytes_eq_map]
    exact List.map_congr_left fun k hk => h k (List.mem_range.mp hk)
  rw [State.peek, hr, State.peek]

section call
variable {i : Instr} {s : State}

/-- Both call forms push EIP_next and jump; they differ in the target alone (R410, R411). -/
theorem exec_call (hin : s.inBounds (s.regs.esp - 4) 4)
    (hi : (∃ p rel, i = .callRel32 p rel) ∨ ∃ p rm, i = .callEv p rm ∧ (rm.operand .dword s).accessible s) :
    ∃ target, exec i s =
      .next ((((s.atNext i).poke (s.regs.esp - 4) .dword (s.nextEip i)).withEsp (s.regs.esp - 4)).withEip target) := by
  rcases hi with ⟨p, rel, rfl⟩ | ⟨p, rm, rfl, hrm⟩
  · obtain ⟨hcall, _⟩ := callAndRetComplete p s
    exact ⟨_, (hcall rel).1 hin⟩
  · obtain ⟨_, hcall, _⟩ := callAndRetComplete p s
    exact ⟨_, (hcall rm).1 (RM.accessible_atNext _ hrm) hin⟩

/-- What a call leaves for the `ret` of its callee: EIP_next at the new ESP. -/
theorem exec_call_returnAddress (hw : s.mem.wf) (hin : s.inBounds (s.regs.esp - 4) 4)
    (hi : (∃ p rel, i = .callRel32 p rel) ∨ ∃ p rm, i = .callEv p rm ∧ (rm.operand .dword s).accessible s) :
    ∃ t, exec i s = .next t ∧ t.regs.esp = s.regs.esp - 4 ∧ t.mem.size = s.mem.size ∧
      t.peek t.regs.esp .dword = s.nextEip i := by
  obtain ⟨_, hcall⟩ := exec_call hin hi
  exact ⟨_, hcall, rfl, State.poke_mem_size (s.atNext i) _ .dword _,
    State.peek_poke (s := s.atNext i) hw (w := .dword) _ hin⟩

end call

/-- Settles O24: the later state has at ESP the four bytes that the call stored, so `ret` pops the pushed EIP_next. -/
theorem callThenRetReturns : Obligations.CallThenRetReturns := by
  intro s i q hw h4 hsz hi
  have hin : s.inBounds (s.regs.esp - 4) 4 := by rw [State.inBounds]; bv_omega
  obtain ⟨t, hcall, htesp, htsize, haddress⟩ := exec_call_returnAddress hw hin hi
  refine ⟨t, hcall, fun u hesp hsize hbytes => ?_⟩
  have hu : u.inBounds u.regs.esp 4 := by rwa [State.inBounds, hesp, htesp, hsize, htsize]
  obtain ⟨_, _, hret, _⟩ := callAndRetComplete q u
  refine ⟨_, (hret hu).1, ?_, ?_⟩
  · calc u.peek u.regs.esp .dword = u.peek t.regs.esp .dword := by rw [hesp]
      _ = t.peek t.regs.esp .dword := State.peek_congr (w := .dword) hbytes
      _ = s.nextEip i := haddress
  · calc u.regs.esp + 4 = s.regs.esp - 4 + 4 := by rw [hesp, htesp]
      _ = s.regs.esp := BitVec.sub_add_cancel ..

end Sys2Proof.Machine
end

section
/-! PROOF. The string moves (47_string.md R450 to R455): the loop of a rep string move is its single moves one after the
other, and a block whose elements all lie in memory is copied to its end. -/

namespace Sys2Proof.Machine

/-! ### The forms -/

/-- The table of R452, R454: each single string move is the move of one element of its width. -/
theorem exec_movs (w : Width) (p : Prefixes) (s : State) :
    exec (Width.movs w p) s = complete (Width.movs w p) (moveElement w) s := by
  cases w <;> rfl

/-- The table of R453: each rep string move is the loop over elements of its width. -/
theorem exec_repMovs (w : Width) (p : Prefixes) (s : State) :
    exec (Width.repMovs w p) s = repeatMove w (Width.repMovs w p) s := by
  cases w <;> rfl

/-! ### Moves one after the other -/

section moves
variable {w : Width} {s u v : State} {n : Nat}

/-- Moves in a row begin with one move. -/
theorem moveTimes_succ (h : moveTimes w (n + 1) s = .ok v) :
    ∃ t, moveElement w s = .ok t ∧ moveTimes w n (t.regWrite .ecx .dword (s.regs.ecx - 1)) = .ok v := by
  rw [moveTimes] at h
  cases hm : moveElement w s with
  | error k => rw [hm] at h; cases h
  | ok t => rw [hm] at h; exact ⟨t, rfl, h⟩

/-- Moves in a row end with one move. -/
theorem moveTimes_succ_last (h : moveTimes w (n + 1) s = .ok v) :
    ∃ u t, moveTimes w n s = .ok u ∧ moveElement w u = .ok t ∧ v = t.regWrite .ecx .dword (u.regs.ecx - 1) := by
  induction n generalizing s with
  | zero =>
    obtain ⟨t, ht, hv⟩ := moveTimes_succ h
    cases hv
    exact ⟨s, t, rfl, ht, rfl⟩
  | succ n ih =>
    obtain ⟨t, ht, hv⟩ := moveTimes_succ h
    obtain ⟨u, t', hu, ht', hv⟩ := ih hv
    refine ⟨u, t', ?_, ht', hv⟩
    rw [moveTimes, ht]
    exact hu

/-- The loop of R453 after some moves that do not fault goes on from their state. -/
theorem moveElements_add (h : moveTimes w n s = .ok u) (m : Nat) : moveElements w (n + m) s = moveElements w m u := by
  induction n generalizing s with
  | zero => cases h; rw [Nat.zero_add]
  | succ n ih =>
    obtain ⟨t, ht, hu⟩ := moveTimes_succ h
    rw [Nat.add_right_comm, moveElements, ht]
    exact ih hu

theorem repeatMove_ok (i : Instr) (h : moveTimes w s.regs.ecx.toNat s = .ok u) :
    repeatMove w i s = .next (u.atNext i) := by
  have hloop : moveElements w s.regs.ecx.toNat s = (u, none) := moveElements_add h 0
  rw [repeatMove, hloop]

/-- A move that faults ends the loop in the state before it (60_exceptions.md R525). -/
theorem repeatMove_error (i : Instr) {k : FaultKind} (hn : n < s.regs.ecx.toNat) (h : moveTimes w n s = .ok u)
    (hk : moveElement w u = .error k) : repeatMove w i s = .next (u.raise k) := by
  obtain ⟨m, hm⟩ := Nat.exists_eq_add_of_lt hn
  rw [repeatMove, hm, Nat.add_assoc, moveElements_add h, moveElements, hk]

/-- The first access of a move that leaves memory is its fault: the read, then the write (R451). -/
theorem moveElement_error {a : Word} (ha : a = s.regs.esi ∨ (s.inBounds s.regs.esi w.bytes ∧ a = s.regs.edi))
    (h : ¬ s.inBounds a w.bytes) : moveElement w s = .error (s.outOfBounds a w.bytes) := by
  rcases ha with rfl | ⟨hs, rfl⟩
  · exact moveElement_error_src h
  · exact moveElement_error_dst hs h

end moves

/-- Settles O46: each single move is the shared handler, and the loop follows the moves that do not fault. -/
theorem stringMovesComplete : Obligations.StringMovesComplete := by
  intro w p s
  have hone := exec_movs w p s
  refine ⟨fun hs hd => exec_of_ok hone (moveElement_ok hs hd), fun hs => exec_of_error hone (moveElement_error_src hs),
    fun hs hd => exec_of_error hone (moveElement_error_dst hs hd),
    fun u hu => (exec_repMovs w p s).trans (repeatMove_ok _ hu), fun m u a hm hu ha hout => ?_⟩
  obtain ⟨_, _, hecx, heip, _⟩ := moveTimes_ok hu
  refine ⟨(exec_repMovs w p s).trans (repeatMove_error _ hm hu (moveElement_error ha hout)), heip, ?_⟩
  have hm' : m < 2 ^ 32 := hm.trans s.regs.ecx.isLt
  rw [hecx, BitVec.toNat_sub_of_le (by bv_omega), BitVec.toNat_ofNat, Nat.mod_eq_of_lt hm']

/-! ### A block whose elements all lie in memory -/

section block
variable {w : Width} {s v : State} {n : Nat}

/-- A rep string move whose every access lies in memory moves all its elements (R455): a fault would need an element
outside. -/
theorem repeatMove_of_inBounds (i : Instr)
    (h : ∀ k, k < s.regs.ecx.toNat → s.inBounds (elementAddr w s.flags s.regs.esi k) w.bytes ∧
      s.inBounds (elementAddr w s.flags s.regs.edi k) w.bytes) :
    ∃ u, moveTimes w s.regs.ecx.toNat s = .ok u ∧ repeatMove w i s = .next (u.atNext i) := by
  rcases repeatMove_cases w i s with hok | ⟨m, u, k, hm, hu, hk, _⟩
  · exact hok
  · obtain ⟨hesi, hedi, _, _, _, hkept⟩ := moveTimes_ok hu
    obtain ⟨hs, hd⟩ := h m hm
    rw [State.inBounds, ← hkept.size] at hs hd
    rw [moveElement_ok (hesi ▸ hs) (hedi ▸ hd)] at hk
    cases hk

/-- Bytes at different steps of one block have different addresses: fewer than 2^32 lie between them. -/
theorem elementAddr_byte_ne (f : Flags) (x : Word) {i j : Nat} (hij : i < j) (hj : j < 2 ^ 32) :
    elementAddr .byte f x i ≠ elementAddr .byte f x j := by
  simp only [elementAddr, Width.bytes, Nat.mul_one]
  split <;> bv_omega

theorem State.peek_byte (s : State) (a : Word) : s.peek a .byte = s.mem.read a.toNat := by
  apply BitVec.eq_of_toNat_eq
  rw [State.peek_toNat, Memory.leValue_readBytes]
  simp [Width.bytes]

/-- A byte at another address than the byte stored is kept. -/
theorem State.poke_byte_read_ne (hw : s.mem.wf) {a b : Word} (x : Byte) (h : s.inBounds a 1) (hb : b ≠ a) :
    (s.poke a .byte x).mem.read b.toNat = s.mem.read b.toNat :=
  State.poke_read_outside (w := .byte) hw x h (by simp only [Width.bytes]; bv_omega)

/-- The bytes of a block are copied when no source is a destination (R455): the last move reads a byte that no move
before it stored, and stores one that no move before it did. -/
theorem moveTimes_byte_copies (hw : s.mem.wf) (hn : n ≤ 2 ^ 32) (hv : moveTimes .byte n s = .ok v)
    (hne : ∀ i j, i < n → j < n → elementAddr .byte s.flags s.regs.esi i ≠ elementAddr .byte s.flags s.regs.edi j) :
    ∀ i, i < n → v.mem.read (elementAddr .byte s.flags s.regs.edi i).toNat =
      s.mem.read (elementAddr .byte s.flags s.regs.esi i).toNat := by
  induction n generalizing v with
  | zero => exact fun i hi => absurd hi (Nat.not_lt_zero i)
  | succ n ih =>
    obtain ⟨u, t, hu, ht, rfl⟩ := moveTimes_succ_last hv
    obtain ⟨_, hd, rfl⟩ := moveStep_ok ht
    obtain ⟨hesi, hedi, _, _, _, hkept⟩ := moveTimes_ok hu
    have hwu := hkept.wf hw
    simp only [State.regWrite_mem]
    rw [hedi] at hd ⊢
    intro i hi
    rcases Nat.lt_succ_iff_lt_or_eq.mp hi with hlt | rfl
    · rw [State.poke_byte_read_ne hwu _ hd (elementAddr_byte_ne _ _ hlt hn)]
      exact ih (by omega) hu (fun i j hi hj => hne i j (by omega) (by omega)) i hlt
    · rw [← State.peek_byte, State.peek_poke hwu _ hd, State.peek_byte, hesi]
      refine hkept.mem hw _ fun e he => ?_
      obtain ⟨k, hk, rfl⟩ := List.mem_map.mp he
      have hik := hne i k hi (by have := List.mem_range.mp hk; omega)
      simp only [Width.bytes]
      bv_omega

end block

/-- Settles O47: the moves all complete, so the registers are those after ECX moves and, for bytes, the block is
copied. -/
theorem repMoveCopiesTheBlock : Obligations.RepMoveCopiesTheBlock := by
  intro w p s n src dst hw hin
  obtain ⟨u, hu, hrep⟩ := repeatMove_of_inBounds (Width.repMovs w p) hin
  obtain ⟨hesi, hedi, hecx, _⟩ := moveTimes_ok hu
  refine ⟨_, (exec_repMovs w p s).trans hrep, ?_, hesi, hedi, ?_⟩
  · calc u.regs.ecx = s.regs.ecx - BitVec.ofNat 32 s.regs.ecx.toNat := hecx
      _ = 0 := by rw [BitVec.ofNat_toNat, BitVec.setWidth_eq, BitVec.sub_self]; rfl
  · rintro rfl hne
    exact moveTimes_byte_copies (v := u) hw s.regs.ecx.isLt.le hu hne

end Sys2Proof.Machine
end

section
/-! PROOF. Faults are precise, terminal and of the kinds their instructions raise (60_exceptions.md R521, R525): each end of
an instruction that `exec_cases` lists is read for its outcome. -/

namespace Sys2Proof.Machine

/-- The fault of a rep string move in the state after some of its moves: the one fault that leaves another state than the
one before the instruction (R525). -/
def FaultsAfterMoves (i : Instr) (s t : State) (k : FaultKind) : Prop :=
  ∃ w p m u, i = Width.repMovs w p ∧ m < s.regs.ecx.toNat ∧ moveTimes w m s = .ok u ∧ u.eip = s.eip ∧ t = u.raise k

theorem State.eq_of_raise_outcome {s : State} {j k : FaultKind} {e : Option Word}
    (h : (s.raise j).outcome = some (.fault k e)) : j = k := by
  cases h
  rfl

theorem one_mem_faultCodes_repMovs (w : Width) (p : Prefixes) : 1 ∈ (Width.repMovs w p).faultCodes := by
  cases w <;> exact one_mem

/-- The gate goes on or exits; its faults leave no state of their own. -/
theorem GateKept.outcome_ne_fault {s t : State} (hk : GateKept s t) (hs : s.outcome = none) (k : FaultKind)
    (e : Option Word) : t.outcome ≠ some (.fault k e) := by
  rcases hk.run with ⟨_, ho, _⟩ | ⟨_, rfl⟩
  · simp [ho, hs]
  · simp [State.exit]

/-- What an instruction that ends in a fault has done: nothing, or some moves of a rep string move. -/
theorem exec_fault_cases {i : Instr} {s t : State} {k : FaultKind} {e : Option Word} (hs : s.outcome = none)
    (he : exec i s = .next t) (ht : t.outcome = some (.fault k e)) :
    k.code ∈ i.faultCodes ∧ (t = s.raise k ∨ FaultsAfterMoves i s t k) := by
  rcases exec_cases i s with
    ⟨u, hu, hk⟩ | ⟨j, hu, hj⟩ | ⟨w, p, m, u, j, rfl, hm, hmoves, heip, hj, hu, _⟩ | ⟨_, u, _, hu, hk⟩ <;>
    cases hu.symm.trans he
  · rw [hk.outcome, hs] at ht
    cases ht
  · cases State.eq_of_raise_outcome ht
    exact ⟨hj, .inl rfl⟩
  · cases State.eq_of_raise_outcome ht
    exact ⟨hj ▸ one_mem_faultCodes_repMovs w p, .inr ⟨w, p, m, u, rfl, hm, hmoves, heip, rfl⟩⟩
  · exact absurd ht (hk.outcome_ne_fault hs k e)

/-- Settles O56: `exec_fault_cases`; a step that runs no instruction raises the fault of its fetch or changes nothing. -/
theorem faultsArePrecise : Obligations.FaultsArePrecise := by
  refine ⟨fun i s t k e hs he ht => (exec_fault_cases hs he ht).2, fun s t k e hs he ht => ?_⟩
  obtain ⟨_, hi | ⟨j, rfl⟩ | ⟨_, rfl⟩⟩ := step_cases s t he
  · exact .inl hi
  · cases State.eq_of_raise_outcome ht
    exact .inr rfl
  · rw [hs] at ht
    cases ht

/-- Settles O58: the other half of `exec_fault_cases`. -/
theorem faultsComeFromTheirInstructions : Obligations.FaultsComeFromTheirInstructions :=
  fun _ _ _ _ _ hs he ht => (exec_fault_cases hs he ht).1

end Sys2Proof.Machine
end

section
/-! PROOF. The syscall gate (49_syscall.md R490 to R503): EAX selects the operation, EBX the stream, and each operation has
one equation for each of its ends. -/

namespace Sys2Proof.Machine

/-! ### Descriptors (R494) -/

theorem Fd.ofWord?_of_toNat_eq {v : Word} {fd : Fd} (h : v.toNat = fd.toNat) : Fd.ofWord? v = some fd := by
  rw [Fd.ofWord?, h]
  cases fd <;> rfl

theorem Fd.ofWord?_of_two_lt {v : Word} (h : 2 < v.toNat) : Fd.ofWord? v = none := by
  rw [Fd.ofWord?]
  split
  · omega
  · omega
  · omega
  · rfl

/-! ### The number selects (R491) -/

theorem exec_int80 (p : Prefixes) (s : State) : exec (.int80 p) s = complete (.int80 p) syscallGate s := rfl

section gate
variable {s : State}

theorem syscallGate_exit (h : s.regs.eax = 1) : syscallGate s = .ok (s.exit (s.regs.ebx.extractLsb' 0 8)) := by
  rw [syscallGate, h, ← BitVec.setWidth_eq_extractLsb' (by decide)]
  rfl

theorem syscallGate_read (h : s.regs.eax = 3) : syscallGate s = sysRead s := by
  rw [syscallGate, h]
  rfl

theorem syscallGate_write (h : s.regs.eax = 4) : syscallGate s = sysWrite s := by
  rw [syscallGate, h]
  rfl

theorem syscallGate_unsupported (h1 : s.regs.eax ≠ 1) (h3 : s.regs.eax ≠ 3) (h4 : s.regs.eax ≠ 4) :
    syscallGate s = .error (.unsupportedSyscall s.regs.eax) := by
  rcases syscallGate_cases s with ⟨h, _⟩ | ⟨h, _⟩ | ⟨h, _⟩ | ⟨_, _, _, h⟩
  · exact absurd h h1
  · exact absurd h h3
  · exact absurd h h4
  · exact h

/-- Settles O49: exit, the refusal of the number and the refusal of the descriptor each have one equation. -/
theorem syscallExitAndRefusals : Obligations.SyscallExitAndRefusals := by
  intro p s t
  refine ⟨fun h1 => ?_, fun h1 h3 h4 => ?_, fun h hebx => ?_⟩
  · exact exec_of_ok (exec_int80 p s) (syscallGate_exit (s := t) h1)
  · exact exec_of_error (exec_int80 p s) (syscallGate_unsupported (s := t) h1 h3 h4)
  · have hfd : Fd.ofWord? t.regs.ebx = none := Fd.ofWord?_of_two_lt hebx
    rcases h with h3 | h4
    · exact exec_of_ok (exec_int80 p s) ((syscallGate_read (s := t) h3).trans (sysRead_badFd hfd))
    · exact exec_of_ok (exec_int80 p s) ((syscallGate_write (s := t) h4).trans (sysWrite_badFd hfd))

/-! ### Transactions (R495, R497, R499) -/

/-- A listed read answer is given, cut to the count. -/
theorem State.hostRead_of_listed {fd : Fd} {count : Nat} {a : ReadAnswer} (h : s.readAnswers.head? = some a) :
    (s.hostRead fd count).1 = a.limit count := by
  obtain ⟨rest, hs⟩ := List.head?_eq_some_iff.mp h
  rw [State.hostRead, hs]

/-- A listed write answer is given. -/
theorem State.hostWrite_of_listed {fd : Fd} {bs : List Byte} {a : WriteAnswer} (h : s.writeAnswers.head? = some a) :
    (s.hostWrite fd bs).1 = a := by
  obtain ⟨rest, hs⟩ := List.head?_eq_some_iff.mp h
  rw [State.hostWrite, hs]

/-- Both answers of the host to a `write` in one equation. -/
theorem sysWrite_answered {fd : Fd} (hfd : Fd.ofWord? s.regs.ebx = some fd)
    (hb : s.inBounds s.regs.ecx s.regs.edx.toNat) :
    let transaction := s.hostWrite fd (s.mem.readBytes s.regs.ecx.toNat s.regs.edx.toNat)
    sysWrite s = .ok (transaction.2.withEax (if transaction.1 = .ok then s.regs.edx else 0xFFFFFFFF)) := by
  intro transaction
  cases ha : transaction.1 with
  | ok => exact sysWrite_ok hfd hb ha
  | ioError => exact sysWrite_ioError hfd hb ha

end gate

/-- Settles O50: the buffer is outside memory, or the host's answer decides between the two ends of `sysRead`. -/
theorem syscallReadCompletes : Obligations.SyscallReadCompletes := by
  intro p s fd h3 hebx t count
  have hgate : syscallGate t = sysRead t := syscallGate_read h3
  have hfd : Fd.ofWord? t.regs.ebx = some fd := Fd.ofWord?_of_toNat_eq hebx
  refine ⟨fun hb => exec_of_error (exec_int80 p s) (hgate.trans (sysRead_bounds hfd hb)), fun hb => ?_⟩
  refine ⟨(t.hostRead fd count).1, fun a ha => State.hostRead_of_listed ha, ?_⟩
  split
  next bs ha =>
    exact ⟨State.hostRead_length ha, exec_of_ok (exec_int80 p s) (hgate.trans (sysRead_data hfd hb ha))⟩
  next ha => exact exec_of_ok (exec_int80 p s) (hgate.trans (sysRead_ioError hfd hb ha))

/-- Settles O51: the buffer is outside memory, or `sysWrite` sends the bytes read from it. -/
theorem syscallWriteCompletes : Obligations.SyscallWriteCompletes := by
  intro p s fd h4 hebx t count bs
  have hgate : syscallGate t = sysWrite t := syscallGate_write h4
  have hfd : Fd.ofWord? t.regs.ebx = some fd := Fd.ofWord?_of_toNat_eq hebx
  have hbs : bs = t.mem.readBytes t.regs.ecx.toNat count := (Memory.readBytes_eq_map ..).symm
  refine ⟨fun hb => exec_of_error (exec_int80 p s) (hgate.trans (sysWrite_bounds hfd hb)), fun hb => ?_⟩
  rw [hbs]
  exact ⟨_, fun a ha => State.hostWrite_of_listed ha,
    exec_of_ok (exec_int80 p s) (hgate.trans (sysWrite_answered hfd hb))⟩

end Sys2Proof.Machine
end

section
/-! PROOF. The flag instructions and `nop` (48_flags_misc.md R470 to R479). -/

namespace Sys2Proof.Machine

/-- Settles O48: each handler only sets its flag, and each encoding is the prefixes and one opcode byte, well formed under
any prefixes. -/
theorem flagInstructionsComplete : Obligations.FlagInstructionsComplete := by
  intro p s after
  refine ⟨rfl, rfl, rfl, rfl, rfl, rfl, rfl, rfl, ?_, ?_, ?_, ?_, ?_, ?_, ?_, ?_⟩ <;> exact decode_of_encode rfl rfl

end Sys2Proof.Machine
end

section
/-! PROOF. The invariant at the first instruction (70_reset_and_hazards.md R570 to R575): construction establishes it, and a
load that fits and one that does not both keep it. -/

namespace Sys2Proof.Machine

theorem Loader.construct_inv {size : Nat} (gpr : Regs) (flags : Flags) (reads : List ReadAnswer)
    (writes : List WriteAnswer) (h1 : 1 ≤ size) (h2 : size ≤ 2 ^ 32) :
    (Loader.construct size gpr flags reads writes).Inv where
  memory := Memory.wf_empty size
  size := ⟨h1, h2⟩
  running := by simp [Loader.construct]
  exited := by simp [Loader.construct]
  notExited := fun _ => rfl

theorem Loader.load_inv {s : State} (h : s.Inv) (hr : s.run = .running) (image : List Byte) (offset : Word) :
    (Loader.load image offset s).Inv := by
  rcases Nat.lt_or_ge s.mem.size (offset.toNat + image.length) with hn | hf
  · rw [Loader.load_too_long image offset s hn]
    exact ⟨h.memory, h.size, by simp, by simp, fun _ => h.notExited (by simp [h.running.mp hr])⟩
  · rw [Loader.load_fits image offset s hf]
    exact h.congr (Memory.wf_writeBytes h.memory hf) (Memory.writeBytes_size ..) rfl rfl rfl

/-- Reset is the boot of an empty image in a memory of the model's own size (log entry 3). -/
theorem State.reset_eq_boot :
    State.reset =
      Loader.boot Config.resetMemSize [] Config.resetLoadOffset State.reset.regs State.reset.flags [] [] := rfl

/-- Every boot of a memory of a legal size is a construction and a load (R570, R571, R575). -/
theorem Loader.boot_inv {size : Nat} (h1 : 1 ≤ size) (h2 : size ≤ 2 ^ 32) (image : List Byte) (offset : Word) (gpr : Regs)
    (flags : Flags) (reads : List ReadAnswer) (writes : List WriteAnswer) :
    (Loader.boot size image offset gpr flags reads writes).Inv :=
  Loader.load_inv (Loader.construct_inv gpr flags reads writes h1 h2) rfl image offset

/-- Settles O17: `State.reset_eq_boot` and `Loader.boot_inv`. -/
theorem invariantHoldsAtTheStart : Obligations.InvariantHoldsAtTheStart := by
  refine ⟨?_, fun _ image offset gpr flags reads writes h1 h2 => Loader.boot_inv h1 h2 image offset gpr flags reads writes⟩
  rw [State.reset_eq_boot]
  exact Loader.boot_inv (by decide) (by decide) ..

end Sys2Proof.Machine
end
